-- ==== Sys2Proof/Word.lean ====
section
/-! DEFINITION. The two bit-vector types of JXO-TX: a register, command or sample word (10_state.md R20,
20_memory.md R53) and one byte of the sample-memory window (20_memory.md R52). -/

namespace Sys2Proof

/-- A 32-bit register, command word or sample word. -/
abbrev Word := BitVec 32

/-- One byte of the sample-memory window. -/
abbrev Byte := BitVec 8

end Sys2Proof
end

