-- ==== Sys2Proof/Config.lean ====
section
/-! DEFINITION. What an instance of JXO-TX fixes (00_scope.md R7), and the values the spec leaves open.
The parameters are plain data held in `State.params`: no step changes them, so a statement about every state is a
statement about every build (notes/assumptions/1.md). The open values are constants without a body. -/

namespace Sys2Proof

/-- `ALIGN_BYTES` of R7: 32 on wide-vector targets, 4 (no constraint) otherwise. -/
inductive Alignment where
  | wide32
  | word4
deriving DecidableEq, Repr

/-- `NUMERICS` of R7: the reference instance `REF` of 41_dct1d.md R130 to R137, or an instance of which only the laws
of R124 to R129 are known (notes/assumptions/2.md). -/
inductive Numerics where
  | ref
  | unspecified
deriving DecidableEq, Repr

/-- `COEFF_LAYOUT` of R7 (43_dispatch.md R179). -/
inductive CoeffLayout where
  | natural
  | longAxisRows
deriving DecidableEq, Repr

/-- The implementation parameters of R7 that an instance may choose. -/
structure Params where
  /-- `SRAM_WORDS = 2 ^ log2SramWords`. -/
  log2SramWords : Nat
  /-- `ALIGN_BYTES`. -/
  alignment : Alignment
  /-- `NUMERICS`. -/
  numerics : Numerics
  /-- `AFV_BASIS`, row by row (256 words), where the instance's basis is known; `none` where it is left open. -/
  afvBasis : Option (List Word)
  /-- `TT_DIMS`: (width, height) of tag 0, 1, 2, … 26. -/
  ttDims : List (Nat × Nat)
  /-- `HORNUSS_SUM_EXCLUDES_5`. -/
  hornussSumExcludes5 : Bool
  /-- `COEFF_LAYOUT`. -/
  coeffLayout : CoeffLayout
  /-- `DCT_EPS`, the accuracy bound of `NUMERICS` (41_dct1d.md R127). -/
  dctEps : Rat
deriving DecidableEq, Repr

/-- `NMAX`, the largest 1-D length (R7, decision D16). -/
def Config.nmax : Nat := 256

/-- log2 of `NMAX`, as CFG reports it (10_state.md R38). -/
def Config.log2Nmax : Nat := 8

/-- `NDESC`, fixed by the 4-bit DA field (R7, decision D8). -/
def Config.ndesc : Nat := 16

/-- `SCRATCH_WORDS = NMAX * NMAX` (R7, decision D17). -/
def Config.scratchWords : Nat := 65536

/-- Size of the register window in bytes (10_state.md R20). -/
def Config.registerBytes : Nat := 4096

/-- `REG_BASE` (R7, OPEN): the host byte address of the register window, the platform's choice (decision D6;
notes/assumptions/7.md). -/
opaque Config.regBase : Nat

/-- `SRAM_BASE` (R7, OPEN): the host byte address of the sample-memory window, the platform's choice (decision D6;
notes/assumptions/7.md). -/
opaque Config.sramBase : Nat

/-- The three f32 operations of 41_dct1d.md R138, as names for the NaN they may produce. -/
inductive FOp where
  | add
  | sub
  | mul
deriving DecidableEq, Repr

/-- OPEN VALUE: the byte at a byte address of sample memory after the n-th power-on or hard reset
(70_reset_and_hazards.md R250: "each word an arbitrary 32-bit value, drawn independently"; notes/assumptions/3.md). -/
opaque Config.powerOnByte : Nat → Nat → Byte

/-- OPEN VALUE: a byte of the write set of the n-th command abandoned by a reset (70_reset_and_hazards.md R252;
notes/assumptions/4.md). -/
opaque Config.abandonedByte : Nat → Nat → Byte

/-- OPEN VALUE: sign and payload of the quiet NaN an operation gives (41_dct1d.md R138; notes/assumptions/5.md). -/
opaque Config.nanBits : FOp → Word → Word → Bool × BitVec 22

/-- OPEN VALUE: output k of the length-n transform (inverse or forward) of the given input words under an instance of
`NUMERICS` other than `REF`, for n >= 4 (41_dct1d.md R123; notes/assumptions/2.md). -/
opaque Config.transformOutput : Bool → Nat → List Word → Nat → Word

/-- OPEN VALUE: sign and magnitude bits of entry (j, i) of `AFV_BASIS` where the instance's basis is not known; finite
by its type (43_dispatch.md R174; notes/assumptions/6.md). -/
opaque Config.afvEntry : Nat → Nat → Bool × Fin 0x7F800000

end Sys2Proof
end

