-- ==== Sys2Proof/Syntax.lean ====
section
/-! DEFINITION. The commands of JXO-TX, one constructor per row of spec/opcode_table.json (30_encoding.md R79, R86).
The operands ARG0 to ARG5 are registers, not part of the command word (30_encoding.md R76), so a constructor holds only
the fields the word encodes: the slot DA and, where a row leaves tag bits free, the tag TT. -/

namespace Sys2Proof

/-- A descriptor slot, the 4-bit field DA (30_encoding.md R74). -/
abbrev Slot := Fin 16

/-- A decoded command. -/
inductive Instr where
  /-- GRID_NEW: create a zero-initialised, aligned grid in slot `d` (40_grid.md R91). -/
  | gridNew (d : Slot)
  /-- VIEW_NEW: create a windowed view in slot `d` (40_grid.md R93). -/
  | viewNew (d : Slot)
  /-- GET: read one sample of descriptor `d` into RDATA (40_grid.md R94). -/
  | getSample (d : Slot)
  /-- SET: write one sample of descriptor `d` (40_grid.md R95). -/
  | setSample (d : Slot)
  /-- SWAP: exchange two samples of descriptor `d` (40_grid.md R96). -/
  | swap (d : Slot)
  /-- WIDEN_Q: is lane widening available for descriptor `d` (40_grid.md R97). -/
  | widenQ (d : Slot)
  /-- FREE: clear slot `d` (40_grid.md R98). -/
  | free (d : Slot)
  /-- DCT1D: forward 1-D transform (41_dct1d.md R139). -/
  | dct1d
  /-- IDCT1D: inverse 1-D transform (41_dct1d.md R140). -/
  | idct1d
  /-- DCT2D: forward 2-D transform of descriptor `d` in place (42_dct2d.md R153). -/
  | dct2d (d : Slot)
  /-- IDCT2D: inverse 2-D transform of descriptor `d` in place (42_dct2d.md R154). -/
  | idct2d (d : Slot)
  /-- ITX.DCT8 (TT = 0): general inverse transform of block `d`, 8 wide and 8 high by default (43_dispatch.md R180). -/
  | itxDct8 (d : Slot)
  /-- ITX.HORNUSS (TT = 1): fixed 8 x 8 inverse transform of block `d` (43_dispatch.md R171). -/
  | itxHornuss (d : Slot)
  /-- ITX.DCT2 (TT = 2): fixed 8 x 8 inverse transform of block `d` (43_dispatch.md R169). -/
  | itxDct2 (d : Slot)
  /-- ITX.DCT4 (TT = 3): fixed 8 x 8 inverse transform of block `d` (43_dispatch.md R170). -/
  | itxDct4 (d : Slot)
  /-- ITX.DCT16 (TT = 4): general inverse transform of block `d`, 16 wide and 16 high by default (43_dispatch.md R181). -/
  | itxDct16 (d : Slot)
  /-- ITX.DCT32 (TT = 5): general inverse transform of block `d`, 32 wide and 32 high by default (43_dispatch.md R182). -/
  | itxDct32 (d : Slot)
  /-- ITX.DCT16X8 (TT = 6): general inverse transform of block `d`, 8 wide and 16 high by default (43_dispatch.md R183). -/
  | itxDct16X8 (d : Slot)
  /-- ITX.DCT8X16 (TT = 7): general inverse transform of block `d`, 16 wide and 8 high by default (43_dispatch.md R184). -/
  | itxDct8X16 (d : Slot)
  /-- ITX.DCT32X8 (TT = 8): general inverse transform of block `d`, 8 wide and 32 high by default (43_dispatch.md R185). -/
  | itxDct32X8 (d : Slot)
  /-- ITX.DCT8X32 (TT = 9): general inverse transform of block `d`, 32 wide and 8 high by default (43_dispatch.md R186). -/
  | itxDct8X32 (d : Slot)
  /-- ITX.DCT32X16 (TT = 10): general inverse transform of block `d`, 16 wide and 32 high by default (43_dispatch.md R187). -/
  | itxDct32X16 (d : Slot)
  /-- ITX.DCT16X32 (TT = 11): general inverse transform of block `d`, 32 wide and 16 high by default (43_dispatch.md R188). -/
  | itxDct16X32 (d : Slot)
  /-- ITX.DCT4X8 (TT = 12): fixed 8 x 8 inverse transform of block `d` (43_dispatch.md R172). -/
  | itxDct4X8 (d : Slot)
  /-- ITX.DCT8X4 (TT = 13): fixed 8 x 8 inverse transform of block `d` (43_dispatch.md R173). -/
  | itxDct8X4 (d : Slot)
  /-- ITX.AFV0 (TT = 14): fixed 8 x 8 inverse transform of block `d` (43_dispatch.md R175). -/
  | itxAfv0 (d : Slot)
  /-- ITX.AFV1 (TT = 15): fixed 8 x 8 inverse transform of block `d` (43_dispatch.md R176). -/
  | itxAfv1 (d : Slot)
  /-- ITX.AFV2 (TT = 16): fixed 8 x 8 inverse transform of block `d` (43_dispatch.md R177). -/
  | itxAfv2 (d : Slot)
  /-- ITX.AFV3 (TT = 17): fixed 8 x 8 inverse transform of block `d` (43_dispatch.md R178). -/
  | itxAfv3 (d : Slot)
  /-- ITX.DCT64 (TT = 18): general inverse transform of block `d`, 64 wide and 64 high by default (43_dispatch.md R189). -/
  | itxDct64 (d : Slot)
  /-- ITX.DCT64X32 (TT = 19): general inverse transform of block `d`, 32 wide and 64 high by default (43_dispatch.md R190). -/
  | itxDct64X32 (d : Slot)
  /-- ITX.DCT32X64 (TT = 20): general inverse transform of block `d`, 64 wide and 32 high by default (43_dispatch.md R191). -/
  | itxDct32X64 (d : Slot)
  /-- ITX.DCT128 (TT = 21): general inverse transform of block `d`, 128 wide and 128 high by default (43_dispatch.md R192). -/
  | itxDct128 (d : Slot)
  /-- ITX.DCT128X64 (TT = 22): general inverse transform of block `d`, 64 wide and 128 high by default (43_dispatch.md R193). -/
  | itxDct128X64 (d : Slot)
  /-- ITX.DCT64X128 (TT = 23): general inverse transform of block `d`, 128 wide and 64 high by default (43_dispatch.md R194). -/
  | itxDct64X128 (d : Slot)
  /-- ITX.DCT256 (TT = 24): general inverse transform of block `d`, 256 wide and 256 high by default (43_dispatch.md R195). -/
  | itxDct256 (d : Slot)
  /-- ITX.DCT256X128 (TT = 25): general inverse transform of block `d`, 128 wide and 256 high by default (43_dispatch.md R196). -/
  | itxDct256X128 (d : Slot)
  /-- ITX.DCT128X256 (TT = 26): general inverse transform of block `d`, 256 wide and 128 high by default (43_dispatch.md R197). -/
  | itxDct128X256 (d : Slot)
  /-- ITX with the unsupported tag 27 on slot `d` (43_dispatch.md R198). -/
  | itxUnsupported27 (d : Slot)
  /-- ITX with an unsupported tag `tt` in 28 to 31 on slot `d` (43_dispatch.md R198). -/
  | itxUnsupported28_31 (d : Slot) (tt : Fin 32)
deriving DecidableEq, Repr

end Sys2Proof
end

