-- ==== Sys2Proof/WellFormed.lean ====
section
/-! DEFINITION. Which terms of `Instr` are commands a word can encode. Slots are bounded by their type; the one check
left is that the row ITX.UNSUPPORTED28_31 stands for tags 28 to 31 only (43_dispatch.md R198). -/

namespace Sys2Proof

/-- The command is one that a legal command word encodes (30_encoding.md R80, R82). -/
def Instr.wellFormed : Instr → Bool
  | .gridNew _ => true
  | .viewNew _ => true
  | .getSample _ => true
  | .setSample _ => true
  | .swap _ => true
  | .widenQ _ => true
  | .free _ => true
  | .dct1d => true
  | .idct1d => true
  | .dct2d _ => true
  | .idct2d _ => true
  | .itxDct8 _ => true
  | .itxHornuss _ => true
  | .itxDct2 _ => true
  | .itxDct4 _ => true
  | .itxDct16 _ => true
  | .itxDct32 _ => true
  | .itxDct16X8 _ => true
  | .itxDct8X16 _ => true
  | .itxDct32X8 _ => true
  | .itxDct8X32 _ => true
  | .itxDct32X16 _ => true
  | .itxDct16X32 _ => true
  | .itxDct4X8 _ => true
  | .itxDct8X4 _ => true
  | .itxAfv0 _ => true
  | .itxAfv1 _ => true
  | .itxAfv2 _ => true
  | .itxAfv3 _ => true
  | .itxDct64 _ => true
  | .itxDct64X32 _ => true
  | .itxDct32X64 _ => true
  | .itxDct128 _ => true
  | .itxDct128X64 _ => true
  | .itxDct64X128 _ => true
  | .itxDct256 _ => true
  | .itxDct256X128 _ => true
  | .itxDct128X256 _ => true
  | .itxUnsupported27 _ => true
  | .itxUnsupported28_31 _ tt => decide (28 ≤ tt.val)

end Sys2Proof
end

