-- ==== Sys2Proof/Decode.lean ====
section
/-! DEFINITION. The command word (30_encoding.md R70 to R83): its fields, the decoder (total on every word, rejecting by
name), the encoder, and the match and mask columns of spec/opcode_table.json. -/

namespace Sys2Proof

/-! ### Fields of the command word (R70) -/

/-- OPC = bits 5:0 (R71). -/
def opcOf (w : Word) : Nat := w.toNat % 64

/-- INV = bit 6 (R72). -/
def invOf (w : Word) : Nat := w.toNat / 64 % 2

/-- DA = bits 11:8 (R74). -/
def slotOf (w : Word) : Slot := ⟨w.toNat / 256 % 16, Nat.mod_lt _ (by decide)⟩

/-- TT = bits 20:16 (R75). -/
def tagOf (w : Word) : Fin 32 := ⟨w.toNat / 65536 % 32, Nat.mod_lt _ (by decide)⟩

/-- The reserved bits 7, 15:12 and 31:21 are 0 (R73). -/
def reservedClear (w : Word) : Bool :=
  w.toNat / 128 % 2 == 0 && w.toNat / 4096 % 16 == 0 && w.toNat / 2097152 == 0

/-! ### The decoder -/

/-- Why a word is no legal command: the three faults of 60_exceptions.md R222. -/
inductive IllegalWord where
  /-- A reserved bit is set (R73). -/
  | reservedBit
  /-- The OPC value is not assigned (R79, R81). -/
  | unassignedOpcode
  /-- A field the command does not use is nonzero (R80). -/
  | unusedField
deriving DecidableEq, Repr

/-- What the decoder makes of a word. -/
inductive Decoded where
  | instr (i : Instr)
  | rejected (why : IllegalWord)
deriving DecidableEq, Repr

/-- The ITX command of a tag (R86). -/
def itxOf (tt : Fin 32) (d : Slot) : Instr :=
  match tt.val with
  | 0 => .itxDct8 d
  | 1 => .itxHornuss d
  | 2 => .itxDct2 d
  | 3 => .itxDct4 d
  | 4 => .itxDct16 d
  | 5 => .itxDct32 d
  | 6 => .itxDct16X8 d
  | 7 => .itxDct8X16 d
  | 8 => .itxDct32X8 d
  | 9 => .itxDct8X32 d
  | 10 => .itxDct32X16 d
  | 11 => .itxDct16X32 d
  | 12 => .itxDct4X8 d
  | 13 => .itxDct8X4 d
  | 14 => .itxAfv0 d
  | 15 => .itxAfv1 d
  | 16 => .itxAfv2 d
  | 17 => .itxAfv3 d
  | 18 => .itxDct64 d
  | 19 => .itxDct64X32 d
  | 20 => .itxDct32X64 d
  | 21 => .itxDct128 d
  | 22 => .itxDct128X64 d
  | 23 => .itxDct64X128 d
  | 24 => .itxDct256 d
  | 25 => .itxDct256X128 d
  | 26 => .itxDct128X256 d
  | 27 => .itxUnsupported27 d
  | _ => .itxUnsupported28_31 d tt

/-- A command that uses DA but neither INV nor TT (R80). -/
def decodeSlotOnly (w : Word) (mk : Slot → Instr) : Decoded :=
  if invOf w ≠ 0 ∨ (tagOf w).val ≠ 0 then .rejected .unusedField else .instr (mk (slotOf w))

/-- The decoder (R70 to R83, 60_exceptions.md R222): the same word always decodes alike, in every mode (R83). -/
def decode (w : Word) : Decoded :=
  if reservedClear w = false then .rejected .reservedBit
  else match opcOf w with
    | 0x01 => decodeSlotOnly w .gridNew
    | 0x02 => decodeSlotOnly w .viewNew
    | 0x03 => decodeSlotOnly w .getSample
    | 0x04 => decodeSlotOnly w .setSample
    | 0x05 => decodeSlotOnly w .swap
    | 0x06 => decodeSlotOnly w .widenQ
    | 0x07 => decodeSlotOnly w .free
    | 0x08 =>
      if (slotOf w).val ≠ 0 ∨ (tagOf w).val ≠ 0 then .rejected .unusedField
      else .instr (if invOf w = 0 then .dct1d else .idct1d)
    | 0x09 =>
      if (tagOf w).val ≠ 0 then .rejected .unusedField
      else .instr (if invOf w = 0 then .dct2d (slotOf w) else .idct2d (slotOf w))
    | 0x0A => if invOf w ≠ 0 then .rejected .unusedField else .instr (itxOf (tagOf w) (slotOf w))
    | _ => .rejected .unassignedOpcode

/-- The instruction the decoder reads from a table row's word: JXO-TX has one command format of exactly one 32-bit word
(R70), so the bits above `nbits` are 0 and there are no operand words. -/
def decodeTableWord (nbits w : Nat) : Option Instr :=
  match decode (BitVec.ofNat 32 (w % 2 ^ nbits)) with
  | .instr i => some i
  | .rejected _ => none

/-! ### The encoder -/

/-- A command word from its fields OPC, INV, DA and TT, reserved bits 0 (R70). -/
def commandWord (opc inv da tt : Nat) : Word := BitVec.ofNat 32 (opc + 64 * inv + 256 * da + 65536 * tt)

/-- The word of a well-formed command (R70, R79, R86). -/
def encode : Instr → Word
  | .gridNew d => commandWord 0x01 0 d.val 0
  | .viewNew d => commandWord 0x02 0 d.val 0
  | .getSample d => commandWord 0x03 0 d.val 0
  | .setSample d => commandWord 0x04 0 d.val 0
  | .swap d => commandWord 0x05 0 d.val 0
  | .widenQ d => commandWord 0x06 0 d.val 0
  | .free d => commandWord 0x07 0 d.val 0
  | .dct1d => commandWord 0x08 0 0 0
  | .idct1d => commandWord 0x08 1 0 0
  | .dct2d d => commandWord 0x09 0 d.val 0
  | .idct2d d => commandWord 0x09 1 d.val 0
  | .itxDct8 d => commandWord 0x0A 0 d.val 0
  | .itxHornuss d => commandWord 0x0A 0 d.val 1
  | .itxDct2 d => commandWord 0x0A 0 d.val 2
  | .itxDct4 d => commandWord 0x0A 0 d.val 3
  | .itxDct16 d => commandWord 0x0A 0 d.val 4
  | .itxDct32 d => commandWord 0x0A 0 d.val 5
  | .itxDct16X8 d => commandWord 0x0A 0 d.val 6
  | .itxDct8X16 d => commandWord 0x0A 0 d.val 7
  | .itxDct32X8 d => commandWord 0x0A 0 d.val 8
  | .itxDct8X32 d => commandWord 0x0A 0 d.val 9
  | .itxDct32X16 d => commandWord 0x0A 0 d.val 10
  | .itxDct16X32 d => commandWord 0x0A 0 d.val 11
  | .itxDct4X8 d => commandWord 0x0A 0 d.val 12
  | .itxDct8X4 d => commandWord 0x0A 0 d.val 13
  | .itxAfv0 d => commandWord 0x0A 0 d.val 14
  | .itxAfv1 d => commandWord 0x0A 0 d.val 15
  | .itxAfv2 d => commandWord 0x0A 0 d.val 16
  | .itxAfv3 d => commandWord 0x0A 0 d.val 17
  | .itxDct64 d => commandWord 0x0A 0 d.val 18
  | .itxDct64X32 d => commandWord 0x0A 0 d.val 19
  | .itxDct32X64 d => commandWord 0x0A 0 d.val 20
  | .itxDct128 d => commandWord 0x0A 0 d.val 21
  | .itxDct128X64 d => commandWord 0x0A 0 d.val 22
  | .itxDct64X128 d => commandWord 0x0A 0 d.val 23
  | .itxDct256 d => commandWord 0x0A 0 d.val 24
  | .itxDct256X128 d => commandWord 0x0A 0 d.val 25
  | .itxDct128X256 d => commandWord 0x0A 0 d.val 26
  | .itxUnsupported27 d => commandWord 0x0A 0 d.val 27
  | .itxUnsupported28_31 d tt => commandWord 0x0A 0 d.val tt.val

/-! ### The match and mask columns of the opcode table (R80) -/

/-- One row: a word belongs to it where `w AND mask = bits`. -/
structure TableRow where
  mask : Word
  bits : Word
deriving DecidableEq, Repr

/-- The word matches the row (R80). -/
def TableRow.matches (r : TableRow) (w : Word) : Bool := w &&& r.mask == r.bits

/-- The rows of spec/opcode_table.json for 40_grid.md. -/
def tableGrid : List TableRow :=
  [⟨0xFFFFF0FF#32, 0x00000001#32⟩,
   ⟨0xFFFFF0FF#32, 0x00000002#32⟩,
   ⟨0xFFFFF0FF#32, 0x00000003#32⟩,
   ⟨0xFFFFF0FF#32, 0x00000004#32⟩,
   ⟨0xFFFFF0FF#32, 0x00000005#32⟩,
   ⟨0xFFFFF0FF#32, 0x00000006#32⟩,
   ⟨0xFFFFF0FF#32, 0x00000007#32⟩]

/-- The rows of spec/opcode_table.json for 41_dct1d.md and 42_dct2d.md. -/
def tableDct : List TableRow :=
  [⟨0xFFFFFFFF#32, 0x00000008#32⟩,
   ⟨0xFFFFFFFF#32, 0x00000048#32⟩,
   ⟨0xFFFFF0FF#32, 0x00000009#32⟩,
   ⟨0xFFFFF0FF#32, 0x00000049#32⟩]

/-- The rows of spec/opcode_table.json for 43_dispatch.md, tags 0 to 13. -/
def tableItxLow : List TableRow :=
  [⟨0xFFFFF0FF#32, 0x0000000A#32⟩,
   ⟨0xFFFFF0FF#32, 0x0001000A#32⟩,
   ⟨0xFFFFF0FF#32, 0x0002000A#32⟩,
   ⟨0xFFFFF0FF#32, 0x0003000A#32⟩,
   ⟨0xFFFFF0FF#32, 0x0004000A#32⟩,
   ⟨0xFFFFF0FF#32, 0x0005000A#32⟩,
   ⟨0xFFFFF0FF#32, 0x0006000A#32⟩,
   ⟨0xFFFFF0FF#32, 0x0007000A#32⟩,
   ⟨0xFFFFF0FF#32, 0x0008000A#32⟩,
   ⟨0xFFFFF0FF#32, 0x0009000A#32⟩,
   ⟨0xFFFFF0FF#32, 0x000A000A#32⟩,
   ⟨0xFFFFF0FF#32, 0x000B000A#32⟩,
   ⟨0xFFFFF0FF#32, 0x000C000A#32⟩,
   ⟨0xFFFFF0FF#32, 0x000D000A#32⟩]

/-- The rows of spec/opcode_table.json for 43_dispatch.md, tags 14 to 31. -/
def tableItxHigh : List TableRow :=
  [⟨0xFFFFF0FF#32, 0x000E000A#32⟩,
   ⟨0xFFFFF0FF#32, 0x000F000A#32⟩,
   ⟨0xFFFFF0FF#32, 0x0010000A#32⟩,
   ⟨0xFFFFF0FF#32, 0x0011000A#32⟩,
   ⟨0xFFFFF0FF#32, 0x0012000A#32⟩,
   ⟨0xFFFFF0FF#32, 0x0013000A#32⟩,
   ⟨0xFFFFF0FF#32, 0x0014000A#32⟩,
   ⟨0xFFFFF0FF#32, 0x0015000A#32⟩,
   ⟨0xFFFFF0FF#32, 0x0016000A#32⟩,
   ⟨0xFFFFF0FF#32, 0x0017000A#32⟩,
   ⟨0xFFFFF0FF#32, 0x0018000A#32⟩,
   ⟨0xFFFFF0FF#32, 0x0019000A#32⟩,
   ⟨0xFFFFF0FF#32, 0x001A000A#32⟩,
   ⟨0xFFFFF0FF#32, 0x001B000A#32⟩,
   ⟨0xFFFCF0FF#32, 0x001C000A#32⟩]

/-- All 40 rows of spec/opcode_table.json. -/
def opcodeTable : List TableRow := tableGrid ++ tableDct ++ tableItxLow ++ tableItxHigh

end Sys2Proof
end

