-- ==== Sys2Proof/Machine/Defaults.lean ====
section
/-! DEFINITION. The default parameters of an instance (00_scope.md R7) and the sizes derived from parameters. -/

namespace Sys2Proof

/-- `SRAM_WORDS` (R7). -/
def Params.sramWords (p : Params) : Nat := 2 ^ p.log2SramWords

/-- `ALIGN_BYTES` (R7). -/
def Alignment.bytes : Alignment → Nat
  | .wide32 => 32
  | .word4 => 4

/-- `ALIGN_WORDS = ALIGN_BYTES / 4` (R7). -/
def Params.alignWords (p : Params) : Nat := p.alignment.bytes / 4

/-- `TT_DIMS[tt]`: the target (width, height) of a tag (43_dispatch.md R166). -/
def Params.ttDim (p : Params) (tt : Nat) : Nat × Nat := p.ttDims.getD tt (0, 0)

/-- The default table of 30_encoding.md R86, tags 0 to 26, each (W, H). -/
def defaultTtDims : List (Nat × Nat) :=
  [(8, 8), (8, 8), (8, 8), (8, 8), (16, 16), (32, 32), (8, 16), (16, 8), (8, 32), (32, 8), (16, 32), (32, 16)] ++
  [(8, 8), (8, 8), (8, 8), (8, 8), (8, 8), (8, 8)] ++
  [(64, 64), (32, 64), (64, 32), (128, 128), (64, 128), (128, 64), (256, 256), (128, 256), (256, 128)]

/-- The default build of R7: 2^18 words of sample memory, 32-byte alignment, the reference instance `REF` of `NUMERICS`,
`AFV_BASIS` open, the tag table of R86, index 5 left out of the Hornuss sum, long axis along rows, `DCT_EPS` = 2^-16
(notes/assumptions/1.md). -/
def Params.default : Params where
  log2SramWords := 18
  alignment := .wide32
  numerics := .ref
  afvBasis := none
  ttDims := defaultTtDims
  hornussSumExcludes5 := true
  coeffLayout := .longAxisRows
  dctEps := 1 / 65536

end Sys2Proof
end

