-- ==== Sys2Proof/Machine/State.lean ====
section
/-! DEFINITION. The state of JXO-TX as plain data (10_state.md), why a step can stop, and the state after reset
(70_reset_and_hazards.md R250). -/

namespace Sys2Proof.Machine

/-! ### The descriptor table (R39) -/

/-- KIND: 0 = EMPTY, 1 = GRID, 2 = VIEW; other values never occur (R39). -/
inductive Kind where
  | empty
  | grid
  | view
deriving DecidableEq, Repr

/-- One descriptor slot: KIND and six 32-bit fields (R39). -/
structure Desc where
  kind : Kind
  base : Word
  offset : Word
  width : Word
  height : Word
  stride : Word
  len : Word
deriving DecidableEq, Repr

/-- The EMPTY descriptor: every other field is 0 (R40). -/
def Desc.emptySlot : Desc := ⟨.empty, 0, 0, 0, 0, 0, 0⟩

/-! ### Sample memory (R43) -/

/-- Sample memory as (byte address, byte) pairs with rising addresses: byte `4*a + j` holds bits `8*j+7 : 8*j` of word
`S[a]` (20_memory.md R52). Only bytes that a command or the host has written are listed. -/
abbrev Memory := List Host.Cell

/-- What an address that is not listed holds: no written byte. Reading it gives the open power-on value, in
`Memory.byteFrom` (70_reset_and_hazards.md R250; notes/assumptions/3.md). -/
def Memory.unlisted : Option Byte := Option.none

/-- The canonical form: addresses strictly rising. No entry equals `Memory.unlisted`, which is no byte. -/
abbrev Memory.wf (m : Memory) : Prop := m.Pairwise fun c c' => c.1 < c'.1

/-! ### The engine and the bus -/

/-- The engine state machine (R47): BUSY and ERR are read off it. -/
inductive Engine where
  | idle
  | busy
  | error
deriving DecidableEq, Repr

/-- The two windows the host reaches (20_memory.md R50). -/
inductive Window where
  | registers
  | sram
deriving DecidableEq, Repr

/-- One host bus access: a byte offset from the window's base (`REG_BASE` or `SRAM_BASE`), its width in bytes, and the
written word, or `none` for a read (20_memory.md R50, R51; notes/assumptions/7.md). -/
structure Access where
  window : Window
  offset : Nat
  bytes : Nat
  write : Option Word
deriving DecidableEq, Repr

/-- What the block meets next from outside: a host access, a turn of the engine before the next access
(70_reset_and_hazards.md R264), or the reset input (R250). -/
inductive Event where
  | host (a : Access)
  | engineTurn
  | hardReset
deriving DecidableEq, Repr

/-- The bus response to the last host access that completed. -/
inductive Response where
  /-- The read data (R56, R57). -/
  | readData (w : Word)
  /-- A write was taken. -/
  | written
  /-- A bus error: wrong width or alignment (20_memory.md R51, 60_exceptions.md R243). -/
  | busError
  /-- The offset lies in no window of the block: the access is not the block's (notes/assumptions/7.md). -/
  | unclaimed
deriving DecidableEq, Repr

/-- The whole state of the block. -/
structure State where
  /-- The build's parameters (00_scope.md R7, R253): no step changes them. -/
  params : Params
  /-- IDLE, BUSY or ERROR (R47); gives STATUS.BUSY (R27) and STATUS.ERR (R29). -/
  engine : Engine
  /-- CTRL.IE_DONE (R23). -/
  ieDone : Bool
  /-- CTRL.IE_ERR (R23). -/
  ieErr : Bool
  /-- STATUS.DONE (R28). -/
  done : Bool
  /-- STATUS.REJ (R30). -/
  rej : Bool
  /-- STATUS.RESULT (R31). -/
  result : Bool
  /-- CAUSE.CODE (R32). -/
  cause : BitVec 8
  /-- FCMD (R33). -/
  fcmd : Word
  /-- CMDCNT (R35). -/
  cmdcnt : Word
  /-- ARG0 to ARG5 (R36). -/
  arg : Vector Word 6
  /-- RDATA (R37). -/
  rdata : Word
  /-- DESC0 to DESC15 (R39). -/
  desc : Vector Desc 16
  /-- LCMD, the latched command word (R46). -/
  lcmd : Word
  /-- LARG[0] to LARG[5], the latched operands (R46). -/
  larg : Vector Word 6
  /-- Sample memory (R43). -/
  sram : Memory
  /-- How many power-ons or hard resets there have been: selects the open contents of unwritten memory. -/
  powerOns : Nat
  /-- How many running commands a reset has abandoned: selects the open contents of their write sets. -/
  abandons : Nat
  /-- What the outside does next, first event first. -/
  bus : List Event
  /-- The bus response to the last completed host access. -/
  response : Option Response
deriving DecidableEq, Repr

/-! ### Why a step can stop -/

/-- Why the model stops. A command fault of the spec is no stop: it is the ERROR state (60_exceptions.md R232). -/
inductive Fault where
  /-- A descriptor names a word at or beyond `SRAM_WORDS`, an address 20_memory.md R50 says does not exist. Raised by the
  commands that read through a descriptor, only in states that break the invariants of 10_state.md R40, which no run
  reaches. Safe: the model stops. -/
  | noSuchWord (address : Nat)
deriving DecidableEq, Repr

/-- Why an instruction has no meaning. -/
inductive Refusal where
  /-- Raised by an arm of `exec` whose instruction is not modelled yet; no arm is. Safe: the model stops. -/
  | notModelled (mnemonic : String)
deriving DecidableEq, Repr

/-! ### Reset -/

/-- The state after power-on of a build with parameters `p` (R250). LCMD and LARG, which R250 leaves unspecified and which
nothing reads before an acceptance writes them, are 0 here (notes/assumptions/8.md). -/
def State.resetWith (p : Params) : State where
  params := p
  engine := .idle
  ieDone := false
  ieErr := false
  done := false
  rej := false
  result := false
  cause := 0
  fcmd := 0
  cmdcnt := 0
  arg := Vector.replicate 6 0
  rdata := 0
  desc := Vector.replicate 16 Desc.emptySlot
  lcmd := 0
  larg := Vector.replicate 6 0
  sram := []
  powerOns := 0
  abandons := 0
  bus := []
  response := Option.none

/-- The machine right after reset (R250), with the default build of 00_scope.md R7. -/
def State.reset : State := State.resetWith Params.default

end Sys2Proof.Machine
end

