-- ==== Sys2Proof/Machine/Ops.lean ====
section
/-! DEFINITION. The named operations: sample memory by byte, word and run; what a command does to the state; completing a
command; taking a fault. Byte order is decided here, once (20_memory.md R52). -/

namespace Sys2Proof.Machine

/-- The list `[f 0, f 1, …, f (n-1)]`. -/
def tab {α : Type} (n : Nat) (f : Nat → α) : List α := (List.range n).map f

/-! ### Bytes -/

/-- The written byte at a byte address, `Memory.unlisted` where none is. -/
def Memory.lookup (m : Memory) (b : Nat) : Option Byte :=
  match List.lookup b m with
  | some x => some x
  | none => Memory.unlisted

/-- The byte at a byte address after the n-th power-on: the written byte, or the open power-on value
(70_reset_and_hazards.md R250, 93_implementation_defined.md I1). -/
def Memory.byteFrom (powerOns : Nat) (m : Memory) (b : Nat) : Byte :=
  (m.lookup b).getD (Config.powerOnByte powerOns b)

/-- The cells of consecutive bytes from a byte address on. -/
def cellsFrom : Nat → List Byte → Memory
  | _, [] => []
  | b, x :: xs => (b, x) :: cellsFrom (b + 1) xs

/-- Writes consecutive bytes from a byte address on, and nothing else (20_memory.md R57). -/
def Memory.putBytes (m : Memory) (b : Nat) (xs : List Byte) : Memory :=
  m.filter (fun c => c.1 < b) ++ (cellsFrom b xs ++ m.filter (fun c => b + xs.length ≤ c.1))

/-! ### Words, little-endian (R52) -/

/-- The four bytes of a word, lowest address first. -/
def wordBytes (w : Word) : List Byte :=
  [BitVec.ofNat 8 w.toNat, BitVec.ofNat 8 (w.toNat / 0x100), BitVec.ofNat 8 (w.toNat / 0x10000),
   BitVec.ofNat 8 (w.toNat / 0x1000000)]

/-- The word of four bytes, lowest address first. -/
def wordOfBytes (b0 b1 b2 b3 : Byte) : Word :=
  BitVec.ofNat 32 (b0.toNat + 0x100 * b1.toNat + 0x10000 * b2.toNat + 0x1000000 * b3.toNat)

/-- The word `S[a]` in a memory after the n-th power-on. -/
def Memory.wordFrom (powerOns : Nat) (m : Memory) (a : Nat) : Word :=
  wordOfBytes (m.byteFrom powerOns (4 * a)) (m.byteFrom powerOns (4 * a + 1)) (m.byteFrom powerOns (4 * a + 2))
    (m.byteFrom powerOns (4 * a + 3))

/-- The cells of the words `a .. a+n-1`. -/
def Memory.near (m : Memory) (a n : Nat) : Memory :=
  m.filter fun c => 4 * a ≤ c.1 && decide (c.1 < 4 * (a + n))

/-- `S[a]`, one byte of the window: byte address `b` (20_memory.md R52). -/
def State.sramByte (s : State) (b : Nat) : Byte := s.sram.byteFrom s.powerOns b

/-- `MemRead(a, 1)` (00_scope.md R9, 20_memory.md R54). -/
def State.sramWord (s : State) (a : Nat) : Word := s.sram.wordFrom s.powerOns a

/-- The words `S[a], …, S[a+n-1]`. -/
def State.sramRun (s : State) (a n : Nat) : List Word :=
  let near := s.sram.near a n
  tab n fun i => near.wordFrom s.powerOns (a + i)

/-- A run of words to write: the first word address and the words. -/
abbrev Run := Nat × List Word

/-- `MemWrite(a + i, 1, ws[i])` for every i (00_scope.md R9). -/
def Memory.putRun (m : Memory) (r : Run) : Memory := m.putBytes (4 * r.1) (r.2.flatMap wordBytes)

/-- Writes runs of words, first run first. -/
def Memory.putRuns (m : Memory) (rs : List Run) : Memory := rs.foldl Memory.putRun m

/-! ### What a command does -/

/-- Everything a command that completes writes, computed from the state it was accepted in: the snapshot of
20_memory.md R62, and no write before every check has passed (60_exceptions.md R231). -/
structure Plan where
  /-- The words it writes to sample memory. -/
  writes : List Run
  /-- The descriptor slot it writes, and the descriptor. -/
  desc : Option (Slot × Desc)
  /-- The word it writes to RDATA. -/
  rdata : Option Word
  /-- The bit it writes to STATUS.RESULT. -/
  result : Option Bool
deriving DecidableEq, Repr

/-- A plan that writes nothing. -/
def Plan.nothing : Plan := ⟨[], none, none, none⟩

/-- A plan that writes words only. -/
def Plan.store (rs : List Run) : Plan := ⟨rs, none, none, none⟩

/-- A plan that writes one descriptor slot and words. -/
def Plan.define (d : Slot) (x : Desc) (rs : List Run) : Plan := ⟨rs, some (d, x), none, none⟩

/-- The error causes of 60_exceptions.md R221. -/
inductive Cause where
  | illegalCmd
  | badDesc
  | unsupportedTt
  | dimMismatch
  | invalidLength
  | invalidDimensions
  | outOfBounds
  | outOfRange
deriving DecidableEq, Repr

/-- The code written to CAUSE.CODE (R221). -/
def Cause.code : Cause → BitVec 8
  | .illegalCmd => 1
  | .badDesc => 2
  | .unsupportedTt => 3
  | .dimMismatch => 4
  | .invalidLength => 5
  | .invalidDimensions => 6
  | .outOfBounds => 7
  | .outOfRange => 8

/-- What a command's checks come to. -/
inductive Verdict where
  /-- Every check passes: the command does this. -/
  | runs (p : Plan)
  /-- The first check that fails raises this cause (R230). -/
  | raises (c : Cause)
  /-- A descriptor names a word that does not exist (only in states that break 10_state.md R40). -/
  | offMap (address : Nat)
deriving DecidableEq, Repr

/-- The descriptor table after a plan. -/
def Plan.table (p : Plan) (t : Vector Desc 16) : Vector Desc 16 :=
  match p.desc with
  | some (d, x) => t.set d x
  | none => t

/-- The writes of a plan, all at once. -/
def State.applyPlan (s : State) (p : Plan) : State :=
  { s with
    sram := s.sram.putRuns p.writes
    desc := p.table s.desc
    rdata := p.rdata.getD s.rdata
    result := p.result.getD s.result }

/-- Completion (30_encoding.md R87): BUSY <- 0, DONE <- 1, CMDCNT <- CMDCNT + 1 mod 2^32. -/
def State.complete (s : State) : State := { s with engine := .idle, done := true, cmdcnt := s.cmdcnt + 1 }

/-- TAKING A FAULT, the block's only exception (60_exceptions.md R220, R232): CAUSE and FCMD record it, BUSY <- 0 and
ERR <- 1. Nothing else changes, and there is no handler and no saved program counter. -/
def State.faultEntry (c : Cause) (s : State) : State := { s with cause := c.code, fcmd := s.lcmd, engine := .error }

/-- THE RETURN FROM A FAULT is a reset and nothing else (R234): what the hard and the soft reset do alike, every register
row of 70_reset_and_hazards.md R250 but LCMD and LARG. Sample memory is each reset's own (Machine/Reset.lean). -/
def State.clearRegisters (s : State) : State :=
  { s with
    engine := .idle, ieDone := false, ieErr := false, done := false, rej := false, result := false
    cause := 0, fcmd := 0, cmdcnt := 0, arg := Vector.replicate 6 0, rdata := 0
    desc := Vector.replicate 16 Desc.emptySlot }

/-- The engine step ends: the command completes, or it faults (30_encoding.md R87). -/
def settle (v : Verdict) (s : State) : Host.Outcome State Fault Refusal :=
  match v with
  | .runs p => .next (s.applyPlan p).complete
  | .raises c => .next (s.faultEntry c)
  | .offMap a => .fault (.noSuchWord a)

end Sys2Proof.Machine
end

