-- ==== Sys2Proof/Machine/Operands.lean ====
section
/-! DEFINITION. Operands and descriptors as the commands read them: LARG whole and unsigned (30_encoding.md R76 to R78),
sample addresses (10_state.md R41), and the descriptor checks shared by the families (40_grid.md R90). -/

namespace Sys2Proof.Machine

/-- `ARG[i]` of the pseudocode: the latched operand, a 32-bit unsigned integer taken whole (R76, R78). -/
def State.operand (s : State) (i : Fin 6) : Nat := s.larg[i].toNat

/-- SET's raw sample word: LARG[2] unchanged (R76). -/
def State.operandWord (s : State) (i : Fin 6) : Word := s.larg[i]

/-! ### Descriptors -/

/-- A descriptor from exact integers, each field its low 32 bits (10_state.md R39). -/
def Desc.make (kind : Kind) (base offset width height stride len : Nat) : Desc :=
  ⟨kind, BitVec.ofNat 32 base, BitVec.ofNat 32 offset, BitVec.ofNat 32 width, BitVec.ofNat 32 height,
   BitVec.ofNat 32 stride, BitVec.ofNat 32 len⟩

/-- WIDTH as an integer. -/
def Desc.w (x : Desc) : Nat := x.width.toNat

/-- HEIGHT as an integer. -/
def Desc.h (x : Desc) : Nat := x.height.toNat

/-- `BASE + OFFSET`: the word address of sample (0, 0). -/
def Desc.origin (x : Desc) : Nat := x.base.toNat + x.offset.toNat

/-- `addr(d, x, y) = BASE + OFFSET + y*STRIDE + x`, exact (10_state.md R41, 20_memory.md R58). -/
def Desc.addr (x : Desc) (col row : Nat) : Nat := x.origin + row * x.stride.toNat + col

/-- One past the last word of the logical region (10_state.md R42), for a non-empty descriptor. -/
def Desc.regionEnd (x : Desc) : Nat := x.addr x.w (x.h - 1)

/-- `pad(a)`: the smallest offset that aligns `a` (40_grid.md R91). -/
def padOf (p : Params) (a : Nat) : Nat := (p.alignWords - a % p.alignWords) % p.alignWords

/-- `need_desc(d)`, then the rest (40_grid.md R90). -/
def withDesc (d : Slot) (s : State) (rest : Desc → Verdict) : Verdict :=
  if s.desc[d].kind = .empty then .raises .badDesc else rest s.desc[d]

/-- `need_in(d, x, y)` (40_grid.md R90). -/
def Desc.inBounds (x : Desc) (col row : Nat) : Bool := decide (col < x.w) && decide (row < x.h)

/-- The words the descriptor names exist; 10_state.md R41 derives it from R40, so no reachable state fails it. -/
def onMap (x : Desc) (s : State) (rest : Verdict) : Verdict :=
  if x.regionEnd ≤ s.params.sramWords then rest else .offMap x.regionEnd

/-- The sample words of the logical region, row by row (10_state.md R42). -/
def State.regionWords (s : State) (x : Desc) : List (List Word) :=
  tab x.h fun row => s.sramRun (x.addr 0 row) x.w

/-- Writes words to the logical region of a descriptor, row by row. -/
def Desc.regionRuns (x : Desc) (rows : List (List Word)) : List Run :=
  tab rows.length fun row => (x.addr 0 row, rows.getD row [])

end Sys2Proof.Machine
end

