-- ==== Sys2Proof/Machine/Flags.lean ====
section
/-! DEFINITION. STATUS, CTRL, CAUSE and CFG as words, the write-1-to-clear bits, and the interrupt output
(10_state.md R23 to R32, R38, 60_exceptions.md R236). The block has no arithmetic flags (R49). -/

namespace Sys2Proof.Machine

/-- STATUS.BUSY (R27, R47). -/
def State.busy (s : State) : Bool := decide (s.engine = .busy)

/-- STATUS.ERR (R29, R47). -/
def State.err (s : State) : Bool := decide (s.engine = .error)

/-- STATUS as the host reads it (R26): bits 31:5 read 0. -/
def State.statusWord (s : State) : Word :=
  BitVec.ofNat 32
    (s.busy.toNat + 2 * s.done.toNat + 4 * s.err.toNat + 8 * s.rej.toNat + 16 * s.result.toNat)

/-- CTRL as the host reads it (R23, R24): SRST and the reserved bits read 0. -/
def State.ctrlWord (s : State) : Word := BitVec.ofNat 32 (2 * s.ieDone.toNat + 4 * s.ieErr.toNat)

/-- CAUSE as the host reads it (R32). -/
def State.causeWord (s : State) : Word := BitVec.ofNat 32 s.cause.toNat

/-- CFG, a constant of the build (R38). -/
def cfgWordOf (p : Params) : Word :=
  BitVec.ofNat 32
    (p.log2SramWords + 0x100 * p.alignment.bytes + 0x10000 * Config.ndesc + 0x1000000 * Config.log2Nmax)

/-- A STATUS write: DONE (R28) and REJ (R30) are cleared where the written bit is 1, no other bit changes. -/
def State.writeStatus (v : Word) (s : State) : State :=
  { s with done := s.done && !v.getLsbD 1, rej := s.rej && !v.getLsbD 3 }

/-- A CTRL write with bit 0 = 0: only the interrupt enables change (R24). -/
def State.writeEnables (v : Word) (s : State) : State :=
  { s with ieDone := v.getLsbD 1, ieErr := v.getLsbD 2 }

/-- The level-sensitive interrupt output, a function of the registers (60_exceptions.md R236). -/
def State.irq (s : State) : Bool := (s.ieDone && s.done) || (s.ieErr && s.err)

end Sys2Proof.Machine
end

