-- ==== Sys2Proof/Machine/Grid.lean ====
section
/-! DEFINITION. GRID_NEW, VIEW_NEW, GET, SET, SWAP, WIDEN_Q and FREE (40_grid.md R91 to R98). Each command has a plan (its
checks in the order of its pseudocode, then what it writes) and a meaning that settles the plan. -/

namespace Sys2Proof.Machine

/-- GRID_NEW (R91). -/
def planGridNew (d : Slot) (s : State) : Verdict :=
  let base := s.operand 0
  let w := s.operand 1
  let h := s.operand 2
  let off := padOf s.params base
  if w = 0 ∨ h = 0 then .raises .invalidDimensions
  else if s.params.sramWords < base + off + w * h then .raises .outOfRange
  else .runs (.define d (.make .grid base off w h w (off + w * h)) [(base + off, List.replicate (w * h) 0)])

/-- GRID_NEW (R91). -/
def execGridNew (d : Slot) (s : State) : Host.Outcome State Fault Refusal := settle (planGridNew d s) s

/-- VIEW_NEW (R93): it writes no sample word. -/
def planViewNew (d : Slot) (s : State) : Verdict :=
  let base := s.operand 0
  let len := s.operand 1
  let w := s.operand 2
  let h := s.operand 3
  let st := s.operand 4
  if w = 0 ∨ h = 0 ∨ st < w ∨ len < st * (h - 1) + w then .raises .invalidDimensions
  else if s.params.sramWords < base + len then .raises .outOfRange
  else .runs (.define d (.make .view base 0 w h st len) [])

/-- VIEW_NEW (R93). -/
def execViewNew (d : Slot) (s : State) : Host.Outcome State Fault Refusal := settle (planViewNew d s) s

/-- GET (R94): the word bit for bit. -/
def planGetSample (d : Slot) (s : State) : Verdict :=
  withDesc d s fun x =>
    if x.inBounds (s.operand 0) (s.operand 1) = false then .raises .outOfBounds
    else onMap x s (.runs ⟨[], none, some (s.sramWord (x.addr (s.operand 0) (s.operand 1))), none⟩)

/-- GET (R94). -/
def execGetSample (d : Slot) (s : State) : Host.Outcome State Fault Refusal := settle (planGetSample d s) s

/-- SET (R95): the operand word unchanged. -/
def planSetSample (d : Slot) (s : State) : Verdict :=
  withDesc d s fun x =>
    if x.inBounds (s.operand 0) (s.operand 1) = false then .raises .outOfBounds
    else onMap x s (.runs (.store [(x.addr (s.operand 0) (s.operand 1), [s.operandWord 2])]))

/-- SET (R95). -/
def execSetSample (d : Slot) (s : State) : Host.Outcome State Fault Refusal := settle (planSetSample d s) s

/-- SWAP (R96): both words are read before either is written. -/
def planSwap (d : Slot) (s : State) : Verdict :=
  withDesc d s fun x =>
    if x.inBounds (s.operand 0) (s.operand 1) = false then .raises .outOfBounds
    else if x.inBounds (s.operand 2) (s.operand 3) = false then .raises .outOfBounds
    else
      let pa := x.addr (s.operand 0) (s.operand 1)
      let pb := x.addr (s.operand 2) (s.operand 3)
      onMap x s (.runs (.store [(pa, [s.sramWord pb]), (pb, [s.sramWord pa])]))

/-- SWAP (R96). -/
def execSwap (d : Slot) (s : State) : Host.Outcome State Fault Refusal := settle (planSwap d s) s

/-- The lane widths the widening adapter offers, and its three divisibility conditions (R97). -/
def Desc.widens (x : Desc) (lane : Nat) : Bool :=
  [2, 4, 8, 16].contains lane && x.w % lane == 0 && x.stride.toNat % lane == 0 && x.origin % lane == 0

/-- WIDEN_Q (R97): a failed condition is an answer, not a fault. -/
def planWidenQ (d : Slot) (s : State) : Verdict :=
  withDesc d s fun x => .runs ⟨[], none, none, some (x.widens (s.operand 0))⟩

/-- WIDEN_Q (R97). -/
def execWidenQ (d : Slot) (s : State) : Host.Outcome State Fault Refusal := settle (planWidenQ d s) s

/-- FREE (R98): no check. -/
def planFree (d : Slot) (_ : State) : Verdict := .runs (.define d Desc.emptySlot [])

/-- FREE (R98). -/
def execFree (d : Slot) (s : State) : Host.Outcome State Fault Refusal := settle (planFree d s) s

end Sys2Proof.Machine
end

