-- ==== Sys2Proof/Machine/Float.lean ====
section
/-! DEFINITION. f32 values and the engine's arithmetic (00_scope.md R10, 41_dct1d.md R138): operands become integers, the
result is computed exactly, and it is rounded once, to nearest, ties to even. Every finite f32 is a whole number of units
of 2^-149, so a sum is exact in units of 2^-149 and a product in units of 2^-298. -/

namespace Sys2Proof.Machine

/-- An f32 value, as `F(w)` gives it: a finite value is its sign and its magnitude in units of 2^-149; a NaN keeps its sign
and fraction bits. -/
inductive F32 where
  | fin (neg : Bool) (mag : Nat)
  | inf (neg : Bool)
  | nan (neg : Bool) (frac : BitVec 23)
deriving DecidableEq, Repr

namespace F32

/-- `F(w)` (R10): sign in bit 31, biased exponent in bits 30:23, fraction in bits 22:0 (20_memory.md R53). -/
def ofWord (w : Word) : F32 :=
  let e := w.toNat / 0x800000 % 256
  let f := w.toNat % 0x800000
  let neg := w.getLsbD 31
  if e = 255 then (if f = 0 then .inf neg else .nan neg (BitVec.ofNat 23 f))
  else .fin neg (if e = 0 then f else (0x800000 + f) <<< (e - 1))

/-- Bit 31 of a word, as a number. -/
def signPart (neg : Bool) : Nat := if neg then 0x80000000 else 0

/-- The position of the highest 1 bit of `m < 2 ^ 2 ^ k`, by halving: equal to `Nat.log2 m`
(Laws/Float.lean, `topBitBelow_eq_log2`). -/
def topBitBelow : Nat → Nat → Nat
  | 0, _ => 0
  | k + 1, m => if m >>> (1 <<< k) = 0 then topBitBelow k m else (1 <<< k) + topBitBelow k (m >>> (1 <<< k))

/-- The position of the highest 1 bit of a magnitude; every magnitude here is below 2^1024. -/
def topBit (m : Nat) : Nat := topBitBelow 10 m

/-- `W(x)` (R10). A finite magnitude with 24 significant bits and quantum 2^e encodes as `e * 2^23` plus its bits; the
implicit leading 1 carries into the exponent field. -/
def toWord : F32 → Word
  | .fin neg m =>
    let e := topBit m - 23
    BitVec.ofNat 32 (signPart neg + e * 0x800000 + m >>> e)
  | .inf neg => BitVec.ofNat 32 (signPart neg + 0x7F800000)
  | .nan neg f => BitVec.ofNat 32 (signPart neg + 0x7F800000 + f.toNat)

/-- +0.0. -/
def zero : F32 := .fin false 0

/-- A zero of either sign. -/
def isZero : F32 → Bool
  | .fin _ m => m == 0
  | .inf _ => false
  | .nan _ _ => false

/-- Neither an infinity nor a NaN. -/
def isFinite : F32 → Bool
  | .fin _ _ => true
  | .inf _ => false
  | .nan _ _ => false

/-- The exact value of a finite f32 in units of 2^-149. -/
def units : F32 → Int
  | .fin neg m => if neg then -(m : Int) else m
  | .inf _ => 0
  | .nan _ _ => 0

/-- The magnitude `m`, in units of 2^-(149+s), rounded once to a quantum of 2^e units, ties to even, as units of
2^-149 (R138). -/
def quantize (s m e : Nat) : Nat :=
  let q := m >>> e
  let r := 2 * (m % (1 <<< e))
  let unit := 1 <<< e
  (if unit < r ∨ (r = unit ∧ q % 2 = 1) then q + 1 else q) <<< (e - s)

/-- `RN32` (R10) of a signed magnitude `m` in units of 2^-(149+s): 24 significant bits, at least one unit of 2^-149 apart
(subnormals are kept), and the signed infinity from 2^128 on (R138). -/
def round (s : Nat) (neg : Bool) (m : Nat) : F32 :=
  let v := quantize s m (max (topBit m - 23) s)
  if v < 1 <<< 277 then .fin neg v else .inf neg

/-- `-x`: bit 31 flips, for a NaN too (R138). -/
def neg : F32 → F32
  | .fin b m => .fin (!b) m
  | .inf b => .inf (!b)
  | .nan b f => .nan (!b) f

/-- The NaN an operation gives: quiet, its sign and payload open (R138; notes/assumptions/5.md). -/
def quietNaN (op : FOp) (a b : F32) : F32 :=
  let r := Config.nanBits op a.toWord b.toWord
  .nan r.1 (0x400000 ||| r.2.setWidth 23)

/-- The sum of two f32 values; `op` names the operation for the NaN it may give. An exact zero sum is +0.0 unless both
operands are negative (IEEE 754, round to nearest; 93_implementation_defined.md I34). -/
def sum (op : FOp) (a b : F32) : F32 :=
  match a, b with
  | .nan _ _, _ => quietNaN op a b
  | .fin _ _, .nan _ _ => quietNaN op a b
  | .inf _, .nan _ _ => quietNaN op a b
  | .inf x, .inf y => if x = y then .inf x else quietNaN op a b
  | .inf x, .fin _ _ => .inf x
  | .fin _ _, .inf y => .inf y
  | .fin x m, .fin y n =>
    if x = y then round 0 x (m + n)
    else if m = n then zero
    else if n < m then round 0 x (m - n)
    else round 0 y (n - m)

/-- `a (+) b` (R138). -/
def add (a b : F32) : F32 := sum .add a b

/-- `a (-) b` (R138). -/
def sub (a b : F32) : F32 := sum .sub a b.neg

/-- `a (*) b` (R138). -/
def mul (a b : F32) : F32 :=
  match a, b with
  | .nan _ _, _ => quietNaN .mul a b
  | .fin _ _, .nan _ _ => quietNaN .mul a b
  | .inf _, .nan _ _ => quietNaN .mul a b
  | .inf x, .inf y => .inf (x != y)
  | .inf x, .fin y n => if n = 0 then quietNaN .mul a b else .inf (x != y)
  | .fin x m, .inf y => if m = 0 then quietNaN .mul a b else .inf (x != y)
  | .fin x m, .fin y n => round 149 (x != y) (m * n)

/-- 0.5, exactly. -/
def half : F32 := ofWord 0x3F000000

/-- 2.0, exactly. -/
def two : F32 := ofWord 0x40000000

/-- 4.0, exactly. -/
def four : F32 := ofWord 0x40800000

/-- 0.0625 = 1/16, exactly. -/
def sixteenth : F32 := ofWord 0x3D800000

end F32

end Sys2Proof.Machine
end

