-- ==== Sys2Proof/Machine/Rom.lean ====
section
/-! DEFINITION. The twiddle ROM (10_state.md R45, 41_dct1d.md R130): correctly rounded cosines and sines of 2*pi*j/N for
every power of two N from 2 to 4*NMAX = 1024. One quarter wave at N = 1024 holds them all: `2*pi*j/N = 2*pi*(j*1024/N)/1024`,
and correct rounding commutes with the symmetries of the circle. The values are checked against a power series in
Tests/Slice0.lean, `test_rom_is_correctly_rounded`. -/

namespace Sys2Proof.Machine

/-- `RN32(cos(2*pi*j/1024))` for j = 0 .. 256, sixteen a row. -/
def romRows : List (List Word) :=
  [[0x3F800000, 0x3F7FFEC4, 0x3F7FFB11, 0x3F7FF4E6, 0x3F7FEC43, 0x3F7FE129, 0x3F7FD397, 0x3F7FC38F,
    0x3F7FB10F, 0x3F7F9C18, 0x3F7F84AB, 0x3F7F6AC7, 0x3F7F4E6D, 0x3F7F2F9D, 0x3F7F0E58, 0x3F7EEA9D],
   [0x3F7EC46D, 0x3F7E9BC9, 0x3F7E70B0, 0x3F7E4323, 0x3F7E1324, 0x3F7DE0B1, 0x3F7DABCC, 0x3F7D7474,
    0x3F7D3AAC, 0x3F7CFE73, 0x3F7CBFC9, 0x3F7C7EB0, 0x3F7C3B28, 0x3F7BF531, 0x3F7BACCD, 0x3F7B61FC],
   [0x3F7B14BE, 0x3F7AC516, 0x3F7A7302, 0x3F7A1E84, 0x3F79C79D, 0x3F796E4E, 0x3F791298, 0x3F78B47B,
    0x3F7853F8, 0x3F77F110, 0x3F778BC5, 0x3F772417, 0x3F76BA07, 0x3F764D97, 0x3F75DEC6, 0x3F756D97],
   [0x3F74FA0B, 0x3F748422, 0x3F740BDD, 0x3F73913F, 0x3F731447, 0x3F7294F8, 0x3F721352, 0x3F718F57,
    0x3F710908, 0x3F708066, 0x3F6FF573, 0x3F6F6830, 0x3F6ED89E, 0x3F6E46BE, 0x3F6DB293, 0x3F6D1C1D],
   [0x3F6C835E, 0x3F6BE858, 0x3F6B4B0C, 0x3F6AAB7B, 0x3F6A09A7, 0x3F696591, 0x3F68BF3C, 0x3F6816A8,
    0x3F676BD8, 0x3F66BECC, 0x3F660F88, 0x3F655E0B, 0x3F64AA59, 0x3F63F473, 0x3F633C5A, 0x3F628210],
   [0x3F61C598, 0x3F6106F2, 0x3F604621, 0x3F5F8327, 0x3F5EBE05, 0x3F5DF6BE, 0x3F5D2D53, 0x3F5C61C7,
    0x3F5B941A, 0x3F5AC450, 0x3F59F26A, 0x3F591E6A, 0x3F584853, 0x3F577026, 0x3F5695E5, 0x3F55B993],
   [0x3F54DB31, 0x3F53FAC3, 0x3F531849, 0x3F5233C6, 0x3F514D3D, 0x3F5064AF, 0x3F4F7A1F, 0x3F4E8D90,
    0x3F4D9F02, 0x3F4CAE79, 0x3F4BBBF8, 0x3F4AC77F, 0x3F49D112, 0x3F48D8B3, 0x3F47DE65, 0x3F46E22A],
   [0x3F45E403, 0x3F44E3F5, 0x3F43E200, 0x3F42DE29, 0x3F41D870, 0x3F40D0DA, 0x3F3FC767, 0x3F3EBC1B,
    0x3F3DAEF9, 0x3F3CA003, 0x3F3B8F3B, 0x3F3A7CA4, 0x3F396842, 0x3F385216, 0x3F373A23, 0x3F36206C],
   [0x3F3504F3, 0x3F33E7BC, 0x3F32C8C9, 0x3F31A81D, 0x3F3085BB, 0x3F2F61A5, 0x3F2E3BDE, 0x3F2D1469,
    0x3F2BEB4A, 0x3F2AC082, 0x3F299415, 0x3F286605, 0x3F273656, 0x3F26050A, 0x3F24D225, 0x3F239DA9]] ++
  [[0x3F226799, 0x3F212FF9, 0x3F1FF6CB, 0x3F1EBC12, 0x3F1D7FD1, 0x3F1C420C, 0x3F1B02C6, 0x3F19C200,
    0x3F187FC0, 0x3F173C07, 0x3F15F6D9, 0x3F14B039, 0x3F13682A, 0x3F121EB0, 0x3F10D3CD, 0x3F0F8784],
   [0x3F0E39DA, 0x3F0CEAD0, 0x3F0B9A6B, 0x3F0A48AD, 0x3F08F59B, 0x3F07A136, 0x3F064B82, 0x3F04F484,
    0x3F039C3D, 0x3F0242B1, 0x3F00E7E4, 0x3EFF17B2, 0x3EFC5D27, 0x3EF9A02D, 0x3EF6E0CB, 0x3EF41F07],
   [0x3EF15AEA, 0x3EEE9479, 0x3EEBCBBB, 0x3EE900B7, 0x3EE63375, 0x3EE363FA, 0x3EE0924F, 0x3EDDBE79,
    0x3EDAE880, 0x3ED8106B, 0x3ED53641, 0x3ED25A09, 0x3ECF7BCA, 0x3ECC9B8B, 0x3EC9B953, 0x3EC6D529],
   [0x3EC3EF15, 0x3EC1071E, 0x3EBE1D4A, 0x3EBB31A0, 0x3EB8442A, 0x3EB554EC, 0x3EB263EF, 0x3EAF713A,
    0x3EAC7CD4, 0x3EA986C4, 0x3EA68F12, 0x3EA395C5, 0x3EA09AE5, 0x3E9D9E78, 0x3E9AA086, 0x3E97A117],
   [0x3E94A031, 0x3E919DDD, 0x3E8E9A22, 0x3E8B9507, 0x3E888E93, 0x3E8586CE, 0x3E827DC0, 0x3E7EE6E1,
    0x3E78CFCC, 0x3E72B651, 0x3E6C9A7F, 0x3E667C66, 0x3E605C13, 0x3E5A3997, 0x3E541501, 0x3E4DEE60],
   [0x3E47C5C2, 0x3E419B37, 0x3E3B6ECF, 0x3E354098, 0x3E2F10A2, 0x3E28DEFC, 0x3E22ABB6, 0x3E1C76DE,
    0x3E164083, 0x3E1008B7, 0x3E09CF86, 0x3E039502, 0x3DFAB273, 0x3DEE3876, 0x3DE1BC2E, 0x3DD53DB9],
   [0x3DC8BD36, 0x3DBC3AC3, 0x3DAFB680, 0x3DA3308C, 0x3D96A905, 0x3D8A200A, 0x3D7B2B74, 0x3D621469,
    0x3D48FB30, 0x3D2FE007, 0x3D16C32C, 0x3CFB49BA, 0x3CC90AB0, 0x3C96C9B6, 0x3C490E90, 0x3BC90F88],
   [0x00000000]]

/-- `RN32(cos(2*pi*j/1024))` for j <= 256. -/
def quarterWave (j : Nat) : F32 := F32.ofWord ((romRows.getD (j / 16) []).getD (j % 16) 0)

/-- The negative of a table value; where the real value is 0 the table holds +0.0 (R130). -/
def negEntry (x : F32) : F32 := if x.isZero then F32.zero else x.neg

/-- `RN32(cos(2*pi*j/1024))` for j < 1024. -/
def cosEntry (j : Nat) : F32 :=
  if j ≤ 256 then quarterWave j
  else if j ≤ 512 then negEntry (quarterWave (512 - j))
  else if j ≤ 768 then negEntry (quarterWave (j - 512))
  else quarterWave (1024 - j)

/-- `TC(N, j) = RN32(cos(2*pi*j/N))` (R130). -/
def twiddleCos (n j : Nat) : F32 := cosEntry (j * (1024 / n) % 1024)

/-- `TS(N, j) = RN32(sin(2*pi*j/N))` (R130): the sine is the cosine three quarters of a turn later. -/
def twiddleSin (n j : Nat) : F32 := cosEntry ((j * (1024 / n) + 768) % 1024)

/-- `R1N = RN32(1/n)` for a power of two n (R130). -/
def recipOf (n : Nat) : F32 := F32.ofWord (BitVec.ofNat 32 (0x3F800000 - F32.topBit n * 0x800000))

/-- `RS2N = RN32(sqrt(2)/n)` for a power of two n (R130). -/
def sqrt2Over (n : Nat) : F32 := F32.ofWord (BitVec.ofNat 32 (0x3FB504F3 - F32.topBit n * 0x800000))

/-- `RH = RN32(1/sqrt(2))` (R130). -/
def recipSqrt2 : F32 := F32.ofWord 0x3F3504F3

end Sys2Proof.Machine
end

