-- ==== Sys2Proof/Machine/Dct1d.lean ====
section
/-! DEFINITION. The 1-D transforms (41_dct1d.md): the reference algorithm REF step by step (R130 to R137), the parameter
`NUMERICS` (R123 to R129), and the commands DCT1D and IDCT1D (R139 to R141). An array of f32 is a list. -/

namespace Sys2Proof.Machine

/-! ### Complex arithmetic (R130) -/

/-- A complex value `(re, im)`. -/
abbrev Complex32 := F32 × F32

/-- The complex zero, read where an index is out of range (no rule reads one). -/
def czero : Complex32 := (F32.zero, F32.zero)

/-- `cmul` (R130): two rounded products and one rounded sum per part, no fused multiply-add. -/
def cmul (a b : Complex32) : Complex32 :=
  ((a.1.mul b.1).sub (a.2.mul b.2), (a.1.mul b.2).add (a.2.mul b.1))

/-- Complex sum, part by part. -/
def cadd (a b : Complex32) : Complex32 := (a.1.add b.1, a.2.add b.2)

/-- Complex difference, part by part. -/
def csub (a b : Complex32) : Complex32 := (a.1.sub b.1, a.2.sub b.2)

/-! ### The FFT (R131) -/

/-- The twiddle `exp(sgn * 2*pi*i * j/m)`: sgn = -1 where `forward`, else +1; the negation is exact (R131). -/
def twiddle (forward : Bool) (m j : Nat) : Complex32 :=
  (twiddleCos m j, if forward then (twiddleSin m j).neg else twiddleSin m j)

/-- `bitrev(j, bits)`: reverses the low `bits` bits of j (R131). -/
def bitrev : Nat → Nat → Nat
  | 0, _ => 0
  | bits + 1, j => (j % 2) * (1 <<< bits) + bitrev bits (j / 2)

/-- One stage of butterflies over `blocks` blocks of `2*half` values, `ws` the twiddles of butterflies 0 .. half-1. In a
block the lower half becomes `u + w*v` and the upper half `u - w*v` (R131). -/
def fftStage (ws : List Complex32) (half : Nat) : Nat → List Complex32 → List Complex32
  | 0, _ => []
  | blocks + 1, y =>
    let us := y.take half
    let ts := List.zipWith cmul ws ((y.drop half).take half)
    List.zipWith cadd us ts ++ (List.zipWith csub us ts ++ fftStage ws half blocks (y.drop (2 * half)))

/-- The stages of length `2*half`, `4*half`, … (R131). -/
def fftStages (forward : Bool) (m : Nat) : Nat → Nat → List Complex32 → List Complex32
  | 0, _, y => y
  | left + 1, half, y =>
    let blocks := m / (2 * half)
    fftStages forward m left (2 * half)
      (fftStage (tab half fun j => twiddle forward m (j * blocks)) half blocks y)

/-- `FFT(z, sgn)` of length m, a power of two (R131). -/
def fft (forward : Bool) (m : Nat) (z : List Complex32) : List Complex32 :=
  fftStages forward m (F32.topBit m) 1 (tab m fun j => z.getD (bitrev (F32.topBit m) j) czero)

/-! ### REF, forward (R132 to R134) -/

/-- Step 1: the even/odd layout `v[i] = x[2i]`, `v[n-1-i] = x[2i+1]` (R132). -/
def evenOdd (n : Nat) (x : List F32) : List F32 :=
  tab n fun j => if j < n / 2 then x.getD (2 * j) F32.zero else x.getD (2 * (n - 1 - j) + 1) F32.zero

/-- Step 2: the real sequence packed as m complex values, transformed (R132). -/
def refForwardFft (n : Nat) (x : List F32) : List Complex32 :=
  let v := evenOdd n x
  fft true (n / 2) (tab (n / 2) fun j => (v.getD (2 * j) F32.zero, v.getD (2 * j + 1) F32.zero))

/-- Step 4: `V[k]` for k = 0 .. m, with the special cases k = 0, k = m and k = n/4 (R133). -/
def refUnpack (n : Nat) (z : List Complex32) (k : Nat) : Complex32 :=
  let m := n / 2
  let a := z.getD k czero
  let b := z.getD (m - k) czero
  let z0 := z.getD 0 czero
  if k = 0 then (z0.1.add z0.2, F32.zero)
  else if k = m then (z0.1.sub z0.2, F32.zero)
  else if k = m / 2 then (a.1, a.2.neg)
  else
    let e := ((a.1.add b.1).mul F32.half, (a.2.sub b.2).mul F32.half)
    let o := ((a.2.add b.2).mul F32.half, (b.1.sub a.1).mul F32.half)
    cadd e (cmul (twiddle true (4 * n) (4 * k)) o)

/-- Step 3: post-rotation and scaling (R134). -/
def refRotate (n : Nat) (v : List Complex32) (k : Nat) : F32 :=
  let c := twiddleCos (4 * n) k
  let s := twiddleSin (4 * n) k
  let a := v.getD k czero
  let b := v.getD (n - k) czero
  if k = 0 then a.1.mul (recipOf n)
  else if k ≤ n / 2 then ((c.mul a.1).add (s.mul a.2)).mul (sqrt2Over n)
  else ((c.mul b.1).sub (s.mul b.2)).mul (sqrt2Over n)

/-- REF forward for n >= 4 (R132 to R134). -/
def refForward (n : Nat) (x : List F32) : List F32 :=
  let z := refForwardFft n x
  let v := tab (n / 2 + 1) (refUnpack n z)
  tab n (refRotate n v)

/-! ### REF, inverse (R135 to R137) -/

/-- Step 3: pre-rotation, `H[k]` for k = 1 .. m-1 (R135). -/
def refPreRotate (n : Nat) (x : List F32) (k : Nat) : Complex32 :=
  let c := twiddleCos (4 * n) k
  let s := twiddleSin (4 * n) k
  let a := (c.mul (x.getD k F32.zero)).add (s.mul (x.getD (n - k) F32.zero))
  let b := (s.mul (x.getD k F32.zero)).sub (c.mul (x.getD (n - k) F32.zero))
  (a.mul recipSqrt2, b.mul recipSqrt2)

/-- Step 4: the complex inputs `Zs[k]`, with the special cases k = 0 and k = n/4 (R136). `h` holds `H[k]` at place k. -/
def refPack (n : Nat) (x : List F32) (h : List Complex32) (k : Nat) : Complex32 :=
  let m := n / 2
  let a := h.getD k czero
  let b := h.getD (m - k) czero
  if k = 0 then
    ((x.getD 0 F32.zero).add (x.getD m F32.zero), (x.getD 0 F32.zero).sub (x.getD m F32.zero))
  else if k = m / 2 then (F32.two.mul a.1, (F32.two.mul a.2).neg)
  else
    let fe := (a.1.add b.1, a.2.sub b.2)
    let fo := cmul (a.1.sub b.1, a.2.add b.2) (twiddle false (4 * n) (4 * k))
    (fe.1.sub fo.2, fe.2.add fo.1)

/-- REF inverse for n >= 4 (R135 to R137). -/
def refInverse (n : Nat) (x : List F32) : List F32 :=
  let h := tab (n / 2) (refPreRotate n x)
  let z := fft false (n / 2) (tab (n / 2) (refPack n x h))
  let v := z.flatMap fun c => [c.1, c.2]
  tab n fun i => if i % 2 = 0 then v.getD (i / 2) F32.zero else v.getD (n - 1 - i / 2) F32.zero

/-! ### NUMERICS (R123 to R129) -/

/-- An instance of `NUMERICS` other than REF, for n >= 4: each output is a function of n and the inputs alone (R123), zeros
of open sign where every input is zero (R128), and otherwise open (R129). A legal build keeps the accuracy law R127
(Safety.lean, `Params.Legal.accurate`; notes/assumptions/2.md). -/
def openTransform (inverse : Bool) (n : Nat) (x : List F32) : List F32 :=
  tab n fun k =>
    let w := Config.transformOutput inverse n (x.map F32.toWord) k
    if x.all F32.isZero then .fin (w.getLsbD 31) 0 else F32.ofWord w

/-- `DCT1_f(n, x)` (R123): n = 1 and n = 2 are fixed bit for bit by R124 and R125. -/
def dct1 (num : Numerics) (n : Nat) (x : List F32) : List F32 :=
  if n = 1 then x
  else if n = 2 then
    let a := x.getD 0 F32.zero
    let b := x.getD 1 F32.zero
    [(a.add b).mul F32.half, (a.sub b).mul F32.half]
  else match num with
    | .ref => refForward n x
    | .unspecified => openTransform false n x

/-- `IDCT1_f(n, X)` (R123): n = 1 and n = 2 are fixed bit for bit by R124 and R126. -/
def idct1 (num : Numerics) (n : Nat) (x : List F32) : List F32 :=
  if n = 1 then x
  else if n = 2 then
    let a := x.getD 0 F32.zero
    let b := x.getD 1 F32.zero
    [a.add b, a.sub b]
  else match num with
    | .ref => refInverse n x
    | .unspecified => openTransform true n x

/-! ### Commands -/

/-- `ispow2(n)` (00_scope.md R8). -/
def isPow2 (n : Nat) : Bool := decide (n ≠ 0) && n == 1 <<< F32.topBit n

/-- `need_len(n)` holds (R141). -/
def goodLength (n : Nat) : Bool := decide (n ≤ Config.nmax) && isPow2 n

/-- DCT1D and IDCT1D, `f` the 1-D transform (R139, R140). -/
def plan1d (f : Numerics → Nat → List F32 → List F32) (s : State) : Verdict :=
  let src := s.operand 0
  let dst := s.operand 1
  let n := s.operand 2
  if goodLength n = false then .raises .invalidLength
  else if s.params.sramWords < src + n ∨ s.params.sramWords < dst + n then .raises .outOfRange
  else .runs (.store [(dst, (f s.params.numerics n ((s.sramRun src n).map F32.ofWord)).map F32.toWord)])

/-- DCT1D (R139). -/
def planDct1d (s : State) : Verdict := plan1d dct1 s

/-- DCT1D (R139). -/
def execDct1d (s : State) : Host.Outcome State Fault Refusal := settle (planDct1d s) s

/-- IDCT1D (R140). -/
def planIdct1d (s : State) : Verdict := plan1d idct1 s

/-- IDCT1D (R140). -/
def execIdct1d (s : State) : Host.Outcome State Fault Refusal := settle (planIdct1d s) s

end Sys2Proof.Machine
end

