-- ==== Sys2Proof/Machine/Dct2d.lean ====
section
/-! DEFINITION. The separable 2-D transforms (42_dct2d.md R152) and the commands DCT2D and IDCT2D (R153, R154). A 2-D array
is the list of its rows: `A(x, y)` is entry x of row y (00_scope.md R11). -/

namespace Sys2Proof.Machine

/-- A 2-D array of f32, row by row. -/
abbrev Block := List (List F32)

/-- `B(x, y)`: column x, row y. -/
def Block.at (b : Block) (x y : Nat) : F32 := (b.getD y []).getD x F32.zero

/-- The w-wide, h-high array of `f x y`. -/
def tabulate (w h : Nat) (f : Nat → Nat → F32) : Block := tab h fun y => tab w fun x => f x y

/-- The `w` columns of an array, each as a list: the transpose, which moves values bit for bit (R152). -/
def transpose (w : Nat) (b : Block) : Block := tab w fun x => b.map fun row => row.getD x F32.zero

/-- The fixed pass order of R152 for a 1-D transform `f`: rows first where `w >= h`, columns first otherwise. -/
def separable (f : Nat → List F32 → List F32) (w h : Nat) (b : Block) : Block :=
  if h ≤ w then transpose h ((transpose w (b.map (f w))).map (f h))
  else (transpose h ((transpose w b).map (f h))).map (f w)

/-- `DCT2_f(W, H, P)` (R152). -/
def dct2 (num : Numerics) (w h : Nat) (b : Block) : Block := separable (dct1 num) w h b

/-- `IDCT2_f(W, H, C)` (R152). -/
def idct2 (num : Numerics) (w h : Nat) (b : Block) : Block := separable (idct1 num) w h b

/-- The samples of a descriptor's logical region as f32 values (R153). -/
def State.block (s : State) (x : Desc) : Block := (s.regionWords x).map fun row => row.map F32.ofWord

/-- Writes an array to a descriptor's logical region, position (x, y) to sample (x, y) (R158). -/
def Desc.blockRuns (x : Desc) (b : Block) : List Run := x.regionRuns (b.map fun row => row.map F32.toWord)

/-- DCT2D and IDCT2D, `f` the 2-D transform (R153, R154). -/
def plan2d (f : Numerics → Nat → Nat → Block → Block) (d : Slot) (s : State) : Verdict :=
  withDesc d s fun x =>
    if goodLength x.w = false ∨ goodLength x.h = false then .raises .invalidLength
    else onMap x s (.runs (.store (x.blockRuns (f s.params.numerics x.w x.h (s.block x)))))

/-- DCT2D (R153). -/
def planDct2d (d : Slot) (s : State) : Verdict := plan2d dct2 d s

/-- DCT2D (R153). -/
def execDct2d (d : Slot) (s : State) : Host.Outcome State Fault Refusal := settle (planDct2d d s) s

/-- IDCT2D (R154). -/
def planIdct2d (d : Slot) (s : State) : Verdict := plan2d idct2 d s

/-- IDCT2D (R154). -/
def execIdct2d (d : Slot) (s : State) : Host.Outcome State Fault Refusal := settle (planIdct2d d s) s

end Sys2Proof.Machine
end

