-- ==== Sys2Proof/Machine/Paths.lean ====
section
/-! DEFINITION. The fixed 8 x 8 paths of the dispatcher as functions of the coefficient block: `AUX2` and `PATH[tt]`
(43_dispatch.md R167, R169 to R178). Each takes the build's parameters, of which it uses NUMERICS, the Hornuss switch or
the AFV basis. -/

namespace Sys2Proof.Machine

/-- `AUX2(B, s)` (R167): only the s x s top-left region changes. Output (x, y) belongs to the super-cell (x/2, y/2); the
result that differences c10 lies at the horizontally adjacent output. -/
def aux2 (b : Block) (s : Nat) : Block :=
  tabulate 8 8 fun x y =>
    if x < s ∧ y < s then
      let num := s / 2
      let c00 := b.at (x / 2) (y / 2)
      let c01 := b.at (x / 2 + num) (y / 2)
      let c10 := b.at (x / 2) (y / 2 + num)
      let c11 := b.at (x / 2 + num) (y / 2 + num)
      if x % 2 = 0 then
        if y % 2 = 0 then ((c00.add c01).add c10).add c11 else ((c00.sub c01).add c10).sub c11
      else
        if y % 2 = 0 then ((c00.add c01).sub c10).sub c11 else ((c00.sub c01).sub c10).add c11
    else b.at x y

/-- `PATH[2]`: three nested passes (R169). -/
def pathDct2 (_ : Params) (b : Block) : Block := aux2 (aux2 (aux2 b 2) 4) 8

/-- Puts four 4 x 4 quadrants together: quadrant (qx, qy) at pixels `4*qx .., 4*qy ..`. -/
def fromQuadrants (q : Nat → Nat → Block) : Block :=
  let q00 := q 0 0
  let q10 := q 1 0
  let q01 := q 0 1
  let q11 := q 1 1
  tabulate 8 8 fun x y =>
    if y < 4 then (if x < 4 then q00.at x y else q10.at (x - 4) y)
    else (if x < 4 then q01.at x (y - 4) else q11.at (x - 4) (y - 4))

/-- The stride-2 extraction of quadrant (qx, qy) (R170). -/
def quadrant (b : Block) (qx qy : Nat) : Block := tabulate 4 4 fun ix iy => b.at (qx + 2 * ix) (qy + 2 * iy)

/-- `PATH[3]` (R170). -/
def pathDct4 (p : Params) (b : Block) : Block :=
  let b1 := aux2 b 2
  fromQuadrants fun qx qy => idct2 p.numerics 4 4 (quadrant b1 qx qy)

/-- The Hornuss mixing of one quadrant, its 16 values in row-major order (R171). -/
def hornussMix (excludes5 : Bool) (s : List F32) : List F32 :=
  let at_ := fun i => s.getD i F32.zero
  let terms := (List.range 15).map (· + 1) |>.filter fun i => !(i == 5 && excludes5)
  let total := terms.foldl (fun acc i => acc.add (at_ i)) F32.zero
  let avg := (at_ 0).sub (total.mul F32.sixteenth)
  tab 16 fun i => if i = 0 then (at_ 5).add avg else if i = 5 then avg else (at_ i).add avg

/-- A list of 16 values in row-major order as a 4 x 4 block. -/
def block4 (l : List F32) : Block := tabulate 4 4 fun x y => l.getD (y * 4 + x) F32.zero

/-- `PATH[1]` (R171). -/
def pathHornuss (p : Params) (b : Block) : Block :=
  let b1 := aux2 b 2
  fromQuadrants fun qx qy => block4 (hornussMix p.hornussSumExcludes5 (quadrant b1 qx qy).flatten)

/-- The 8-wide, 4-high sub-layout h of DCT4X8 and DCT8X4: rows h, h+2, h+4, h+6 with `dc[h]` at (0, 0) (R172). -/
def halfLayout (b : Block) (h : Nat) : Block :=
  let dc := if h = 0 then (b.at 0 0).add (b.at 0 1) else (b.at 0 0).sub (b.at 0 1)
  tabulate 8 4 fun u v => if u = 0 ∧ v = 0 then dc else b.at u (h + 2 * v)

/-- `PATH[12]`: half h at rows 4h .. 4h+3 (R172). -/
def pathDct4X8 (p : Params) (b : Block) : Block :=
  idct2 p.numerics 8 4 (halfLayout b 0) ++ idct2 p.numerics 8 4 (halfLayout b 1)

/-- `PATH[13]`: half h, transposed before its transform, at columns 4h .. 4h+3 (R173). -/
def pathDct8X4 (p : Params) (b : Block) : Block :=
  let half := fun h => idct2 p.numerics 4 8 (transpose 8 (halfLayout b h))
  List.zipWith (· ++ ·) (half 0) (half 1)

/-- `AFV_BASIS[j][i]`: the instance's table, or the open value (R174, 91_not_in_source.md N9). -/
def afvBasisEntry (p : Params) (j i : Nat) : F32 :=
  match p.afvBasis with
  | some t => F32.ofWord (t.getD (16 * j + i) 0)
  | none =>
    let e := Config.afvEntry j i
    F32.ofWord (BitVec.ofNat 32 (F32.signPart e.1 + e.2.val))

/-- `blk[i]`: the dot product of the 16 coefficients with basis column i, increasing j (R174 (a)). -/
def afvSample (p : Params) (cf : List F32) (i : Nat) : F32 :=
  (List.range 16).foldl (fun acc j => acc.add ((cf.getD j F32.zero).mul (afvBasisEntry p j i))) F32.zero

/-- The three DC terms `dcs0`, `dcs1`, `dcs2` (R174). -/
def afvDc (b : Block) : F32 × F32 × F32 :=
  let c00 := b.at 0 0
  let c01 := b.at 1 0
  let c10 := b.at 0 1
  (((c00.add c10).add c01).mul F32.four, (c00.add c10).sub c01, c00.sub c10)

/-- Part (a): the 16 samples of the AFV quadrant from the (even, even) coefficients, unflipped (R174). -/
def afvQuadrant (p : Params) (b : Block) : List F32 :=
  let cf := tab 16 fun i => if i = 0 then (afvDc b).1 else b.at (2 * (i % 4)) (2 * (i / 4))
  tab 16 (afvSample p cf)

/-- Part (b): the 4 x 4 inverse transform of the (odd, even) coefficients (R174). -/
def afvQ4 (p : Params) (b : Block) : Block :=
  idct2 p.numerics 4 4
    (tabulate 4 4 fun ix iy => if ix = 0 ∧ iy = 0 then (afvDc b).2.1 else b.at (2 * ix + 1) (2 * iy))

/-- Part (c): the 8-wide, 4-high inverse transform of the odd rows (R174). -/
def afvQ8 (p : Params) (b : Block) : Block :=
  idct2 p.numerics 8 4
    (tabulate 8 4 fun ix iy => if ix = 0 ∧ iy = 0 then (afvDc b).2.2 else b.at ix (2 * iy + 1))

/-- `AFV(B, kind)` (R174): flip flags `afv_x = kind mod 2` and `afv_y = kind div 2`. -/
def afv (kind : Nat) (p : Params) (b : Block) : Block :=
  let fx := kind % 2
  let fy := kind / 2
  let blk := afvQuadrant p b
  let q4 := afvQ4 p b
  let q8 := afvQ8 p b
  tabulate 8 8 fun x y =>
    if y / 4 = fy then
      if x / 4 = fx then
        let ix := x - 4 * fx
        let iy := y - 4 * fy
        blk.getD ((if fy = 1 then 3 - iy else iy) * 4 + (if fx = 1 then 3 - ix else ix)) F32.zero
      else q4.at (x - (if fx = 1 then 0 else 4)) (y - 4 * fy)
    else q8.at x (y - (if fy = 1 then 0 else 4))

/-- `PATH[14]` (R175). -/
def pathAfv0 (p : Params) (b : Block) : Block := afv 0 p b

/-- `PATH[15]` (R176). -/
def pathAfv1 (p : Params) (b : Block) : Block := afv 1 p b

/-- `PATH[16]` (R177). -/
def pathAfv2 (p : Params) (b : Block) : Block := afv 2 p b

/-- `PATH[17]` (R178). -/
def pathAfv3 (p : Params) (b : Block) : Block := afv 3 p b

end Sys2Proof.Machine
end

