-- ==== Sys2Proof/Machine/Itx.lean ====
section
/-! DEFINITION. The dispatcher ITX (43_dispatch.md): the checks common to every tag (R165), the fixed 8 x 8 tags (R168 to
R178), the general path with reallocation (R179 to R197) and the unsupported tags (R198). -/

namespace Sys2Proof.Machine

/-- The checks of R165 before a supported tag's own: BAD_DESC, then DIM_MISMATCH where the declared target is not the
tag's. -/
def withTarget (tt : Nat) (d : Slot) (s : State) (rest : Desc → Verdict) : Verdict :=
  withDesc d s fun x => if (s.operand 0, s.operand 1) ≠ s.params.ttDim tt then .raises .dimMismatch else rest x

/-- A fixed tag (R165, R168): the descriptor must be 8 x 8, and `path` is `PATH[tt]`. -/
def planFixed (tt : Nat) (path : Params → Block → Block) (d : Slot) (s : State) : Verdict :=
  withTarget tt d s fun x =>
    if x.w ≠ 8 ∨ x.h ≠ 8 then .raises .dimMismatch
    else onMap x s (.runs (.store (x.blockRuns (path s.params (s.block x)))))

/-- An unsupported tag (R198): BAD_DESC has priority, ARG0 and ARG1 are not examined. -/
def planUnsupported (d : Slot) (s : State) : Verdict := withDesc d s fun _ => .raises .unsupportedTt

/-! ### The general path (R179) -/

/-- Cuts the first `n * w` entries of a list into `n` rows of `w`. -/
def chunks (w : Nat) : Nat → List F32 → Block
  | 0, _ => []
  | n + 1, l => l.take w :: chunks w n (l.drop w)

/-- The flat copy `Fl`: the current block row by row, the first `n` samples of it, zero-filled where it is shorter. -/
def flatCopy (n : Nat) (b : Block) : List F32 := (b.flatten ++ List.replicate n F32.zero).take n

/-- The coefficient array from the flat copy: `C(u, v) = Fl[u*H + v]` for a tall block under LONG_AXIS_ROWS, otherwise
`C(u, v) = Fl[v*W + u]`. -/
def coefficients (layout : CoeffLayout) (w h : Nat) (flat : List F32) : Block :=
  if layout = .longAxisRows ∧ w < h then transpose h (chunks h w flat) else chunks w h flat

/-- The samples `P = IDCT2_f(W, H, C)` of the general path. -/
def generalSamples (p : Params) (w h : Nat) (b : Block) : Block :=
  idct2 p.numerics w h (coefficients p.coeffLayout w h (flatCopy (w * h) b))

/-- The descriptor of a reallocated grid: same BASE and OFFSET, the new footprint. -/
def Desc.reallocated (x : Desc) (w h : Nat) : Desc :=
  .make .grid x.base.toNat x.offset.toNat w h w (x.offset.toNat + w * h)

/-- A general tag: `GENERAL(d, W, H)` with (W, H) the tag's target. A grid of another footprint is reallocated in place, a
view of another footprint faults. -/
def planGeneral (tt : Nat) (d : Slot) (s : State) : Verdict :=
  withTarget tt d s fun x =>
    let w := (s.params.ttDim tt).1
    let h := (s.params.ttDim tt).2
    if (x.w, x.h) = (w, h) then
      onMap x s (.runs (.store (x.blockRuns (generalSamples s.params w h (s.block x)))))
    else if x.kind = .view then .raises .dimMismatch
    else if s.params.sramWords < x.origin + w * h then .raises .outOfRange
    else
      let x' := x.reallocated w h
      onMap x s (.runs (.define d x' (x'.blockRuns (generalSamples s.params w h (s.block x)))))

/-! ### One plan and one meaning per tag -/

/-- ITX.DCT8 (R180). -/
def planItxDct8 (d : Slot) (s : State) : Verdict := planGeneral 0 d s

/-- ITX.DCT8 (R180). -/
def execItxDct8 (d : Slot) (s : State) : Host.Outcome State Fault Refusal := settle (planItxDct8 d s) s

/-- ITX.HORNUSS (R171). -/
def planItxHornuss (d : Slot) (s : State) : Verdict := planFixed 1 pathHornuss d s

/-- ITX.HORNUSS (R171). -/
def execItxHornuss (d : Slot) (s : State) : Host.Outcome State Fault Refusal := settle (planItxHornuss d s) s

/-- ITX.DCT2 (R169). -/
def planItxDct2 (d : Slot) (s : State) : Verdict := planFixed 2 pathDct2 d s

/-- ITX.DCT2 (R169). -/
def execItxDct2 (d : Slot) (s : State) : Host.Outcome State Fault Refusal := settle (planItxDct2 d s) s

/-- ITX.DCT4 (R170). -/
def planItxDct4 (d : Slot) (s : State) : Verdict := planFixed 3 pathDct4 d s

/-- ITX.DCT4 (R170). -/
def execItxDct4 (d : Slot) (s : State) : Host.Outcome State Fault Refusal := settle (planItxDct4 d s) s

/-- ITX.DCT16 (R181). -/
def planItxDct16 (d : Slot) (s : State) : Verdict := planGeneral 4 d s

/-- ITX.DCT16 (R181). -/
def execItxDct16 (d : Slot) (s : State) : Host.Outcome State Fault Refusal := settle (planItxDct16 d s) s

/-- ITX.DCT32 (R182). -/
def planItxDct32 (d : Slot) (s : State) : Verdict := planGeneral 5 d s

/-- ITX.DCT32 (R182). -/
def execItxDct32 (d : Slot) (s : State) : Host.Outcome State Fault Refusal := settle (planItxDct32 d s) s

/-- ITX.DCT16X8 (R183). -/
def planItxDct16X8 (d : Slot) (s : State) : Verdict := planGeneral 6 d s

/-- ITX.DCT16X8 (R183). -/
def execItxDct16X8 (d : Slot) (s : State) : Host.Outcome State Fault Refusal := settle (planItxDct16X8 d s) s

/-- ITX.DCT8X16 (R184). -/
def planItxDct8X16 (d : Slot) (s : State) : Verdict := planGeneral 7 d s

/-- ITX.DCT8X16 (R184). -/
def execItxDct8X16 (d : Slot) (s : State) : Host.Outcome State Fault Refusal := settle (planItxDct8X16 d s) s

/-- ITX.DCT32X8 (R185). -/
def planItxDct32X8 (d : Slot) (s : State) : Verdict := planGeneral 8 d s

/-- ITX.DCT32X8 (R185). -/
def execItxDct32X8 (d : Slot) (s : State) : Host.Outcome State Fault Refusal := settle (planItxDct32X8 d s) s

/-- ITX.DCT8X32 (R186). -/
def planItxDct8X32 (d : Slot) (s : State) : Verdict := planGeneral 9 d s

/-- ITX.DCT8X32 (R186). -/
def execItxDct8X32 (d : Slot) (s : State) : Host.Outcome State Fault Refusal := settle (planItxDct8X32 d s) s

/-- ITX.DCT32X16 (R187). -/
def planItxDct32X16 (d : Slot) (s : State) : Verdict := planGeneral 10 d s

/-- ITX.DCT32X16 (R187). -/
def execItxDct32X16 (d : Slot) (s : State) : Host.Outcome State Fault Refusal := settle (planItxDct32X16 d s) s

/-- ITX.DCT16X32 (R188). -/
def planItxDct16X32 (d : Slot) (s : State) : Verdict := planGeneral 11 d s

/-- ITX.DCT16X32 (R188). -/
def execItxDct16X32 (d : Slot) (s : State) : Host.Outcome State Fault Refusal := settle (planItxDct16X32 d s) s

/-- ITX.DCT4X8 (R172). -/
def planItxDct4X8 (d : Slot) (s : State) : Verdict := planFixed 12 pathDct4X8 d s

/-- ITX.DCT4X8 (R172). -/
def execItxDct4X8 (d : Slot) (s : State) : Host.Outcome State Fault Refusal := settle (planItxDct4X8 d s) s

/-- ITX.DCT8X4 (R173). -/
def planItxDct8X4 (d : Slot) (s : State) : Verdict := planFixed 13 pathDct8X4 d s

/-- ITX.DCT8X4 (R173). -/
def execItxDct8X4 (d : Slot) (s : State) : Host.Outcome State Fault Refusal := settle (planItxDct8X4 d s) s

/-- ITX.AFV0 (R175). -/
def planItxAfv0 (d : Slot) (s : State) : Verdict := planFixed 14 pathAfv0 d s

/-- ITX.AFV0 (R175). -/
def execItxAfv0 (d : Slot) (s : State) : Host.Outcome State Fault Refusal := settle (planItxAfv0 d s) s

/-- ITX.AFV1 (R176). -/
def planItxAfv1 (d : Slot) (s : State) : Verdict := planFixed 15 pathAfv1 d s

/-- ITX.AFV1 (R176). -/
def execItxAfv1 (d : Slot) (s : State) : Host.Outcome State Fault Refusal := settle (planItxAfv1 d s) s

/-- ITX.AFV2 (R177). -/
def planItxAfv2 (d : Slot) (s : State) : Verdict := planFixed 16 pathAfv2 d s

/-- ITX.AFV2 (R177). -/
def execItxAfv2 (d : Slot) (s : State) : Host.Outcome State Fault Refusal := settle (planItxAfv2 d s) s

/-- ITX.AFV3 (R178). -/
def planItxAfv3 (d : Slot) (s : State) : Verdict := planFixed 17 pathAfv3 d s

/-- ITX.AFV3 (R178). -/
def execItxAfv3 (d : Slot) (s : State) : Host.Outcome State Fault Refusal := settle (planItxAfv3 d s) s

/-- ITX.DCT64 (R189). -/
def planItxDct64 (d : Slot) (s : State) : Verdict := planGeneral 18 d s

/-- ITX.DCT64 (R189). -/
def execItxDct64 (d : Slot) (s : State) : Host.Outcome State Fault Refusal := settle (planItxDct64 d s) s

/-- ITX.DCT64X32 (R190). -/
def planItxDct64X32 (d : Slot) (s : State) : Verdict := planGeneral 19 d s

/-- ITX.DCT64X32 (R190). -/
def execItxDct64X32 (d : Slot) (s : State) : Host.Outcome State Fault Refusal := settle (planItxDct64X32 d s) s

/-- ITX.DCT32X64 (R191). -/
def planItxDct32X64 (d : Slot) (s : State) : Verdict := planGeneral 20 d s

/-- ITX.DCT32X64 (R191). -/
def execItxDct32X64 (d : Slot) (s : State) : Host.Outcome State Fault Refusal := settle (planItxDct32X64 d s) s

/-- ITX.DCT128 (R192). -/
def planItxDct128 (d : Slot) (s : State) : Verdict := planGeneral 21 d s

/-- ITX.DCT128 (R192). -/
def execItxDct128 (d : Slot) (s : State) : Host.Outcome State Fault Refusal := settle (planItxDct128 d s) s

/-- ITX.DCT128X64 (R193). -/
def planItxDct128X64 (d : Slot) (s : State) : Verdict := planGeneral 22 d s

/-- ITX.DCT128X64 (R193). -/
def execItxDct128X64 (d : Slot) (s : State) : Host.Outcome State Fault Refusal := settle (planItxDct128X64 d s) s

/-- ITX.DCT64X128 (R194). -/
def planItxDct64X128 (d : Slot) (s : State) : Verdict := planGeneral 23 d s

/-- ITX.DCT64X128 (R194). -/
def execItxDct64X128 (d : Slot) (s : State) : Host.Outcome State Fault Refusal := settle (planItxDct64X128 d s) s

/-- ITX.DCT256 (R195). -/
def planItxDct256 (d : Slot) (s : State) : Verdict := planGeneral 24 d s

/-- ITX.DCT256 (R195). -/
def execItxDct256 (d : Slot) (s : State) : Host.Outcome State Fault Refusal := settle (planItxDct256 d s) s

/-- ITX.DCT256X128 (R196). -/
def planItxDct256X128 (d : Slot) (s : State) : Verdict := planGeneral 25 d s

/-- ITX.DCT256X128 (R196). -/
def execItxDct256X128 (d : Slot) (s : State) : Host.Outcome State Fault Refusal := settle (planItxDct256X128 d s) s

/-- ITX.DCT128X256 (R197). -/
def planItxDct128X256 (d : Slot) (s : State) : Verdict := planGeneral 26 d s

/-- ITX.DCT128X256 (R197). -/
def execItxDct128X256 (d : Slot) (s : State) : Host.Outcome State Fault Refusal := settle (planItxDct128X256 d s) s

/-- ITX.UNSUPPORTED27 (R198). -/
def planItxUnsupported27 (d : Slot) (s : State) : Verdict := planUnsupported d s

/-- ITX.UNSUPPORTED27 (R198). -/
def execItxUnsupported27 (d : Slot) (s : State) : Host.Outcome State Fault Refusal := settle (planItxUnsupported27 d s) s

/-- ITX.UNSUPPORTED28_31 (R198): the tag is one of 28 to 31. -/
def planItxUnsupported28_31 (d : Slot) (_ : Fin 32) (s : State) : Verdict := planUnsupported d s

/-- ITX.UNSUPPORTED28_31 (R198). -/
def execItxUnsupported28_31 (d : Slot) (tt : Fin 32) (s : State) : Host.Outcome State Fault Refusal :=
  settle (planItxUnsupported28_31 d tt s) s

end Sys2Proof.Machine
end

