-- ==== Sys2Proof/Machine/WriteSet.lean ====
section
/-! DEFINITION. The plan of every command, and the write set of the running command that a reset abandons
(70_reset_and_hazards.md R252). -/

namespace Sys2Proof.Machine

/-- What each command's checks come to. -/
def planOf (i : Instr) (s : State) : Verdict :=
  match i with
  | .gridNew d => planGridNew d s
  | .viewNew d => planViewNew d s
  | .getSample d => planGetSample d s
  | .setSample d => planSetSample d s
  | .swap d => planSwap d s
  | .widenQ d => planWidenQ d s
  | .free d => planFree d s
  | .dct1d => planDct1d s
  | .idct1d => planIdct1d s
  | .dct2d d => planDct2d d s
  | .idct2d d => planIdct2d d s
  | .itxDct8 d => planItxDct8 d s
  | .itxHornuss d => planItxHornuss d s
  | .itxDct2 d => planItxDct2 d s
  | .itxDct4 d => planItxDct4 d s
  | .itxDct16 d => planItxDct16 d s
  | .itxDct32 d => planItxDct32 d s
  | .itxDct16X8 d => planItxDct16X8 d s
  | .itxDct8X16 d => planItxDct8X16 d s
  | .itxDct32X8 d => planItxDct32X8 d s
  | .itxDct8X32 d => planItxDct8X32 d s
  | .itxDct32X16 d => planItxDct32X16 d s
  | .itxDct16X32 d => planItxDct16X32 d s
  | .itxDct4X8 d => planItxDct4X8 d s
  | .itxDct8X4 d => planItxDct8X4 d s
  | .itxAfv0 d => planItxAfv0 d s
  | .itxAfv1 d => planItxAfv1 d s
  | .itxAfv2 d => planItxAfv2 d s
  | .itxAfv3 d => planItxAfv3 d s
  | .itxDct64 d => planItxDct64 d s
  | .itxDct64X32 d => planItxDct64X32 d s
  | .itxDct32X64 d => planItxDct32X64 d s
  | .itxDct128 d => planItxDct128 d s
  | .itxDct128X64 d => planItxDct128X64 d s
  | .itxDct64X128 d => planItxDct64X128 d s
  | .itxDct256 d => planItxDct256 d s
  | .itxDct256X128 d => planItxDct256X128 d s
  | .itxDct128X256 d => planItxDct128X256 d s
  | .itxUnsupported27 d => planItxUnsupported27 d s
  | .itxUnsupported28_31 d tt => planItxUnsupported28_31 d tt s

/-- The runs a plan would write; a command that would have faulted writes nothing (R252). -/
def Verdict.writes : Verdict → List Run
  | .runs p => p.writes
  | .raises _ => []
  | .offMap _ => []

/-- The write set of the latched command: the runs it would have written had it completed (R252). -/
def State.writeSet (s : State) : List Run :=
  match decode s.lcmd with
  | .instr i => (planOf i s).writes
  | .rejected _ => []

end Sys2Proof.Machine
end

