-- ==== Sys2Proof/Machine/Reset.lean ====
section
/-! DEFINITION. Hard and soft reset (70_reset_and_hazards.md R250 to R253), the only way out of the ERROR state
(60_exceptions.md R234). -/

namespace Sys2Proof.Machine

/-- The open bytes a run of an abandoned write set holds after the reset (R252). -/
def State.abandonedBytes (s : State) (r : Run) : List Byte :=
  tab (4 * r.2.length) fun j => Config.abandonedByte s.abandons (4 * r.1 + j)

/-- A reset while BUSY abandons the running command: every word of its write set becomes open, every other word keeps its
value (R252; notes/assumptions/4.md). -/
def State.abandon (s : State) : State :=
  if s.engine = .busy then
    { s with
      sram := s.writeSet.foldl (fun m r => m.putBytes (4 * r.1) (s.abandonedBytes r)) s.sram
      abandons := s.abandons + 1 }
  else s

/-- Soft reset: a CTRL write with bit 0 = 1 (R251). Sample memory, LCMD and LARG stay, but for an abandoned write set. -/
def State.softReset (s : State) : State := s.abandon.clearRegisters

/-- Hard reset: power-on or the reset input (R250). Sample memory is open again; the bus and its last response are the
host's. -/
def State.hardReset (s : State) : State :=
  { State.resetWith s.params with
    powerOns := s.powerOns + 1, abandons := s.abandons, bus := s.bus, response := s.response }

end Sys2Proof.Machine
end

