-- ==== Sys2Proof/Machine/Bus.lean ====
section
/-! DEFINITION. The host's accesses: the register map (10_state.md R20 to R39, R48), command submission (30_encoding.md
R87), and word accesses to sample memory (20_memory.md R50 to R57). -/

namespace Sys2Proof.Machine

/-- KIND as the host reads it (R39). -/
def Kind.code : Kind → Word
  | .empty => 0
  | .grid => 1
  | .view => 2

/-- Word `f` of a descriptor slot, f = 0 .. 7; the eighth is reserved and reads 0 (R39). -/
def Desc.field (x : Desc) (f : Nat) : Word :=
  match f with
  | 0 => x.kind.code
  | 1 => x.base
  | 2 => x.offset
  | 3 => x.width
  | 4 => x.height
  | 5 => x.stride
  | 6 => x.len
  | _ => 0

/-- The register read at an aligned offset of the window (R20 to R39); every other offset reads 0 (R48). No read has a
side effect (20_memory.md R57). -/
def State.readRegister (s : State) (off : Nat) : Word :=
  match off with
  | 0x000 => 0x4A584F54
  | 0x004 => 0x00010000
  | 0x008 => s.ctrlWord
  | 0x00C => s.statusWord
  | 0x010 => s.causeWord
  | 0x014 => s.fcmd
  | 0x018 => 0
  | 0x01C => s.cmdcnt
  | 0x020 => s.arg[0]
  | 0x024 => s.arg[1]
  | 0x028 => s.arg[2]
  | 0x02C => s.arg[3]
  | 0x030 => s.arg[4]
  | 0x034 => s.arg[5]
  | 0x038 => s.rdata
  | 0x03C => cfgWordOf s.params
  | _ =>
    if h : 0x100 ≤ off ∧ off < 0x300 then (s.desc[(off - 0x100) / 32]'(by omega)).field (off % 32 / 4) else 0

/-- A CMD write (30_encoding.md R87): rejected where BUSY or ERR is 1, otherwise the word and the operand registers are
latched, DONE is cleared and the engine is BUSY. -/
def State.submit (w : Word) (s : State) : State :=
  if s.engine = .idle then { s with lcmd := w, larg := s.arg, done := false, engine := .busy }
  else { s with rej := true }

/-- ARGi <- v (R36). -/
def State.writeArg (i : Fin 6) (v : Word) (s : State) : State := { s with arg := s.arg.set i v }

/-- The register write at an aligned offset (R20 to R39); writes to read-only registers and to unmapped offsets are
ignored (R48). -/
def State.writeRegister (off : Nat) (v : Word) (s : State) : State :=
  match off with
  | 0x008 => if v.getLsbD 0 then s.softReset else s.writeEnables v
  | 0x00C => s.writeStatus v
  | 0x018 => s.submit v
  | 0x020 => s.writeArg 0 v
  | 0x024 => s.writeArg 1 v
  | 0x028 => s.writeArg 2 v
  | 0x02C => s.writeArg 3 v
  | 0x030 => s.writeArg 4 v
  | 0x034 => s.writeArg 5 v
  | _ => s

/-- The host writes word `S[a]` (20_memory.md R57). -/
def State.writeSram (a : Nat) (v : Word) (s : State) : State := { s with sram := s.sram.putRun (a, [v]) }

/-- The size of a window in bytes (20_memory.md R50). -/
def windowBytes (p : Params) : Window → Nat
  | .registers => Config.registerBytes
  | .sram => 4 * p.sramWords

/-- The host byte address of a window (20_memory.md R50). -/
def Window.base : Window → Nat
  | .registers => Config.regBase
  | .sram => Config.sramBase

/-- The host byte address an access is made at: `REG_BASE + off` or `SRAM_BASE + 4*a` (20_memory.md R50). What the block
does depends on the window and the offset alone (20_memory.md R59). -/
def Access.hostAddress (a : Access) : Nat := a.window.base + a.offset

/-- The access lies in its window, is 32 bits wide and 4-byte aligned (20_memory.md R51). -/
def Access.wordAligned (a : Access) (p : Params) : Bool :=
  decide (a.offset < windowBytes p a.window) && a.bytes == 4 && a.offset % 4 == 0

/-- A host access to sample memory is held while BUSY = 1 (20_memory.md R55). Register accesses never are (R56). -/
def State.holds (s : State) (a : Access) : Bool :=
  s.busy && decide (a.window = .sram) && a.wordAligned s.params

/-- An aligned word access to the block, carried out and answered (R20 to R48, 20_memory.md R57). -/
def State.wordAccess (s : State) (a : Access) : State :=
  match a.window, a.write with
  | .registers, none => { s with response := some (.readData (s.readRegister a.offset)) }
  | .registers, some v => { s.writeRegister a.offset v with response := some .written }
  | .sram, none => { s with response := some (.readData (s.sramWord (a.offset / 4))) }
  | .sram, some v => { s.writeSram (a.offset / 4) v with response := some .written }

/-- A host access that is not held: an access outside the window is not the block's; one of the wrong width or alignment
gets a bus error and changes nothing (20_memory.md R51, 60_exceptions.md R243). -/
def State.access (s : State) (a : Access) : State :=
  if windowBytes s.params a.window ≤ a.offset then { s with response := some .unclaimed }
  else if a.wordAligned s.params = false then { s with response := some .busError }
  else s.wordAccess a

end Sys2Proof.Machine
end

