-- ==== Sys2Proof/Machine/Dispatch.lean ====
section
/-! DEFINITION. One arm per command. -/

namespace Sys2Proof.Machine

def exec (i : Instr) (s : State) : Host.Outcome State Fault Refusal :=
  match i with
  | .gridNew d => Sys2Proof.Machine.execGridNew d s
  | .viewNew d => Sys2Proof.Machine.execViewNew d s
  | .getSample d => Sys2Proof.Machine.execGetSample d s
  | .setSample d => Sys2Proof.Machine.execSetSample d s
  | .swap d => Sys2Proof.Machine.execSwap d s
  | .widenQ d => Sys2Proof.Machine.execWidenQ d s
  | .free d => Sys2Proof.Machine.execFree d s
  | .dct1d => Sys2Proof.Machine.execDct1d s
  | .idct1d => Sys2Proof.Machine.execIdct1d s
  | .dct2d d => Sys2Proof.Machine.execDct2d d s
  | .idct2d d => Sys2Proof.Machine.execIdct2d d s
  | .itxDct8 d => Sys2Proof.Machine.execItxDct8 d s
  | .itxHornuss d => Sys2Proof.Machine.execItxHornuss d s
  | .itxDct2 d => Sys2Proof.Machine.execItxDct2 d s
  | .itxDct4 d => Sys2Proof.Machine.execItxDct4 d s
  | .itxDct16 d => Sys2Proof.Machine.execItxDct16 d s
  | .itxDct32 d => Sys2Proof.Machine.execItxDct32 d s
  | .itxDct16X8 d => Sys2Proof.Machine.execItxDct16X8 d s
  | .itxDct8X16 d => Sys2Proof.Machine.execItxDct8X16 d s
  | .itxDct32X8 d => Sys2Proof.Machine.execItxDct32X8 d s
  | .itxDct8X32 d => Sys2Proof.Machine.execItxDct8X32 d s
  | .itxDct32X16 d => Sys2Proof.Machine.execItxDct32X16 d s
  | .itxDct16X32 d => Sys2Proof.Machine.execItxDct16X32 d s
  | .itxDct4X8 d => Sys2Proof.Machine.execItxDct4X8 d s
  | .itxDct8X4 d => Sys2Proof.Machine.execItxDct8X4 d s
  | .itxAfv0 d => Sys2Proof.Machine.execItxAfv0 d s
  | .itxAfv1 d => Sys2Proof.Machine.execItxAfv1 d s
  | .itxAfv2 d => Sys2Proof.Machine.execItxAfv2 d s
  | .itxAfv3 d => Sys2Proof.Machine.execItxAfv3 d s
  | .itxDct64 d => Sys2Proof.Machine.execItxDct64 d s
  | .itxDct64X32 d => Sys2Proof.Machine.execItxDct64X32 d s
  | .itxDct32X64 d => Sys2Proof.Machine.execItxDct32X64 d s
  | .itxDct128 d => Sys2Proof.Machine.execItxDct128 d s
  | .itxDct128X64 d => Sys2Proof.Machine.execItxDct128X64 d s
  | .itxDct64X128 d => Sys2Proof.Machine.execItxDct64X128 d s
  | .itxDct256 d => Sys2Proof.Machine.execItxDct256 d s
  | .itxDct256X128 d => Sys2Proof.Machine.execItxDct256X128 d s
  | .itxDct128X256 d => Sys2Proof.Machine.execItxDct128X256 d s
  | .itxUnsupported27 d => Sys2Proof.Machine.execItxUnsupported27 d s
  | .itxUnsupported28_31 d tt => Sys2Proof.Machine.execItxUnsupported28_31 d tt s

end Sys2Proof.Machine
end

