-- ==== Sys2Proof/Machine/Engine.lean ====
section
/-! DEFINITION. The engine step (30_encoding.md R87) and whose turn it is (20_memory.md R61, 70_reset_and_hazards.md R264):
the next bus event where one waits, the engine otherwise. -/

namespace Sys2Proof.Machine

/-- The engine step: decode LCMD, then run the command or fault with ILLEGAL_CMD (R87, 60_exceptions.md R222). -/
def engineStep (s : State) : Host.Outcome State Fault Refusal :=
  match decode s.lcmd with
  | .instr i => exec i s
  | .rejected _ => .next (s.faultEntry .illegalCmd)

/-- The engine's turn: one whole command where it is BUSY; it runs nothing on its own (70_reset_and_hazards.md R254). -/
def engineTurn (s : State) : Host.Outcome State Fault Refusal :=
  if s.engine = .busy then engineStep s else .next s

/-- One event of the outside, the rest of the queue already in `s`. -/
def State.eventTurn (s : State) (e : Event) : Host.Outcome State Fault Refusal :=
  match e with
  | .host a => .next (s.access a)
  | .engineTurn => engineTurn s
  | .hardReset => .next s.hardReset

/-- The first event is a held access: it waits, and the engine moves (20_memory.md R55). -/
def State.headHeld (s : State) : Bool :=
  match s.bus with
  | .host a :: _ => s.holds a
  | _ => false

/-- One step of the whole machine. The queue of events is a schedule: an engine turn may stand after any number of host
accesses, and where the queue is empty or its head is held the engine moves, so every accepted command gets its turn
(70_reset_and_hazards.md R264, R265). -/
def turn (s : State) : Host.Outcome State Fault Refusal :=
  match s.bus with
  | [] => engineTurn s
  | e :: rest => if s.headHeld then engineTurn s else State.eventTurn { s with bus := rest } e

/-- The state with word `w` accepted and the engine's turn next: what acceptance does (R87), whatever the engine's state. -/
def State.accepted (w : Word) (s : State) : State :=
  { s with lcmd := w, larg := s.arg, done := false, engine := .busy, bus := .engineTurn :: s.bus }

end Sys2Proof.Machine
end

