-- ==== Sys2Proof/Machine/Step.lean ====
section
/-! DEFINITION. The machine's step, and a command placed where the next step runs it. -/

namespace Sys2Proof.Machine

/-- One step: a bus event or an engine turn. -/
def step : State → Host.Outcome State Fault Refusal := fun s => turn s

/-- `s` with the command word `w` (its bits above `nbits` zero) accepted, as a host write to CMD would have it accepted
(30_encoding.md R87), and the engine's turn first in the queue: the next step runs exactly that command. The block fetches
nothing (20_memory.md R66); the host's CMD write is the load this stands for (notes/assumptions/9.md). -/
def State.withFetchWord (s : State) (nbits w : Nat) : State := s.accepted (BitVec.ofNat 32 (w % 2 ^ nbits))

end Sys2Proof.Machine
end

