-- ==== Sys2Proof/Exact.lean ====
section
/-! DEFINITION. The exact real transforms (00_scope.md R12, 41_dct1d.md R120, R121, 42_dct2d.md R150, R151) and the accuracy
law of `NUMERICS` (41_dct1d.md R127). They are what claims compare the machine with; no step computes them. -/

namespace Sys2Proof.Exact

open Sys2Proof.Machine

/-- The real value of a finite f32 (00_scope.md R10): its units times 2^-149. -/
noncomputable def realOf (x : F32) : ℝ := (x.units : ℝ) / 2 ^ 149

/-- `c_N(k, i) = cos((2*i + 1) * k * pi / (2*N))` (R12). -/
noncomputable def cosBasis (n k i : Nat) : ℝ := Real.cos ((2 * i + 1) * k * Real.pi / (2 * n))

/-- The forward scale `s_N(k)` (R12). -/
noncomputable def scale (n k : Nat) : ℝ := if k = 0 then 1 / n else Real.sqrt 2 / n

/-- The inverse basis `b_N(k, i)` (R12). -/
noncomputable def inverseBasis (n k i : Nat) : ℝ := if k = 0 then 1 else Real.sqrt 2 * cosBasis n k i

/-- `DCT1_exact(n, x)[k]` (R120). -/
noncomputable def dct1Exact (n : Nat) (x : Nat → ℝ) (k : Nat) : ℝ :=
  scale n k * ∑ i ∈ Finset.range n, x i * cosBasis n k i

/-- `IDCT1_exact(n, X)[i]` (R121). -/
noncomputable def idct1Exact (n : Nat) (x : Nat → ℝ) (i : Nat) : ℝ :=
  x 0 + Real.sqrt 2 * ∑ k ∈ Finset.Ico 1 n, x k * cosBasis n k i

/-- `DCT2_exact(W, H, P)(u, v)` (R150). -/
noncomputable def dct2Exact (w h : Nat) (p : Nat → Nat → ℝ) (u v : Nat) : ℝ :=
  scale w u * scale h v *
    ∑ x ∈ Finset.range w, ∑ y ∈ Finset.range h, p x y * cosBasis w u x * cosBasis h v y

/-- `IDCT2_exact(W, H, C)(x, y)` (R151). -/
noncomputable def idct2Exact (w h : Nat) (c : Nat → Nat → ℝ) (x y : Nat) : ℝ :=
  ∑ u ∈ Finset.range w, ∑ v ∈ Finset.range h, c u v * inverseBasis w u x * inverseBasis h v y

/-- The mass `M` of an input: the sum of the absolute values (R127). -/
noncomputable def mass (x : List F32) : ℝ := (x.map fun a => |realOf a|).sum

/-- `TOL(n, M)` (R127). -/
noncomputable def tolerance (eps : ℝ) (n : Nat) (m : ℝ) : ℝ := eps * m + n / 2 ^ 140

/-- The input entries as reals. -/
noncomputable def entries (x : List F32) (i : Nat) : ℝ := realOf (x.getD i F32.zero)

/-- The accuracy law R127 with bound `eps` (`DCT_EPS`), for inputs that are the values of words. A legal build keeps it
(Safety.lean, `Params.Legal.accurate`): the spec gives it of every instance of `NUMERICS`, and of `REF` it is proved
(R137; Laws/RefInverse.lean, `ref_accurate`). -/
def AccuracyLaw (num : Numerics) (eps : ℝ) : Prop :=
  ∀ n, 4 ≤ n → goodLength n = true → ∀ x : List F32, x.length = n → (∀ a ∈ x, a.isFinite = true) →
    (∃ ws : List Word, x = ws.map F32.ofWord) → mass x < 2 ^ 96 →
    ∀ k, k < n →
      (((dct1 num n x).getD k F32.zero).isFinite = true ∧
        |realOf ((dct1 num n x).getD k F32.zero) - dct1Exact n (entries x) k| ≤ tolerance eps n (mass x)) ∧
      (((idct1 num n x).getD k F32.zero).isFinite = true ∧
        |realOf ((idct1 num n x).getD k F32.zero) - idct1Exact n (entries x) k| ≤ tolerance eps n (mass x))

end Sys2Proof.Exact
end

