-- ==== Sys2Proof/Safety.lean ====
section
/-! DEFINITION. What a legal build and a legal state are: the constraints on the parameters (00_scope.md R7, 41_dct1d.md
R127, 43_dispatch.md R166), the descriptor invariants (10_state.md R40), and the state invariant that every step keeps. -/

namespace Sys2Proof.Machine

/-- The tags of the fixed 8 x 8 family (43_dispatch.md R166). -/
def fixedTags : List Nat := [1, 2, 3, 12, 13, 14, 15, 16, 17]

/-- The tags of the general family (43_dispatch.md R166). -/
def generalTags : List Nat := [0, 4, 5, 6, 7, 8, 9, 10, 11, 18, 19, 20, 21, 22, 23, 24, 25, 26]

end Sys2Proof.Machine

namespace Sys2Proof

open Machine

/-- The parameters are ones an instance may have: `SRAM_WORDS` a power of two from 2^17 on (R7), at most 2^31 so that every
descriptor field fits its 32 bits (DEDUCED from 10_state.md R39 and R40; notes/assumptions/1.md); the table `TT_DIMS` as
43_dispatch.md R166 constrains it; a known `AFV_BASIS` of 16 x 16 finite words; an instance of `NUMERICS` that keeps the
accuracy law of 41_dct1d.md R127 with the build's `DCT_EPS` (proved for `REF` with the default in Laws/RefInverse.lean;
notes/assumptions/2.md). -/
structure Params.Legal (p : Params) : Prop where
  sramWords_min : 17 ≤ p.log2SramWords
  sramWords_max : p.log2SramWords ≤ 31
  dims_count : p.ttDims.length = 27
  dims_good : ∀ wh ∈ p.ttDims, goodLength wh.1 = true ∧ goodLength wh.2 = true
  dims_fixed : ∀ tt ∈ fixedTags, p.ttDim tt = (8, 8)
  basis_count : ∀ t, p.afvBasis = some t → t.length = 256
  basis_finite : ∀ t, p.afvBasis = some t → ∀ w ∈ t, (F32.ofWord w).isFinite = true
  accurate : Exact.AccuracyLaw p.numerics p.dctEps

end Sys2Proof

namespace Sys2Proof.Machine

/-- A GRID descriptor keeps its invariants (10_state.md R40). -/
structure Desc.LegalGrid (p : Params) (x : Desc) : Prop where
  width_pos : 1 ≤ x.w
  height_pos : 1 ≤ x.h
  stride_width : x.stride = x.width
  offset_pad : x.offset.toNat = padOf p x.base.toNat
  aligned : x.origin % p.alignWords = 0
  len_eq : x.len.toNat = x.offset.toNat + x.w * x.h
  in_sram : x.base.toNat + x.len.toNat ≤ p.sramWords

/-- A VIEW descriptor keeps its invariants (10_state.md R40). -/
structure Desc.LegalView (p : Params) (x : Desc) : Prop where
  width_pos : 1 ≤ x.w
  height_pos : 1 ≤ x.h
  stride_ge : x.w ≤ x.stride.toNat
  offset_zero : x.offset = 0
  len_ge : x.stride.toNat * (x.h - 1) + x.w ≤ x.len.toNat
  in_sram : x.base.toNat + x.len.toNat ≤ p.sramWords

/-- A descriptor keeps the invariants of its kind (10_state.md R40). -/
def Desc.Legal (p : Params) (x : Desc) : Prop :=
  (x.kind = .empty → x = Desc.emptySlot) ∧ (x.kind = .grid → x.LegalGrid p) ∧ (x.kind = .view → x.LegalView p)

/-- The invariant of the machine. Every clause but the memory's canonical form, which is the model's own, is a rule of the
spec: R7 and R166, R40, 20_memory.md R50, R28, R32 and R33, R221. -/
structure State.Inv (s : State) : Prop where
  params_legal : s.params.Legal
  desc_legal : ∀ d : Slot, (s.desc[d]).Legal s.params
  sram_canonical : s.sram.wf
  sram_inside : ∀ c ∈ s.sram, c.1 < 4 * s.params.sramWords
  done_idle : s.done = true → s.engine = .idle
  no_fault : s.engine ≠ .error → s.cause = 0 ∧ s.fcmd = 0
  one_fault : s.engine = .error → 1 ≤ s.cause.toNat ∧ s.cause.toNat ≤ 8

end Sys2Proof.Machine
end

