-- ==== Sys2Proof/Certificates/Slice0/Obligations.lean ====
section
/-! DEFINITION. The statements for the provers, and the words they are written in. A statement gives results by reading
registers, words and bytes, and cites the rule of the spec it formalises. -/

namespace Sys2Proof.Claims

open Sys2Proof.Machine

/-! ### Words of the statements -/

/-- Fault entry with a cause code (60_exceptions.md R232). -/
def faulted (s : State) (code : Nat) : State :=
  { s with cause := BitVec.ofNat 8 code, fcmd := s.lcmd, engine := .error }

/-- Completion, and no other change but sample memory and the descriptor table as `t` has them (30_encoding.md R87). -/
def completedFrom (s t : State) : State :=
  { s with sram := t.sram, desc := t.desc, engine := .idle, done := true, cmdcnt := s.cmdcnt + 1 }

/-- A host write to a register. -/
def hostWrite (off : Nat) (v : Word) : Event := .host ⟨.registers, off, 4, some v⟩

/-- A host read of a register. -/
def hostRead (off : Nat) : Event := .host ⟨.registers, off, 4, none⟩

/-- A host write of word `S[a]`. -/
def sramWrite (a : Nat) (v : Word) : Event := .host ⟨.sram, 4 * a, 4, some v⟩

/-- A host read of word `S[a]`. -/
def sramRead (a : Nat) : Event := .host ⟨.sram, 4 * a, 4, none⟩

/-- The next event is a reset: the reset input, or a CTRL write with bit 0 = 1 (60_exceptions.md R234). -/
def resetNext (s : State) : Prop :=
  (∃ rest, s.bus = .hardReset :: rest) ∨ ∃ v rest, s.bus = hostWrite 0x008 v :: rest ∧ v.getLsbD 0 = true

/-- Byte address `b` lies in one of the words `a .. a+n-1`. -/
def inWords (a n b : Nat) : Prop := 4 * a ≤ b ∧ b < 4 * (a + n)

/-- Byte address `b` lies in a word of the logical region (10_state.md R42). -/
def inRegion (x : Desc) (b : Nat) : Prop := ∃ col row, col < x.w ∧ row < x.h ∧ b / 4 = x.addr col row

/-- `n` is a power of two from 1 to NMAX = 256 (41_dct1d.md R141). -/
def lengthOk (n : Nat) : Prop := ∃ k, k ≤ 8 ∧ n = 2 ^ k

/-- Every register of the table of 70_reset_and_hazards.md R250 but LCMD and LARG has its reset value. -/
def registersReset (t : State) : Prop :=
  t.ctrlWord = 0 ∧ t.statusWord = 0 ∧ t.causeWord = 0 ∧ t.fcmd = 0 ∧ t.cmdcnt = 0 ∧ (∀ i : Fin 6, t.arg[i] = 0) ∧
    t.rdata = 0 ∧ t.engine = .idle ∧ (∀ d : Slot, t.desc[d] = Desc.emptySlot) ∧ t.irq = false

/-! ### The encoding, from the tables of the spec -/

/-- OPC, INV, DA and TT of a command, from the tables of 30_encoding.md R79 and R86. -/
def fieldsOf : Instr → Nat × Nat × Nat × Nat
  | .gridNew d => (0x01, 0, d.val, 0)
  | .viewNew d => (0x02, 0, d.val, 0)
  | .getSample d => (0x03, 0, d.val, 0)
  | .setSample d => (0x04, 0, d.val, 0)
  | .swap d => (0x05, 0, d.val, 0)
  | .widenQ d => (0x06, 0, d.val, 0)
  | .free d => (0x07, 0, d.val, 0)
  | .dct1d => (0x08, 0, 0, 0)
  | .idct1d => (0x08, 1, 0, 0)
  | .dct2d d => (0x09, 0, d.val, 0)
  | .idct2d d => (0x09, 1, d.val, 0)
  | .itxDct8 d => (0x0A, 0, d.val, 0)
  | .itxHornuss d => (0x0A, 0, d.val, 1)
  | .itxDct2 d => (0x0A, 0, d.val, 2)
  | .itxDct4 d => (0x0A, 0, d.val, 3)
  | .itxDct16 d => (0x0A, 0, d.val, 4)
  | .itxDct32 d => (0x0A, 0, d.val, 5)
  | .itxDct16X8 d => (0x0A, 0, d.val, 6)
  | .itxDct8X16 d => (0x0A, 0, d.val, 7)
  | .itxDct32X8 d => (0x0A, 0, d.val, 8)
  | .itxDct8X32 d => (0x0A, 0, d.val, 9)
  | .itxDct32X16 d => (0x0A, 0, d.val, 10)
  | .itxDct16X32 d => (0x0A, 0, d.val, 11)
  | .itxDct4X8 d => (0x0A, 0, d.val, 12)
  | .itxDct8X4 d => (0x0A, 0, d.val, 13)
  | .itxAfv0 d => (0x0A, 0, d.val, 14)
  | .itxAfv1 d => (0x0A, 0, d.val, 15)
  | .itxAfv2 d => (0x0A, 0, d.val, 16)
  | .itxAfv3 d => (0x0A, 0, d.val, 17)
  | .itxDct64 d => (0x0A, 0, d.val, 18)
  | .itxDct64X32 d => (0x0A, 0, d.val, 19)
  | .itxDct32X64 d => (0x0A, 0, d.val, 20)
  | .itxDct128 d => (0x0A, 0, d.val, 21)
  | .itxDct128X64 d => (0x0A, 0, d.val, 22)
  | .itxDct64X128 d => (0x0A, 0, d.val, 23)
  | .itxDct256 d => (0x0A, 0, d.val, 24)
  | .itxDct256X128 d => (0x0A, 0, d.val, 25)
  | .itxDct128X256 d => (0x0A, 0, d.val, 26)
  | .itxUnsupported27 d => (0x0A, 0, d.val, 27)
  | .itxUnsupported28_31 d tt => (0x0A, 0, d.val, tt.val)

/-- A reserved bit is set (30_encoding.md R73). -/
def reservedSet (w : Word) : Prop := w.getLsbD 7 = true ∨ w.extractLsb' 12 4 ≠ 0 ∨ w.extractLsb' 21 11 ≠ 0

/-- OPC of a word as a number. -/
def opcField (w : Word) : Nat := (w.extractLsb' 0 6).toNat

/-- The OPC value is not assigned (30_encoding.md R79, R81). -/
def unassigned (w : Word) : Prop := opcField w = 0 ∨ 0x0B ≤ opcField w

/-- A field the command does not use is nonzero (30_encoding.md R80). -/
def unusedSet (w : Word) : Prop :=
  (opcField w ≠ 0x08 ∧ opcField w ≠ 0x09 ∧ w.getLsbD 6 = true) ∨
    (opcField w = 0x08 ∧ w.extractLsb' 8 4 ≠ 0) ∨ (opcField w ≠ 0x0A ∧ w.extractLsb' 16 5 ≠ 0)

/-- The word has one of the three faults of 60_exceptions.md R222. -/
def illegal (w : Word) : Prop := reservedSet w ∨ unassigned w ∨ unusedSet w

/-! ### The fault conditions, each from its own rule and without an order -/

/-- A 1-D or 2-D length is refused (60_exceptions.md R226). -/
def badLength (n : Nat) : Prop := ¬ lengthOk n

/-- BAD_DESC: the slot is empty (60_exceptions.md R223). -/
def emptySlotAt (s : State) (d : Slot) : Prop := (s.desc[d]).kind = .empty

/-- The position lies outside the descriptor (60_exceptions.md R228). -/
def outside (s : State) (d : Slot) (x y : Word) : Prop := (s.desc[d]).w ≤ x.toNat ∨ (s.desc[d]).h ≤ y.toNat

/-- The conditions of a 1-D transform. -/
def conditions1d (s : State) (c : Nat) : Prop :=
  (c = 5 ∧ badLength s.larg[2].toNat) ∨
    (c = 8 ∧ (s.params.sramWords < s.larg[0].toNat + s.larg[2].toNat ∨
      s.params.sramWords < s.larg[1].toNat + s.larg[2].toNat))

/-- The conditions of a 2-D transform. -/
def conditions2d (d : Slot) (s : State) (c : Nat) : Prop :=
  (c = 2 ∧ emptySlotAt s d) ∨ (c = 5 ∧ (badLength (s.desc[d]).w ∨ badLength (s.desc[d]).h))

/-- The conditions of a fixed 8 x 8 tag (60_exceptions.md R225 (a) and (b)). -/
def conditionsFixed (tt : Nat) (d : Slot) (s : State) (c : Nat) : Prop :=
  (c = 2 ∧ emptySlotAt s d) ∨
    (c = 4 ∧ ((s.larg[0].toNat, s.larg[1].toNat) ≠ s.params.ttDim tt ∨ (s.desc[d]).w ≠ 8 ∨ (s.desc[d]).h ≠ 8))

/-- The conditions of a general tag (60_exceptions.md R225 (a) and (c), R229). -/
def conditionsGeneral (tt : Nat) (d : Slot) (s : State) (c : Nat) : Prop :=
  (c = 2 ∧ emptySlotAt s d) ∨
    (c = 4 ∧ ((s.larg[0].toNat, s.larg[1].toNat) ≠ s.params.ttDim tt ∨
      ((s.desc[d]).kind = .view ∧ ((s.desc[d]).w, (s.desc[d]).h) ≠ s.params.ttDim tt))) ∨
    (c = 8 ∧ (s.desc[d]).kind = .grid ∧ ((s.desc[d]).w, (s.desc[d]).h) ≠ s.params.ttDim tt ∧
      s.params.sramWords < (s.desc[d]).origin + (s.params.ttDim tt).1 * (s.params.ttDim tt).2)

/-- The conditions of an unsupported tag (60_exceptions.md R224). -/
def conditionsUnsupported (d : Slot) (s : State) (c : Nat) : Prop := (c = 2 ∧ emptySlotAt s d) ∨ c = 3

/-- Cause code `c` of 60_exceptions.md R221 applies to the command in this state, whatever else applies (R223 to R229). -/
def applies (i : Instr) (s : State) (c : Nat) : Prop :=
  match i with
  | .gridNew _ =>
    (c = 6 ∧ (s.larg[1] = 0 ∨ s.larg[2] = 0)) ∨
      (c = 8 ∧ s.params.sramWords <
        s.larg[0].toNat + padOf s.params s.larg[0].toNat + s.larg[1].toNat * s.larg[2].toNat)
  | .viewNew _ =>
    (c = 6 ∧ (s.larg[2] = 0 ∨ s.larg[3] = 0 ∨ s.larg[4].toNat < s.larg[2].toNat ∨
      s.larg[1].toNat < s.larg[4].toNat * (s.larg[3].toNat - 1) + s.larg[2].toNat)) ∨
      (c = 8 ∧ s.params.sramWords < s.larg[0].toNat + s.larg[1].toNat)
  | .getSample d => (c = 2 ∧ emptySlotAt s d) ∨ (c = 7 ∧ outside s d s.larg[0] s.larg[1])
  | .setSample d => (c = 2 ∧ emptySlotAt s d) ∨ (c = 7 ∧ outside s d s.larg[0] s.larg[1])
  | .swap d =>
    (c = 2 ∧ emptySlotAt s d) ∨
      (c = 7 ∧ (outside s d s.larg[0] s.larg[1] ∨ outside s d s.larg[2] s.larg[3]))
  | .widenQ d => c = 2 ∧ emptySlotAt s d
  | .free _ => False
  | .dct1d => conditions1d s c
  | .idct1d => conditions1d s c
  | .dct2d d => conditions2d d s c
  | .idct2d d => conditions2d d s c
  | .itxDct8 d => conditionsGeneral 0 d s c
  | .itxHornuss d => conditionsFixed 1 d s c
  | .itxDct2 d => conditionsFixed 2 d s c
  | .itxDct4 d => conditionsFixed 3 d s c
  | .itxDct16 d => conditionsGeneral 4 d s c
  | .itxDct32 d => conditionsGeneral 5 d s c
  | .itxDct16X8 d => conditionsGeneral 6 d s c
  | .itxDct8X16 d => conditionsGeneral 7 d s c
  | .itxDct32X8 d => conditionsGeneral 8 d s c
  | .itxDct8X32 d => conditionsGeneral 9 d s c
  | .itxDct32X16 d => conditionsGeneral 10 d s c
  | .itxDct16X32 d => conditionsGeneral 11 d s c
  | .itxDct4X8 d => conditionsFixed 12 d s c
  | .itxDct8X4 d => conditionsFixed 13 d s c
  | .itxAfv0 d => conditionsFixed 14 d s c
  | .itxAfv1 d => conditionsFixed 15 d s c
  | .itxAfv2 d => conditionsFixed 16 d s c
  | .itxAfv3 d => conditionsFixed 17 d s c
  | .itxDct64 d => conditionsGeneral 18 d s c
  | .itxDct64X32 d => conditionsGeneral 19 d s c
  | .itxDct32X64 d => conditionsGeneral 20 d s c
  | .itxDct128 d => conditionsGeneral 21 d s c
  | .itxDct128X64 d => conditionsGeneral 22 d s c
  | .itxDct64X128 d => conditionsGeneral 23 d s c
  | .itxDct256 d => conditionsGeneral 24 d s c
  | .itxDct256X128 d => conditionsGeneral 25 d s c
  | .itxDct128X256 d => conditionsGeneral 26 d s c
  | .itxUnsupported27 d => conditionsUnsupported d s c
  | .itxUnsupported28_31 d _ => conditionsUnsupported d s c

/-- The general tags and their ITX commands (43_dispatch.md R166). -/
def generalItx : List (Nat × (Slot → Instr)) :=
  [(0, .itxDct8), (4, .itxDct16), (5, .itxDct32), (6, .itxDct16X8), (7, .itxDct8X16), (8, .itxDct32X8),
   (9, .itxDct8X32), (10, .itxDct32X16), (11, .itxDct16X32), (18, .itxDct64), (19, .itxDct64X32),
   (20, .itxDct32X64), (21, .itxDct128), (22, .itxDct128X64), (23, .itxDct64X128), (24, .itxDct256),
   (25, .itxDct256X128), (26, .itxDct128X256)]

/-- The fixed tags, their ITX commands and their paths (43_dispatch.md R169 to R178). -/
def fixedItx : List (Nat × (Slot → Instr) × (Params → Block → Block)) :=
  [(1, .itxHornuss, pathHornuss), (2, .itxDct2, pathDct2), (3, .itxDct4, pathDct4), (12, .itxDct4X8, pathDct4X8),
   (13, .itxDct8X4, pathDct8X4), (14, .itxAfv0, pathAfv0), (15, .itxAfv1, pathAfv1), (16, .itxAfv2, pathAfv2),
   (17, .itxAfv3, pathAfv3)]

/-- The target (width, height) of each supported tag in a default build (30_encoding.md R86). -/
def defaultTargets : List (Nat × Nat × Nat) :=
  [(0, 8, 8), (1, 8, 8), (2, 8, 8), (3, 8, 8), (4, 16, 16), (5, 32, 32), (6, 8, 16), (7, 16, 8), (8, 8, 32), (9, 32, 8),
   (10, 16, 32), (11, 32, 16), (12, 8, 8), (13, 8, 8), (14, 8, 8), (15, 8, 8), (16, 8, 8), (17, 8, 8), (18, 64, 64),
   (19, 32, 64), (20, 64, 32), (21, 128, 128), (22, 64, 128), (23, 128, 64), (24, 256, 256), (25, 128, 256),
   (26, 256, 128)]

/-- The unsupported ITX commands of a slot (43_dispatch.md R198). -/
def unsupportedItx (d : Slot) (i : Instr) : Prop :=
  i = .itxUnsupported27 d ∨ ∃ tt : Fin 32, 28 ≤ tt.val ∧ i = .itxUnsupported28_31 d tt

/-! ### Results of the transform commands -/

/-- The samples of a descriptor's region, read word by word (42_dct2d.md R153). -/
def samples (s : State) (x : Desc) : Block := tabulate x.w x.h fun col row => F32.ofWord (s.sramWord (x.addr col row))

/-- The region of `x` holds the array `b` in `t`, and no byte outside it differs from `s`. -/
def regionBecomes (s t : State) (x : Desc) (b : Block) : Prop :=
  (∀ col row, col < x.w → row < x.h → t.sramWord (x.addr col row) = (b.at col row).toWord) ∧
    ∀ a, ¬ inRegion x a → t.sramByte a = s.sramByte a

/-- `i` is the 1-D transform command of the function `f`: its result, its frame and its faults (41_dct1d.md R139, R140). -/
def Transform1d (i : Instr) (f : Numerics → Nat → List F32 → List F32) : Prop :=
  ∀ s : State,
    let src := s.larg[0].toNat
    let dst := s.larg[1].toNat
    let n := s.larg[2].toNat
    (¬ lengthOk n → exec i s = .next (faulted s 5)) ∧
      (lengthOk n → s.params.sramWords < src + n ∨ s.params.sramWords < dst + n → exec i s = .next (faulted s 8)) ∧
      (lengthOk n → src + n ≤ s.params.sramWords → dst + n ≤ s.params.sramWords →
        ∃ t, exec i s = .next t ∧
          (∀ k, k < n → t.sramWord (dst + k) =
            ((f s.params.numerics n (tab n fun j => F32.ofWord (s.sramWord (src + j)))).getD k F32.zero).toWord) ∧
          (∀ a, ¬ inWords dst n a → t.sramByte a = s.sramByte a) ∧
          t.desc = s.desc ∧ t = completedFrom s t)

/-- `mk d` is the 2-D transform command of the function `f` (42_dct2d.md R153, R154, R158). -/
def Transform2d (mk : Slot → Instr) (f : Numerics → Nat → Nat → Block → Block) : Prop :=
  ∀ (d : Slot) (s : State), (s.desc[d]).Legal s.params →
    ((s.desc[d]).kind = .empty → exec (mk d) s = .next (faulted s 2)) ∧
      ((s.desc[d]).kind ≠ .empty → ¬ (lengthOk (s.desc[d]).w ∧ lengthOk (s.desc[d]).h) →
        exec (mk d) s = .next (faulted s 5)) ∧
      ((s.desc[d]).kind ≠ .empty → lengthOk (s.desc[d]).w → lengthOk (s.desc[d]).h →
        ∃ t, exec (mk d) s = .next t ∧
          regionBecomes s t (s.desc[d]) (f s.params.numerics (s.desc[d]).w (s.desc[d]).h (samples s (s.desc[d]))) ∧
          t.desc = s.desc ∧ t = completedFrom s t)

/-- The flat copy of the current block: its samples row-major, +0.0 beyond them (43_dispatch.md R179). -/
def flatAt (s : State) (x : Desc) (i : Nat) : F32 :=
  if i < x.w * x.h then F32.ofWord (s.sramWord (x.addr (i % x.w) (i / x.w))) else F32.zero

/-- The coefficient array of a general tag of target (w, h) (43_dispatch.md R179). -/
def generalCoefficients (s : State) (x : Desc) (w h : Nat) : Block :=
  tabulate w h fun u v =>
    if s.params.coeffLayout = .longAxisRows ∧ w < h then flatAt s x (u * h + v) else flatAt s x (v * w + u)

/-- The descriptor of a reallocated grid (43_dispatch.md R179). -/
def reallocatedGrid (x : Desc) (w h : Nat) : Desc :=
  ⟨.grid, x.base, x.offset, BitVec.ofNat 32 w, BitVec.ofNat 32 h, BitVec.ofNat 32 w,
   BitVec.ofNat 32 (x.offset.toNat + w * h)⟩

/-! ### Rounding -/

/-- `r` is the exact value `z / 2^k` (in units of 2^-149) rounded once: no finite f32 is closer, a tie goes to the even
encoding, and from half a unit past the largest finite value on it is the signed infinity (41_dct1d.md R138). -/
def RoundedOnce (r : F32) (z : Int) (k : Nat) : Prop :=
  (z.natAbs < (2 ^ 25 - 1) * 2 ^ 252 * 2 ^ k →
    ∃ w : Word, r = F32.ofWord w ∧ r.isFinite = true ∧
      ∀ c : Word, (F32.ofWord c).isFinite = true →
        (r.units * 2 ^ k - z).natAbs ≤ ((F32.ofWord c).units * 2 ^ k - z).natAbs ∧
          ((r.units * 2 ^ k - z).natAbs = ((F32.ofWord c).units * 2 ^ k - z).natAbs →
            (F32.ofWord c).units = r.units ∨ w.getLsbD 0 = false)) ∧
    ((2 ^ 25 - 1) * 2 ^ 252 * 2 ^ k ≤ z.natAbs → r = .inf (decide (z < 0)))

end Sys2Proof.Claims

open Sys2Proof Sys2Proof.Machine Sys2Proof.Claims

/-! ## The step, submission and decoding -/

/-- When it is the engine's turn, a step runs the decoded command and adds nothing: the engine step that follows acceptance
in 30_encoding.md R87. When that turn comes is the model's choice, not the rule's (notes/assumptions/15.md, DEDUCED): the
queue of bus events is empty, its head is an engine turn, or its head is a held access; an engine that is not BUSY runs
nothing on its turn. That a placed command is run by the very next step is the model's choice too (notes/assumptions/9.md,
DESIGN CHOICE). -/
def Obligations.StepRunsTheDecodedCommand : Prop :=
  (∀ s i, s.engine = .busy → decode s.lcmd = .instr i →
    (s.bus = [] → step s = exec i s) ∧
    (∀ rest, s.bus = .engineTurn :: rest → step s = exec i { s with bus := rest }) ∧
    (∀ a rest, s.bus = .host a :: rest → a.window = .sram → a.bytes = 4 → a.offset % 4 = 0 →
      a.offset < 4 * s.params.sramWords → step s = exec i s)) ∧
  (∀ (s : State) (w : Word) i, decode w = .instr i →
    step (s.withFetchWord 32 w.toNat) =
      exec i { s with lcmd := w, larg := s.arg, done := false, engine := .busy }) ∧
  ∀ s : State, s.engine ≠ .busy →
    (s.bus = [] → step s = .next s) ∧ ∀ rest, s.bus = .engineTurn :: rest → step s = .next { s with bus := rest }

/-- A host write of w to CMD in IDLE is accepted: the word and the operand registers are latched, DONE is cleared and the
engine is BUSY; nothing else changes (10_state.md R46, 30_encoding.md R87). -/
def Obligations.AcceptanceLatchesWordAndOperands : Prop :=
  ∀ (s : State) (w : Word) rest, s.engine = .idle → s.bus = hostWrite 0x018 w :: rest →
    step s = .next { s with
      bus := rest, response := some .written, lcmd := w, larg := s.arg, done := false, engine := .busy }

/-- The three faults of a command word (R222) are exactly what the decoder rejects, and such a word faults with ILLEGAL_CMD
in the engine step, whatever the descriptors and operands hold (R73, R81). -/
def Obligations.IllegalWordsFaultAndOnlyThey : Prop :=
  (∀ w, illegal w ↔ ¬ ∃ i, decode w = .instr i) ∧
  ∀ s, s.engine = .busy → s.bus = [] → illegal s.lcmd → step s = .next (faulted s 1)

/-- Unused fields must be 0, a legal word matches exactly one row of the opcode table, and no word matches two (R80). -/
def Obligations.LegalWordsMatchExactlyOneRow : Prop :=
  (∀ w, unusedSet w → ∀ s, s.engine = .busy → s.bus = [] → s.lcmd = w → step s = .next (faulted s 1)) ∧
  (∀ w, (∃ i, decode w = .instr i) ↔ (opcodeTable.filter fun r => r.matches w).length = 1) ∧
  ∀ w, (opcodeTable.filter fun r => r.matches w).length ≤ 1

/-- Decoding the word of a well-formed command gives the command back, every slot and tag at every value. -/
def Obligations.DecodeOfEncodeIsTheCommand : Prop :=
  ∀ i : Instr, i.wellFormed = true → decode (encode i) = .instr i

/-- Every legal word is the word of the well-formed command it decodes to: no bit of a legal word is ignored. -/
def Obligations.EncodeOfDecodeIsTheWord : Prop :=
  ∀ w i, decode w = .instr i → i.wellFormed = true ∧ encode i = w

/-- A decoded command has the OPC, INV, DA and TT of the word (R71, R72, R74, R75) by the assignments of R79 and R86. -/
def Obligations.DecodedFieldsAreTheWordsFields : Prop :=
  ∀ w i, decode w = .instr i →
    fieldsOf i = ((w.extractLsb' 0 6).toNat, (w.extractLsb' 6 1).toNat, (w.extractLsb' 8 4).toNat,
      (w.extractLsb' 16 5).toNat)

/-- Words of 95_test_vectors.md section 2.1 decode as that table says. -/
def Obligations.SampleWordsDecodeAsTabled : Prop :=
  decode 0x00000001#32 = .instr (.gridNew 0) ∧ decode 0x00000F01#32 = .instr (.gridNew 15) ∧
  decode 0x00000008#32 = .instr .dct1d ∧ decode 0x00000048#32 = .instr .idct1d ∧
  decode 0x00000349#32 = .instr (.idct2d 3) ∧ decode 0x0002000A#32 = .instr (.itxDct2 0) ∧
  decode 0x001A050A#32 = .instr (.itxDct128X256 5) ∧ decode 0x001B000A#32 = .instr (.itxUnsupported27 0) ∧
  decode 0x001F000A#32 = .instr (.itxUnsupported28_31 0 31) ∧
  decode 0x0000004A#32 = .rejected .unusedField ∧ decode 0x00000081#32 = .rejected .reservedBit ∧
  decode 0x0000003F#32 = .rejected .unassignedOpcode

/-! ## Registers and status -/

/-- The identification and configuration registers read their constants and ignore writes (R21, R22, R38). -/
def Obligations.IdentificationRegistersReadConstants : Prop :=
  (∀ (s : State) (v : Word) rest, ∀ off ∈ [0x000, 0x004, 0x03C], s.bus = hostWrite off v :: rest →
    step s = .next { s with bus := rest, response := some .written }) ∧
  ∀ s : State, s.params.Legal →
    s.readRegister 0x000 = 0x4A584F54#32 ∧ s.readRegister 0x004 = 0x00010000#32 ∧
    2 ^ ((s.readRegister 0x03C).extractLsb' 0 8).toNat = s.params.sramWords ∧
    ((s.readRegister 0x03C).extractLsb' 8 8).toNat = s.params.alignment.bytes ∧
    ((s.readRegister 0x03C).extractLsb' 16 8).toNat = 16 ∧ ((s.readRegister 0x03C).extractLsb' 24 8).toNat = 8

/-- The register window after reset reads the reset column of R20: ID, VERSION and CFG their constants, everything else 0.
The CFG value is that of the model's default build (notes/assumptions/1.md). -/
def Obligations.ResetWindowReadsTheResetColumn : Prop :=
  State.reset.readRegister 0x000 = 0x4A584F54#32 ∧ State.reset.readRegister 0x004 = 0x00010000#32 ∧
  State.reset.readRegister 0x03C = 0x08102012#32 ∧
  ∀ k, k < 1024 → k ≠ 0 → k ≠ 1 → k ≠ 15 → State.reset.readRegister (4 * k) = 0

/-- Writes to every offset but CTRL, STATUS, CMD and the ARG registers change nothing, unmapped and reserved words read 0,
and so do the reserved bits of CTRL, STATUS and CAUSE (R48). -/
def Obligations.UnmappedAndReadOnlyOffsets : Prop :=
  (∀ (s : State) (k : Nat) (v : Word) rest, k < 1024 → k ∉ [2, 3, 6, 8, 9, 10, 11, 12, 13] →
    s.bus = hostWrite (4 * k) v :: rest → step s = .next { s with bus := rest, response := some .written }) ∧
  (∀ (s : State) (k : Nat) rest, k < 1024 →
    (16 ≤ k ∧ k < 64) ∨ 192 ≤ k ∨ (64 ≤ k ∧ k < 192 ∧ k % 8 = 7) ∨ k = 6 → s.bus = hostRead (4 * k) :: rest →
    step s = .next { s with bus := rest, response := some (.readData 0) }) ∧
  ∀ s : State, (s.readRegister 0x008).extractLsb' 3 29 = 0 ∧ (s.readRegister 0x008).getLsbD 0 = false ∧
    (s.readRegister 0x00C).extractLsb' 5 27 = 0 ∧ (s.readRegister 0x010).extractLsb' 8 24 = 0

/-- The descriptor window: field f of slot d stands at 0x100 + 32*d + 4*f, and KIND reads 0, 1 or 2 (R39). -/
def Obligations.DescriptorWindowReadsTheTable : Prop :=
  ∀ (s : State) (d : Slot),
    let at_ := fun f => s.readRegister (0x100 + 32 * d.val + f)
    ((at_ 0x00 = 0 ∧ (s.desc[d]).kind = .empty) ∨ (at_ 0x00 = 1 ∧ (s.desc[d]).kind = .grid) ∨
      (at_ 0x00 = 2 ∧ (s.desc[d]).kind = .view)) ∧
    at_ 0x04 = (s.desc[d]).base ∧ at_ 0x08 = (s.desc[d]).offset ∧ at_ 0x0C = (s.desc[d]).width ∧
    at_ 0x10 = (s.desc[d]).height ∧ at_ 0x14 = (s.desc[d]).stride ∧ at_ 0x18 = (s.desc[d]).len ∧ at_ 0x1C = 0

/-- DONE is set by completion, cleared by acceptance and by a STATUS write of 1, and a faulting command leaves it (R28); the
acceptance that came before cleared it, which `State.Inv` records. A STATUS write has this effect and the one on REJ (R30),
and changes nothing else (R48, 20_memory.md R57). -/
def Obligations.DoneBitLifecycle : Prop :=
  (∀ i s t, exec i s = .next t → (t.engine = .idle ∧ t.done = true) ∨ (t.engine = .error ∧ t.done = s.done)) ∧
  (∀ i s t, s.Inv → s.engine = .busy → exec i s = .next t → t.engine = .error → t.done = false) ∧
  (∀ (s : State) w rest, s.engine = .idle → s.bus = hostWrite 0x018 w :: rest →
    ∃ t, step s = .next t ∧ t.done = false) ∧
  (∀ (s : State) (v : Word) rest, s.bus = hostWrite 0x00C v :: rest →
    step s = .next { s with
      bus := rest, response := some .written, done := (if v.getLsbD 1 then false else s.done),
      rej := if v.getLsbD 3 then false else s.rej })

/-- REJ is set by a CMD write while BUSY or ERR is 1, which changes nothing else; a STATUS write of 1 and any reset clear it
(R30). -/
def Obligations.RejBitLifecycle : Prop :=
  (∀ (s : State) w rest, s.engine = .busy ∨ s.engine = .error → s.bus = hostWrite 0x018 w :: rest →
    step s = .next { s with bus := rest, response := some .written, rej := true }) ∧
  (∀ (s : State) (v : Word) rest, s.bus = hostWrite 0x00C v :: rest →
    ∃ t, step s = .next t ∧ t.rej = (if v.getLsbD 3 then false else s.rej)) ∧
  ∀ s : State, resetNext s → ∃ t, step s = .next t ∧ t.rej = false

/-- The engine's state machine (R47): what STATUS shows, every transition a step can make, and the events that make it. -/
def Obligations.EngineStateTransitions : Prop :=
  (∀ s : State, (s.readRegister 0x00C).getLsbD 0 = decide (s.engine = .busy) ∧
    (s.readRegister 0x00C).getLsbD 2 = decide (s.engine = .error)) ∧
  (∀ s t : State, step s = .next t →
    (s.engine = .idle → t.engine = .idle ∨ (t.engine = .busy ∧ ∃ w rest, s.bus = hostWrite 0x018 w :: rest)) ∧
    (s.engine = .busy → t.engine = .busy ∨
      (t.engine = .idle ∧ t.done = true ∧ t.cmdcnt = s.cmdcnt + 1) ∨ (t.engine = .error ∧ t.fcmd = s.lcmd ∧ t.cause ≠ 0) ∨
      (t.engine = .idle ∧ resetNext s)) ∧
    (s.engine = .error → t.engine = .error ∨ (t.engine = .idle ∧ resetNext s))) ∧
  (∀ (s : State) w rest, s.engine = .idle → s.bus = hostWrite 0x018 w :: rest →
    ∃ t, step s = .next t ∧ t.engine = .busy) ∧
  ∀ s : State, resetNext s → ∃ t, step s = .next t ∧ t.engine = .idle

/-- IRQ is a function of the bits the host reads in CTRL and STATUS (60_exceptions.md R236). -/
def Obligations.InterruptOutputFollowsTheRegisters : Prop :=
  ∀ s : State, s.irq = (((s.readRegister 0x008).getLsbD 1 && (s.readRegister 0x00C).getLsbD 1) ||
    ((s.readRegister 0x008).getLsbD 2 && (s.readRegister 0x00C).getLsbD 2))

/-- The engine never writes an operand register, an ARG write is taken in every engine state and reads back, and it does not
reach the running command: with other operand registers the command does the same (70_reset_and_hazards.md R258). -/
def Obligations.OperandRegistersDoNotReachARunningCommand : Prop :=
  (∀ (s : State) (i : Fin 6) v rest, s.bus = hostWrite (0x020 + 4 * i.val) v :: rest →
    ∃ t, step s = .next t ∧ t = { s with bus := rest, response := some .written, arg := s.arg.set i v } ∧
      t.readRegister (0x020 + 4 * i.val) = v) ∧
  ∀ (i : Instr) (s : State) (arg : Vector Word 6),
    exec i { s with arg := arg } = (match exec i s with
      | .next t => .next { t with arg := arg }
      | .fault f => .fault f
      | .refused r => .refused r)

/-! ## The bus and sample memory -/

/-- An SRAM access while BUSY is held, and completes against the state after the command (20_memory.md R55). That the very
next step is the engine's is the model's schedule (notes/assumptions/15.md, DEDUCED), and that the events behind the held
access wait is its bus (notes/assumptions/7.md, DESIGN CHOICE). -/
def Obligations.SramAccessIsHeldWhileBusy : Prop :=
  ∀ (s : State) (a : Access) rest, s.Inv → s.engine = .busy → s.bus = .host a :: rest → a.window = .sram →
    a.bytes = 4 → a.offset % 4 = 0 → a.offset < 4 * s.params.sramWords →
    ∃ t, step s = .next t ∧ t.engine ≠ .busy ∧ t.bus = s.bus ∧ t.response = s.response ∧
      step t = .next (State.access { t with bus := rest } a)

/-- A register access is never held: in every engine state the next step carries it out and answers it (20_memory.md R56). -/
def Obligations.RegisterAccessIsNeverHeld : Prop :=
  ∀ (s : State) (off : Nat) rest, off < 4096 → off % 4 = 0 →
    (s.bus = hostRead off :: rest →
      step s = .next { s with bus := rest, response := some (.readData (s.readRegister off)) }) ∧
    ∀ v, s.bus = hostWrite off v :: rest →
      ∃ t, step s = .next t ∧ t.bus = rest ∧ t.response = some .written ∧
        t = { State.writeRegister off v { s with bus := rest } with response := some .written }

/-- An access of the wrong width or alignment gets the bus error and changes nothing (60_exceptions.md R243). That it is
answered at once in every engine state, an SRAM access while BUSY among them, is the model's reading
(notes/assumptions/7.md, DEDUCED). -/
def Obligations.BadAccessGetsABusErrorOnly : Prop :=
  ∀ (s : State) (a : Access) rest, s.bus = .host a :: rest → a.offset < windowBytes s.params a.window →
    a.bytes ≠ 4 ∨ a.offset % 4 ≠ 0 → step s = .next { s with bus := rest, response := some .busError }

/-- Sample memory is plain storage: a host write changes the written word only, the next read of it returns the written
value, a read changes nothing, and byte j of the word is bits 8*j+7 : 8*j (20_memory.md R52, R57, R63). -/
def Obligations.SramWriteThenReadReturnsTheWord : Prop :=
  ∀ (s : State) (a : Nat) (v : Word) rest, s.engine ≠ .busy → a < s.params.sramWords →
    s.bus = sramWrite a v :: sramRead a :: rest →
    ∃ t, step s = .next t ∧ t.bus = sramRead a :: rest ∧ t.sramWord a = v ∧
      (∀ b, ¬ inWords a 1 b → t.sramByte b = s.sramByte b) ∧
      (∀ j, j < 4 → t.sramByte (4 * a + j) = v.extractLsb' (8 * j) 8) ∧
      t = { s with sram := t.sram, bus := t.bus, response := some .written } ∧
      step t = .next { t with bus := rest, response := some (.readData v) }

/-! ## Faults and reset -/

/-- A faulting command changes no state but CAUSE, FCMD and the engine state (60_exceptions.md R231, R232); a command that
ends otherwise leaves CAUSE, FCMD, REJ, the interrupt enables, the operand registers, the latched command, the bus and the
build unchanged. -/
def Obligations.FaultsArePreciseAndCompletionIsFramed : Prop :=
  (∀ s why, decode s.lcmd = .rejected why → engineStep s = .next (faulted s 1)) ∧
  ∀ i s t, exec i s = .next t →
    (∃ c, 1 ≤ c ∧ c ≤ 8 ∧ t = faulted s c) ∨
      (t.engine = .idle ∧ t.done = true ∧ t.cmdcnt = s.cmdcnt + 1 ∧
        t = { completedFrom s t with rdata := t.rdata, result := t.result })

/-- Which cause codes a command can raise (the table of 60_exceptions.md R221; ILLEGAL_CMD is raised by decoding only). -/
def Obligations.CauseCodesRaisedByEachCommand : Prop :=
  ∀ i s t, i.wellFormed = true → exec i s = .next t → t.engine = .error →
    match fieldsOf i with
    | (0x01, _, _, _) => t.cause = 6 ∨ t.cause = 8
    | (0x02, _, _, _) => t.cause = 6 ∨ t.cause = 8
    | (0x03, _, _, _) => t.cause = 2 ∨ t.cause = 7
    | (0x04, _, _, _) => t.cause = 2 ∨ t.cause = 7
    | (0x05, _, _, _) => t.cause = 2 ∨ t.cause = 7
    | (0x06, _, _, _) => t.cause = 2
    | (0x07, _, _, _) => False
    | (0x08, _, _, _) => t.cause = 5 ∨ t.cause = 8
    | (0x09, _, _, _) => t.cause = 2 ∨ t.cause = 5
    | (_, _, _, tt) => t.cause = 2 ∨ t.cause = 4 ∨ (t.cause = 3 ∧ 27 ≤ tt) ∨ (t.cause = 8 ∧ tt ∈ generalTags)

/-- At most one cause is reported: ILLEGAL_CMD first, then the lowest-numbered one that applies; where none applies the
command completes (60_exceptions.md R230). -/
def Obligations.LowestNumberedCauseIsReported : Prop :=
  (∀ s : State, illegal s.lcmd → engineStep s = .next (faulted s 1)) ∧
  ∀ (i : Instr) (s : State), s.Inv →
    (∀ c, applies i s c → (∀ c', c' < c → ¬ applies i s c') → exec i s = .next (faulted s c)) ∧
    ((∀ c, ¬ applies i s c) →
      ∃ t, exec i s = .next t ∧ t.engine = .idle ∧ t.done = true ∧ t.cmdcnt = s.cmdcnt + 1)

/-- The only way out of the ERROR state is a reset; until then the state, CAUSE and FCMD stay (60_exceptions.md R234,
R235). -/
def Obligations.ErrorStateIsLeftByResetOnly : Prop :=
  (∀ s t : State, s.engine = .error → step s = .next t → ¬ resetNext s →
    t.engine = .error ∧ t.cause = s.cause ∧ t.fcmd = s.fcmd) ∧
  ∀ s : State, s.engine = .error → resetNext s →
    ∃ t, step s = .next t ∧ t.engine = .idle ∧ t.cause = 0 ∧ t.fcmd = 0

/-- Hard reset sets every register to its reset value, empties the descriptor table, forgets sample memory and keeps the
build (70_reset_and_hazards.md R250, R253). That no byte is listed and the next power-on is counted is the model's form of
the unspecified contents (notes/assumptions/3.md). -/
def Obligations.HardResetState : Prop :=
  ∀ (s : State) rest, s.bus = .hardReset :: rest →
    ∃ t, step s = .next t ∧ registersReset t ∧ t.sram = [] ∧ t.powerOns = s.powerOns + 1 ∧ t.params = s.params ∧
      t.bus = rest

/-- A CTRL write: with bit 0 = 1 the soft reset, which ignores the enable bits of the write, clears every register and the
descriptor table and keeps sample memory (but for the write set of a running command) and the latched command; with bit
0 = 0 only the interrupt enables change (10_state.md R24, 70_reset_and_hazards.md R251). -/
def Obligations.ControlWriteResetsOrEnables : Prop :=
  ∀ (s : State) (v : Word) rest, s.bus = hostWrite 0x008 v :: rest →
    (v.getLsbD 0 = true → ∃ t, step s = .next t ∧ registersReset t ∧ t.lcmd = s.lcmd ∧ t.larg = s.larg ∧
      t.params = s.params ∧ t.bus = rest ∧ (s.engine ≠ .busy → t.powerOns = s.powerOns ∧ ∀ a, t.sramByte a = s.sramByte a)) ∧
    (v.getLsbD 0 = false → step s = .next { s with
      bus := rest, response := some .written, ieDone := v.getLsbD 1, ieErr := v.getLsbD 2 }) ∧
    (s.readRegister 0x008).getLsbD 0 = false

/-- A reset while BUSY: words outside the write set of the running command keep their values under a soft reset, the write
set holds every word the command would have changed, and it is empty for a command that would have faulted
(70_reset_and_hazards.md R252). -/
def Obligations.AbandonedCommandTouchesItsWriteSetOnly : Prop :=
  ∀ (s : State), s.engine = .busy →
    (∀ (v : Word) rest, v.getLsbD 0 = true → s.bus = hostWrite 0x008 v :: rest →
      ∃ t, step s = .next t ∧
        ∀ a, (∀ r ∈ s.writeSet, ¬ inWords r.1 r.2.length a) → t.sramByte a = s.sramByte a) ∧
    (∀ u, engineStep s = .next u → u.engine = .error → s.writeSet = []) ∧
    ∀ u, engineStep s = .next u →
      ∀ a, (∀ r ∈ s.writeSet, ¬ inWords r.1 r.2.length a) → u.sramByte a = s.sramByte a

/-- Every accepted command is finished, faulted or abandoned by a reset after finitely many steps (70_reset_and_hazards.md
R265). The bound, one step for each waiting bus event and one more, is the model's schedule (notes/assumptions/15.md,
DEDUCED). -/
def Obligations.EveryAcceptedCommandEnds : Prop :=
  ∀ s : State, s.Inv → s.engine = .busy →
    ∃ k, k ≤ s.bus.length + 1 ∧ ∃ t : State, Host.Core.run Sys2Proof.core k s = .next t ∧ t.engine ≠ .busy

/-! ## Invariants -/

/-- The invariant holds after reset. The values behind it that the spec leaves open are the model's default build
(notes/assumptions/1.md). -/
def Obligations.InvariantHoldsAtReset : Prop := State.reset.Inv

/-- The machine never stops from a state that keeps the invariant, and every step keeps it: the descriptor invariants of
10_state.md R40, every written byte inside sample memory (20_memory.md R50), DONE only in IDLE (10_state.md R28), CAUSE
nonzero exactly in the ERROR state (R32, R33, 60_exceptions.md R221), a legal build (00_scope.md R7, 41_dct1d.md R127,
43_dispatch.md R166). The canonical form of memory is the model's (notes/assumptions/3.md, DESIGN CHOICE), and so is the
bound of 2^31 words of a legal build (notes/assumptions/1.md, DEDUCED). -/
def Obligations.EveryStepKeepsTheInvariant : Prop :=
  ∀ s : State, s.Inv → ∃ t, step s = .next t ∧ t.Inv

/-- Under the invariant every sample address of a non-empty descriptor lies between BASE and BASE + LEN and inside sample
memory (10_state.md R41). -/
def Obligations.SampleAddressesLieInSampleMemory : Prop :=
  ∀ (s : State) (d : Slot) (col row : Nat), s.Inv → (s.desc[d]).kind ≠ .empty → col < (s.desc[d]).w →
    row < (s.desc[d]).h →
    (s.desc[d]).addr col row =
      (s.desc[d]).base.toNat + (s.desc[d]).offset.toNat + row * (s.desc[d]).stride.toNat + col ∧
    (s.desc[d]).base.toNat ≤ (s.desc[d]).addr col row ∧
    (s.desc[d]).addr col row < (s.desc[d]).base.toNat + (s.desc[d]).len.toNat ∧
    (s.desc[d]).addr col row < s.params.sramWords

/-- A descriptor slot changes only by GRID_NEW, VIEW_NEW or FREE on it, by the reallocation of a grid by a general ITX on it,
or by a reset, whatever the step (40_grid.md R100). -/
def Obligations.DescriptorsChangeOnlyByTheirOwners : Prop :=
  ∀ (s t : State) (d : Slot), step s = .next t → t.desc[d] ≠ s.desc[d] →
    resetNext s ∨ (s.engine = .busy ∧ ∃ i, decode s.lcmd = .instr i ∧
      (i = .gridNew d ∨ i = .viewNew d ∨ i = .free d ∨
        ((s.desc[d]).kind = .grid ∧ ∃ g ∈ generalItx, i = g.2 d)))

/-- RDATA changes only by a GET that completes, which puts the sample word there, and RESULT only by a WIDEN_Q that
completes, among all commands (10_state.md R31, R37). -/
def Obligations.OnlyGetWritesRdataAndOnlyWidenWritesResult : Prop :=
  (∀ i s t, exec i s = .next t → (∀ d, i ≠ .getSample d) → t.rdata = s.rdata) ∧
  (∀ i s t, exec i s = .next t → (∀ d, i ≠ .widenQ d) → t.result = s.result) ∧
  (∀ i s t, exec i s = .next t → t.engine = .error → t.rdata = s.rdata ∧ t.result = s.result) ∧
  (∀ d s t, exec (.getSample d) s = .next t → t.engine = .idle →
    t.rdata = s.sramWord ((s.desc[d]).addr s.larg[0].toNat s.larg[1].toNat)) ∧
  (∀ s : State, resetNext s → ∃ t, step s = .next t ∧ t.rdata = 0 ∧ t.result = false)

/-! ## The grid family -/

/-- GRID_NEW (40_grid.md R91). `off` is the smallest offset that aligns the first sample. -/
def Obligations.GridNewCreatesAZeroedAlignedGrid : Prop :=
  ∀ (d : Slot) (s : State) (off : Nat),
    let base := s.larg[0].toNat
    let w := s.larg[1].toNat
    let h := s.larg[2].toNat
    (base + off) % s.params.alignWords = 0 → (∀ o, o < off → (base + o) % s.params.alignWords ≠ 0) →
    (w = 0 ∨ h = 0 → exec (.gridNew d) s = .next (faulted s 6)) ∧
    (w ≠ 0 → h ≠ 0 → s.params.sramWords < base + off + w * h → exec (.gridNew d) s = .next (faulted s 8)) ∧
    (w ≠ 0 → h ≠ 0 → base + off + w * h ≤ s.params.sramWords →
      ∃ t, exec (.gridNew d) s = .next t ∧
        t.desc = s.desc.set d ⟨.grid, s.larg[0], BitVec.ofNat 32 off, s.larg[1], s.larg[2], s.larg[1],
          BitVec.ofNat 32 (off + w * h)⟩ ∧
        (∀ a, base + off ≤ a → a < base + off + w * h → t.sramWord a = 0) ∧
        (∀ a, ¬ inWords (base + off) (w * h) a → t.sramByte a = s.sramByte a) ∧ t = completedFrom s t)

/-- VIEW_NEW (40_grid.md R93): it writes no sample word. -/
def Obligations.ViewNewCreatesAWindow : Prop :=
  ∀ (d : Slot) (s : State),
    let base := s.larg[0].toNat
    let len := s.larg[1].toNat
    let w := s.larg[2].toNat
    let h := s.larg[3].toNat
    let st := s.larg[4].toNat
    (w = 0 ∨ h = 0 ∨ st < w ∨ len < st * (h - 1) + w → exec (.viewNew d) s = .next (faulted s 6)) ∧
    (¬ (w = 0 ∨ h = 0 ∨ st < w ∨ len < st * (h - 1) + w) → s.params.sramWords < base + len →
      exec (.viewNew d) s = .next (faulted s 8)) ∧
    (¬ (w = 0 ∨ h = 0 ∨ st < w ∨ len < st * (h - 1) + w) → base + len ≤ s.params.sramWords →
      exec (.viewNew d) s = .next { s with
        desc := s.desc.set d ⟨.view, s.larg[0], 0, s.larg[2], s.larg[3], s.larg[4], s.larg[1]⟩
        engine := .idle, done := true, cmdcnt := s.cmdcnt + 1 })

/-- GET (40_grid.md R94): the word bit for bit, nothing else. -/
def Obligations.GetReadsOneSample : Prop :=
  ∀ (d : Slot) (s : State), (s.desc[d]).Legal s.params →
    ((s.desc[d]).kind = .empty → exec (.getSample d) s = .next (faulted s 2)) ∧
    ((s.desc[d]).kind ≠ .empty → outside s d s.larg[0] s.larg[1] → exec (.getSample d) s = .next (faulted s 7)) ∧
    ((s.desc[d]).kind ≠ .empty → ¬ outside s d s.larg[0] s.larg[1] →
      exec (.getSample d) s = .next { s with
        rdata := s.sramWord ((s.desc[d]).addr s.larg[0].toNat s.larg[1].toNat)
        engine := .idle, done := true, cmdcnt := s.cmdcnt + 1 })

/-- SET (40_grid.md R95): the operand word unchanged, and no byte outside that word. -/
def Obligations.SetWritesOneSample : Prop :=
  ∀ (d : Slot) (s : State), (s.desc[d]).Legal s.params →
    ((s.desc[d]).kind = .empty → exec (.setSample d) s = .next (faulted s 2)) ∧
    ((s.desc[d]).kind ≠ .empty → outside s d s.larg[0] s.larg[1] → exec (.setSample d) s = .next (faulted s 7)) ∧
    ((s.desc[d]).kind ≠ .empty → ¬ outside s d s.larg[0] s.larg[1] →
      ∃ t, exec (.setSample d) s = .next t ∧
        t.sramWord ((s.desc[d]).addr s.larg[0].toNat s.larg[1].toNat) = s.larg[2] ∧
        (∀ a, ¬ inWords ((s.desc[d]).addr s.larg[0].toNat s.larg[1].toNat) 1 a → t.sramByte a = s.sramByte a) ∧
        t.desc = s.desc ∧ t = completedFrom s t)

/-- SWAP (40_grid.md R96): both words move bit for bit; with one position twice nothing changes. -/
def Obligations.SwapExchangesTwoSamples : Prop :=
  ∀ (d : Slot) (s : State), (s.desc[d]).Legal s.params →
    ((s.desc[d]).kind = .empty → exec (.swap d) s = .next (faulted s 2)) ∧
    ((s.desc[d]).kind ≠ .empty → outside s d s.larg[0] s.larg[1] ∨ outside s d s.larg[2] s.larg[3] →
      exec (.swap d) s = .next (faulted s 7)) ∧
    ((s.desc[d]).kind ≠ .empty → ¬ outside s d s.larg[0] s.larg[1] → ¬ outside s d s.larg[2] s.larg[3] →
      let pa := (s.desc[d]).addr s.larg[0].toNat s.larg[1].toNat
      let pb := (s.desc[d]).addr s.larg[2].toNat s.larg[3].toNat
      ∃ t, exec (.swap d) s = .next t ∧ t.sramWord pa = s.sramWord pb ∧ t.sramWord pb = s.sramWord pa ∧
        (∀ a, ¬ inWords pa 1 a → ¬ inWords pb 1 a → t.sramByte a = s.sramByte a) ∧
        (pa = pb → ∀ a, t.sramByte a = s.sramByte a) ∧ t.desc = s.desc ∧ t = completedFrom s t)

/-- WIDEN_Q (40_grid.md R97): the answer is the three divisibility conditions and a lane width of 2, 4, 8 or 16; a failed
condition is no fault. -/
def Obligations.WidenQueryAnswersAvailability : Prop :=
  ∀ (d : Slot) (s : State),
    ((s.desc[d]).kind = .empty → exec (.widenQ d) s = .next (faulted s 2)) ∧
    ((s.desc[d]).kind ≠ .empty →
      ∃ r : Bool, exec (.widenQ d) s = .next { s with
          result := r, engine := .idle, done := true, cmdcnt := s.cmdcnt + 1 } ∧
        (r = true ↔ (s.larg[0].toNat = 2 ∨ s.larg[0].toNat = 4 ∨ s.larg[0].toNat = 8 ∨ s.larg[0].toNat = 16) ∧
          s.larg[0].toNat ∣ (s.desc[d]).w ∧ s.larg[0].toNat ∣ (s.desc[d]).stride.toNat ∧
          s.larg[0].toNat ∣ (s.desc[d]).base.toNat + (s.desc[d]).offset.toNat))

/-- FREE (40_grid.md R98): the slot becomes EMPTY, empty or not; no sample word changes. -/
def Obligations.FreeEmptiesTheSlot : Prop :=
  ∀ (d : Slot) (s : State), exec (.free d) s = .next { s with
    desc := s.desc.set d ⟨.empty, 0, 0, 0, 0, 0, 0⟩, engine := .idle, done := true, cmdcnt := s.cmdcnt + 1 }

/-! ## The transform commands -/

/-- DCT1D and IDCT1D (41_dct1d.md R139, R140): the output words are the transform of the snapshot, however the ranges
overlap; no byte outside the output range changes; a bad length faults before a bad range. -/
def Obligations.OneDimensionalTransformCommands : Prop :=
  Transform1d .dct1d dct1 ∧ Transform1d .idct1d idct1

/-- The laws of `NUMERICS`, for every build, on what the commands write. Lengths 1 and 2 are bit-exact (41_dct1d.md R124 to
R126): length 1 copies the word bit for bit, length 2 is the sum and difference, halved by the forward transform only. From
length 4 on, for finite input words of mass below 2^96 on a legal build, every output word is finite and within
`DCT_EPS * M + n * 2^-140` of the exact transform of the input words (R127). -/
def Obligations.ShortTransformsAreBitExact : Prop :=
  ∀ (s : State),
    let src := s.larg[0].toNat
    let dst := s.larg[1].toNat
    let n := s.larg[2].toNat
    let a := F32.ofWord (s.sramWord src)
    let b := F32.ofWord (s.sramWord (src + 1))
    let x := tab n fun j => F32.ofWord (s.sramWord (src + j))
    src + n ≤ s.params.sramWords → dst + n ≤ s.params.sramWords →
    (n = 1 → ∀ i ∈ [Instr.dct1d, Instr.idct1d], ∃ t, exec i s = .next t ∧ t.engine = .idle ∧
      t.sramWord dst = s.sramWord src) ∧
    (n = 2 → ∃ t, exec .dct1d s = .next t ∧ t.engine = .idle ∧
      t.sramWord dst = ((a.add b).mul (F32.ofWord 0x3F000000#32)).toWord ∧
      t.sramWord (dst + 1) = ((a.sub b).mul (F32.ofWord 0x3F000000#32)).toWord) ∧
    (n = 2 → ∃ t, exec .idct1d s = .next t ∧ t.engine = .idle ∧
      t.sramWord dst = (a.add b).toWord ∧ t.sramWord (dst + 1) = (a.sub b).toWord) ∧
    (s.params.Legal → lengthOk n → 4 ≤ n → (∀ c ∈ x, c.isFinite = true) → Exact.mass x < 2 ^ 96 →
      ∀ g ∈ [(Instr.dct1d, Exact.dct1Exact), (Instr.idct1d, Exact.idct1Exact)],
        ∃ t, exec g.1 s = .next t ∧ t.engine = .idle ∧ ∀ k, k < n →
          (F32.ofWord (t.sramWord (dst + k))).isFinite = true ∧
          |Exact.realOf (F32.ofWord (t.sramWord (dst + k))) - g.2 n (Exact.entries x) k| ≤
            Exact.tolerance s.params.dctEps n (Exact.mass x))

/-- DCT2D and IDCT2D (42_dct2d.md R153, R154): the region becomes the transform of its samples, position for position
(R158); padding and the words between view rows are not written. -/
def Obligations.TwoDimensionalTransformCommands : Prop :=
  Transform2d .dct2d dct2 ∧ Transform2d .idct2d idct2

/-- The 2-D transforms of every build. Their pass order (42_dct2d.md R152): rows first where W >= H, columns first otherwise.
What DCT2D and IDCT2D write (R157): on a legal build with `DCT_EPS` at most 2^-4, for finite samples of mass below 2^95,
every word is finite and within `3 * DCT_EPS * M + 3 * W * H * 2^-140` of the exact transform; zeros give zeros. -/
def Obligations.LongerAxisIsTransformedFirst : Prop :=
  (∀ g ∈ [(dct1, dct2), (idct1, idct2)], ∀ (num : Numerics) (w h : Nat) (p : Nat → Nat → F32) (u v : Nat),
    u < w → v < h →
    (h ≤ w → (g.2 num w h (tabulate w h p)).at u v =
      (g.1 num h (tab h fun y => (g.1 num w (tab w fun x => p x y)).getD u F32.zero)).getD v F32.zero) ∧
    (w < h → (g.2 num w h (tabulate w h p)).at u v =
      (g.1 num w (tab w fun x => (g.1 num h (tab h fun y => p x y)).getD v F32.zero)).getD u F32.zero)) ∧
  ∀ g ∈ [(Instr.dct2d, Exact.dct2Exact), (Instr.idct2d, Exact.idct2Exact)], ∀ (d : Slot) (s : State), s.Inv →
    let x := s.desc[d]
    let p := fun col row => F32.ofWord (s.sramWord (x.addr col row))
    let m := ∑ col ∈ Finset.range x.w, ∑ row ∈ Finset.range x.h, |Exact.realOf (p col row)|
    x.kind ≠ .empty → lengthOk x.w → lengthOk x.h →
    (s.params.dctEps ≤ 1 / 16 → m < 2 ^ 95 → (∀ col row, col < x.w → row < x.h → (p col row).isFinite = true) →
      ∃ t, exec (g.1 d) s = .next t ∧ t.engine = .idle ∧ ∀ u v, u < x.w → v < x.h →
        (F32.ofWord (t.sramWord (x.addr u v))).isFinite = true ∧
        |Exact.realOf (F32.ofWord (t.sramWord (x.addr u v))) -
            g.2 x.w x.h (fun col row => Exact.realOf (p col row)) u v| ≤
          3 * (s.params.dctEps : ℝ) * m + 3 * x.w * x.h / 2 ^ 140) ∧
    ((∀ col row, col < x.w → row < x.h → (p col row).isZero = true) →
      ∃ t, exec (g.1 d) s = .next t ∧ t.engine = .idle ∧ ∀ u v, u < x.w → v < x.h →
        (F32.ofWord (t.sramWord (x.addr u v))).isZero = true)

/-- The fixed 8 x 8 tags (43_dispatch.md R165, R168): on an 8 x 8 descriptor with target 8 x 8 the region becomes the tag's
path of its samples, and nothing else changes. -/
def Obligations.FixedTagsTransformAnEightByEightBlock : Prop :=
  ∀ g ∈ fixedItx, ∀ (d : Slot) (s : State), s.Inv → (s.desc[d]).kind ≠ .empty →
    ((s.larg[0].toNat, s.larg[1].toNat) ≠ (8, 8) ∨ (s.desc[d]).w ≠ 8 ∨ (s.desc[d]).h ≠ 8 →
      exec (g.2.1 d) s = .next (faulted s 4)) ∧
    (s.larg[0].toNat = 8 → s.larg[1].toNat = 8 → (s.desc[d]).w = 8 → (s.desc[d]).h = 8 →
      ∃ t, exec (g.2.1 d) s = .next t ∧
        regionBecomes s t (s.desc[d]) (g.2.2 s.params (samples s (s.desc[d]))) ∧
        t.desc = s.desc ∧ t = completedFrom s t)

/-- The targets of the default build are those of the table of 30_encoding.md R86 (43_dispatch.md R180 to R197 for the
general tags). The general tags on a block of the tag's footprint, GRID or VIEW (R179): the transform is in place, over the
coefficient layout of the build. -/
def Obligations.GeneralTagsTransformInPlace : Prop :=
  (∀ g ∈ defaultTargets, Params.default.ttDim g.1 = g.2) ∧
  ∀ g ∈ generalItx, ∀ (d : Slot) (s : State) (w h : Nat), s.Inv → (s.desc[d]).kind ≠ .empty →
    s.params.ttDim g.1 = (w, h) → s.larg[0].toNat = w → s.larg[1].toNat = h → (s.desc[d]).w = w → (s.desc[d]).h = h →
    ∃ t, exec (g.2 d) s = .next t ∧
      regionBecomes s t (s.desc[d]) (idct2 s.params.numerics w h (generalCoefficients s (s.desc[d]) w h)) ∧
      t.desc = s.desc ∧ t = completedFrom s t

/-- The general tags on a block of another footprint (43_dispatch.md R179): a VIEW faults, a GRID is reallocated at the same
BASE and OFFSET where the new footprint fits, its flat samples cut or zero-filled, and faults otherwise. -/
def Obligations.GeneralTagsReallocateAGrid : Prop :=
  ∀ g ∈ generalItx, ∀ (d : Slot) (s : State) (w h : Nat), s.Inv → s.params.ttDim g.1 = (w, h) →
    s.larg[0].toNat = w → s.larg[1].toNat = h → ((s.desc[d]).w, (s.desc[d]).h) ≠ (w, h) →
    ((s.desc[d]).kind = .view → exec (g.2 d) s = .next (faulted s 4)) ∧
    ((s.desc[d]).kind = .grid → s.params.sramWords < (s.desc[d]).origin + w * h →
      exec (g.2 d) s = .next (faulted s 8)) ∧
    ((s.desc[d]).kind = .grid → (s.desc[d]).origin + w * h ≤ s.params.sramWords →
      ∃ t, exec (g.2 d) s = .next t ∧ t.desc = s.desc.set d (reallocatedGrid (s.desc[d]) w h) ∧
        regionBecomes s t (reallocatedGrid (s.desc[d]) w h)
          (idct2 s.params.numerics w h (generalCoefficients s (s.desc[d]) w h)) ∧ t = completedFrom s t)

/-- The unsupported tags take the UNSUPPORTED_TT fault, whatever the operands; an empty slot has priority (43_dispatch.md
R198). -/
def Obligations.UnsupportedTagsTakeTheirFault : Prop :=
  ∀ (d : Slot) (i : Instr) (s : State), unsupportedItx d i →
    ((s.desc[d]).kind = .empty → exec i s = .next (faulted s 2)) ∧
    ((s.desc[d]).kind ≠ .empty → exec i s = .next (faulted s 3))

/-! ## The paths of the dispatcher -/

/-- `AUX2` (43_dispatch.md R167): the four results of every super-cell, all read from the argument, and nothing outside the
s x s corner. `PATH[2]` is three nested passes (R169). -/
def Obligations.Aux2MixesSuperCells : Prop :=
  ∀ s ∈ [2, 4, 8], ∀ b : Block,
    (∀ x y, x < s / 2 → y < s / 2 →
      let c00 := b.at x y
      let c01 := b.at (x + s / 2) y
      let c10 := b.at x (y + s / 2)
      let c11 := b.at (x + s / 2) (y + s / 2)
      (aux2 b s).at (2 * x) (2 * y) = ((c00.add c01).add c10).add c11 ∧
      (aux2 b s).at (2 * x + 1) (2 * y) = ((c00.add c01).sub c10).sub c11 ∧
      (aux2 b s).at (2 * x) (2 * y + 1) = ((c00.sub c01).add c10).sub c11 ∧
      (aux2 b s).at (2 * x + 1) (2 * y + 1) = ((c00.sub c01).sub c10).add c11) ∧
    (∀ x y, x < 8 → y < 8 → s ≤ x ∨ s ≤ y → (aux2 b s).at x y = b.at x y) ∧
    ∀ p, pathDct2 p b = aux2 (aux2 (aux2 b 2) 4) 8

/-- `PATH[3]` and `PATH[1]`: each 4 x 4 pixel quadrant comes from the stride-2 coefficients of its own offsets after `AUX2`
at size 2: by the inverse transform for DCT4, by the Hornuss mixing for HORNUSS (43_dispatch.md R170, R171). -/
def Obligations.QuadrantPathsDct4AndHornuss : Prop :=
  ∀ (p : Params) (b : Block) (qx qy x y : Nat), qx < 2 → qy < 2 → x < 4 → y < 4 →
    (pathDct4 p b).at (4 * qx + x) (4 * qy + y) =
      (idct2 p.numerics 4 4 (tabulate 4 4 fun ix iy => (aux2 b 2).at (qx + 2 * ix) (qy + 2 * iy))).at x y ∧
    (let s := fun i => (aux2 b 2).at (qx + 2 * (i % 4)) (qy + 2 * (i / 4))
     let idx := if p.hornussSumExcludes5 then [1, 2, 3, 4, 6, 7, 8, 9, 10, 11, 12, 13, 14, 15]
       else [1, 2, 3, 4, 5, 6, 7, 8, 9, 10, 11, 12, 13, 14, 15]
     let avg := (s 0).sub ((idx.foldl (fun acc i => acc.add (s i)) F32.zero).mul (F32.ofWord 0x3D800000#32))
     (pathHornuss p b).at (4 * qx + x) (4 * qy + y) =
       if 4 * y + x = 0 then (s 5).add avg else if 4 * y + x = 5 then avg else (s (4 * y + x)).add avg)

/-- `PATH[12]` and `PATH[13]`: two half transforms of the rows h, h+2, h+4, h+6 with the sum or difference of the two
DC-adjacent coefficients, stacked for DCT4X8, transposed and side by side for DCT8X4 (43_dispatch.md R172, R173). -/
def Obligations.HalfPathsDct4X8AndDct8X4 : Prop :=
  ∀ (p : Params) (b : Block) (h x y : Nat), h < 2 →
    let dc := if h = 0 then (b.at 0 0).add (b.at 0 1) else (b.at 0 0).sub (b.at 0 1)
    let sub := fun u v => if u = 0 ∧ v = 0 then dc else b.at u (h + 2 * v)
    (x < 8 → y < 4 → (pathDct4X8 p b).at x (4 * h + y) = (idct2 p.numerics 8 4 (tabulate 8 4 sub)).at x y) ∧
    (x < 4 → y < 8 → (pathDct8X4 p b).at (4 * h + x) y =
      (idct2 p.numerics 4 8 (tabulate 4 8 fun a c => sub c a)).at x y)

/-- The three parts of `AFV(B, kind)` (43_dispatch.md R174): the basis quadrant with its flips, the 4 x 4 inverse transform
beside it and the 8 x 4 inverse transform above or below, each with its DC term. `PATH[14]` to `PATH[17]` are the kinds 0 to
3 (R175 to R178). -/
def Obligations.AfvPartsAndPlacement : Prop :=
  (∀ (p : Params) (b : Block), pathAfv0 p b = afv 0 p b ∧ pathAfv1 p b = afv 1 p b ∧ pathAfv2 p b = afv 2 p b ∧
    pathAfv3 p b = afv 3 p b) ∧
  ∀ (p : Params) (b : Block) (kind : Nat), kind < 4 →
    let fx := kind % 2
    let fy := kind / 2
    let dcs0 := (((b.at 0 0).add (b.at 0 1)).add (b.at 1 0)).mul (F32.ofWord 0x40800000#32)
    let dcs1 := ((b.at 0 0).add (b.at 0 1)).sub (b.at 1 0)
    let dcs2 := (b.at 0 0).sub (b.at 0 1)
    let cf := fun j => if j = 0 then dcs0 else b.at (2 * (j % 4)) (2 * (j / 4))
    let blk := fun i =>
      (List.range 16).foldl (fun acc j => acc.add ((cf j).mul (afvBasisEntry p j i))) F32.zero
    (∀ ix iy, ix < 4 → iy < 4 → (afv kind p b).at (4 * fx + ix) (4 * fy + iy) =
      blk ((if fy = 1 then 3 - iy else iy) * 4 + (if fx = 1 then 3 - ix else ix))) ∧
    (∀ x y, x < 4 → y < 4 → (afv kind p b).at ((if fx = 1 then 0 else 4) + x) (4 * fy + y) =
      (idct2 p.numerics 4 4
        (tabulate 4 4 fun ix iy => if ix = 0 ∧ iy = 0 then dcs1 else b.at (2 * ix + 1) (2 * iy))).at x y) ∧
    (∀ x y, x < 8 → y < 4 → (afv kind p b).at x ((if fy = 1 then 0 else 4) + y) =
      (idct2 p.numerics 8 4
        (tabulate 8 4 fun ix iy => if ix = 0 ∧ iy = 0 then dcs2 else b.at ix (2 * iy + 1))).at x y)

/-! ## Numerics -/

/-- f32 addition and subtraction are computed exactly and rounded once, ties to even, subnormals kept, overflow to the
signed infinity (41_dct1d.md R138). The sign of an exact zero, negative only where both addends are, is IEEE 754's and the
model's choice (notes/assumptions/10.md, PRESUMED). -/
def Obligations.AdditionRoundsOnceToNearestEven : Prop :=
  ∀ a b : Word, (F32.ofWord a).isFinite = true → (F32.ofWord b).isFinite = true →
    RoundedOnce ((F32.ofWord a).add (F32.ofWord b)) ((F32.ofWord a).units + (F32.ofWord b).units) 0 ∧
    RoundedOnce ((F32.ofWord a).sub (F32.ofWord b)) ((F32.ofWord a).units - (F32.ofWord b).units) 0 ∧
    ((F32.ofWord a).units + (F32.ofWord b).units = 0 →
      (F32.ofWord a).add (F32.ofWord b) = .fin (a.getLsbD 31 && b.getLsbD 31) 0) ∧
    ((F32.ofWord a).units - (F32.ofWord b).units = 0 →
      (F32.ofWord a).sub (F32.ofWord b) = .fin (a.getLsbD 31 && !b.getLsbD 31) 0)

/-- f32 multiplication is computed exactly and rounded once, ties to even, subnormals kept, overflow to the signed infinity
(41_dct1d.md R138). The sign of a zero result, the exclusive or of the signs, is IEEE 754's and the model's choice
(notes/assumptions/10.md, PRESUMED). -/
def Obligations.MultiplicationRoundsOnceToNearestEven : Prop :=
  ∀ a b : Word, (F32.ofWord a).isFinite = true → (F32.ofWord b).isFinite = true →
    RoundedOnce ((F32.ofWord a).mul (F32.ofWord b)) ((F32.ofWord a).units * (F32.ofWord b).units) 149 ∧
    (((F32.ofWord a).mul (F32.ofWord b)).units = 0 → ((F32.ofWord a).mul (F32.ofWord b)).isFinite = true →
      (F32.ofWord a).mul (F32.ofWord b) = .fin (a.getLsbD 31 != b.getLsbD 31) 0)

/-- The butterflies of one FFT stage (41_dct1d.md R131): every block, every butterfly, each with its own twiddle. -/
def Obligations.FftStageIsItsButterflies : Prop :=
  ∀ (ws : List Complex32) (half blocks : Nat) (y : List Complex32), ws.length = half →
    y.length = 2 * half * blocks → ∀ b j, b < blocks → j < half →
    let u := y.getD (2 * half * b + j) czero
    let t := cmul (ws.getD j czero) (y.getD (2 * half * b + j + half) czero)
    (fftStage ws half blocks y).getD (2 * half * b + j) czero = (u.1.add t.1, u.2.add t.2) ∧
    (fftStage ws half blocks y).getD (2 * half * b + j + half) czero = (u.1.sub t.1, u.2.sub t.2)

/-- The zero law (41_dct1d.md R128): the transform of zeros is zeros, for every build, length and direction. -/
def Obligations.TransformOfZerosIsZeros : Prop :=
  ∀ f ∈ [dct1, idct1], ∀ (num : Numerics) (n : Nat) (x : List F32), lengthOk n → x.length = n →
    (∀ a ∈ x, a.isZero = true) → (f num n x).length = n ∧ ∀ a ∈ f num n x, a.isZero = true

/-- A block of zeros stays a block of zeros under every supported tag (43_dispatch.md R199), for every legal build. For the
AFV tags it rests on a basis of finite entries, which the model deduces from this very rule (notes/assumptions/6.md,
DEDUCED). -/
def Obligations.ZeroBlocksStayZeroUnderEveryTag : Prop :=
  ∀ (i : Instr) (d : Slot) (s t : State), s.Inv → (∃ g ∈ generalItx, i = g.2 d) ∨ (∃ g ∈ fixedItx, i = g.2.1 d) →
    exec i s = .next t → t.engine = .idle →
    (∀ col row, col < (s.desc[d]).w → row < (s.desc[d]).h →
      (F32.ofWord (s.sramWord ((s.desc[d]).addr col row))).isZero = true) →
    ∀ col row, col < (t.desc[d]).w → row < (t.desc[d]).h →
      (F32.ofWord (t.sramWord ((t.desc[d]).addr col row))).isZero = true

/-- A DC-only coefficient array becomes the constant, bit for bit, under `REF` (42_dct2d.md R154), and an 8 x 8 one under
the path of ITX.DCT2 (43_dispatch.md R169), for every finite nonzero value. -/
def Obligations.DcOnlyBlocksBecomeConstant : Prop :=
  ∀ (w h : Nat) (c : Word) (b : Nat → Nat → F32), lengthOk w → lengthOk h → (F32.ofWord c).isFinite = true →
    (F32.ofWord c).isZero = false → b 0 0 = F32.ofWord c → (∀ u v, u ≠ 0 ∨ v ≠ 0 → (b u v).isZero = true) →
    idct2 .ref w h (tabulate w h b) = tabulate w h (fun _ _ => F32.ofWord c) ∧
    ∀ p, pathDct2 p (tabulate 8 8 b) = tabulate 8 8 (fun _ _ => F32.ofWord c)

/-- The exact transforms are inverse to each other (41_dct1d.md R122). -/
def Obligations.ExactTransformsAreInverse : Prop :=
  ∀ (n : Nat) (x : Nat → ℝ) (i : Nat), i < n →
    Exact.idct1Exact n (Exact.dct1Exact n x) i = x i ∧ Exact.dct1Exact n (Exact.idct1Exact n x) i = x i
end

