-- ==== Sys2Proof/Laws/Memory.lean ====
section
/-! SUPPORT. What the memory operations do: they keep the canonical form, a read after a write gives the written byte, and
a write leaves every other byte alone. -/

namespace Sys2Proof.Machine

@[simp] theorem tab_length {α : Type} (n : Nat) (f : Nat → α) : (tab n f).length = n := by simp [tab]

@[simp] theorem tab_getElem? {α : Type} (n : Nat) (f : Nat → α) (i : Nat) :
    (tab n f)[i]? = if i < n then some (f i) else none := by
  by_cases h : i < n <;> simp [tab, h]

theorem tab_getD {α : Type} (n : Nat) (f : Nat → α) (i : Nat) (x : α) (h : i < n) : (tab n f).getD i x = f i := by
  rw [List.getD_eq_getElem?_getD, tab_getElem?, if_pos h, Option.getD_some]

theorem mem_tab {α : Type} {n : Nat} {f : Nat → α} {y : α} : y ∈ tab n f ↔ ∃ i, i < n ∧ f i = y := by
  simp [tab]

theorem tab_congr {α : Type} {n : Nat} {f g : Nat → α} (h : ∀ i, i < n → f i = g i) : tab n f = tab n g := by
  apply List.map_congr_left
  intro i hi
  exact h i (List.mem_range.mp hi)

@[simp] theorem wordBytes_length (w : Word) : (wordBytes w).length = 4 := rfl

@[simp] theorem flatMap_wordBytes_length (ws : List Word) : (ws.flatMap wordBytes).length = 4 * ws.length := by
  induction ws with
  | nil => rfl
  | cons w ws ih => simp [ih]; omega

/-! ### Cells -/

theorem mem_cellsFrom {c : Host.Cell} {b : Nat} {xs : List Byte} (h : c ∈ cellsFrom b xs) :
    b ≤ c.1 ∧ c.1 < b + xs.length := by
  induction xs generalizing b with
  | nil => simp [cellsFrom] at h
  | cons x xs ih =>
    simp only [cellsFrom, List.mem_cons] at h
    rcases h with rfl | h
    · simp
    · have := ih h
      simp only [List.length_cons]
      omega

theorem cellsFrom_wf (b : Nat) (xs : List Byte) : Memory.wf (cellsFrom b xs) := by
  induction xs generalizing b with
  | nil => exact List.Pairwise.nil
  | cons x xs ih =>
    refine List.Pairwise.cons ?_ (ih (b + 1))
    intro c hc
    have := mem_cellsFrom hc
    simp only
    omega

theorem lookup_cellsFrom (b : Nat) (xs : List Byte) (a : Nat) :
    List.lookup a (cellsFrom b xs) = if b ≤ a then xs[a - b]? else none := by
  induction xs generalizing b with
  | nil => simp [cellsFrom]
  | cons x xs ih =>
    simp only [cellsFrom, List.lookup_cons]
    by_cases hab : a = b
    · subst hab; simp
    · have hne : (a == b) = false := by simpa using hab
      rw [hne, ih]
      by_cases h : b + 1 ≤ a
      · have h1 : b ≤ a := by omega
        have h2 : a - b = (a - (b + 1)) + 1 := by omega
        simp only [if_pos h, if_pos h1, h2, List.getElem?_cons_succ]
      · have h1 : ¬ b ≤ a := by omega
        simp only [if_neg h, if_neg h1]

theorem lookup_filter (q : Nat → Bool) (m : Memory) (a : Nat) :
    List.lookup a (m.filter fun c => q c.1) = if q a then List.lookup a m else none := by
  induction m with
  | nil => simp
  | cons c m ih =>
    obtain ⟨k, v⟩ := c
    by_cases hak : a = k
    · subst hak
      cases hq : q a
      · rw [List.filter_cons_of_neg (by simpa using hq), ih, hq, if_neg Bool.false_ne_true,
          if_neg Bool.false_ne_true]
      · rw [List.filter_cons_of_pos (by simpa using hq), List.lookup_cons, List.lookup_cons]
        simp
    · have hne : (a == k) = false := by simpa using hak
      cases hq : q k
      · rw [List.filter_cons_of_neg (by simpa using hq), ih, List.lookup_cons, hne]
      · rw [List.filter_cons_of_pos (by simpa using hq), List.lookup_cons, List.lookup_cons, hne, ih]

theorem lookup_append (m m' : Memory) (a : Nat) :
    List.lookup a (m ++ m') = (List.lookup a m).or (List.lookup a m') := by
  induction m with
  | nil => simp
  | cons c m ih =>
    obtain ⟨k, v⟩ := c
    rw [List.cons_append, List.lookup_cons, List.lookup_cons, ih]
    cases a == k <;> rfl

@[simp] theorem Memory.lookup_eq (m : Memory) (a : Nat) : m.lookup a = List.lookup a m := by
  unfold Memory.lookup Memory.unlisted
  cases List.lookup a m <;> rfl

/-! ### `putBytes` -/

theorem Memory.putBytes_wf {m : Memory} (h : m.wf) (b : Nat) (xs : List Byte) : (m.putBytes b xs).wf := by
  unfold Memory.putBytes Memory.wf
  rw [List.pairwise_append, List.pairwise_append]
  refine ⟨h.filter _, ⟨cellsFrom_wf b xs, h.filter _, ?_⟩, ?_⟩
  · intro c hc c' hc'
    have h1 := mem_cellsFrom hc
    have h2 : b + xs.length ≤ c'.1 := by simpa using (List.mem_filter.mp hc').2
    omega
  · intro c hc c' hc'
    have h1 : c.1 < b := by simpa using (List.mem_filter.mp hc).2
    rcases List.mem_append.mp hc' with hc' | hc'
    · have h2 := mem_cellsFrom hc'; omega
    · have h2 : b + xs.length ≤ c'.1 := by simpa using (List.mem_filter.mp hc').2
      omega

theorem Memory.lookup_putBytes (m : Memory) (b : Nat) (xs : List Byte) (a : Nat) :
    (m.putBytes b xs).lookup a = if b ≤ a ∧ a < b + xs.length then xs[a - b]? else m.lookup a := by
  simp only [Memory.lookup_eq, Memory.putBytes, lookup_append, lookup_cellsFrom]
  rw [lookup_filter (fun x => decide (x < b)), lookup_filter (fun x => decide (b + xs.length ≤ x))]
  by_cases h1 : b ≤ a
  · by_cases h2 : a < b + xs.length
    · have h3 : a - b < xs.length := by omega
      have h4 : ¬ a < b := by omega
      simp [h1, h2, h3, h4]
    · have h3 : xs.length ≤ a - b := by omega
      have h4 : ¬ a < b := by omega
      have h5 : b + xs.length ≤ a := by omega
      simp [h1, h2, h3, h4, h5]
  · have h4 : a < b := by omega
    have h5 : ¬ b + xs.length ≤ a := by omega
    simp [h1, h4, h5]

/-- A write leaves every other byte alone. -/
theorem Memory.byteFrom_putBytes_outside (n : Nat) (m : Memory) (b : Nat) (xs : List Byte) (a : Nat)
    (h : a < b ∨ b + xs.length ≤ a) : (m.putBytes b xs).byteFrom n a = m.byteFrom n a := by
  unfold Memory.byteFrom
  rw [Memory.lookup_putBytes, if_neg (by omega)]

/-- A read after a write gives the written byte. -/
theorem Memory.byteFrom_putBytes_inside (n : Nat) (m : Memory) (b : Nat) (xs : List Byte) (i : Nat)
    (h : i < xs.length) : (m.putBytes b xs).byteFrom n (b + i) = xs[i] := by
  unfold Memory.byteFrom
  rw [Memory.lookup_putBytes, if_pos (by omega)]
  have : b + i - b = i := by omega
  simp [this, h]

theorem Memory.mem_putBytes {m : Memory} {b : Nat} {xs : List Byte} {c : Host.Cell} (h : c ∈ m.putBytes b xs) :
    c ∈ m ∨ (b ≤ c.1 ∧ c.1 < b + xs.length) := by
  unfold Memory.putBytes at h
  rcases List.mem_append.mp h with h | h
  · exact .inl (List.mem_filter.mp h).1
  · rcases List.mem_append.mp h with h | h
    · exact .inr (mem_cellsFrom h)
    · exact .inl (List.mem_filter.mp h).1

/-! ### Runs of words -/

/-- The run lies in the first `n` words. -/
def Run.within (r : Run) (n : Nat) : Prop := r.1 + r.2.length ≤ n

/-- Byte address `b` lies in a word of the run. -/
def Run.covers (r : Run) (b : Nat) : Prop := 4 * r.1 ≤ b ∧ b < 4 * (r.1 + r.2.length)

theorem Memory.putRun_wf {m : Memory} (h : m.wf) (r : Run) : (m.putRun r).wf := Memory.putBytes_wf h _ _

theorem Memory.putRuns_wf {m : Memory} (h : m.wf) (rs : List Run) : (m.putRuns rs).wf := by
  induction rs generalizing m with
  | nil => exact h
  | cons r rs ih => exact ih (Memory.putRun_wf h r)

theorem Memory.byteFrom_putRun_outside (n : Nat) (m : Memory) (r : Run) (b : Nat) (h : ¬ r.covers b) :
    (m.putRun r).byteFrom n b = m.byteFrom n b := by
  unfold Memory.putRun
  apply Memory.byteFrom_putBytes_outside
  rw [flatMap_wordBytes_length]
  unfold Run.covers at h
  omega

theorem Memory.byteFrom_putRuns_outside (n : Nat) (m : Memory) (rs : List Run) (b : Nat)
    (h : ∀ r ∈ rs, ¬ r.covers b) : (m.putRuns rs).byteFrom n b = m.byteFrom n b := by
  induction rs generalizing m with
  | nil => rfl
  | cons r rs ih =>
    show ((m.putRun r).putRuns rs).byteFrom n b = _
    rw [ih (m.putRun r) fun r' hr' => h r' (List.mem_cons_of_mem _ hr')]
    exact Memory.byteFrom_putRun_outside n m r b (h r List.mem_cons_self)

theorem Memory.mem_putRuns_bound {m : Memory} {rs : List Run} {n : Nat} (hm : ∀ c ∈ m, c.1 < 4 * n)
    (hr : ∀ r ∈ rs, Run.within r n) : ∀ c ∈ m.putRuns rs, c.1 < 4 * n := by
  induction rs generalizing m with
  | nil => exact hm
  | cons r rs ih =>
    refine ih ?_ fun r' hr' => hr r' (List.mem_cons_of_mem _ hr')
    intro c hc
    rcases Memory.mem_putBytes hc with hc | hc
    · exact hm c hc
    · have := hr r List.mem_cons_self
      unfold Run.within at this
      rw [flatMap_wordBytes_length] at hc
      omega

theorem flatMap_wordBytes_getElem? (ws : List Word) (i j : Nat) (hj : j < 4) :
    (ws.flatMap wordBytes)[4 * i + j]? = ws[i]?.bind fun w => (wordBytes w)[j]? := by
  induction ws generalizing i with
  | nil => simp
  | cons w ws ih =>
    rw [List.flatMap_cons]
    cases i with
    | zero =>
      rw [List.getElem?_append_left (by simpa using hj)]
      simp
    | succ i =>
      rw [List.getElem?_append_right (by simp; omega)]
      have : 4 * (i + 1) + j - (wordBytes w).length = 4 * i + j := by simp; omega
      rw [this, ih]
      simp

/-- Little-endian bytes give their word back. -/
theorem wordOfBytes_wordBytes (w : Word) :
    wordOfBytes (BitVec.ofNat 8 w.toNat) (BitVec.ofNat 8 (w.toNat / 0x100)) (BitVec.ofNat 8 (w.toNat / 0x10000))
      (BitVec.ofNat 8 (w.toNat / 0x1000000)) = w := by
  unfold wordOfBytes
  apply BitVec.eq_of_toNat_eq
  have := w.isLt
  simp only [BitVec.toNat_ofNat]
  omega

/-- A word read after a run was written gives the written word. -/
theorem Memory.wordFrom_putRun_inside (n : Nat) (m : Memory) (r : Run) (i : Nat) (h : i < r.2.length) :
    (m.putRun r).wordFrom n (r.1 + i) = r.2[i] := by
  have key : ∀ j, (hj : j < 4) →
      (m.putRun r).byteFrom n (4 * (r.1 + i) + j) = (wordBytes r.2[i])[j]'(by simpa using hj) := by
    intro j hj
    have hlen : 4 * i + j < (r.2.flatMap wordBytes).length := by rw [flatMap_wordBytes_length]; omega
    have e : 4 * (r.1 + i) + j = 4 * r.1 + (4 * i + j) := by omega
    rw [e]
    unfold Memory.putRun
    rw [Memory.byteFrom_putBytes_inside n m _ _ _ hlen]
    have := flatMap_wordBytes_getElem? r.2 i j hj
    rw [List.getElem?_eq_getElem hlen, List.getElem?_eq_getElem h, Option.bind_some,
      List.getElem?_eq_getElem (by simpa using hj)] at this
    exact Option.some.inj this
  have k0 := key 0 (by omega)
  have k1 := key 1 (by omega)
  have k2 := key 2 (by omega)
  have k3 := key 3 (by omega)
  simp only [Nat.add_zero] at k0
  unfold Memory.wordFrom
  rw [k0, k1, k2, k3]
  exact wordOfBytes_wordBytes _

/-- A write of a run leaves every other word alone. -/
theorem Memory.wordFrom_putRun_outside (n : Nat) (m : Memory) (r : Run) (a : Nat)
    (h : a < r.1 ∨ r.1 + r.2.length ≤ a) : (m.putRun r).wordFrom n a = m.wordFrom n a := by
  have key : ∀ j, j < 4 → (m.putRun r).byteFrom n (4 * a + j) = m.byteFrom n (4 * a + j) := by
    intro j hj
    apply Memory.byteFrom_putRun_outside
    unfold Run.covers
    omega
  unfold Memory.wordFrom
  have := key 0 (by omega)
  simp only [Nat.add_zero] at this
  rw [this, key 1 (by omega), key 2 (by omega), key 3 (by omega)]

/-- Reading through the nearby cells is reading the memory. -/
theorem Memory.wordFrom_near (n : Nat) (m : Memory) (a k i : Nat) (h : i < k) :
    (m.near a k).wordFrom n (a + i) = m.wordFrom n (a + i) := by
  have key : ∀ j, j < 4 → (m.near a k).byteFrom n (4 * (a + i) + j) = m.byteFrom n (4 * (a + i) + j) := by
    intro j hj
    unfold Memory.byteFrom
    have : (m.near a k).lookup (4 * (a + i) + j) = m.lookup (4 * (a + i) + j) := by
      simp only [Memory.lookup_eq, Memory.near]
      rw [lookup_filter (fun x => decide (4 * a ≤ x) && decide (x < 4 * (a + k)))]
      have h1 : 4 * a ≤ 4 * (a + i) + j := by omega
      have h2 : 4 * (a + i) + j < 4 * (a + k) := by omega
      simp [h1, h2]
    rw [this]
  unfold Memory.wordFrom
  have := key 0 (by omega)
  simp only [Nat.add_zero] at this
  rw [this, key 1 (by omega), key 2 (by omega), key 3 (by omega)]

/-- A run is its words one by one. -/
theorem State.sramRun_eq (s : State) (a n : Nat) : s.sramRun a n = tab n fun i => s.sramWord (a + i) :=
  tab_congr fun i hi => Memory.wordFrom_near s.powerOns s.sram a n i hi

@[simp] theorem State.sramRun_length (s : State) (a n : Nat) : (s.sramRun a n).length = n := by
  simp [State.sramRun]

end Sys2Proof.Machine
end

