-- ==== Sys2Proof/Laws/State.lean ====
section
/-! SUPPORT. One lemma per field per update of the state, so that no proof unfolds a record update. -/

namespace Sys2Proof.Machine

/-! ### `State.applyPlan` -/

@[simp] theorem State.applyPlan_params (s : State) (p : Plan) : (s.applyPlan p).params = s.params := rfl
@[simp] theorem State.applyPlan_engine (s : State) (p : Plan) : (s.applyPlan p).engine = s.engine := rfl
@[simp] theorem State.applyPlan_ieDone (s : State) (p : Plan) : (s.applyPlan p).ieDone = s.ieDone := rfl
@[simp] theorem State.applyPlan_ieErr (s : State) (p : Plan) : (s.applyPlan p).ieErr = s.ieErr := rfl
@[simp] theorem State.applyPlan_done (s : State) (p : Plan) : (s.applyPlan p).done = s.done := rfl
@[simp] theorem State.applyPlan_rej (s : State) (p : Plan) : (s.applyPlan p).rej = s.rej := rfl
@[simp] theorem State.applyPlan_result (s : State) (p : Plan) : (s.applyPlan p).result = p.result.getD s.result := rfl
@[simp] theorem State.applyPlan_cause (s : State) (p : Plan) : (s.applyPlan p).cause = s.cause := rfl
@[simp] theorem State.applyPlan_fcmd (s : State) (p : Plan) : (s.applyPlan p).fcmd = s.fcmd := rfl
@[simp] theorem State.applyPlan_cmdcnt (s : State) (p : Plan) : (s.applyPlan p).cmdcnt = s.cmdcnt := rfl
@[simp] theorem State.applyPlan_arg (s : State) (p : Plan) : (s.applyPlan p).arg = s.arg := rfl
@[simp] theorem State.applyPlan_rdata (s : State) (p : Plan) : (s.applyPlan p).rdata = p.rdata.getD s.rdata := rfl
@[simp] theorem State.applyPlan_desc (s : State) (p : Plan) : (s.applyPlan p).desc = p.table s.desc := rfl
@[simp] theorem State.applyPlan_lcmd (s : State) (p : Plan) : (s.applyPlan p).lcmd = s.lcmd := rfl
@[simp] theorem State.applyPlan_larg (s : State) (p : Plan) : (s.applyPlan p).larg = s.larg := rfl
@[simp] theorem State.applyPlan_sram (s : State) (p : Plan) : (s.applyPlan p).sram = s.sram.putRuns p.writes := rfl
@[simp] theorem State.applyPlan_powerOns (s : State) (p : Plan) : (s.applyPlan p).powerOns = s.powerOns := rfl
@[simp] theorem State.applyPlan_abandons (s : State) (p : Plan) : (s.applyPlan p).abandons = s.abandons := rfl
@[simp] theorem State.applyPlan_bus (s : State) (p : Plan) : (s.applyPlan p).bus = s.bus := rfl
@[simp] theorem State.applyPlan_response (s : State) (p : Plan) : (s.applyPlan p).response = s.response := rfl

/-! ### `State.complete` -/

@[simp] theorem State.complete_params (s : State) : s.complete.params = s.params := rfl
@[simp] theorem State.complete_engine (s : State) : s.complete.engine = .idle := rfl
@[simp] theorem State.complete_ieDone (s : State) : s.complete.ieDone = s.ieDone := rfl
@[simp] theorem State.complete_ieErr (s : State) : s.complete.ieErr = s.ieErr := rfl
@[simp] theorem State.complete_done (s : State) : s.complete.done = true := rfl
@[simp] theorem State.complete_rej (s : State) : s.complete.rej = s.rej := rfl
@[simp] theorem State.complete_result (s : State) : s.complete.result = s.result := rfl
@[simp] theorem State.complete_cause (s : State) : s.complete.cause = s.cause := rfl
@[simp] theorem State.complete_fcmd (s : State) : s.complete.fcmd = s.fcmd := rfl
@[simp] theorem State.complete_cmdcnt (s : State) : s.complete.cmdcnt = s.cmdcnt + 1 := rfl
@[simp] theorem State.complete_arg (s : State) : s.complete.arg = s.arg := rfl
@[simp] theorem State.complete_rdata (s : State) : s.complete.rdata = s.rdata := rfl
@[simp] theorem State.complete_desc (s : State) : s.complete.desc = s.desc := rfl
@[simp] theorem State.complete_lcmd (s : State) : s.complete.lcmd = s.lcmd := rfl
@[simp] theorem State.complete_larg (s : State) : s.complete.larg = s.larg := rfl
@[simp] theorem State.complete_sram (s : State) : s.complete.sram = s.sram := rfl
@[simp] theorem State.complete_powerOns (s : State) : s.complete.powerOns = s.powerOns := rfl
@[simp] theorem State.complete_abandons (s : State) : s.complete.abandons = s.abandons := rfl
@[simp] theorem State.complete_bus (s : State) : s.complete.bus = s.bus := rfl
@[simp] theorem State.complete_response (s : State) : s.complete.response = s.response := rfl

/-! ### `State.faultEntry` -/

@[simp] theorem State.faultEntry_params (c : Cause) (s : State) : (s.faultEntry c).params = s.params := rfl
@[simp] theorem State.faultEntry_engine (c : Cause) (s : State) : (s.faultEntry c).engine = .error := rfl
@[simp] theorem State.faultEntry_ieDone (c : Cause) (s : State) : (s.faultEntry c).ieDone = s.ieDone := rfl
@[simp] theorem State.faultEntry_ieErr (c : Cause) (s : State) : (s.faultEntry c).ieErr = s.ieErr := rfl
@[simp] theorem State.faultEntry_done (c : Cause) (s : State) : (s.faultEntry c).done = s.done := rfl
@[simp] theorem State.faultEntry_rej (c : Cause) (s : State) : (s.faultEntry c).rej = s.rej := rfl
@[simp] theorem State.faultEntry_result (c : Cause) (s : State) : (s.faultEntry c).result = s.result := rfl
@[simp] theorem State.faultEntry_cause (c : Cause) (s : State) : (s.faultEntry c).cause = c.code := rfl
@[simp] theorem State.faultEntry_fcmd (c : Cause) (s : State) : (s.faultEntry c).fcmd = s.lcmd := rfl
@[simp] theorem State.faultEntry_cmdcnt (c : Cause) (s : State) : (s.faultEntry c).cmdcnt = s.cmdcnt := rfl
@[simp] theorem State.faultEntry_arg (c : Cause) (s : State) : (s.faultEntry c).arg = s.arg := rfl
@[simp] theorem State.faultEntry_rdata (c : Cause) (s : State) : (s.faultEntry c).rdata = s.rdata := rfl
@[simp] theorem State.faultEntry_desc (c : Cause) (s : State) : (s.faultEntry c).desc = s.desc := rfl
@[simp] theorem State.faultEntry_lcmd (c : Cause) (s : State) : (s.faultEntry c).lcmd = s.lcmd := rfl
@[simp] theorem State.faultEntry_larg (c : Cause) (s : State) : (s.faultEntry c).larg = s.larg := rfl
@[simp] theorem State.faultEntry_sram (c : Cause) (s : State) : (s.faultEntry c).sram = s.sram := rfl
@[simp] theorem State.faultEntry_powerOns (c : Cause) (s : State) : (s.faultEntry c).powerOns = s.powerOns := rfl
@[simp] theorem State.faultEntry_abandons (c : Cause) (s : State) : (s.faultEntry c).abandons = s.abandons := rfl
@[simp] theorem State.faultEntry_bus (c : Cause) (s : State) : (s.faultEntry c).bus = s.bus := rfl
@[simp] theorem State.faultEntry_response (c : Cause) (s : State) : (s.faultEntry c).response = s.response := rfl

/-! ### `State.clearRegisters` -/

@[simp] theorem State.clearRegisters_params (s : State) : s.clearRegisters.params = s.params := rfl
@[simp] theorem State.clearRegisters_engine (s : State) : s.clearRegisters.engine = .idle := rfl
@[simp] theorem State.clearRegisters_ieDone (s : State) : s.clearRegisters.ieDone = false := rfl
@[simp] theorem State.clearRegisters_ieErr (s : State) : s.clearRegisters.ieErr = false := rfl
@[simp] theorem State.clearRegisters_done (s : State) : s.clearRegisters.done = false := rfl
@[simp] theorem State.clearRegisters_rej (s : State) : s.clearRegisters.rej = false := rfl
@[simp] theorem State.clearRegisters_result (s : State) : s.clearRegisters.result = false := rfl
@[simp] theorem State.clearRegisters_cause (s : State) : s.clearRegisters.cause = 0 := rfl
@[simp] theorem State.clearRegisters_fcmd (s : State) : s.clearRegisters.fcmd = 0 := rfl
@[simp] theorem State.clearRegisters_cmdcnt (s : State) : s.clearRegisters.cmdcnt = 0 := rfl
@[simp] theorem State.clearRegisters_arg (s : State) : s.clearRegisters.arg = Vector.replicate 6 0 := rfl
@[simp] theorem State.clearRegisters_rdata (s : State) : s.clearRegisters.rdata = 0 := rfl
@[simp] theorem State.clearRegisters_desc (s : State) : s.clearRegisters.desc = Vector.replicate 16 Desc.emptySlot := rfl
@[simp] theorem State.clearRegisters_lcmd (s : State) : s.clearRegisters.lcmd = s.lcmd := rfl
@[simp] theorem State.clearRegisters_larg (s : State) : s.clearRegisters.larg = s.larg := rfl
@[simp] theorem State.clearRegisters_sram (s : State) : s.clearRegisters.sram = s.sram := rfl
@[simp] theorem State.clearRegisters_powerOns (s : State) : s.clearRegisters.powerOns = s.powerOns := rfl
@[simp] theorem State.clearRegisters_abandons (s : State) : s.clearRegisters.abandons = s.abandons := rfl
@[simp] theorem State.clearRegisters_bus (s : State) : s.clearRegisters.bus = s.bus := rfl
@[simp] theorem State.clearRegisters_response (s : State) : s.clearRegisters.response = s.response := rfl

/-! ### `State.writeStatus` -/

@[simp] theorem State.writeStatus_params (v : Word) (s : State) : (s.writeStatus v).params = s.params := rfl
@[simp] theorem State.writeStatus_engine (v : Word) (s : State) : (s.writeStatus v).engine = s.engine := rfl
@[simp] theorem State.writeStatus_ieDone (v : Word) (s : State) : (s.writeStatus v).ieDone = s.ieDone := rfl
@[simp] theorem State.writeStatus_ieErr (v : Word) (s : State) : (s.writeStatus v).ieErr = s.ieErr := rfl
@[simp] theorem State.writeStatus_done (v : Word) (s : State) : (s.writeStatus v).done = (s.done && !v.getLsbD 1) := rfl
@[simp] theorem State.writeStatus_rej (v : Word) (s : State) : (s.writeStatus v).rej = (s.rej && !v.getLsbD 3) := rfl
@[simp] theorem State.writeStatus_result (v : Word) (s : State) : (s.writeStatus v).result = s.result := rfl
@[simp] theorem State.writeStatus_cause (v : Word) (s : State) : (s.writeStatus v).cause = s.cause := rfl
@[simp] theorem State.writeStatus_fcmd (v : Word) (s : State) : (s.writeStatus v).fcmd = s.fcmd := rfl
@[simp] theorem State.writeStatus_cmdcnt (v : Word) (s : State) : (s.writeStatus v).cmdcnt = s.cmdcnt := rfl
@[simp] theorem State.writeStatus_arg (v : Word) (s : State) : (s.writeStatus v).arg = s.arg := rfl
@[simp] theorem State.writeStatus_rdata (v : Word) (s : State) : (s.writeStatus v).rdata = s.rdata := rfl
@[simp] theorem State.writeStatus_desc (v : Word) (s : State) : (s.writeStatus v).desc = s.desc := rfl
@[simp] theorem State.writeStatus_lcmd (v : Word) (s : State) : (s.writeStatus v).lcmd = s.lcmd := rfl
@[simp] theorem State.writeStatus_larg (v : Word) (s : State) : (s.writeStatus v).larg = s.larg := rfl
@[simp] theorem State.writeStatus_sram (v : Word) (s : State) : (s.writeStatus v).sram = s.sram := rfl
@[simp] theorem State.writeStatus_powerOns (v : Word) (s : State) : (s.writeStatus v).powerOns = s.powerOns := rfl
@[simp] theorem State.writeStatus_abandons (v : Word) (s : State) : (s.writeStatus v).abandons = s.abandons := rfl
@[simp] theorem State.writeStatus_bus (v : Word) (s : State) : (s.writeStatus v).bus = s.bus := rfl
@[simp] theorem State.writeStatus_response (v : Word) (s : State) : (s.writeStatus v).response = s.response := rfl

/-! ### `State.writeEnables` -/

@[simp] theorem State.writeEnables_params (v : Word) (s : State) : (s.writeEnables v).params = s.params := rfl
@[simp] theorem State.writeEnables_engine (v : Word) (s : State) : (s.writeEnables v).engine = s.engine := rfl
@[simp] theorem State.writeEnables_ieDone (v : Word) (s : State) : (s.writeEnables v).ieDone = v.getLsbD 1 := rfl
@[simp] theorem State.writeEnables_ieErr (v : Word) (s : State) : (s.writeEnables v).ieErr = v.getLsbD 2 := rfl
@[simp] theorem State.writeEnables_done (v : Word) (s : State) : (s.writeEnables v).done = s.done := rfl
@[simp] theorem State.writeEnables_rej (v : Word) (s : State) : (s.writeEnables v).rej = s.rej := rfl
@[simp] theorem State.writeEnables_result (v : Word) (s : State) : (s.writeEnables v).result = s.result := rfl
@[simp] theorem State.writeEnables_cause (v : Word) (s : State) : (s.writeEnables v).cause = s.cause := rfl
@[simp] theorem State.writeEnables_fcmd (v : Word) (s : State) : (s.writeEnables v).fcmd = s.fcmd := rfl
@[simp] theorem State.writeEnables_cmdcnt (v : Word) (s : State) : (s.writeEnables v).cmdcnt = s.cmdcnt := rfl
@[simp] theorem State.writeEnables_arg (v : Word) (s : State) : (s.writeEnables v).arg = s.arg := rfl
@[simp] theorem State.writeEnables_rdata (v : Word) (s : State) : (s.writeEnables v).rdata = s.rdata := rfl
@[simp] theorem State.writeEnables_desc (v : Word) (s : State) : (s.writeEnables v).desc = s.desc := rfl
@[simp] theorem State.writeEnables_lcmd (v : Word) (s : State) : (s.writeEnables v).lcmd = s.lcmd := rfl
@[simp] theorem State.writeEnables_larg (v : Word) (s : State) : (s.writeEnables v).larg = s.larg := rfl
@[simp] theorem State.writeEnables_sram (v : Word) (s : State) : (s.writeEnables v).sram = s.sram := rfl
@[simp] theorem State.writeEnables_powerOns (v : Word) (s : State) : (s.writeEnables v).powerOns = s.powerOns := rfl
@[simp] theorem State.writeEnables_abandons (v : Word) (s : State) : (s.writeEnables v).abandons = s.abandons := rfl
@[simp] theorem State.writeEnables_bus (v : Word) (s : State) : (s.writeEnables v).bus = s.bus := rfl
@[simp] theorem State.writeEnables_response (v : Word) (s : State) : (s.writeEnables v).response = s.response := rfl

/-! ### `State.writeArg` -/

@[simp] theorem State.writeArg_params (i : Fin 6) (v : Word) (s : State) : (s.writeArg i v).params = s.params := rfl
@[simp] theorem State.writeArg_engine (i : Fin 6) (v : Word) (s : State) : (s.writeArg i v).engine = s.engine := rfl
@[simp] theorem State.writeArg_ieDone (i : Fin 6) (v : Word) (s : State) : (s.writeArg i v).ieDone = s.ieDone := rfl
@[simp] theorem State.writeArg_ieErr (i : Fin 6) (v : Word) (s : State) : (s.writeArg i v).ieErr = s.ieErr := rfl
@[simp] theorem State.writeArg_done (i : Fin 6) (v : Word) (s : State) : (s.writeArg i v).done = s.done := rfl
@[simp] theorem State.writeArg_rej (i : Fin 6) (v : Word) (s : State) : (s.writeArg i v).rej = s.rej := rfl
@[simp] theorem State.writeArg_result (i : Fin 6) (v : Word) (s : State) : (s.writeArg i v).result = s.result := rfl
@[simp] theorem State.writeArg_cause (i : Fin 6) (v : Word) (s : State) : (s.writeArg i v).cause = s.cause := rfl
@[simp] theorem State.writeArg_fcmd (i : Fin 6) (v : Word) (s : State) : (s.writeArg i v).fcmd = s.fcmd := rfl
@[simp] theorem State.writeArg_cmdcnt (i : Fin 6) (v : Word) (s : State) : (s.writeArg i v).cmdcnt = s.cmdcnt := rfl
@[simp] theorem State.writeArg_arg (i : Fin 6) (v : Word) (s : State) : (s.writeArg i v).arg = s.arg.set i v := rfl
@[simp] theorem State.writeArg_rdata (i : Fin 6) (v : Word) (s : State) : (s.writeArg i v).rdata = s.rdata := rfl
@[simp] theorem State.writeArg_desc (i : Fin 6) (v : Word) (s : State) : (s.writeArg i v).desc = s.desc := rfl
@[simp] theorem State.writeArg_lcmd (i : Fin 6) (v : Word) (s : State) : (s.writeArg i v).lcmd = s.lcmd := rfl
@[simp] theorem State.writeArg_larg (i : Fin 6) (v : Word) (s : State) : (s.writeArg i v).larg = s.larg := rfl
@[simp] theorem State.writeArg_sram (i : Fin 6) (v : Word) (s : State) : (s.writeArg i v).sram = s.sram := rfl
@[simp] theorem State.writeArg_powerOns (i : Fin 6) (v : Word) (s : State) : (s.writeArg i v).powerOns = s.powerOns := rfl
@[simp] theorem State.writeArg_abandons (i : Fin 6) (v : Word) (s : State) : (s.writeArg i v).abandons = s.abandons := rfl
@[simp] theorem State.writeArg_bus (i : Fin 6) (v : Word) (s : State) : (s.writeArg i v).bus = s.bus := rfl
@[simp] theorem State.writeArg_response (i : Fin 6) (v : Word) (s : State) : (s.writeArg i v).response = s.response := rfl

/-! ### `State.writeSram` -/

@[simp] theorem State.writeSram_params (a : Nat) (v : Word) (s : State) : (s.writeSram a v).params = s.params := rfl
@[simp] theorem State.writeSram_engine (a : Nat) (v : Word) (s : State) : (s.writeSram a v).engine = s.engine := rfl
@[simp] theorem State.writeSram_ieDone (a : Nat) (v : Word) (s : State) : (s.writeSram a v).ieDone = s.ieDone := rfl
@[simp] theorem State.writeSram_ieErr (a : Nat) (v : Word) (s : State) : (s.writeSram a v).ieErr = s.ieErr := rfl
@[simp] theorem State.writeSram_done (a : Nat) (v : Word) (s : State) : (s.writeSram a v).done = s.done := rfl
@[simp] theorem State.writeSram_rej (a : Nat) (v : Word) (s : State) : (s.writeSram a v).rej = s.rej := rfl
@[simp] theorem State.writeSram_result (a : Nat) (v : Word) (s : State) : (s.writeSram a v).result = s.result := rfl
@[simp] theorem State.writeSram_cause (a : Nat) (v : Word) (s : State) : (s.writeSram a v).cause = s.cause := rfl
@[simp] theorem State.writeSram_fcmd (a : Nat) (v : Word) (s : State) : (s.writeSram a v).fcmd = s.fcmd := rfl
@[simp] theorem State.writeSram_cmdcnt (a : Nat) (v : Word) (s : State) : (s.writeSram a v).cmdcnt = s.cmdcnt := rfl
@[simp] theorem State.writeSram_arg (a : Nat) (v : Word) (s : State) : (s.writeSram a v).arg = s.arg := rfl
@[simp] theorem State.writeSram_rdata (a : Nat) (v : Word) (s : State) : (s.writeSram a v).rdata = s.rdata := rfl
@[simp] theorem State.writeSram_desc (a : Nat) (v : Word) (s : State) : (s.writeSram a v).desc = s.desc := rfl
@[simp] theorem State.writeSram_lcmd (a : Nat) (v : Word) (s : State) : (s.writeSram a v).lcmd = s.lcmd := rfl
@[simp] theorem State.writeSram_larg (a : Nat) (v : Word) (s : State) : (s.writeSram a v).larg = s.larg := rfl
@[simp] theorem State.writeSram_sram (a : Nat) (v : Word) (s : State) : (s.writeSram a v).sram = s.sram.putRun (a, [v]) := rfl
@[simp] theorem State.writeSram_powerOns (a : Nat) (v : Word) (s : State) : (s.writeSram a v).powerOns = s.powerOns := rfl
@[simp] theorem State.writeSram_abandons (a : Nat) (v : Word) (s : State) : (s.writeSram a v).abandons = s.abandons := rfl
@[simp] theorem State.writeSram_bus (a : Nat) (v : Word) (s : State) : (s.writeSram a v).bus = s.bus := rfl
@[simp] theorem State.writeSram_response (a : Nat) (v : Word) (s : State) : (s.writeSram a v).response = s.response := rfl

/-! ### `State.accepted` -/

@[simp] theorem State.accepted_params (w : Word) (s : State) : (s.accepted w).params = s.params := rfl
@[simp] theorem State.accepted_engine (w : Word) (s : State) : (s.accepted w).engine = .busy := rfl
@[simp] theorem State.accepted_ieDone (w : Word) (s : State) : (s.accepted w).ieDone = s.ieDone := rfl
@[simp] theorem State.accepted_ieErr (w : Word) (s : State) : (s.accepted w).ieErr = s.ieErr := rfl
@[simp] theorem State.accepted_done (w : Word) (s : State) : (s.accepted w).done = false := rfl
@[simp] theorem State.accepted_rej (w : Word) (s : State) : (s.accepted w).rej = s.rej := rfl
@[simp] theorem State.accepted_result (w : Word) (s : State) : (s.accepted w).result = s.result := rfl
@[simp] theorem State.accepted_cause (w : Word) (s : State) : (s.accepted w).cause = s.cause := rfl
@[simp] theorem State.accepted_fcmd (w : Word) (s : State) : (s.accepted w).fcmd = s.fcmd := rfl
@[simp] theorem State.accepted_cmdcnt (w : Word) (s : State) : (s.accepted w).cmdcnt = s.cmdcnt := rfl
@[simp] theorem State.accepted_arg (w : Word) (s : State) : (s.accepted w).arg = s.arg := rfl
@[simp] theorem State.accepted_rdata (w : Word) (s : State) : (s.accepted w).rdata = s.rdata := rfl
@[simp] theorem State.accepted_desc (w : Word) (s : State) : (s.accepted w).desc = s.desc := rfl
@[simp] theorem State.accepted_lcmd (w : Word) (s : State) : (s.accepted w).lcmd = w := rfl
@[simp] theorem State.accepted_larg (w : Word) (s : State) : (s.accepted w).larg = s.arg := rfl
@[simp] theorem State.accepted_sram (w : Word) (s : State) : (s.accepted w).sram = s.sram := rfl
@[simp] theorem State.accepted_powerOns (w : Word) (s : State) : (s.accepted w).powerOns = s.powerOns := rfl
@[simp] theorem State.accepted_abandons (w : Word) (s : State) : (s.accepted w).abandons = s.abandons := rfl
@[simp] theorem State.accepted_bus (w : Word) (s : State) : (s.accepted w).bus = .engineTurn :: s.bus := rfl
@[simp] theorem State.accepted_response (w : Word) (s : State) : (s.accepted w).response = s.response := rfl

/-! ### `State.submit`, `State.abandon`, `State.softReset`, `State.hardReset` -/

@[simp] theorem State.submit_params (w : Word) (s : State) : (s.submit w).params = s.params := by
  unfold State.submit; split <;> rfl
@[simp] theorem State.submit_ieDone (w : Word) (s : State) : (s.submit w).ieDone = s.ieDone := by
  unfold State.submit; split <;> rfl
@[simp] theorem State.submit_ieErr (w : Word) (s : State) : (s.submit w).ieErr = s.ieErr := by
  unfold State.submit; split <;> rfl
@[simp] theorem State.submit_result (w : Word) (s : State) : (s.submit w).result = s.result := by
  unfold State.submit; split <;> rfl
@[simp] theorem State.submit_cause (w : Word) (s : State) : (s.submit w).cause = s.cause := by
  unfold State.submit; split <;> rfl
@[simp] theorem State.submit_fcmd (w : Word) (s : State) : (s.submit w).fcmd = s.fcmd := by
  unfold State.submit; split <;> rfl
@[simp] theorem State.submit_cmdcnt (w : Word) (s : State) : (s.submit w).cmdcnt = s.cmdcnt := by
  unfold State.submit; split <;> rfl
@[simp] theorem State.submit_arg (w : Word) (s : State) : (s.submit w).arg = s.arg := by
  unfold State.submit; split <;> rfl
@[simp] theorem State.submit_rdata (w : Word) (s : State) : (s.submit w).rdata = s.rdata := by
  unfold State.submit; split <;> rfl
@[simp] theorem State.submit_desc (w : Word) (s : State) : (s.submit w).desc = s.desc := by
  unfold State.submit; split <;> rfl
@[simp] theorem State.submit_sram (w : Word) (s : State) : (s.submit w).sram = s.sram := by
  unfold State.submit; split <;> rfl
@[simp] theorem State.submit_powerOns (w : Word) (s : State) : (s.submit w).powerOns = s.powerOns := by
  unfold State.submit; split <;> rfl
@[simp] theorem State.submit_abandons (w : Word) (s : State) : (s.submit w).abandons = s.abandons := by
  unfold State.submit; split <;> rfl
@[simp] theorem State.submit_bus (w : Word) (s : State) : (s.submit w).bus = s.bus := by
  unfold State.submit; split <;> rfl
@[simp] theorem State.submit_response (w : Word) (s : State) : (s.submit w).response = s.response := by
  unfold State.submit; split <;> rfl

@[simp] theorem State.abandon_params (s : State) : s.abandon.params = s.params := by
  unfold State.abandon; split <;> rfl
@[simp] theorem State.abandon_engine (s : State) : s.abandon.engine = s.engine := by
  unfold State.abandon; split <;> rfl
@[simp] theorem State.abandon_ieDone (s : State) : s.abandon.ieDone = s.ieDone := by
  unfold State.abandon; split <;> rfl
@[simp] theorem State.abandon_ieErr (s : State) : s.abandon.ieErr = s.ieErr := by
  unfold State.abandon; split <;> rfl
@[simp] theorem State.abandon_done (s : State) : s.abandon.done = s.done := by
  unfold State.abandon; split <;> rfl
@[simp] theorem State.abandon_rej (s : State) : s.abandon.rej = s.rej := by
  unfold State.abandon; split <;> rfl
@[simp] theorem State.abandon_result (s : State) : s.abandon.result = s.result := by
  unfold State.abandon; split <;> rfl
@[simp] theorem State.abandon_cause (s : State) : s.abandon.cause = s.cause := by
  unfold State.abandon; split <;> rfl
@[simp] theorem State.abandon_fcmd (s : State) : s.abandon.fcmd = s.fcmd := by
  unfold State.abandon; split <;> rfl
@[simp] theorem State.abandon_cmdcnt (s : State) : s.abandon.cmdcnt = s.cmdcnt := by
  unfold State.abandon; split <;> rfl
@[simp] theorem State.abandon_arg (s : State) : s.abandon.arg = s.arg := by
  unfold State.abandon; split <;> rfl
@[simp] theorem State.abandon_rdata (s : State) : s.abandon.rdata = s.rdata := by
  unfold State.abandon; split <;> rfl
@[simp] theorem State.abandon_desc (s : State) : s.abandon.desc = s.desc := by
  unfold State.abandon; split <;> rfl
@[simp] theorem State.abandon_lcmd (s : State) : s.abandon.lcmd = s.lcmd := by
  unfold State.abandon; split <;> rfl
@[simp] theorem State.abandon_larg (s : State) : s.abandon.larg = s.larg := by
  unfold State.abandon; split <;> rfl
@[simp] theorem State.abandon_powerOns (s : State) : s.abandon.powerOns = s.powerOns := by
  unfold State.abandon; split <;> rfl
@[simp] theorem State.abandon_bus (s : State) : s.abandon.bus = s.bus := by
  unfold State.abandon; split <;> rfl
@[simp] theorem State.abandon_response (s : State) : s.abandon.response = s.response := by
  unfold State.abandon; split <;> rfl

@[simp] theorem State.softReset_params (s : State) : s.softReset.params = s.params := by
  simp [State.softReset]
@[simp] theorem State.softReset_engine (s : State) : s.softReset.engine = .idle := by
  simp [State.softReset]
@[simp] theorem State.softReset_ieDone (s : State) : s.softReset.ieDone = false := by
  simp [State.softReset]
@[simp] theorem State.softReset_ieErr (s : State) : s.softReset.ieErr = false := by
  simp [State.softReset]
@[simp] theorem State.softReset_done (s : State) : s.softReset.done = false := by
  simp [State.softReset]
@[simp] theorem State.softReset_rej (s : State) : s.softReset.rej = false := by
  simp [State.softReset]
@[simp] theorem State.softReset_result (s : State) : s.softReset.result = false := by
  simp [State.softReset]
@[simp] theorem State.softReset_cause (s : State) : s.softReset.cause = 0 := by
  simp [State.softReset]
@[simp] theorem State.softReset_fcmd (s : State) : s.softReset.fcmd = 0 := by
  simp [State.softReset]
@[simp] theorem State.softReset_cmdcnt (s : State) : s.softReset.cmdcnt = 0 := by
  simp [State.softReset]
@[simp] theorem State.softReset_arg (s : State) : s.softReset.arg = Vector.replicate 6 0 := by
  simp [State.softReset]
@[simp] theorem State.softReset_rdata (s : State) : s.softReset.rdata = 0 := by
  simp [State.softReset]
@[simp] theorem State.softReset_desc (s : State) : s.softReset.desc = Vector.replicate 16 Desc.emptySlot := by
  simp [State.softReset]
@[simp] theorem State.softReset_lcmd (s : State) : s.softReset.lcmd = s.lcmd := by
  simp [State.softReset]
@[simp] theorem State.softReset_larg (s : State) : s.softReset.larg = s.larg := by
  simp [State.softReset]
@[simp] theorem State.softReset_sram (s : State) : s.softReset.sram = s.abandon.sram := rfl
@[simp] theorem State.softReset_powerOns (s : State) : s.softReset.powerOns = s.powerOns := by
  simp [State.softReset]
@[simp] theorem State.softReset_abandons (s : State) : s.softReset.abandons = s.abandon.abandons := rfl
@[simp] theorem State.softReset_bus (s : State) : s.softReset.bus = s.bus := by
  simp [State.softReset]
@[simp] theorem State.softReset_response (s : State) : s.softReset.response = s.response := by
  simp [State.softReset]

@[simp] theorem State.hardReset_params (s : State) : s.hardReset.params = s.params := rfl
@[simp] theorem State.hardReset_engine (s : State) : s.hardReset.engine = .idle := rfl
@[simp] theorem State.hardReset_ieDone (s : State) : s.hardReset.ieDone = false := rfl
@[simp] theorem State.hardReset_ieErr (s : State) : s.hardReset.ieErr = false := rfl
@[simp] theorem State.hardReset_done (s : State) : s.hardReset.done = false := rfl
@[simp] theorem State.hardReset_rej (s : State) : s.hardReset.rej = false := rfl
@[simp] theorem State.hardReset_result (s : State) : s.hardReset.result = false := rfl
@[simp] theorem State.hardReset_cause (s : State) : s.hardReset.cause = 0 := rfl
@[simp] theorem State.hardReset_fcmd (s : State) : s.hardReset.fcmd = 0 := rfl
@[simp] theorem State.hardReset_cmdcnt (s : State) : s.hardReset.cmdcnt = 0 := rfl
@[simp] theorem State.hardReset_arg (s : State) : s.hardReset.arg = Vector.replicate 6 0 := rfl
@[simp] theorem State.hardReset_rdata (s : State) : s.hardReset.rdata = 0 := rfl
@[simp] theorem State.hardReset_desc (s : State) : s.hardReset.desc = Vector.replicate 16 Desc.emptySlot := rfl
@[simp] theorem State.hardReset_lcmd (s : State) : s.hardReset.lcmd = 0 := rfl
@[simp] theorem State.hardReset_larg (s : State) : s.hardReset.larg = Vector.replicate 6 0 := rfl
@[simp] theorem State.hardReset_sram (s : State) : s.hardReset.sram = [] := rfl
@[simp] theorem State.hardReset_powerOns (s : State) : s.hardReset.powerOns = s.powerOns + 1 := rfl
@[simp] theorem State.hardReset_abandons (s : State) : s.hardReset.abandons = s.abandons := rfl
@[simp] theorem State.hardReset_bus (s : State) : s.hardReset.bus = s.bus := rfl
@[simp] theorem State.hardReset_response (s : State) : s.hardReset.response = s.response := rfl

end Sys2Proof.Machine
end

