-- ==== Sys2Proof/Laws/Exec.lean ====
section
/-! SUPPORT. What a command and a step can do, said once: the inversions of `settle`, `exec`, the engine's turn and the
step. -/

namespace Sys2Proof.Machine

/-- Every command settles its plan. -/
theorem exec_eq_settle (i : Instr) (s : State) : exec i s = settle (planOf i s) s := by
  cases i <;> rfl

/-- Everything settling a verdict can do. -/
theorem settle_next_cases {v : Verdict} {s t : State} (h : settle v s = .next t) :
    (∃ p, v = .runs p ∧ t = (s.applyPlan p).complete) ∨ (∃ c, v = .raises c ∧ t = s.faultEntry c) := by
  cases v with
  | runs p => exact .inl ⟨p, rfl, (Host.Outcome.next.inj h).symm⟩
  | raises c => exact .inr ⟨c, rfl, (Host.Outcome.next.inj h).symm⟩
  | offMap a => cases h

/-- Everything a command can do: it completes with its plan, or it faults. -/
theorem exec_next_cases {i : Instr} {s t : State} (h : exec i s = .next t) :
    (∃ p, planOf i s = .runs p ∧ t = (s.applyPlan p).complete) ∨
      (∃ c, planOf i s = .raises c ∧ t = s.faultEntry c) :=
  settle_next_cases (exec_eq_settle i s ▸ h)

theorem exec_of_runs {i : Instr} {s : State} {p : Plan} (h : planOf i s = .runs p) :
    exec i s = .next (s.applyPlan p).complete := by
  rw [exec_eq_settle, h]
  rfl

theorem exec_of_raises {i : Instr} {s : State} {c : Cause} (h : planOf i s = .raises c) :
    exec i s = .next (s.faultEntry c) := by
  rw [exec_eq_settle, h]
  rfl

/-- No command is refused. -/
theorem exec_not_refused (i : Instr) (s : State) (r : Refusal) : exec i s ≠ .refused r := by
  rw [exec_eq_settle]
  cases planOf i s <;> intro h <;> cases h

theorem engineStep_of_instr {s : State} {i : Instr} (h : decode s.lcmd = .instr i) : engineStep s = exec i s := by
  unfold engineStep
  rw [h]

theorem engineStep_of_rejected {s : State} {why : IllegalWord} (h : decode s.lcmd = .rejected why) :
    engineStep s = .next (s.faultEntry .illegalCmd) := by
  unfold engineStep
  rw [h]

theorem engineTurn_busy {s : State} (h : s.engine = .busy) : engineTurn s = engineStep s := if_pos h

theorem engineTurn_not_busy {s : State} (h : s.engine ≠ .busy) : engineTurn s = .next s := if_neg h

/-- Everything the engine's turn can do: nothing, completing a command with its plan, or taking a fault. -/
theorem engineTurn_next_cases {s t : State} (h : engineTurn s = .next t) :
    (s.engine ≠ .busy ∧ t = s) ∨
      (s.engine = .busy ∧
        ((∃ i p, decode s.lcmd = .instr i ∧ planOf i s = .runs p ∧ t = (s.applyPlan p).complete) ∨
          ∃ c, t = s.faultEntry c)) := by
  by_cases hb : s.engine = .busy
  · refine .inr ⟨hb, ?_⟩
    rw [engineTurn_busy hb] at h
    cases hd : decode s.lcmd with
    | instr i =>
      rw [engineStep_of_instr hd] at h
      rcases exec_next_cases h with ⟨p, hp, ht⟩ | ⟨c, -, ht⟩
      · exact .inl ⟨i, p, rfl, hp, ht⟩
      · exact .inr ⟨c, ht⟩
    | rejected why =>
      rw [engineStep_of_rejected hd] at h
      exact .inr ⟨.illegalCmd, (Host.Outcome.next.inj h).symm⟩
  · rw [engineTurn_not_busy hb] at h
    exact .inl ⟨hb, (Host.Outcome.next.inj h).symm⟩

theorem step_of_empty {s : State} (h : s.bus = []) : step s = engineTurn s := by
  unfold step turn
  rw [h]

theorem step_of_held {s : State} {e : Event} {rest : List Event} (h : s.bus = e :: rest) (hh : s.headHeld = true) :
    step s = engineTurn s := by
  unfold step turn
  rw [h]
  exact if_pos hh

theorem step_of_event {s : State} {e : Event} {rest : List Event} (h : s.bus = e :: rest) (hh : s.headHeld = false) :
    step s = State.eventTurn { s with bus := rest } e := by
  unfold step turn
  rw [h]
  exact if_neg (by rw [hh]; exact Bool.false_ne_true)

/-- Everything a step can do: the engine moves (the queue is empty, or its head waits), or the first event happens. -/
theorem step_cases (s : State) :
    (step s = engineTurn s ∧ (s.bus = [] ∨ s.headHeld = true)) ∨
      ∃ e rest, s.bus = e :: rest ∧ s.headHeld = false ∧ step s = State.eventTurn { s with bus := rest } e := by
  cases hb : s.bus with
  | nil => exact .inl ⟨step_of_empty hb, .inl rfl⟩
  | cons e rest =>
    cases hh : s.headHeld with
    | true => exact .inl ⟨step_of_held hb hh, .inr rfl⟩
    | false => exact .inr ⟨e, rest, rfl, rfl, step_of_event hb hh⟩

/-- A word read after a plan's runs were written, where the run is the last that covers it. -/
theorem Memory.wordFrom_putRuns_outside (n : Nat) (m : Memory) (rs : List Run) (a : Nat)
    (h : ∀ r ∈ rs, a < r.1 ∨ r.1 + r.2.length ≤ a) : (m.putRuns rs).wordFrom n a = m.wordFrom n a := by
  induction rs generalizing m with
  | nil => rfl
  | cons r rs ih =>
    show ((m.putRun r).putRuns rs).wordFrom n a = _
    rw [ih (m.putRun r) fun r' hr' => h r' (List.mem_cons_of_mem _ hr')]
    exact Memory.wordFrom_putRun_outside n m r a (h r List.mem_cons_self)

/-- Disjoint runs: each run reads back as it was written. -/
theorem Memory.wordFrom_putRuns_inside (n : Nat) (m : Memory) (rs : List Run) (k i : Nat) (hk : k < rs.length)
    (hi : i < (rs[k]).2.length)
    (later : ∀ j (hj : j < rs.length), k < j →
      rs[k].1 + i < (rs[j]).1 ∨ (rs[j]).1 + (rs[j]).2.length ≤ rs[k].1 + i) :
    (m.putRuns rs).wordFrom n (rs[k].1 + i) = (rs[k]).2[i] := by
  induction rs generalizing m k with
  | nil => simp at hk
  | cons r rs ih =>
    show ((m.putRun r).putRuns rs).wordFrom n _ = _
    cases k with
    | zero =>
      rw [Memory.wordFrom_putRuns_outside]
      · exact Memory.wordFrom_putRun_inside n m r i hi
      · intro r' hr'
        obtain ⟨j, hj, rfl⟩ := List.mem_iff_getElem.mp hr'
        exact later (j + 1) (by simpa using hj) (Nat.succ_pos j)
    | succ k =>
      refine ih (m.putRun r) k (by simpa using hk) hi ?_
      intro j hj hkj
      exact later (j + 1) (by simpa using hj) (by omega)

end Sys2Proof.Machine
end

