-- ==== Sys2Proof/Laws/Blocks.lean ====
section
/-! SUPPORT. The sizes of transform results: a length-n transform gives n values, a 2-D transform of a w-wide, h-high array
gives one of the same shape, and every fixed path gives an 8 x 8 array. -/

namespace Sys2Proof.Machine

theorem dct1_length (num : Numerics) (n : Nat) (x : List F32) (h : n = 1 → x.length = 1) :
    (dct1 num n x).length = n := by
  unfold dct1
  by_cases h1 : n = 1
  · simp [h1, h h1]
  by_cases h2 : n = 2
  · simp [h2]
  cases num <;> simp [h1, h2, refForward, openTransform]

theorem idct1_length (num : Numerics) (n : Nat) (x : List F32) (h : n = 1 → x.length = 1) :
    (idct1 num n x).length = n := by
  unfold idct1
  by_cases h1 : n = 1
  · simp [h1, h h1]
  by_cases h2 : n = 2
  · simp [h2]
  cases num <;> simp [h1, h2, refInverse, openTransform]

/-- The array is w wide and h high. -/
def Block.shaped (w h : Nat) (b : Block) : Prop := b.length = h ∧ ∀ row ∈ b, row.length = w

theorem tabulate_shaped (w h : Nat) (f : Nat → Nat → F32) : Block.shaped w h (tabulate w h f) := by
  refine ⟨tab_length _ _, ?_⟩
  intro row hrow
  obtain ⟨y, -, rfl⟩ := mem_tab.mp hrow
  exact tab_length _ _

theorem transpose_shaped (w h : Nat) (b : Block) (hb : b.length = h) : Block.shaped h w (transpose w b) := by
  refine ⟨tab_length _ _, ?_⟩
  intro row hrow
  obtain ⟨x, -, rfl⟩ := mem_tab.mp hrow
  simpa using hb

theorem map_shaped (w w' h : Nat) (b : Block) (f : List F32 → List F32) (hb : Block.shaped w h b)
    (hf : ∀ x, x.length = w → (f x).length = w') : Block.shaped w' h (b.map f) := by
  refine ⟨by simpa using hb.1, ?_⟩
  intro row hrow
  obtain ⟨x, hx, rfl⟩ := List.mem_map.mp hrow
  exact hf x (hb.2 x hx)

/-- The separable composition keeps the shape. -/
theorem separable_shaped (f : Nat → List F32 → List F32) (w h : Nat) (b : Block) (hb : Block.shaped w h b)
    (hf : ∀ n x, x.length = n → (f n x).length = n) : Block.shaped w h (separable f w h b) := by
  have hw : ∀ x, x.length = w → (f w x).length = w := hf w
  have hh : ∀ x, x.length = h → (f h x).length = h := hf h
  unfold separable
  by_cases hle : h ≤ w
  · rw [if_pos hle]
    have h1 := map_shaped w w h b (f w) hb hw
    have h2 := transpose_shaped w h _ h1.1
    have h3 := map_shaped h h w _ (f h) h2 hh
    exact transpose_shaped h w _ h3.1
  · rw [if_neg hle]
    have h2 := transpose_shaped w h b hb.1
    have h3 := map_shaped h h w _ (f h) h2 hh
    exact map_shaped w w h _ (f w) (transpose_shaped h w _ h3.1) hw

theorem dct2_shaped (num : Numerics) (w h : Nat) (b : Block) (hb : Block.shaped w h b) :
    Block.shaped w h (dct2 num w h b) :=
  separable_shaped _ w h b hb fun n x hx => dct1_length num n x fun h1 => hx.trans h1

theorem idct2_shaped (num : Numerics) (w h : Nat) (b : Block) (hb : Block.shaped w h b) :
    Block.shaped w h (idct2 num w h b) :=
  separable_shaped _ w h b hb fun n x hx => idct1_length num n x fun h1 => hx.trans h1

/-- A descriptor's region is as wide and as high as the descriptor says. -/
theorem State.block_shaped (s : State) (x : Desc) : Block.shaped x.w x.h (s.block x) := by
  refine ⟨by simp [State.block, State.regionWords], ?_⟩
  intro row hrow
  obtain ⟨r, hr, rfl⟩ := List.mem_map.mp hrow
  obtain ⟨y, -, rfl⟩ := mem_tab.mp hr
  simp

theorem pathDct2_shaped (p : Params) (b : Block) : Block.shaped 8 8 (pathDct2 p b) := tabulate_shaped 8 8 _

theorem fromQuadrants_shaped (q : Nat → Nat → Block) : Block.shaped 8 8 (fromQuadrants q) := tabulate_shaped 8 8 _

theorem pathDct4_shaped (p : Params) (b : Block) : Block.shaped 8 8 (pathDct4 p b) := by
  unfold pathDct4
  exact fromQuadrants_shaped _

theorem pathHornuss_shaped (p : Params) (b : Block) : Block.shaped 8 8 (pathHornuss p b) := by
  unfold pathHornuss
  exact fromQuadrants_shaped _

theorem halfLayout_shaped (b : Block) (h : Nat) : Block.shaped 8 4 (halfLayout b h) := tabulate_shaped 8 4 _

theorem pathDct4X8_shaped (p : Params) (b : Block) : Block.shaped 8 8 (pathDct4X8 p b) := by
  have h0 := idct2_shaped p.numerics 8 4 _ (halfLayout_shaped b 0)
  have h1 := idct2_shaped p.numerics 8 4 _ (halfLayout_shaped b 1)
  refine ⟨by simp [pathDct4X8, h0.1, h1.1], ?_⟩
  intro row hrow
  rcases List.mem_append.mp hrow with hr | hr
  · exact h0.2 row hr
  · exact h1.2 row hr

theorem pathDct8X4_shaped (p : Params) (b : Block) : Block.shaped 8 8 (pathDct8X4 p b) := by
  have half : ∀ h, Block.shaped 4 8 (idct2 p.numerics 4 8 (transpose 8 (halfLayout b h))) := fun h =>
    idct2_shaped p.numerics 4 8 _ (transpose_shaped 8 4 _ (halfLayout_shaped b h).1)
  refine ⟨by simp [pathDct8X4, (half 0).1, (half 1).1], ?_⟩
  intro row hrow
  obtain ⟨i, hi, rfl⟩ := List.mem_iff_getElem.mp hrow
  simp only [pathDct8X4, List.getElem_zipWith, List.length_append]
  rw [(half 0).2 _ (List.getElem_mem _), (half 1).2 _ (List.getElem_mem _)]

theorem afv_shaped (kind : Nat) (p : Params) (b : Block) : Block.shaped 8 8 (afv kind p b) := tabulate_shaped 8 8 _

theorem chunks_shaped (w n : Nat) (l : List F32) (h : l.length = n * w) : Block.shaped w n (chunks w n l) := by
  induction n generalizing l with
  | zero => exact ⟨rfl, by simp [chunks]⟩
  | succ n ih =>
    have hl : l.length = w + n * w := by rw [h, Nat.succ_mul]; omega
    have hd := ih (l.drop w) (by simp [hl])
    refine ⟨by simp [chunks, hd.1], ?_⟩
    intro row hrow
    rcases List.mem_cons.mp hrow with rfl | hr
    · simp [hl]
    · exact hd.2 row hr

theorem flatCopy_length (n : Nat) (b : Block) : (flatCopy n b).length = n := by
  simp [flatCopy]

theorem coefficients_shaped (layout : CoeffLayout) (w h : Nat) (flat : List F32) (hf : flat.length = w * h) :
    Block.shaped w h (coefficients layout w h flat) := by
  unfold coefficients
  by_cases hc : layout = .longAxisRows ∧ w < h
  · rw [if_pos hc]
    exact transpose_shaped h w _ (chunks_shaped h w flat hf).1
  · rw [if_neg hc]
    exact chunks_shaped w h flat (by rw [hf, Nat.mul_comm])

theorem generalSamples_shaped (p : Params) (w h : Nat) (b : Block) : Block.shaped w h (generalSamples p w h b) :=
  idct2_shaped _ w h _ (coefficients_shaped _ w h _ (flatCopy_length _ b))

end Sys2Proof.Machine
end

