-- ==== Sys2Proof/Laws/Float.lean ====
section
/-! SUPPORT. The encoding of f32 values: `F` and `W` are inverse on words, and the highest bit by halving is the binary
logarithm. -/

namespace Sys2Proof.Machine.F32

/-- The highest 1 bit found by halving is the binary logarithm. -/
theorem topBitBelow_eq_log2 (k m : Nat) (h : m < 2 ^ 2 ^ k) : topBitBelow k m = Nat.log2 m := by
  induction k generalizing m with
  | zero =>
    have : m = 0 ∨ m = 1 := by
      simp at h
      omega
    rcases this with rfl | rfl <;> rfl
  | succ k ih =>
    have e : (1 : Nat) <<< k = 2 ^ k := by rw [Nat.shiftLeft_eq, Nat.one_mul]
    unfold topBitBelow
    rw [e]
    by_cases hz : m >>> 2 ^ k = 0
    · rw [if_pos hz]
      rw [Nat.shiftRight_eq_div_pow] at hz
      refine ih m ?_
      rcases Nat.div_eq_zero_iff.mp hz with h0 | h0
      · exact absurd h0 (by positivity)
      · exact h0
    · rw [if_neg hz]
      rw [Nat.shiftRight_eq_div_pow] at hz ⊢
      have hm : 2 ^ 2 ^ k ≤ m := by
        by_contra hlt
        exact hz (Nat.div_eq_of_lt (by omega))
      have hq : m / 2 ^ 2 ^ k < 2 ^ 2 ^ k := by
        rw [Nat.div_lt_iff_lt_mul (by positivity), ← pow_add, ← two_mul, ← pow_succ']
        exact h
      rw [ih _ hq, Nat.log2_eq_log_two, Nat.log2_eq_log_two, Nat.log_div_base_pow]
      have : 2 ^ k ≤ Nat.log 2 m := by
        have := Nat.log_mono_right (b := 2) hm
        rwa [Nat.log_pow (by norm_num)] at this
      omega

theorem topBit_eq_log2 (m : Nat) (h : m < 2 ^ 2 ^ 10) : topBit m = Nat.log2 m := topBitBelow_eq_log2 10 m h

/-- The top bit of a value with `k + 1` significant bits shifted up by `e`. -/
theorem topBit_shift (v k e : Nat) (h1 : 2 ^ k ≤ v) (h2 : v < 2 ^ (k + 1)) (he : k + 1 + e ≤ 2 ^ 10) :
    topBit (v <<< e) = k + e := by
  have hlt : v <<< e < 2 ^ (k + 1 + e) := by
    rw [Nat.shiftLeft_eq, pow_add 2 (k + 1) e]
    exact Nat.mul_lt_mul_of_pos_right h2 (by positivity)
  have hge : 2 ^ (k + e) ≤ v <<< e := by
    rw [Nat.shiftLeft_eq, pow_add]
    exact Nat.mul_le_mul_right _ h1
  rw [topBit_eq_log2 _ (lt_of_lt_of_le hlt (Nat.pow_le_pow_right (by norm_num) he)), Nat.log2_eq_log_two]
  refine Nat.log_eq_of_pow_le_of_lt_pow hge ?_
  rwa [Nat.add_right_comm] at hlt

theorem topBit_small (v : Nat) (h : v < 2 ^ 23) : topBit v ≤ 23 := by
  rw [topBit_eq_log2 _ (lt_of_lt_of_le h (Nat.pow_le_pow_right (by norm_num) (by norm_num))), Nat.log2_eq_log_two]
  rcases Nat.eq_zero_or_pos v with rfl | hv
  · simp
  · exact le_of_lt (Nat.log_lt_of_lt_pow (by omega) h)

/-- The fields of a word put together again. -/
theorem word_of_fields (w : Word) :
    BitVec.ofNat 32 (signPart (w.getLsbD 31) + w.toNat / 0x800000 % 256 * 0x800000 + w.toNat % 0x800000) = w := by
  have hw := w.isLt
  have hb : signPart (w.getLsbD 31) = w.toNat / 0x80000000 * 0x80000000 := by
    have : w.getLsbD 31 = decide (w.toNat / 0x80000000 % 2 = 1) := by
      rw [BitVec.getLsbD, Nat.testBit_eq_decide_div_mod_eq]
    rw [this, signPart]
    by_cases h : w.toNat / 0x80000000 % 2 = 1
    · simp only [h, decide_true, if_true]; omega
    · simp only [h, decide_false, Bool.false_eq_true, if_false]; omega
  apply BitVec.eq_of_toNat_eq
  rw [hb, BitVec.toNat_ofNat]
  omega

/-- `W(F(w)) = w`: a word that passes through the engine unchanged comes out bit for bit (00_scope.md R10). -/
theorem toWord_ofWord (w : Word) : (ofWord w).toWord = w := by
  have key := word_of_fields w
  have hf : w.toNat % 0x800000 < 0x800000 := Nat.mod_lt _ (by norm_num)
  have he : w.toNat / 0x800000 % 256 < 256 := Nat.mod_lt _ (by norm_num)
  unfold ofWord
  dsimp only
  generalize w.toNat / 0x800000 % 256 = e at key he ⊢
  generalize w.toNat % 0x800000 = f at key hf ⊢
  by_cases h255 : e = 255
  · subst h255
    rw [if_pos rfl]
    by_cases h0 : f = 0
    · subst h0
      rw [if_pos rfl]
      exact key
    · rw [if_neg h0]
      simp only [toWord, BitVec.toNat_ofNat]
      rw [Nat.mod_eq_of_lt (by omega)]
      exact key
  · rw [if_neg h255]
    by_cases h0 : e = 0
    · subst h0
      have := topBit_small f (by omega)
      have hz : topBit f - 23 = 0 := by omega
      rw [if_pos rfl]
      simp only [toWord, hz, Nat.shiftRight_zero, Nat.zero_mul, Nat.add_zero] at key ⊢
      exact key
    · have ht := topBit_shift (0x800000 + f) 23 (e - 1) (by omega) (by omega) (by omega)
      have hs : topBit ((0x800000 + f) <<< (e - 1)) - 23 = e - 1 := by omega
      rw [if_neg h0]
      simp only [toWord, hs, Nat.shiftLeft_shiftRight]
      refine Eq.trans (congrArg _ ?_) key
      omega

end Sys2Proof.Machine.F32
end

