-- ==== Sys2Proof/Laws/Rounding.lean ====
section
/-! SUPPORT. How far one f32 operation is from the exact result (41_dct1d.md R138): half a unit in the last place, as a
bound on real values. -/

namespace Sys2Proof.Machine.F32

/-- Rounding to a quantum of `2^e` moves a magnitude by half a quantum at most. -/
theorem quantize_near (s m e : Nat) (h : s ≤ e) :
    2 * (quantize s m e * 2 ^ s) ≤ 2 * m + 2 ^ e ∧ 2 * m ≤ 2 * (quantize s m e * 2 ^ s) + 2 ^ e := by
  have hpow : 2 ^ (e - s) * 2 ^ s = 2 ^ e := by rw [← pow_add, Nat.sub_add_cancel h]
  have hdm := Nat.div_add_mod m (2 ^ e)
  have hlt := Nat.mod_lt m (show 0 < 2 ^ e by positivity)
  simp only [quantize, Nat.shiftLeft_eq, Nat.shiftRight_eq_div_pow, Nat.one_mul]
  rw [Nat.mul_assoc, hpow]
  generalize m / 2 ^ e = q at *
  generalize m % 2 ^ e = r at *
  generalize 2 ^ e = p at *
  split
  · rename_i hr
    have : p ≤ 2 * r := by omega
    constructor <;> nlinarith
  · rename_i hr
    have : 2 * r ≤ p := by omega
    constructor <;> nlinarith

theorem topBit_pow_le (m : Nat) (h0 : m ≠ 0) (h : m < 2 ^ 2 ^ 10) : 2 ^ topBit m ≤ m := by
  rw [topBit_eq_log2 m h, Nat.log2_eq_log_two]
  exact Nat.pow_log_le_self 2 h0

/-- Rounding a magnitude that is not too large gives a finite value; the error is at most 2^-24 of the value or, among the
subnormals, half a unit of 2^-149; a sum (`s = 0`) has no error there. -/
theorem round_near (s : Nat) (neg : Bool) (m : Nat) (hs : s ≤ 149) (hm : m < 2 ^ (276 + s)) :
    ∃ v, round s neg m = .fin neg v ∧
      (2 ^ 24 * (v * 2 ^ s) ≤ 2 ^ 24 * m + max m (2 ^ (s + 23)) ∧
        2 ^ 24 * m ≤ 2 ^ 24 * (v * 2 ^ s) + max m (2 ^ (s + 23))) ∧
      (s = 0 → 2 ^ 24 * v ≤ 2 ^ 24 * m + m ∧ 2 ^ 24 * m ≤ 2 ^ 24 * v + m) := by
  have hbig : m < 2 ^ 2 ^ 10 :=
    lt_of_lt_of_le hm (Nat.pow_le_pow_right (by norm_num) (by omega))
  have hq := quantize_near s m (max (topBit m - 23) s) (le_max_right _ _)
  have herr : 2 ^ 23 * 2 ^ max (topBit m - 23) s ≤ max m (2 ^ (s + 23)) := by
    rcases le_total (topBit m - 23) s with hc | hc
    · rw [max_eq_right hc, ← pow_add, Nat.add_comm 23]
      exact le_max_right _ _
    · rw [max_eq_left hc]
      by_cases ht : topBit m < 23
      · have : topBit m - 23 = 0 := by omega
        have hs0 : s = 0 := by omega
        subst hs0
        rw [this]
        exact le_max_right _ _
      · have h0 : m ≠ 0 := by
          rintro rfl
          exact ht (by decide)
        rw [← pow_add, show 23 + (topBit m - 23) = topBit m by omega]
        exact le_trans (topBit_pow_le m h0 hbig) (le_max_left _ _)
  generalize hv : quantize s m (max (topBit m - 23) s) = v at hq
  have hfin : v < 1 <<< 277 := by
    rw [Nat.shiftLeft_eq, Nat.one_mul]
    have hmax : max m (2 ^ (s + 23)) ≤ 2 ^ (276 + s) :=
      max_le hm.le (Nat.pow_le_pow_right (by norm_num) (by omega))
    have h1 : 2 * (v * 2 ^ s) < 2 * 2 ^ (277 + s) := by
      have e1 : (2 : Nat) ^ (277 + s) = 2 * 2 ^ (276 + s) := by rw [← pow_succ']; congr 1; omega
      omega
    generalize 277 = j at *
    have h2 : v * 2 ^ s < 2 ^ j * 2 ^ s := by
      rw [← pow_add]
      omega
    exact lt_of_mul_lt_mul_right h2 (Nat.zero_le _)
  refine ⟨v, ?_, ⟨by omega, by omega⟩, ?_⟩
  · unfold round
    dsimp only
    rw [hv, if_pos hfin]
  · rintro rfl
    simp only [Nat.pow_zero, Nat.mul_one] at hq
    by_cases ht : topBit m ≤ 23
    · have hz : max (topBit m - 23) 0 = 0 := by omega
      rw [hz] at hv
      have : v = m := by
        rw [← hv]
        simp [quantize, Nat.mod_one]
      subst this
      omega
    · have h0 : m ≠ 0 := by
        rintro rfl
        exact ht (by decide)
      have h1 : 2 ^ 23 * 2 ^ max (topBit m - 23) 0 ≤ m := by
        rw [← pow_add, show 23 + max (topBit m - 23) 0 = topBit m by omega]
        exact topBit_pow_le m h0 hbig
      omega

end Sys2Proof.Machine.F32

namespace Sys2Proof.Exact

open Sys2Proof.Machine

/-- The unit roundoff of f32, 2^-24. -/
noncomputable def unit : ℝ := 1 / 2 ^ 24

theorem realOf_fin (neg : Bool) (m : Nat) :
    realOf (.fin neg m) = (if neg then -(m : ℝ) else m) / 2 ^ 149 := by
  unfold realOf F32.units
  cases neg <;> simp

theorem abs_realOf_fin (neg : Bool) (m : Nat) : |realOf (.fin neg m)| = (m : ℝ) / 2 ^ 149 := by
  rw [realOf_fin, abs_div, abs_of_pos (show (0 : ℝ) < 2 ^ 149 by positivity)]
  cases neg <;> simp

theorem realOf_neg (a : F32) : realOf a.neg = -realOf a := by
  cases a with
  | fin b m => cases b <;> simp [F32.neg, realOf_fin] <;> ring
  | inf b => simp [F32.neg, realOf, F32.units]
  | nan b f => simp [F32.neg, realOf, F32.units]

theorem isFinite_neg (a : F32) : a.neg.isFinite = a.isFinite := by cases a <;> rfl

theorem realOf_zero : realOf F32.zero = 0 := by simp [F32.zero, realOf_fin]

theorem fin_of_isFinite {a : F32} (h : a.isFinite = true) : ∃ b m, a = .fin b m := by
  cases a with
  | fin b m => exact ⟨b, m, rfl⟩
  | inf b => simp [F32.isFinite] at h
  | nan b f => simp [F32.isFinite] at h

theorem lt_of_abs_le {m : Nat} {x : ℝ} (k j : Nat) (hj : j = 127 + k) (h : (m : ℝ) / 2 ^ k = x) (hx : x ≤ 2 ^ 126) : m < 2 ^ j := by
  subst hj
  have h1 : (m : ℝ) ≤ 2 ^ 126 * 2 ^ k := by
    rw [← h, div_le_iff₀ (by positivity)] at hx
    exact hx
  have h2 : (m : ℝ) < ((2 ^ (127 + k) : Nat) : ℝ) := by
    push_cast
    rw [pow_add]
    have : (0 : ℝ) < 2 ^ k := by positivity
    nlinarith
  exact_mod_cast h2

theorem round_zero_near (b : Bool) (m : Nat) (hm : |realOf (.fin b m)| ≤ 2 ^ 126) :
    (F32.round 0 b m).isFinite = true ∧
      |realOf (F32.round 0 b m) - realOf (.fin b m)| ≤ unit * |realOf (.fin b m)| := by
  rw [abs_realOf_fin] at hm
  obtain ⟨v, hv, -, h0⟩ := F32.round_near 0 b m (by omega)
    (lt_of_abs_le 149 276 rfl rfl hm)
  have h := h0 rfl
  rw [hv]
  refine ⟨rfl, ?_⟩
  rw [abs_realOf_fin, realOf_fin, realOf_fin]
  have h1 : (2 ^ 24 * v : ℝ) ≤ 2 ^ 24 * m + m := by exact_mod_cast h.1
  have h2 : (2 ^ 24 * m : ℝ) ≤ 2 ^ 24 * v + m := by exact_mod_cast h.2
  have key : |(v : ℝ) - m| ≤ m / 2 ^ 24 := by
    rw [abs_le]
    constructor <;> linarith
  have e : |((if b = true then -(v : ℝ) else v) / 2 ^ 149 - (if b = true then -(m : ℝ) else m) / 2 ^ 149)| =
      |(v : ℝ) - m| / 2 ^ 149 := by
    rw [← sub_div, abs_div, abs_of_pos (show (0 : ℝ) < 2 ^ 149 by positivity)]
    cases b
    · rfl
    · simp only [if_true]
      rw [show -(v : ℝ) - -(m : ℝ) = -((v : ℝ) - m) by ring, abs_neg]
  rw [e, unit]
  have : |(v : ℝ) - m| / 2 ^ 149 ≤ ((m : ℝ) / 2 ^ 24) / 2 ^ 149 := div_le_div_of_nonneg_right key (by positivity)
  calc |(v : ℝ) - m| / 2 ^ 149 ≤ ((m : ℝ) / 2 ^ 24) / 2 ^ 149 := this
    _ = 1 / 2 ^ 24 * ((m : ℝ) / 2 ^ 149) := by ring

/-- A sum of finite values that is not too large is finite and off by 2^-24 of itself at most. -/
theorem sum_near {op : FOp} {a b : F32} (ha : a.isFinite = true) (hb : b.isFinite = true)
    (h : |realOf a + realOf b| ≤ 2 ^ 126) :
    (F32.sum op a b).isFinite = true ∧
      |realOf (F32.sum op a b) - (realOf a + realOf b)| ≤ unit * |realOf a + realOf b| := by
  obtain ⟨x, m, rfl⟩ := fin_of_isFinite ha
  obtain ⟨y, n, rfl⟩ := fin_of_isFinite hb
  have key : ∃ z : Bool, ∃ k : Nat, realOf (.fin x m) + realOf (.fin y n) = realOf (.fin z k) ∧
      (F32.sum op (.fin x m) (.fin y n) = F32.round 0 z k ∨
        (F32.sum op (.fin x m) (.fin y n) = F32.zero ∧ k = 0)) := by
    unfold F32.sum
    dsimp only
    by_cases hxy : x = y
    · subst hxy
      refine ⟨x, m + n, ?_, .inl (if_pos rfl)⟩
      simp only [realOf_fin]
      cases x <;> simp <;> ring
    · rw [if_neg hxy]
      by_cases hmn : m = n
      · subst hmn
        refine ⟨x, 0, ?_, .inr ⟨if_pos rfl, rfl⟩⟩
        simp only [realOf_fin]
        cases x <;> cases y <;> simp at hxy ⊢ <;> ring
      · rw [if_neg hmn]
        by_cases hlt : n < m
        · refine ⟨x, m - n, ?_, .inl (if_pos hlt)⟩
          simp only [realOf_fin, Nat.cast_sub hlt.le]
          cases x <;> cases y <;> simp at hxy ⊢ <;> ring
        · refine ⟨y, n - m, ?_, .inl (if_neg hlt)⟩
          simp only [realOf_fin, Nat.cast_sub (not_lt.mp hlt)]
          cases x <;> cases y <;> simp at hxy ⊢ <;> ring
  obtain ⟨z, k, hsum, hr | ⟨hr, rfl⟩⟩ := key
  · rw [hr, hsum]
    rw [hsum] at h
    exact round_zero_near z k h
  · rw [hr, hsum, realOf_zero]
    have : realOf (.fin z 0) = 0 := by cases z <;> simp [realOf_fin]
    rw [this]
    exact ⟨rfl, by simp⟩

theorem add_near {a b : F32} (ha : a.isFinite = true) (hb : b.isFinite = true) (h : |realOf a + realOf b| ≤ 2 ^ 126) :
    (a.add b).isFinite = true ∧ |realOf (a.add b) - (realOf a + realOf b)| ≤ unit * |realOf a + realOf b| :=
  sum_near ha hb h

theorem sub_near {a b : F32} (ha : a.isFinite = true) (hb : b.isFinite = true) (h : |realOf a - realOf b| ≤ 2 ^ 126) :
    (a.sub b).isFinite = true ∧ |realOf (a.sub b) - (realOf a - realOf b)| ≤ unit * |realOf a - realOf b| := by
  have := sum_near (op := .sub) ha (by rw [isFinite_neg]; exact hb)
    (show |realOf a + realOf b.neg| ≤ 2 ^ 126 by rw [realOf_neg, ← sub_eq_add_neg]; exact h)
  rw [realOf_neg, ← sub_eq_add_neg] at this
  exact this

/-- A product of finite values that is not too large is finite; it is off by 2^-24 of itself or of 2^-126 at most. -/
theorem mul_near {a b : F32} (ha : a.isFinite = true) (hb : b.isFinite = true) (h : |realOf a * realOf b| ≤ 2 ^ 126) :
    (a.mul b).isFinite = true ∧
      |realOf (a.mul b) - realOf a * realOf b| ≤ unit * max |realOf a * realOf b| (1 / 2 ^ 126) := by
  obtain ⟨x, m, rfl⟩ := fin_of_isFinite ha
  obtain ⟨y, n, rfl⟩ := fin_of_isFinite hb
  obtain ⟨P, hP⟩ : ∃ P : ℝ, P = 2 ^ 149 := ⟨_, rfl⟩
  have hpos : 0 < P := by rw [hP]; positivity
  have hprod : realOf (.fin x m) * realOf (.fin y n) =
      (if (x != y) = true then -((m * n : Nat) : ℝ) else ((m * n : Nat) : ℝ)) / (P * P) := by
    simp only [realOf_fin, ← hP]
    push_cast
    cases x <;> cases y <;> simp <;> ring
  have habs : |realOf (.fin x m) * realOf (.fin y n)| = ((m * n : Nat) : ℝ) / (P * P) := by
    rw [hprod, abs_div, abs_of_pos (mul_pos hpos hpos)]
    split <;> simp
  have hlarge : m * n < 2 ^ (276 + 149) := by
    have h2 : ((m * n : Nat) : ℝ) / 2 ^ 298 = |realOf (.fin x m) * realOf (.fin y n)| := by
      rw [habs, hP, ← pow_add]
    exact lt_of_abs_le 298 (276 + 149) rfl h2 h
  obtain ⟨v, hv, hb, -⟩ := F32.round_near 149 (x != y) (m * n) (by omega) hlarge
  have hm : F32.mul (.fin x m) (.fin y n) = F32.round 149 (x != y) (m * n) := rfl
  rw [hm, hv]
  refine ⟨rfl, ?_⟩
  rw [habs, hprod, realOf_fin, ← hP]
  clear hv hm hprod habs h hlarge
  generalize m * n = k at hb
  have hpow : ((2 ^ (149 + 23) : Nat) : ℝ) = P * 2 ^ 23 := by
    rw [hP, ← pow_add, Nat.cast_pow, Nat.cast_ofNat]
  have h1 : (2 ^ 24 * (v * P) : ℝ) ≤ 2 ^ 24 * k + max (k : ℝ) (P * 2 ^ 23) := by
    rw [← hpow, hP]
    exact_mod_cast hb.1
  have h2 : (2 ^ 24 * k : ℝ) ≤ 2 ^ 24 * (v * P) + max (k : ℝ) (P * 2 ^ 23) := by
    rw [← hpow, hP]
    exact_mod_cast hb.2
  have key : |(v : ℝ) * P - k| ≤ max (k : ℝ) (P * 2 ^ 23) / 2 ^ 24 := by
    clear hpow hb
    generalize max (k : ℝ) (P * 2 ^ 23) = u at h1 h2 ⊢
    rw [abs_le]
    constructor <;> linarith
  have e : |((if (x != y) = true then -(v : ℝ) else v) / P -
      (if (x != y) = true then -(k : ℝ) else k) / (P * P))| = |(v : ℝ) * P - k| / (P * P) := by
    have : ∀ p q : ℝ, p / P - q / (P * P) = (p * P - q) / (P * P) := by
      intro p q
      field_simp
    rw [this, abs_div, abs_of_pos (mul_pos hpos hpos)]
    split
    · rw [show -(v : ℝ) * P - -(k : ℝ) = -((v : ℝ) * P - k) by ring, abs_neg]
    · rfl
  have hmax : max ((k : ℝ) / (P * P)) (1 / 2 ^ 126) = max (k : ℝ) (P * 2 ^ 23) / (P * P) := by
    rw [← max_div_div_right (mul_pos hpos hpos).le]
    congr 1
    rw [mul_div_mul_left _ _ hpos.ne', hP]
    norm_num
  rw [e, unit, hmax]
  have : |(v : ℝ) * P - k| / (P * P) ≤ (max (k : ℝ) (P * 2 ^ 23) / 2 ^ 24) / (P * P) :=
    div_le_div_of_nonneg_right key (mul_pos hpos hpos).le
  calc |(v : ℝ) * P - k| / (P * P) ≤ (max (k : ℝ) (P * 2 ^ 23) / 2 ^ 24) / (P * P) := this
    _ = 1 / 2 ^ 24 * (max (k : ℝ) (P * 2 ^ 23) / (P * P)) := by ring

end Sys2Proof.Exact
end

