-- ==== Sys2Proof/Laws/RomAccuracy.lean ====
section
/-! SUPPORT. The twiddle ROM against the exact circle (41_dct1d.md R130): every entry is within 66 * 2^-31 of its
cosine. A point is turned 256 times by 1/1024 of a turn in 60-bit fixed point, and each ROM entry is compared with it. -/

namespace Sys2Proof.Exact

open Sys2Proof.Machine

/-- The point of the unit circle `x` turns from 1. -/
noncomputable def turn (x : ℝ) : ℂ := Complex.exp ((2 * Real.pi * x : ℝ) * Complex.I)

theorem turn_add (x y : ℝ) : turn (x + y) = turn x * turn y := by
  rw [turn, turn, turn, ← Complex.exp_add]
  congr 1
  push_cast
  ring

theorem turn_zero : turn 0 = 1 := by simp [turn]

theorem turn_one : turn 1 = 1 := by
  rw [turn]
  have : ((2 * Real.pi * 1 : ℝ) : ℂ) * Complex.I = 2 * Real.pi * Complex.I := by push_cast; ring
  rw [this, Complex.exp_two_pi_mul_I]

theorem turn_nat (n : Nat) : turn n = 1 := by
  induction n with
  | zero => simpa using turn_zero
  | succ n ih => rw [Nat.cast_succ, turn_add, ih, turn_one, one_mul]

theorem norm_turn (x : ℝ) : ‖turn x‖ = 1 := Complex.norm_exp_ofReal_mul_I _

theorem turn_re (x : ℝ) : (turn x).re = Real.cos (2 * Real.pi * x) := Complex.exp_ofReal_mul_I_re _

theorem turn_im (x : ℝ) : (turn x).im = Real.sin (2 * Real.pi * x) := Complex.exp_ofReal_mul_I_im _

theorem turn_half : turn (1 / 2) = -1 := by
  apply Complex.ext
  · rw [turn_re, show 2 * Real.pi * (1 / 2) = Real.pi by ring, Real.cos_pi]
    simp
  · rw [turn_im, show 2 * Real.pi * (1 / 2) = Real.pi by ring, Real.sin_pi]
    simp

theorem turn_quarter : turn (1 / 4) = Complex.I := by
  apply Complex.ext
  · rw [turn_re, show 2 * Real.pi * (1 / 4) = Real.pi / 2 by ring, Real.cos_pi_div_two]
    simp
  · rw [turn_im, show 2 * Real.pi * (1 / 4) = Real.pi / 2 by ring, Real.sin_pi_div_two]
    simp

theorem turn_neg (x : ℝ) : turn (-x) = (starRingEnd ℂ) (turn x) := by
  apply Complex.ext
  · rw [Complex.conj_re, turn_re, turn_re, mul_neg, Real.cos_neg]
  · rw [Complex.conj_im, turn_im, turn_im, mul_neg, Real.sin_neg]

theorem norm_le_abs_add_abs (z : ℂ) : ‖z‖ ≤ |z.re| + |z.im| := Complex.norm_le_abs_re_add_abs_im z

/-! ### The fixed-point point -/

/-- 1/1024 of a turn in 60-bit fixed point. -/
def stepRe : Int := 1152899801185339687

/-- The imaginary part of the same. -/
def stepIm : Int := 7074193361797233

/-- A fixed-point value as a complex number. -/
noncomputable def fixed (c s : Int) : ℂ := ⟨c / 2 ^ 60, s / 2 ^ 60⟩

/-- The angle of 1/1024 of a turn, to 80 bits. -/
noncomputable def stepAngle : ℝ := 7417875925070973790595 / 2 ^ 80

theorem stepAngle_near : |2 * Real.pi * (1 / 1024) - stepAngle| ≤ 1 / 2 ^ 60 := by
  have h1 := Real.pi_gt_d20
  have h2 := Real.pi_lt_d20
  unfold stepAngle
  rw [abs_le]
  constructor <;> norm_num at * <;> linarith

theorem exp_stepAngle_near : ‖fixed stepRe stepIm - Complex.exp (stepAngle * Complex.I)‖ ≤ 1 / 2 ^ 57 := by
  have hn : ‖(stepAngle : ℂ) * Complex.I‖ = stepAngle := by
    rw [norm_mul, Complex.norm_I, mul_one, Complex.norm_real, Real.norm_eq_abs, abs_of_pos]
    unfold stepAngle
    norm_num
  have hb := Complex.exp_bound (x := (stepAngle : ℂ) * Complex.I) (n := 8)
    (by rw [hn]; unfold stepAngle; norm_num) (by norm_num)
  rw [hn] at hb
  have hsum : ∑ m ∈ Finset.range 8, ((stepAngle : ℂ) * Complex.I) ^ m / (m.factorial : ℂ) =
      ⟨1 - stepAngle ^ 2 / 2 + stepAngle ^ 4 / 24 - stepAngle ^ 6 / 720,
        stepAngle - stepAngle ^ 3 / 6 + stepAngle ^ 5 / 120 - stepAngle ^ 7 / 5040⟩ := by
    have hI2 : Complex.I ^ 2 = -1 := Complex.I_sq
    have hI3 : Complex.I ^ 3 = -Complex.I := by rw [pow_succ, hI2]; ring
    have hI4 : Complex.I ^ 4 = 1 := by rw [show 4 = 2 * 2 by rfl, pow_mul, hI2]; ring
    have hI5 : Complex.I ^ 5 = Complex.I := by rw [pow_succ, hI4]; ring
    have hI6 : Complex.I ^ 6 = -1 := by rw [show 6 = 2 * 3 by rfl, pow_mul, hI2]; ring
    have hI7 : Complex.I ^ 7 = -Complex.I := by rw [pow_succ, hI6]; ring
    simp only [Finset.sum_range_succ, Finset.sum_range_zero, mul_pow, hI2, hI3, hI4, hI5, hI6, hI7, pow_zero, pow_one,
      Nat.factorial]
    rw [Complex.mk_eq_add_mul_I]
    push_cast
    ring
  rw [hsum] at hb
  have hpoly : ‖fixed stepRe stepIm - ⟨1 - stepAngle ^ 2 / 2 + stepAngle ^ 4 / 24 - stepAngle ^ 6 / 720,
      stepAngle - stepAngle ^ 3 / 6 + stepAngle ^ 5 / 120 - stepAngle ^ 7 / 5040⟩‖ ≤ 1 / 2 ^ 58 := by
    refine (norm_le_abs_add_abs _).trans ?_
    simp only [fixed, Complex.sub_re, Complex.sub_im]
    have h1 : |((stepRe : ℝ) / 2 ^ 60) - (1 - stepAngle ^ 2 / 2 + stepAngle ^ 4 / 24 - stepAngle ^ 6 / 720)| ≤ 1 / 2 ^ 60 := by
      unfold stepAngle stepRe
      rw [abs_le]
      constructor <;> norm_num
    have h2 : |((stepIm : ℝ) / 2 ^ 60) - (stepAngle - stepAngle ^ 3 / 6 + stepAngle ^ 5 / 120 - stepAngle ^ 7 / 5040)| ≤
        1 / 2 ^ 60 := by
      unfold stepAngle stepIm
      rw [abs_le]
      constructor <;> norm_num
    calc _ ≤ (1 : ℝ) / 2 ^ 60 + 1 / 2 ^ 60 := add_le_add h1 h2
      _ ≤ 1 / 2 ^ 58 := by norm_num
  have hrem : stepAngle ^ 8 * ((Nat.succ 8 : ℝ) * ((Nat.factorial 8 : ℝ) * (8 : ℕ))⁻¹) ≤ 1 / 2 ^ 58 := by
    unfold stepAngle
    norm_num [Nat.factorial]
  have htri := norm_sub_le_norm_sub_add_norm_sub (fixed stepRe stepIm)
    (⟨1 - stepAngle ^ 2 / 2 + stepAngle ^ 4 / 24 - stepAngle ^ 6 / 720,
      stepAngle - stepAngle ^ 3 / 6 + stepAngle ^ 5 / 120 - stepAngle ^ 7 / 5040⟩ : ℂ)
    (Complex.exp (stepAngle * Complex.I))
  rw [norm_sub_rev] at hb
  have h57 : (1 : ℝ) / 2 ^ 58 + 1 / 2 ^ 58 = 1 / 2 ^ 57 := by norm_num
  rw [← h57]
  exact htri.trans (add_le_add hpoly (hb.trans (by exact_mod_cast hrem)))

theorem step_near : ‖fixed stepRe stepIm - turn (1 / 1024)‖ ≤ 1 / 2 ^ 56 := by
  have h2 : ‖Complex.exp (stepAngle * Complex.I) - turn (1 / 1024)‖ ≤ 1 / 2 ^ 60 := by
    obtain ⟨d, hd⟩ : ∃ d : ℝ, d = 2 * Real.pi * (1 / 1024) - stepAngle := ⟨_, rfl⟩
    have hs : turn (1 / 1024) = Complex.exp (stepAngle * Complex.I) * Complex.exp (Complex.I * d) := by
      rw [turn, ← Complex.exp_add]
      congr 1
      rw [hd]
      push_cast
      ring
    have e : Complex.exp (stepAngle * Complex.I) - turn (1 / 1024) =
        -(Complex.exp (stepAngle * Complex.I) * (Complex.exp (Complex.I * d) - 1)) := by
      rw [hs]
      ring
    rw [e, norm_neg, norm_mul, Complex.norm_exp_ofReal_mul_I, one_mul]
    refine Real.norm_exp_I_mul_ofReal_sub_one_le.trans ?_
    rw [Real.norm_eq_abs, hd]
    exact stepAngle_near
  have := norm_sub_le_norm_sub_add_norm_sub (fixed stepRe stepIm) (Complex.exp (stepAngle * Complex.I)) (turn (1 / 1024))
  refine this.trans ((add_le_add exp_stepAngle_near h2).trans ?_)
  norm_num

/-- The next point, 1/1024 of a turn on. -/
def nextRe (c s : Int) : Int := (c * stepRe - s * stepIm) / 2 ^ 60

/-- The imaginary part of the next point. -/
def nextIm (c s : Int) : Int := (c * stepIm + s * stepRe) / 2 ^ 60

theorem fixed_div_near (a : Int) : |((a / 2 ^ 60 : Int) : ℝ) - (a : ℝ) / 2 ^ 60| ≤ 1 := by
  have h := Int.emod_add_mul_ediv a (2 ^ 60)
  have h1 := Int.emod_nonneg a (show (2 : Int) ^ 60 ≠ 0 by norm_num)
  have h2 := Int.emod_lt_of_pos a (show (0 : Int) < 2 ^ 60 by norm_num)
  generalize a / 2 ^ 60 = q at *
  generalize a % 2 ^ 60 = r at *
  have h1' : (0 : ℝ) ≤ r := by exact_mod_cast h1
  have h2' : (r : ℝ) ≤ 2 ^ 60 := by exact_mod_cast h2.le
  have ha : (a : ℝ) = r + 2 ^ 60 * q := by exact_mod_cast h.symm
  rw [ha, abs_le]
  have e : (r + 2 ^ 60 * q : ℝ) / 2 ^ 60 = r / 2 ^ 60 + q := by field_simp
  have h3 : (r : ℝ) / 2 ^ 60 ≤ 1 := by rw [div_le_one (by positivity)]; exact h2'
  have h4 : (0 : ℝ) ≤ (r : ℝ) / 2 ^ 60 := by positivity
  rw [e]
  constructor <;> linarith

theorem fixed_next (c s : Int) : ‖fixed (nextRe c s) (nextIm c s) - fixed c s * fixed stepRe stepIm‖ ≤ 1 / 2 ^ 59 := by
  refine (norm_le_abs_add_abs _).trans ?_
  have key : ∀ a : Int, ∀ x : ℝ, x = (a : ℝ) / 2 ^ 60 / 2 ^ 60 →
      |((a / 2 ^ 60 : Int) : ℝ) / 2 ^ 60 - x| ≤ 1 / 2 ^ 60 := by
    intro a x hx
    rw [hx, ← sub_div, abs_div, abs_of_pos (show (0 : ℝ) < 2 ^ 60 by positivity)]
    exact div_le_div_of_nonneg_right (fixed_div_near a) (by positivity)
  have h1 := key (c * stepRe - s * stepIm) ((fixed c s * fixed stepRe stepIm).re) (by
    simp only [fixed, Complex.mul_re]
    push_cast
    ring)
  have h2 := key (c * stepIm + s * stepRe) ((fixed c s * fixed stepRe stepIm).im) (by
    simp only [fixed, Complex.mul_im]
    push_cast
    ring)
  rw [Complex.sub_re, Complex.sub_im]
  refine (add_le_add h1 h2).trans ?_
  norm_num

/-- The entry is finite, at most 1, and within 65 * 2^-31 of a fixed-point value. -/
def entryNear (x : F32) (c : Int) : Bool :=
  x.isFinite && decide (x.units.natAbs ≤ 2 ^ 149) && decide ((x.units * 2 ^ 60 - c * 2 ^ 149).natAbs ≤ 65 * 2 ^ 178)

/-- The next `k` ROM entries from `j` on agree with the point turned on. -/
def entriesNear : Nat → Nat → Int → Int → Bool
  | 0, _, _, _ => true
  | k + 1, j, c, s => entryNear (quarterWave j) c && entriesNear k (j + 1) (nextRe c s) (nextIm c s)

theorem rom_entriesNear : entriesNear 257 0 (2 ^ 60) 0 = true := by decide +kernel

theorem entryNear_sound {x : F32} {c : Int} (h : entryNear x c = true) :
    x.isFinite = true ∧ |realOf x| ≤ 1 ∧ |realOf x - (c : ℝ) / 2 ^ 60| ≤ 65 / 2 ^ 31 := by
  unfold entryNear at h
  rw [Bool.and_eq_true, Bool.and_eq_true, decide_eq_true_iff, decide_eq_true_iff] at h
  obtain ⟨⟨h1, h2⟩, h3⟩ := h
  obtain ⟨P, hP⟩ : ∃ P : ℝ, P = 2 ^ 149 := ⟨_, rfl⟩
  have hpos : 0 < P := by rw [hP]; positivity
  have h2' : |(x.units : ℝ)| ≤ P := by
    rw [← Int.cast_abs, Int.abs_eq_natAbs, hP]
    exact_mod_cast h2
  have h3' : |(x.units : ℝ) * 2 ^ 60 - c * P| ≤ 65 * (P * 2 ^ 29) := by
    have : ((65 * 2 ^ 178 : Nat) : ℝ) = 65 * (P * 2 ^ 29) := by
      rw [hP, ← pow_add]
      push_cast
      ring
    rw [← this, hP]
    have e : ((x.units : ℝ) * 2 ^ 60 - c * 2 ^ 149) = ((x.units * 2 ^ 60 - c * 2 ^ 149 : Int) : ℝ) := by push_cast; ring
    rw [e, ← Int.cast_abs, Int.abs_eq_natAbs]
    exact_mod_cast h3
  refine ⟨h1, ?_, ?_⟩
  · unfold realOf
    rw [← hP, abs_div, abs_of_pos hpos, div_le_one hpos]
    exact h2'
  · unfold realOf
    rw [← hP]
    have e : (x.units : ℝ) / P - (c : ℝ) / 2 ^ 60 = ((x.units : ℝ) * 2 ^ 60 - c * P) / (P * 2 ^ 60) := by
      field_simp
    rw [e, abs_div, abs_of_pos (show 0 < P * 2 ^ 60 by positivity), div_le_iff₀ (by positivity)]
    refine h3'.trans (le_of_eq ?_)
    norm_num
    ring

theorem entriesNear_sound (k j : Nat) (c s : Int) (hk : j + k ≤ 257) (h : entriesNear k j c s = true)
    (hz : ‖fixed c s - turn (j / 1024)‖ ≤ j / 2 ^ 54) :
    ∀ i, i < k → ∃ d : ℝ, |d - Real.cos (2 * Real.pi * ((j + i : Nat) / 1024))| ≤ 1 / 2 ^ 45 ∧
      (quarterWave (j + i)).isFinite = true ∧ |realOf (quarterWave (j + i))| ≤ 1 ∧
        |realOf (quarterWave (j + i)) - d| ≤ 65 / 2 ^ 31 := by
  induction k generalizing j c s with
  | zero => intro i hi; omega
  | succ k ih =>
    unfold entriesNear at h
    rw [Bool.and_eq_true] at h
    have hj : (j : ℝ) ≤ 257 := by exact_mod_cast (by omega : j ≤ 257)
    intro i hi
    rcases Nat.eq_zero_or_pos i with rfl | hpos
    · refine ⟨(c : ℝ) / 2 ^ 60, ?_, entryNear_sound h.1⟩
      have := (Complex.abs_re_le_norm _).trans hz
      rw [Complex.sub_re, turn_re] at this
      refine this.trans ?_
      rw [div_le_div_iff₀ (by positivity) (by positivity)]
      norm_num
      linarith
    · have hnext : ‖fixed (nextRe c s) (nextIm c s) - turn ((j + 1 : Nat) / 1024)‖ ≤ (j + 1 : Nat) / 2 ^ 54 := by
        have ht : turn ((j + 1 : Nat) / 1024) = turn (j / 1024) * turn (1 / 1024) := by
          rw [← turn_add]
          congr 1
          push_cast
          ring
        have hf : ‖fixed c s‖ ≤ 2 := by
          have h1 := norm_sub_norm_le (fixed c s) (turn (j / 1024))
          rw [norm_turn] at h1
          have : (j : ℝ) / 2 ^ 54 ≤ 1 := by
            rw [div_le_one (by positivity)]
            exact hj.trans (by norm_num)
          linarith
        have e : fixed (nextRe c s) (nextIm c s) - turn ((j + 1 : Nat) / 1024) =
            (fixed (nextRe c s) (nextIm c s) - fixed c s * fixed stepRe stepIm) +
              (fixed c s * (fixed stepRe stepIm - turn (1 / 1024)) +
                (fixed c s - turn (j / 1024)) * turn (1 / 1024)) := by
          rw [ht]
          ring
        rw [e]
        refine (norm_add_le _ _).trans ((add_le_add (fixed_next c s) (norm_add_le _ _)).trans ?_)
        rw [norm_mul, norm_mul, norm_turn, mul_one]
        have h2 : ‖fixed c s‖ * ‖fixed stepRe stepIm - turn (1 / 1024)‖ ≤ 2 * (1 / 2 ^ 56) :=
          mul_le_mul hf step_near (norm_nonneg _) (by norm_num)
        have e2 : ((j + 1 : Nat) : ℝ) / 2 ^ 54 = j / 2 ^ 54 + 1 / 2 ^ 54 := by push_cast; ring
        rw [e2]
        have h3 : (1 : ℝ) / 2 ^ 59 + 2 * (1 / 2 ^ 56) ≤ 1 / 2 ^ 54 := by norm_num
        linarith
      have := ih (j + 1) _ _ (by omega) h.2 hnext (i - 1) (by omega)
      rwa [show j + 1 + (i - 1) = j + i by omega] at this

/-- The quarter wave is within 66 * 2^-31 of the cosine. -/
theorem quarterWave_near (j : Nat) (h : j ≤ 256) :
    (quarterWave j).isFinite = true ∧ |realOf (quarterWave j)| ≤ 1 ∧
      |realOf (quarterWave j) - Real.cos (2 * Real.pi * (j / 1024))| ≤ 66 / 2 ^ 31 := by
  have h0 : ‖fixed (2 ^ 60) 0 - turn ((0 : Nat) / 1024)‖ ≤ (0 : Nat) / 2 ^ 54 := by
    have : fixed (2 ^ 60) 0 = 1 := by
      apply Complex.ext <;> norm_num [fixed]
    rw [this]
    simp [turn_zero]
  obtain ⟨d, h1, h2, h3, h4⟩ := entriesNear_sound 257 0 _ _ (by omega) rom_entriesNear h0 j (by omega)
  rw [Nat.zero_add] at h1 h2 h3 h4
  refine ⟨h2, h3, ?_⟩
  have := abs_sub_le (realOf (quarterWave j)) d (Real.cos (2 * Real.pi * (j / 1024)))
  have h5 : (65 : ℝ) / 2 ^ 31 + 1 / 2 ^ 45 ≤ 66 / 2 ^ 31 := by norm_num
  linarith

theorem negEntry_near {x : F32} {c : ℝ} (h : x.isFinite = true ∧ |realOf x| ≤ 1 ∧ |realOf x - c| ≤ 66 / 2 ^ 31) :
    (negEntry x).isFinite = true ∧ |realOf (negEntry x)| ≤ 1 ∧ |realOf (negEntry x) - -c| ≤ 66 / 2 ^ 31 := by
  have hr : realOf (negEntry x) = -realOf x := by
    unfold negEntry
    split
    · rename_i hz
      cases x with
      | fin b m =>
        have : m = 0 := by simpa [F32.isZero] using hz
        subst this
        cases b <;> simp [realOf_fin, realOf_zero]
      | inf b => simp [F32.isZero] at hz
      | nan b f => simp [F32.isZero] at hz
    · exact realOf_neg x
  refine ⟨?_, ?_, ?_⟩
  · unfold negEntry
    split
    · rfl
    · rw [isFinite_neg]
      exact h.1
  · rw [hr, abs_neg]
    exact h.2.1
  · rw [hr, show -realOf x - -c = -(realOf x - c) by ring, abs_neg]
    exact h.2.2

/-- Every entry of the full circle is within 66 * 2^-31 of its cosine, and at most 1. -/
theorem cosEntry_near (j : Nat) (h : j < 1024) :
    (cosEntry j).isFinite = true ∧ |realOf (cosEntry j)| ≤ 1 ∧
      |realOf (cosEntry j) - (turn (j / 1024)).re| ≤ 66 / 2 ^ 31 := by
  rw [turn_re]
  unfold cosEntry
  split
  · exact quarterWave_near j ‹_›
  rename_i h1
  split
  · have := negEntry_near (quarterWave_near (512 - j) (by omega))
    have e : 2 * Real.pi * ((512 - j : Nat) / 1024) = Real.pi - 2 * Real.pi * (j / 1024) := by
      rw [Nat.cast_sub (by omega)]
      push_cast
      ring
    rwa [e, Real.cos_pi_sub, neg_neg] at this
  rename_i h2
  split
  · have := negEntry_near (quarterWave_near (j - 512) (by omega))
    have e : 2 * Real.pi * ((j - 512 : Nat) / 1024) = 2 * Real.pi * (j / 1024) - Real.pi := by
      rw [Nat.cast_sub (by omega)]
      push_cast
      ring
    rwa [e, Real.cos_sub_pi, neg_neg] at this
  · have := quarterWave_near (1024 - j) (by omega)
    have e : 2 * Real.pi * ((1024 - j : Nat) / 1024) = 2 * Real.pi - 2 * Real.pi * (j / 1024) := by
      rw [Nat.cast_sub (by omega)]
      push_cast
      ring
    rwa [e, Real.cos_two_pi_sub] at this

/-- `TC(N, j)` against the exact cosine, for every N that divides 1024. -/
theorem twiddleCos_near (n j : Nat) (hn : n ∣ 1024) (h : j < n) :
    (twiddleCos n j).isFinite = true ∧ |realOf (twiddleCos n j)| ≤ 1 ∧
      |realOf (twiddleCos n j) - (turn (j / n)).re| ≤ 66 / 2 ^ 31 := by
  obtain ⟨q, hq⟩ := hn
  have hn0 : 0 < n := by omega
  have hdiv : 1024 / n = q := by rw [hq, Nat.mul_div_cancel_left q hn0]
  have hq0 : 0 < q := by
    rcases Nat.eq_zero_or_pos q with rfl | hp
    · omega
    · exact hp
  have hlt : j * q < 1024 := by rw [hq]; exact Nat.mul_lt_mul_of_pos_right h hq0
  have := cosEntry_near (j * q) hlt
  have e : ((j * q : Nat) : ℝ) / 1024 = j / n := by
    have h1 : (1024 : ℝ) = n * q := by exact_mod_cast hq
    have : (n : ℝ) ≠ 0 := by exact_mod_cast hn0.ne'
    have : (q : ℝ) ≠ 0 := by exact_mod_cast hq0.ne'
    rw [h1]
    push_cast
    field_simp
  rw [e] at this
  unfold twiddleCos
  rw [hdiv, Nat.mod_eq_of_lt hlt]
  exact this

/-- `TS(N, j)` against the exact sine. -/
theorem twiddleSin_near (n j : Nat) (hn : n ∣ 1024) (h : j < n) :
    (twiddleSin n j).isFinite = true ∧ |realOf (twiddleSin n j)| ≤ 1 ∧
      |realOf (twiddleSin n j) - (turn (j / n)).im| ≤ 66 / 2 ^ 31 := by
  obtain ⟨q, hq⟩ := hn
  have hn0 : 0 < n := by omega
  have hdiv : 1024 / n = q := by rw [hq, Nat.mul_div_cancel_left q hn0]
  have := cosEntry_near ((j * q + 768) % 1024) (Nat.mod_lt _ (by norm_num))
  have hq0 : (q : ℝ) ≠ 0 := by
    rintro h0
    have : q = 0 := by exact_mod_cast h0
    subst this
    omega
  have e : (turn (((j * q + 768) % 1024 : Nat) / 1024)).re = (turn (j / n)).im := by
    have hdm := Nat.mod_add_div (j * q + 768) 1024
    generalize (j * q + 768) % 1024 = r at hdm
    generalize (j * q + 768) / 1024 = k at hdm
    have hr : ((r : Nat) : ℝ) / 1024 = j / n + 3 / 4 - k := by
      have h1 : (1024 : ℝ) = n * q := by exact_mod_cast hq
      have h2 : (r : ℝ) + 1024 * k = j * q + 768 := by exact_mod_cast hdm
      have h3 : (n : ℝ) ≠ 0 := by exact_mod_cast hn0.ne'
      have h4 : (j : ℝ) / n = j * q / 1024 := by
        rw [h1]
        field_simp
      rw [h4]
      linarith
    rw [hr, turn_re, turn_im]
    have : 2 * Real.pi * ((j : ℝ) / n + 3 / 4 - k) =
        (2 * Real.pi * (j / n) - Real.pi / 2 + 2 * Real.pi) - k * (2 * Real.pi) := by ring
    rw [this, Real.cos_sub_nat_mul_two_pi, Real.cos_add_two_pi, Real.cos_sub_pi_div_two]
  rw [e] at this
  unfold twiddleSin
  rw [hdiv]
  exact this

end Sys2Proof.Exact
end

