-- ==== Sys2Proof/Laws/ComplexNear.lean ====
section
/-! SUPPORT. How f32 operations carry an error along (41_dct1d.md R130, R138). `Near c m x r` says that a value is finite and
within `c` unit roundoffs of the mass `m` from the exact value `r`, which the mass bounds; `CNear` says the same of complex
values. A mass is never below `floor`, so that the error among the subnormals is part of it. -/

namespace Sys2Proof.Exact

open Sys2Proof.Machine

/-- The least mass: 256 unit roundoffs of it are 2^-140, the floor of R127. -/
noncomputable def floor : ℝ := 1 / 2 ^ 124

/-- A mass that no operation can carry out of range, and a factor that keeps errors small. -/
structure Fits (c m : ℝ) : Prop where
  nonneg : 0 ≤ c
  le : c ≤ 100
  floor_le : floor ≤ m
  bound : m ≤ 2 ^ 110

theorem floor_pos : 0 < floor := by unfold floor; positivity

theorem unit_pos : 0 < unit := by unfold unit; positivity

theorem Fits.pos {c m : ℝ} (h : Fits c m) : 0 < m := lt_of_lt_of_le floor_pos h.floor_le

theorem Fits.um_pos {c m : ℝ} (h : Fits c m) : 0 < unit * m := mul_pos unit_pos h.pos

/-- An error of at most 100 unit roundoffs is below 1/100000 of the mass. -/
theorem Fits.small {c m : ℝ} (h : Fits c m) : c * (unit * m) ≤ m / 100000 := by
  have h1 : c * (unit * m) ≤ 100 * (unit * m) := mul_le_mul_of_nonneg_right h.le h.um_pos.le
  have h2 : 100 * (unit * m) ≤ m / 100000 := by
    unfold unit
    have := h.pos
    norm_num
    linarith
  exact h1.trans h2

/-- A real value near an exact one. -/
structure Near (c m : ℝ) (x : F32) (r : ℝ) : Prop where
  fits : Fits c m
  fin : x.isFinite = true
  err : |realOf x - r| ≤ c * (unit * m)
  size : |r| ≤ m

/-- The complex value of a pair. -/
noncomputable def valOf (z : Complex32) : ℂ := ⟨realOf z.1, realOf z.2⟩

/-- A complex value near an exact one. -/
structure CNear (c m : ℝ) (z : Complex32) (w : ℂ) : Prop where
  fits : Fits c m
  fin_re : z.1.isFinite = true
  fin_im : z.2.isFinite = true
  err : ‖valOf z - w‖ ≤ c * (unit * m)
  size : ‖w‖ ≤ m

/-- A table value near a number of size at most 1. -/
structure Entry (t : F32) (τ : ℝ) : Prop where
  fin : t.isFinite = true
  le_one : |realOf t| ≤ 1
  err : |realOf t - τ| ≤ 66 / 2 ^ 31

theorem Entry.neg {t : F32} {τ : ℝ} (h : Entry t τ) : Entry t.neg (-τ) where
  fin := by rw [isFinite_neg]; exact h.fin
  le_one := by rw [realOf_neg, abs_neg]; exact h.le_one
  err := by rw [realOf_neg, show -realOf t - -τ = -(realOf t - τ) by ring, abs_neg]; exact h.err

theorem Near.value_le {c m : ℝ} {x : F32} {r : ℝ} (h : Near c m x r) : |realOf x| ≤ m + m / 100000 := by
  have h1 := h.err.trans h.fits.small
  have h2 := abs_sub_abs_le_abs_sub (realOf x) r
  linarith [h.size]

theorem CNear.value_le {c m : ℝ} {z : Complex32} {w : ℂ} (h : CNear c m z w) : ‖valOf z‖ ≤ m + m / 100000 := by
  have h1 := h.err.trans h.fits.small
  have h2 := norm_sub_norm_le (valOf z) w
  linarith [h.size]

theorem Near.mono {c c' m m' : ℝ} {x : F32} {r : ℝ} (h : Near c m x r) (hc : c ≤ c') (hm : m ≤ m') (hf : Fits c' m') :
    Near c' m' x r where
  fits := hf
  fin := h.fin
  err := h.err.trans (by
    have := h.fits.nonneg
    have := unit_pos
    have := hf.nonneg
    gcongr
    exact h.fits.um_pos.le)
  size := h.size.trans hm

theorem CNear.mono {c c' m m' : ℝ} {z : Complex32} {w : ℂ} (h : CNear c m z w) (hc : c ≤ c') (hm : m ≤ m')
    (hf : Fits c' m') : CNear c' m' z w where
  fits := hf
  fin_re := h.fin_re
  fin_im := h.fin_im
  err := h.err.trans (by
    have := h.fits.nonneg
    have := unit_pos
    have := hf.nonneg
    gcongr
    exact h.fits.um_pos.le)
  size := h.size.trans hm

theorem CNear.re {c m : ℝ} {z : Complex32} {w : ℂ} (h : CNear c m z w) : Near c m z.1 w.re where
  fits := h.fits
  fin := h.fin_re
  err := (Complex.abs_re_le_norm (valOf z - w)).trans h.err
  size := (Complex.abs_re_le_norm w).trans h.size

theorem CNear.im {c m : ℝ} {z : Complex32} {w : ℂ} (h : CNear c m z w) : Near c m z.2 w.im where
  fits := h.fits
  fin := h.fin_im
  err := (Complex.abs_im_le_norm (valOf z - w)).trans h.err
  size := (Complex.abs_im_le_norm w).trans h.size

/-- An exact input. -/
theorem Near.exact {m : ℝ} {x : F32} (hx : x.isFinite = true) (hf : Fits 0 m) (h : |realOf x| ≤ m) :
    Near 0 m x (realOf x) := ⟨hf, hx, by simp, h⟩

/-! ### Real operations -/

/-- A sum costs one unit roundoff and a little. -/
theorem Near.sum {op : FOp} {c m n : ℝ} {x y : F32} {r s : ℝ} (hx : Near c m x r) (hy : Near c n y s)
    (hf : Fits (c + 1.1) (m + n)) : Near (c + 1.1) (m + n) (F32.sum op x y) (r + s) := by
  have h1 := hx.value_le
  have h2 := hy.value_le
  have h3 := (abs_add_le (realOf x) (realOf y)).trans (add_le_add h1 h2)
  have hbig : |realOf x + realOf y| ≤ 2 ^ 126 := by
    have := hf.bound
    have : (2 : ℝ) * 2 ^ 110 ≤ 2 ^ 126 := by norm_num
    have := hf.pos
    linarith
  obtain ⟨hfin, hnear⟩ := sum_near (op := op) hx.fin hy.fin hbig
  refine ⟨hf, hfin, ?_, (abs_add_le r s).trans (add_le_add hx.size hy.size)⟩
  have h4 : |realOf (F32.sum op x y) - (r + s)| ≤
      |realOf (F32.sum op x y) - (realOf x + realOf y)| + (|realOf x - r| + |realOf y - s|) := by
    have e : realOf (F32.sum op x y) - (r + s) =
        (realOf (F32.sum op x y) - (realOf x + realOf y)) + ((realOf x - r) + (realOf y - s)) := by ring
    rw [e]
    exact (abs_add_le _ _).trans (add_le_add le_rfl (abs_add_le _ _))
  have h5 : unit * |realOf x + realOf y| ≤ 1.1 * (unit * (m + n)) := by
    have : |realOf x + realOf y| ≤ 1.1 * (m + n) := by
      have := hf.pos
      linarith
    calc unit * |realOf x + realOf y| ≤ unit * (1.1 * (m + n)) := mul_le_mul_of_nonneg_left this unit_pos.le
      _ = 1.1 * (unit * (m + n)) := by ring
  have := hx.err
  have := hy.err
  have e : (c + 1.1) * (unit * (m + n)) = c * (unit * m) + c * (unit * n) + 1.1 * (unit * (m + n)) := by ring
  rw [e]
  linarith

theorem Near.add {c m n : ℝ} {x y : F32} {r s : ℝ} (hx : Near c m x r) (hy : Near c n y s)
    (hf : Fits (c + 1.1) (m + n)) : Near (c + 1.1) (m + n) (x.add y) (r + s) := hx.sum hy hf

theorem Near.neg {c m : ℝ} {x : F32} {r : ℝ} (hx : Near c m x r) : Near c m x.neg (-r) where
  fits := hx.fits
  fin := by rw [isFinite_neg]; exact hx.fin
  err := by rw [realOf_neg, show -realOf x - -r = -(realOf x - r) by ring, abs_neg]; exact hx.err
  size := by rw [abs_neg]; exact hx.size

theorem Near.sub {c m n : ℝ} {x y : F32} {r s : ℝ} (hx : Near c m x r) (hy : Near c n y s)
    (hf : Fits (c + 1.1) (m + n)) : Near (c + 1.1) (m + n) (x.sub y) (r - s) := by
  rw [sub_eq_add_neg]
  exact hx.sum hy.neg hf

/-- A product of finite values does not depend on their order. -/
theorem mul_comm_of_isFinite {a b : F32} (ha : a.isFinite = true) (hb : b.isFinite = true) : a.mul b = b.mul a := by
  obtain ⟨x, m, rfl⟩ := fin_of_isFinite ha
  obtain ⟨y, n, rfl⟩ := fin_of_isFinite hb
  show F32.round 149 (x != y) (m * n) = F32.round 149 (y != x) (n * m)
  rw [Nat.mul_comm, show (x != y) = (y != x) by cases x <;> cases y <;> rfl]

/-- A product with a table value: its error, before the mass is chosen. -/
theorem mul_err {c m : ℝ} {t x : F32} {τ r σ δ : ℝ} (hx : Near c m x r) (ht : t.isFinite = true)
    (hσ : |realOf t| ≤ σ) (hσ1 : σ ≤ 4) (hδ : |realOf t - τ| ≤ δ) :
    (t.mul x).isFinite = true ∧
      |realOf (t.mul x) - τ * r| ≤ σ * (c * (unit * m)) + δ * m + unit * max (σ * (m + m / 100000)) (m / 4) := by
  have hpos := hx.fits.pos
  have h1 : |realOf t * realOf x| ≤ σ * (m + m / 100000) := by
    rw [abs_mul]
    exact mul_le_mul hσ hx.value_le (abs_nonneg _) ((abs_nonneg _).trans hσ)
  have hbig : |realOf t * realOf x| ≤ 2 ^ 126 := by
    have hb := hx.fits.bound
    have : (8 : ℝ) * 2 ^ 110 ≤ 2 ^ 126 := by norm_num
    have : σ * (m + m / 100000) ≤ 4 * (m + m / 100000) := mul_le_mul_of_nonneg_right hσ1 (by positivity)
    linarith
  obtain ⟨hfin, hnear⟩ := mul_near ht hx.fin hbig
  refine ⟨hfin, ?_⟩
  have e : realOf (t.mul x) - τ * r = (realOf (t.mul x) - realOf t * realOf x) +
      (realOf t * (realOf x - r) + (realOf t - τ) * r) := by ring
  have h2 : |realOf t * (realOf x - r)| ≤ σ * (c * (unit * m)) := by
    rw [abs_mul]
    exact mul_le_mul hσ hx.err (abs_nonneg _) ((abs_nonneg _).trans hσ)
  have h3 : |(realOf t - τ) * r| ≤ δ * m := by
    rw [abs_mul]
    exact mul_le_mul hδ hx.size (abs_nonneg _) ((abs_nonneg _).trans hδ)
  have h4 : unit * max |realOf t * realOf x| (1 / 2 ^ 126) ≤ unit * max (σ * (m + m / 100000)) (m / 4) := by
    refine mul_le_mul_of_nonneg_left (max_le_max h1 ?_) unit_pos.le
    have := hx.fits.floor_le
    unfold floor at this
    have : (1 : ℝ) / 2 ^ 126 = 1 / 2 ^ 124 / 4 := by norm_num
    linarith
  rw [e]
  have := (abs_add_le (realOf (t.mul x) - realOf t * realOf x) (realOf t * (realOf x - r) + (realOf t - τ) * r)).trans
    (add_le_add (hnear.trans h4) ((abs_add_le _ _).trans (add_le_add h2 h3)))
  linarith

/-- A product with a table value costs 1.6 unit roundoffs. -/
theorem Near.mulEntry {c m : ℝ} {t x : F32} {τ r : ℝ} (hx : Near c m x r) (ht : Entry t τ) (hτ : |τ| ≤ 1)
    (hf : Fits (c + 1.6) m) : Near (c + 1.6) m (t.mul x) (τ * r) := by
  obtain ⟨h1, h2⟩ := mul_err hx ht.fin ht.le_one (by norm_num) ht.err
  refine ⟨hf, h1, h2.trans ?_, ?_⟩
  · have hpos := hf.pos
    rw [max_eq_left (by linarith)]
    have e : (66 : ℝ) / 2 ^ 31 * m = 66 / 128 * (unit * m) := by
      unfold unit
      ring
    rw [e]
    have e2 : unit * (1 * (m + m / 100000)) = (1 + 1 / 100000) * (unit * m) := by ring
    rw [e2]
    have := hf.um_pos
    nlinarith
  · rw [abs_mul]
    calc |τ| * |r| ≤ 1 * m := mul_le_mul hτ hx.size (abs_nonneg _) (by norm_num)
      _ = m := one_mul m

/-! ### Complex operations -/

theorem CNear.of_parts {c m : ℝ} {x y : F32} {w : ℂ} (hf : Fits c m) (hx : x.isFinite = true) (hy : y.isFinite = true)
    (h : |realOf x - w.re| + |realOf y - w.im| ≤ c * (unit * m)) (hs : ‖w‖ ≤ m) : CNear c m (x, y) w :=
  ⟨hf, hx, hy, (norm_le_abs_add_abs _).trans h, hs⟩

/-- Two rounded sums, part by part, cost 2.1 unit roundoffs. -/
theorem CNear.of_sums {c m n : ℝ} {y z : Complex32} {v w : ℂ} {s1 s2 : F32} (hy : CNear c m y v) (hz : CNear c n z w)
    (hf : Fits (c + 2.1) (m + n))
    (h1 : |realOf y.1 + realOf z.1| ≤ 2 ^ 126 →
      s1.isFinite = true ∧ |realOf s1 - (realOf y.1 + realOf z.1)| ≤ unit * |realOf y.1 + realOf z.1|)
    (h2 : |realOf y.2 + realOf z.2| ≤ 2 ^ 126 →
      s2.isFinite = true ∧ |realOf s2 - (realOf y.2 + realOf z.2)| ≤ unit * |realOf y.2 + realOf z.2|) :
    CNear (c + 2.1) (m + n) (s1, s2) (v + w) := by
  have hyv := hy.value_le
  have hzv := hz.value_le
  have hpos := hf.pos
  have hv : ‖valOf y + valOf z‖ ≤ 1.05 * (m + n) := (norm_add_le _ _).trans (by linarith)
  have hre : |realOf y.1 + realOf z.1| ≤ 1.05 * (m + n) := (Complex.abs_re_le_norm (valOf y + valOf z)).trans hv
  have him : |realOf y.2 + realOf z.2| ≤ 1.05 * (m + n) := (Complex.abs_im_le_norm (valOf y + valOf z)).trans hv
  have hbig : 1.05 * (m + n) ≤ 2 ^ 126 := by
    have := hf.bound
    have : (2 : ℝ) * 2 ^ 110 ≤ 2 ^ 126 := by norm_num
    linarith
  obtain ⟨f1, e1⟩ := h1 (hre.trans hbig)
  obtain ⟨f2, e2⟩ := h2 (him.trans hbig)
  refine ⟨hf, f1, f2, ?_, (norm_add_le _ _).trans (add_le_add hy.size hz.size)⟩
  have e : valOf (s1, s2) - (v + w) =
      (valOf (s1, s2) - (valOf y + valOf z)) + ((valOf y - v) + (valOf z - w)) := by
    ring
  have hr : ‖valOf (s1, s2) - (valOf y + valOf z)‖ ≤ 2.1 * (unit * (m + n)) := by
    refine (norm_le_abs_add_abs _).trans ?_
    have h3 := e1.trans (mul_le_mul_of_nonneg_left hre unit_pos.le)
    have h4 := e2.trans (mul_le_mul_of_nonneg_left him unit_pos.le)
    refine (add_le_add h3 h4).trans (le_of_eq ?_)
    ring
  rw [e]
  refine (norm_add_le _ _).trans ((add_le_add hr ((norm_add_le _ _).trans (add_le_add hy.err hz.err))).trans
    (le_of_eq ?_))
  ring

/-- A part-by-part sum, whatever the two operations are named. -/
theorem CNear.sum {op op' : FOp} {c m n : ℝ} {y z : Complex32} {v w : ℂ} (hy : CNear c m y v) (hz : CNear c n z w)
    (hf : Fits (c + 2.1) (m + n)) :
    CNear (c + 2.1) (m + n) (F32.sum op y.1 z.1, F32.sum op' y.2 z.2) (v + w) :=
  hy.of_sums hz hf (sum_near hy.fin_re hz.fin_re) (sum_near hy.fin_im hz.fin_im)

/-- The same with the operands of the second sum exchanged. -/
theorem CNear.sum_swapped {op op' : FOp} {c m n : ℝ} {y z : Complex32} {v w : ℂ} (hy : CNear c m y v)
    (hz : CNear c n z w) (hf : Fits (c + 2.1) (m + n)) :
    CNear (c + 2.1) (m + n) (F32.sum op y.1 z.1, F32.sum op' z.2 y.2) (v + w) :=
  hy.of_sums hz hf (sum_near hy.fin_re hz.fin_re) (by
    rw [add_comm (realOf y.2)]
    exact sum_near hz.fin_im hy.fin_im)

theorem CNear.cadd {c m n : ℝ} {y z : Complex32} {v w : ℂ} (hy : CNear c m y v) (hz : CNear c n z w)
    (hf : Fits (c + 2.1) (m + n)) : CNear (c + 2.1) (m + n) (cadd y z) (v + w) := hy.sum hz hf

theorem CNear.neg {c m : ℝ} {z : Complex32} {w : ℂ} (h : CNear c m z w) : CNear c m (z.1.neg, z.2.neg) (-w) where
  fits := h.fits
  fin_re := by rw [isFinite_neg]; exact h.fin_re
  fin_im := by rw [isFinite_neg]; exact h.fin_im
  err := by
    have : valOf (z.1.neg, z.2.neg) - -w = -(valOf z - w) := by
      apply Complex.ext <;> simp [valOf, realOf_neg] <;> ring
    rw [this, norm_neg]
    exact h.err
  size := by rw [norm_neg]; exact h.size

theorem CNear.csub {c m n : ℝ} {y z : Complex32} {v w : ℂ} (hy : CNear c m y v) (hz : CNear c n z w)
    (hf : Fits (c + 2.1) (m + n)) : CNear (c + 2.1) (m + n) (csub y z) (v - w) := by
  rw [sub_eq_add_neg]
  exact hy.sum hz.neg hf

/-- The conjugate: the imaginary part changes sign, exactly. -/
theorem CNear.conj {c m : ℝ} {z : Complex32} {w : ℂ} (h : CNear c m z w) :
    CNear c m (z.1, z.2.neg) ((starRingEnd ℂ) w) where
  fits := h.fits
  fin_re := h.fin_re
  fin_im := by rw [isFinite_neg]; exact h.fin_im
  err := by
    have : valOf (z.1, z.2.neg) - (starRingEnd ℂ) w = (starRingEnd ℂ) (valOf z - w) := by
      apply Complex.ext <;> simp [valOf, realOf_neg]
    rw [this, RCLike.norm_conj]
    exact h.err
  size := by rw [RCLike.norm_conj]; exact h.size

/-- Swapping the parts: `i` times the conjugate. -/
theorem CNear.swap {c m : ℝ} {z : Complex32} {w : ℂ} (h : CNear c m z w) :
    CNear c m (z.2, z.1) (Complex.I * (starRingEnd ℂ) w) where
  fits := h.fits
  fin_re := h.fin_im
  fin_im := h.fin_re
  err := by
    have : valOf (z.2, z.1) - Complex.I * (starRingEnd ℂ) w = Complex.I * (starRingEnd ℂ) (valOf z - w) := by
      apply Complex.ext <;> simp [valOf]; ring
    rw [this, norm_mul, Complex.norm_I, one_mul, RCLike.norm_conj]
    exact h.err
  size := by rw [norm_mul, Complex.norm_I, one_mul, RCLike.norm_conj]; exact h.size

/-- Two products and a sum of table values with a pair: the sum of the two magnitudes is at most the mass. -/
theorem cross_le {a b c d p q : ℝ} (h1 : a ^ 2 + b ^ 2 ≤ p ^ 2) (h2 : c ^ 2 + d ^ 2 ≤ q ^ 2) (hp : 0 ≤ p) (hq : 0 ≤ q) :
    |a * c| + |b * d| ≤ p * q := by
  have h3 : (|a * c| + |b * d|) ^ 2 ≤ (p * q) ^ 2 := by
    have e1 : (a ^ 2 + b ^ 2) * (c ^ 2 + d ^ 2) ≤ p ^ 2 * q ^ 2 :=
      mul_le_mul h1 h2 (by positivity) (by positivity)
    rw [abs_mul, abs_mul, mul_pow]
    refine le_trans ?_ e1
    have := sq_nonneg (|a| * |d| - |b| * |c|)
    have ha := sq_abs a
    have hb := sq_abs b
    have hc := sq_abs c
    have hd := sq_abs d
    nlinarith
  exact abs_le_of_sq_le_sq' h3 (by positivity) |>.2

theorem norm_sq_parts (z : ℂ) : z.re ^ 2 + z.im ^ 2 = ‖z‖ ^ 2 := by
  rw [← Complex.normSq_eq_norm_sq, Complex.normSq_apply]
  ring

/-- One part of a complex product: two rounded products, one rounded sum. -/
theorem part_err {op : FOp} {m a b : ℝ} {w1 z1 w2 z2 : F32} (hm : floor ≤ m) (hmb : m ≤ 2 ^ 110)
    (fw1 : w1.isFinite = true) (fz1 : z1.isFinite = true) (fw2 : w2.isFinite = true) (fz2 : z2.isFinite = true)
    (ha : a = realOf (w1) * realOf (z1)) (hb : b = realOf w2 * realOf z2) (hsum : |a| + |b| ≤ 1.001 * m) (s : ℝ)
    (g : F32 → F32) (hg : ∀ x, (g x).isFinite = x.isFinite) (hs : ∀ x, realOf (g x) = s * realOf x) (hs1 : |s| = 1) :
    (F32.sum op (w1.mul z1) (g (w2.mul z2))).isFinite = true ∧
      |realOf (F32.sum op (w1.mul z1) (g (w2.mul z2))) - (a + s * b)| ≤ 2.52 * (unit * m) := by
  have hpos : 0 < m := lt_of_lt_of_le floor_pos hm
  have hum : 0 < unit * m := mul_pos unit_pos hpos
  have hbig : 1.001 * m ≤ 2 ^ 120 := by
    have : (2 : ℝ) * 2 ^ 110 ≤ 2 ^ 120 := by norm_num
    linarith
  have h120 : (2 : ℝ) ^ 120 ≤ 2 ^ 126 := by norm_num
  have na := abs_nonneg a
  have nb := abs_nonneg b
  obtain ⟨f1, e1⟩ := mul_near fw1 fz1 (by rw [← ha]; linarith)
  obtain ⟨f2, e2⟩ := mul_near fw2 fz2 (by rw [← hb]; linarith)
  rw [← ha] at e1
  rw [← hb] at e2
  have hq : (1 : ℝ) / 2 ^ 126 ≤ m / 4 := by
    unfold floor at hm
    have : (1 : ℝ) / 2 ^ 126 = 1 / 2 ^ 124 / 4 := by norm_num
    linarith
  have m1 : max |a| (1 / 2 ^ 126) ≤ |a| + m / 4 := max_le (by linarith) (by linarith)
  have m2 : max |b| (1 / 2 ^ 126) ≤ |b| + m / 4 := max_le (by linarith) (by linarith)
  have e1' := e1.trans (mul_le_mul_of_nonneg_left m1 unit_pos.le)
  have e2' := e2.trans (mul_le_mul_of_nonneg_left m2 unit_pos.le)
  have hu1 : unit * (|a| + m / 4) + unit * (|b| + m / 4) ≤ 1.501 * (unit * m) := by
    have : unit * (|a| + m / 4) + unit * (|b| + m / 4) = unit * (|a| + |b| + m / 2) := by ring
    rw [this]
    calc unit * (|a| + |b| + m / 2) ≤ unit * (1.501 * m) := mul_le_mul_of_nonneg_left (by linarith) unit_pos.le
      _ = 1.501 * (unit * m) := by ring
  have e2s : |realOf (g (w2.mul z2)) - s * b| ≤ unit * (|b| + m / 4) := by
    rw [hs, ← mul_sub, abs_mul, hs1, one_mul]
    exact e2'
  have hu2 : 1.501 * (unit * m) ≤ m / 1000 := by
    unfold unit
    norm_num
    linarith
  have hsb : |s * b| = |b| := by rw [abs_mul, hs1, one_mul]
  have hin : |realOf (w1.mul z1) + realOf (g (w2.mul z2))| ≤ 1.003 * m := by
    have e : realOf (w1.mul z1) + realOf (g (w2.mul z2)) =
        ((realOf (w1.mul z1) - a) + (realOf (g (w2.mul z2)) - s * b)) + (a + s * b) := by ring
    rw [e]
    have t1 := abs_add_le ((realOf (w1.mul z1) - a) + (realOf (g (w2.mul z2)) - s * b)) (a + s * b)
    have t2 := abs_add_le (realOf (w1.mul z1) - a) (realOf (g (w2.mul z2)) - s * b)
    have t3 := abs_add_le a (s * b)
    rw [hsb] at t3
    linarith
  obtain ⟨f3, e3⟩ := sum_near (op := op) f1 (by rw [hg]; exact f2) (hin.trans (by linarith))
  refine ⟨f3, ?_⟩
  have e : realOf (F32.sum op (w1.mul z1) (g (w2.mul z2))) - (a + s * b) =
      (realOf (F32.sum op (w1.mul z1) (g (w2.mul z2))) - (realOf (w1.mul z1) + realOf (g (w2.mul z2)))) +
        ((realOf (w1.mul z1) - a) + (realOf (g (w2.mul z2)) - s * b)) := by ring
  rw [e]
  have t1 := abs_add_le (realOf (F32.sum op (w1.mul z1) (g (w2.mul z2))) -
    (realOf (w1.mul z1) + realOf (g (w2.mul z2)))) ((realOf (w1.mul z1) - a) + (realOf (g (w2.mul z2)) - s * b))
  have t2 := abs_add_le (realOf (w1.mul z1) - a) (realOf (g (w2.mul z2)) - s * b)
  have t3 := e3.trans (mul_le_mul_of_nonneg_left hin unit_pos.le)
  have : unit * (1.003 * m) = 1.003 * (unit * m) := by ring
  linarith

/-- A complex table value on the unit circle. -/
structure CEntry (t : Complex32) (τ : ℂ) : Prop where
  re : Entry t.1 τ.re
  im : Entry t.2 τ.im
  norm : ‖τ‖ = 1

theorem CEntry.near {t : Complex32} {τ : ℂ} (h : CEntry t τ) : ‖valOf t - τ‖ ≤ 1.04 * unit := by
  refine (norm_le_abs_add_abs _).trans ((add_le_add h.re.err h.im.err).trans ?_)
  unfold unit
  norm_num

/-- A complex product with a table value costs 6.2 unit roundoffs (R130). -/
theorem CNear.cmul {c m : ℝ} {t z : Complex32} {τ w : ℂ} (hz : CNear c m z w) (ht : CEntry t τ)
    (hf : Fits (c + 6.2) m) : CNear (c + 6.2) m (cmul t z) (τ * w) := by
  have hpos := hf.pos
  have hum := hf.um_pos
  have hz' := hz.value_le
  have htv : ‖valOf t‖ ≤ 1.0001 := by
    have h1 := norm_sub_norm_le (valOf t) τ
    have h2 := ht.near
    rw [ht.norm] at h1
    have : 1.04 * unit ≤ 0.0001 := by unfold unit; norm_num
    linarith
  have hprod : ‖valOf t‖ * ‖valOf z‖ ≤ 1.001 * m := by
    calc ‖valOf t‖ * ‖valOf z‖ ≤ 1.0001 * (m + m / 100000) := mul_le_mul htv hz' (norm_nonneg _) (by norm_num)
      _ ≤ 1.001 * m := by linarith
  have c1 := cross_le (norm_sq_parts (valOf t)).le (norm_sq_parts (valOf z)).le (norm_nonneg _) (norm_nonneg _)
  have c2 := cross_le (a := (valOf t).re) (b := (valOf t).im) (c := (valOf z).im) (d := (valOf z).re)
    (norm_sq_parts (valOf t)).le (by rw [add_comm]; exact (norm_sq_parts (valOf z)).le) (norm_nonneg _) (norm_nonneg _)
  obtain ⟨f1, e1⟩ := part_err (op := .sub) (a := realOf t.1 * realOf z.1) (b := realOf t.2 * realOf z.2) hf.floor_le hf.bound
    ht.re.fin hz.fin_re ht.im.fin hz.fin_im rfl rfl (c1.trans hprod) (-1) F32.neg isFinite_neg
    (fun x => by rw [realOf_neg]; ring) (by norm_num)
  obtain ⟨f2, e2⟩ := part_err (op := .add) (a := realOf t.1 * realOf z.2) (b := realOf t.2 * realOf z.1) hf.floor_le hf.bound
    ht.re.fin hz.fin_im ht.im.fin hz.fin_re rfl rfl (c2.trans hprod) 1 id (fun _ => rfl)
    (fun x => by rw [id, one_mul]) (by norm_num)
  refine ⟨hf, f1, f2, ?_, ?_⟩
  · have e : valOf (Machine.cmul t z) - τ * w = (valOf (Machine.cmul t z) - valOf t * valOf z) +
        (valOf t * (valOf z - w) + (valOf t - τ) * w) := by ring
    have hr : ‖valOf (Machine.cmul t z) - valOf t * valOf z‖ ≤ 5.04 * (unit * m) := by
      refine (norm_le_abs_add_abs _).trans ?_
      have h1 : (valOf (Machine.cmul t z) - valOf t * valOf z).re =
          realOf (F32.sum .sub (t.1.mul z.1) (F32.neg (t.2.mul z.2))) -
            (realOf t.1 * realOf z.1 + -1 * (realOf t.2 * realOf z.2)) := by
        simp only [Complex.sub_re, Complex.mul_re, valOf, Machine.cmul, F32.sub]
        ring_nf
      have h2 : (valOf (Machine.cmul t z) - valOf t * valOf z).im =
          realOf (F32.sum .add (t.1.mul z.2) (id (t.2.mul z.1))) -
            (realOf t.1 * realOf z.2 + 1 * (realOf t.2 * realOf z.1)) := by
        simp only [Complex.sub_im, Complex.mul_im, valOf, Machine.cmul, F32.add, id]
        ring_nf
      rw [h1, h2]
      linarith
    have h3 : ‖valOf t * (valOf z - w)‖ ≤ 1.0001 * (c * (unit * m)) := by
      rw [norm_mul]
      exact mul_le_mul htv hz.err (norm_nonneg _) (by norm_num)
    have h4 : ‖(valOf t - τ) * w‖ ≤ 1.04 * (unit * m) := by
      rw [norm_mul, ← mul_assoc]
      exact mul_le_mul ht.near hz.size (norm_nonneg _) (by unfold unit; norm_num)
    rw [e]
    refine (norm_add_le _ _).trans ((add_le_add hr ((norm_add_le _ _).trans (add_le_add h3 h4))).trans ?_)
    have := hz.fits.le
    nlinarith
  · rw [norm_mul, ht.norm, one_mul]
    exact hz.size

/-- Both parts times one table value. -/
theorem CNear.scale {c m σ : ℝ} {t : F32} {z : Complex32} {w : ℂ} (hz : CNear c m z w) (ht : t.isFinite = true)
    (hσ : realOf t = σ) (h0 : 0 < σ) (hf : Fits (c + 2.1) (max 1 σ * m)) :
    CNear (c + 2.1) (max 1 σ * m) (z.1.mul t, z.2.mul t) (σ * w) ∧
      CNear (c + 2.1) (max 1 σ * m) (t.mul z.1, t.mul z.2) (σ * w) := by
  have hpos := hz.fits.pos
  have hv := hz.value_le
  have hmax : σ ≤ max 1 σ := le_max_right _ _
  have hmax1 : 1 ≤ max 1 σ := le_max_left _ _
  have hpm := hf.pos
  have hsz : ‖(σ : ℂ) * w‖ ≤ max 1 σ * m := by
    rw [norm_mul, Complex.norm_real, Real.norm_eq_abs, abs_of_pos h0]
    exact mul_le_mul hmax hz.size (norm_nonneg _) (by positivity)
  have part : ∀ x : F32, x.isFinite = true → |realOf x| ≤ m + m / 100000 → ∀ y, y = realOf x * σ →
      ((x.mul t).isFinite = true ∧ |realOf (x.mul t) - y| ≤ 1.01 * (unit * (max 1 σ * m))) ∧
        (t.mul x).isFinite = true ∧ |realOf (t.mul x) - y| ≤ 1.01 * (unit * (max 1 σ * m)) := by
    rintro x hx hxm y rfl
    have hb : |realOf x * σ| ≤ max 1 σ * (m + m / 100000) := by
      rw [abs_mul, abs_of_pos h0, mul_comm]
      exact mul_le_mul hmax hxm (abs_nonneg _) (by positivity)
    have hb2 : max 1 σ * (m + m / 100000) ≤ 1.01 * (max 1 σ * m) := by nlinarith
    have hbig : |realOf x * σ| ≤ 2 ^ 126 := by
      have := hf.bound
      have : (2 : ℝ) * 2 ^ 110 ≤ 2 ^ 126 := by norm_num
      linarith
    have hmx : max |realOf x * σ| (1 / 2 ^ 126) ≤ 1.01 * (max 1 σ * m) := by
      refine max_le (hb.trans hb2) ?_
      have := hf.floor_le
      unfold floor at this
      have : (1 : ℝ) / 2 ^ 126 ≤ 1 / 2 ^ 124 := by norm_num
      linarith
    have hfin : unit * max |realOf x * σ| (1 / 2 ^ 126) ≤ 1.01 * (unit * (max 1 σ * m)) := by
      calc _ ≤ unit * (1.01 * (max 1 σ * m)) := mul_le_mul_of_nonneg_left hmx unit_pos.le
        _ = _ := by ring
    have a1 := mul_near hx ht (by rw [hσ]; exact hbig)
    have a2 := mul_near ht hx (by rw [hσ, mul_comm]; exact hbig)
    rw [hσ] at a1 a2
    rw [mul_comm σ] at a2
    exact ⟨⟨a1.1, a1.2.trans hfin⟩, a2.1, a2.2.trans hfin⟩
  have p1 := part z.1 hz.fin_re ((Complex.abs_re_le_norm (valOf z)).trans hv) _ rfl
  have p2 := part z.2 hz.fin_im ((Complex.abs_im_le_norm (valOf z)).trans hv) _ rfl
  have fin : ∀ x y : F32, |realOf x - realOf z.1 * σ| ≤ 1.01 * (unit * (max 1 σ * m)) →
      |realOf y - realOf z.2 * σ| ≤ 1.01 * (unit * (max 1 σ * m)) →
      ‖valOf (x, y) - σ * w‖ ≤ (c + 2.1) * (unit * (max 1 σ * m)) := by
    intro x y hx hy
    have e : valOf (x, y) - σ * w = (valOf (x, y) - σ * valOf z) + σ * (valOf z - w) := by ring
    have hr : ‖valOf (x, y) - σ * valOf z‖ ≤ 2.02 * (unit * (max 1 σ * m)) := by
      refine (norm_le_abs_add_abs _).trans ?_
      have g1 : (valOf (x, y) - σ * valOf z).re = realOf x - realOf z.1 * σ := by simp [valOf, mul_comm]
      have g2 : (valOf (x, y) - σ * valOf z).im = realOf y - realOf z.2 * σ := by simp [valOf, mul_comm]
      rw [g1, g2]
      linarith
    have hs : ‖(σ : ℂ) * (valOf z - w)‖ ≤ c * (unit * (max 1 σ * m)) := by
      rw [norm_mul, Complex.norm_real, Real.norm_eq_abs, abs_of_pos h0]
      calc σ * ‖valOf z - w‖ ≤ max 1 σ * (c * (unit * m)) :=
            mul_le_mul hmax hz.err (norm_nonneg _) (by positivity)
        _ = c * (unit * (max 1 σ * m)) := by ring
    rw [e]
    refine (norm_add_le _ _).trans ((add_le_add hr hs).trans ?_)
    have := hf.um_pos
    nlinarith
  exact ⟨⟨hf, p1.1.1, p2.1.1, fin _ _ p1.1.2 p2.1.2, hsz⟩, ⟨hf, p1.2.1, p2.2.1, fin _ _ p1.2.2 p2.2.2, hsz⟩⟩

end Sys2Proof.Exact
end

