-- ==== Sys2Proof/Laws/Fft.lean ====
section
/-! SUPPORT. The in-place FFT of REF against the exact discrete Fourier transform (41_dct1d.md R131): the Cooley-Tukey
recurrence in exact arithmetic, and the error of the f32 stages over it. -/

namespace Sys2Proof.Exact

open Sys2Proof.Machine

/-! ### The exact transform of a decimated sequence -/

/-- The length-`L` transform of the entries `r, r + B, r + 2*B, …`, in direction `ρ` (-1 forward, 1 inverse). -/
noncomputable def dft (ρ : ℝ) (x : Nat → ℂ) (L B r j : Nat) : ℂ :=
  ∑ i ∈ Finset.range L, x (r + B * i) * turn (ρ * (i * j / L))

/-- The mass of the same entries. -/
noncomputable def massOf (μ : Nat → ℝ) (L B r : Nat) : ℝ := ∑ i ∈ Finset.range L, μ (r + B * i)

theorem sum_even_odd {M : Type} [AddCommMonoid M] (f : Nat → M) (L : Nat) :
    ∑ i ∈ Finset.range (2 * L), f i = ∑ i ∈ Finset.range L, f (2 * i) + ∑ i ∈ Finset.range L, f (2 * i + 1) := by
  induction L with
  | zero => simp
  | succ L ih =>
    rw [show 2 * (L + 1) = 2 * L + 1 + 1 by ring, Finset.sum_range_succ, Finset.sum_range_succ, ih,
      Finset.sum_range_succ, Finset.sum_range_succ]
    abel

theorem massOf_split (μ : Nat → ℝ) (L B r : Nat) :
    massOf μ (2 * L) B r = massOf μ L (2 * B) r + massOf μ L (2 * B) (r + B) := by
  unfold massOf
  rw [sum_even_odd]
  congr 1 <;> refine Finset.sum_congr rfl fun i _ => congrArg μ ?_ <;> ring

/-- The Cooley-Tukey recurrence, for an output of the lower half. -/
theorem dft_split (ρ : ℝ) (x : Nat → ℂ) (L B r j : Nat) (hL : 0 < L) :
    dft ρ x (2 * L) B r j = dft ρ x L (2 * B) r j + turn (ρ * (j / (2 * L))) * dft ρ x L (2 * B) (r + B) j := by
  have hL' : (L : ℝ) ≠ 0 := by exact_mod_cast hL.ne'
  unfold dft
  rw [sum_even_odd, Finset.mul_sum]
  congr 1
  · refine Finset.sum_congr rfl fun i _ => ?_
    rw [show r + B * (2 * i) = r + 2 * B * i by ring]
    congr 2
    push_cast
    field_simp
  · refine Finset.sum_congr rfl fun i _ => ?_
    rw [show r + B * (2 * i + 1) = r + B + 2 * B * i by ring, mul_left_comm, ← turn_add]
    congr 2
    push_cast
    field_simp
    ring

theorem turn_mul_sign_nat {ρ : ℝ} (hρ : ρ = 1 ∨ ρ = -1) (n : Nat) : turn (ρ * n) = 1 := by
  rcases hρ with rfl | rfl
  · rw [one_mul, turn_nat]
  · rw [neg_one_mul, turn_neg, turn_nat, map_one]

theorem turn_mul_sign_half {ρ : ℝ} (hρ : ρ = 1 ∨ ρ = -1) : turn (ρ * (1 / 2)) = -1 := by
  rcases hρ with rfl | rfl
  · rw [one_mul, turn_half]
  · rw [neg_one_mul, turn_neg, turn_half, map_neg, map_one]

/-- The transform of length `L` repeats after `L` outputs. -/
theorem dft_period {ρ : ℝ} (hρ : ρ = 1 ∨ ρ = -1) (x : Nat → ℂ) (L B r j : Nat) (hL : 0 < L) :
    dft ρ x L B r (j + L) = dft ρ x L B r j := by
  have hL' : (L : ℝ) ≠ 0 := by exact_mod_cast hL.ne'
  unfold dft
  refine Finset.sum_congr rfl fun i _ => ?_
  have : ρ * ((i : ℝ) * ((j + L : Nat) : ℝ) / L) = ρ * (i * j / L) + ρ * i := by
    push_cast
    field_simp
  rw [this, turn_add, turn_mul_sign_nat hρ, mul_one]

/-- The Cooley-Tukey recurrence, for an output of the upper half. -/
theorem dft_split_upper {ρ : ℝ} (hρ : ρ = 1 ∨ ρ = -1) (x : Nat → ℂ) (L B r j : Nat) (hL : 0 < L) :
    dft ρ x (2 * L) B r (j + L) =
      dft ρ x L (2 * B) r j - turn (ρ * (j / (2 * L))) * dft ρ x L (2 * B) (r + B) j := by
  have hL' : (L : ℝ) ≠ 0 := by exact_mod_cast hL.ne'
  rw [dft_split ρ x L B r (j + L) hL, dft_period hρ x L _ r j hL, dft_period hρ x L _ (r + B) j hL]
  have : ρ * (((j + L : Nat) : ℝ) / (2 * L)) = ρ * (j / (2 * L)) + ρ * (1 / 2) := by
    push_cast
    field_simp
  rw [this, turn_add, turn_mul_sign_half hρ]
  ring

/-! ### The f32 stages -/

theorem getD_append_left {α : Type} (a b : List α) (d : α) (i : Nat) (h : i < a.length) :
    (a ++ b).getD i d = a.getD i d := by
  rw [List.getD_eq_getElem?_getD, List.getD_eq_getElem?_getD, List.getElem?_append_left h]

theorem getD_append_right {α : Type} (a b : List α) (d : α) (i : Nat) :
    (a ++ b).getD (a.length + i) d = b.getD i d := by
  rw [List.getD_eq_getElem?_getD, List.getD_eq_getElem?_getD, List.getElem?_append_right (by omega),
    Nat.add_sub_cancel_left]

theorem getD_drop {α : Type} (a : List α) (d : α) (k i : Nat) : (a.drop k).getD i d = a.getD (k + i) d := by
  rw [List.getD_eq_getElem?_getD, List.getD_eq_getElem?_getD, List.getElem?_drop]

theorem getD_take {α : Type} (a : List α) (d : α) (k i : Nat) (h : i < k) : (a.take k).getD i d = a.getD i d := by
  rw [List.getD_eq_getElem?_getD, List.getD_eq_getElem?_getD, List.getElem?_take_of_lt h]

theorem getD_zipWith {α β γ : Type} (f : α → β → γ) (a : List α) (b : List β) (da : α) (db : β) (dc : γ) (i : Nat)
    (ha : i < a.length) (hb : i < b.length) : (List.zipWith f a b).getD i dc = f (a.getD i da) (b.getD i db) := by
  rw [List.getD_eq_getElem?_getD, List.getElem?_zipWith, List.getD_eq_getElem?_getD, List.getD_eq_getElem?_getD,
    List.getElem?_eq_getElem ha, List.getElem?_eq_getElem hb]
  rfl

/-- What holds of every butterfly's two results holds of every entry of the stage. -/
theorem fftStage_forall (ws : List Complex32) (half blocks : Nat) (y : List Complex32) (hw : ws.length = half)
    (hy : y.length = 2 * half * blocks) (P : Nat → Complex32 → Prop)
    (h : ∀ b j, b < blocks → j < half →
      P (2 * half * b + j) (cadd (y.getD (2 * half * b + j) czero)
          (cmul (ws.getD j czero) (y.getD (2 * half * b + half + j) czero))) ∧
        P (2 * half * b + half + j) (csub (y.getD (2 * half * b + j) czero)
          (cmul (ws.getD j czero) (y.getD (2 * half * b + half + j) czero)))) :
    (fftStage ws half blocks y).length = 2 * half * blocks ∧
      ∀ i, i < 2 * half * blocks → P i ((fftStage ws half blocks y).getD i czero) := by
  induction blocks generalizing y P with
  | zero => exact ⟨rfl, fun i hi => absurd hi (by simp)⟩
  | succ blocks ih =>
    have hlen : y.length = 2 * half + 2 * half * blocks := by rw [hy]; ring
    have hus : (y.take half).length = half := by rw [List.length_take, hlen]; omega
    have hvs : ((y.drop half).take half).length = half := by
      rw [List.length_take, List.length_drop, hlen]; omega
    have hts : (List.zipWith cmul ws ((y.drop half).take half)).length = half := by
      rw [List.length_zipWith, hw, hvs, Nat.min_self]
    have hA : (List.zipWith cadd (y.take half) (List.zipWith cmul ws ((y.drop half).take half))).length = half := by
      rw [List.length_zipWith, hus, hts, Nat.min_self]
    have hB : (List.zipWith csub (y.take half) (List.zipWith cmul ws ((y.drop half).take half))).length = half := by
      rw [List.length_zipWith, hus, hts, Nat.min_self]
    have hu : ∀ j, j < half → (y.take half).getD j czero = y.getD j czero := fun j hj => getD_take _ _ _ _ hj
    have ht : ∀ j, j < half → (List.zipWith cmul ws ((y.drop half).take half)).getD j czero =
        cmul (ws.getD j czero) (y.getD (half + j) czero) := by
      intro j hj
      rw [getD_zipWith cmul _ _ czero czero czero j (by omega) (by omega), getD_take _ _ _ _ hj, getD_drop]
    obtain ⟨hlen', hrest⟩ := ih (y.drop (2 * half)) (by rw [List.length_drop, hlen]; omega)
      (fun i c => P (2 * half + i) c) (by
        intro b j hb hj
        have := h (b + 1) j (by omega) hj
        rw [show 2 * half * (b + 1) = 2 * half + 2 * half * b by ring] at this
        simp only [getD_drop, ← Nat.add_assoc] at this ⊢
        exact this)
    unfold fftStage
    dsimp only
    refine ⟨?_, ?_⟩
    · rw [List.length_append, List.length_append, hA, hB, hlen']
      ring
    · intro i hi
      by_cases h1 : i < half
      · rw [getD_append_left _ _ _ _ (by omega),
          getD_zipWith cadd _ _ czero czero czero i (by omega) (by omega), hu i h1, ht i h1]
        have := (h 0 i (by omega) h1).1
        simpa using this
      · obtain ⟨j, rfl⟩ : ∃ j, i = half + j := ⟨i - half, by omega⟩
        have e1 := getD_append_right (List.zipWith cadd (y.take half) (List.zipWith cmul ws ((y.drop half).take half)))
          (List.zipWith csub (y.take half) (List.zipWith cmul ws ((y.drop half).take half)) ++
            fftStage ws half blocks (y.drop (2 * half))) czero j
        rw [hA] at e1
        rw [e1]
        by_cases h2 : j < half
        · rw [getD_append_left _ _ _ _ (by omega),
            getD_zipWith csub _ _ czero czero czero j (by omega) (by omega), hu j h2, ht j h2]
          have := (h 0 j (by omega) h2).2
          simpa using this
        · obtain ⟨k, rfl⟩ : ∃ k, j = half + k := ⟨j - half, by omega⟩
          have e2 := getD_append_right
            (List.zipWith csub (y.take half) (List.zipWith cmul ws ((y.drop half).take half)))
            (fftStage ws half blocks (y.drop (2 * half))) czero k
          rw [hB] at e2
          rw [e2, show half + (half + k) = 2 * half + k by ring]
          refine hrest k ?_
          have : 2 * half * (blocks + 1) = 2 * half + 2 * half * blocks := by ring
          omega

theorem bitrev_even (q b : Nat) : bitrev (q + 1) (2 * b) = bitrev q b := by
  show 2 * b % 2 * (1 <<< q) + bitrev q (2 * b / 2) = bitrev q b
  rw [Nat.mul_mod_right, Nat.zero_mul, Nat.zero_add, Nat.mul_div_cancel_left _ (by norm_num)]

theorem bitrev_odd (q b : Nat) : bitrev (q + 1) (2 * b + 1) = bitrev q b + 2 ^ q := by
  show (2 * b + 1) % 2 * (1 <<< q) + bitrev q ((2 * b + 1) / 2) = bitrev q b + 2 ^ q
  rw [Nat.mul_add_mod, Nat.shiftLeft_eq, show (2 * b + 1) / 2 = b by omega]
  omega

theorem bitrev_lt (q b : Nat) : bitrev q b < 2 ^ q := by
  induction q generalizing b with
  | zero => exact Nat.one_pos
  | succ q ih =>
    unfold bitrev
    rw [Nat.shiftLeft_eq, Nat.one_mul, pow_succ]
    have := ih (b / 2)
    have : b % 2 * 2 ^ q ≤ 1 * 2 ^ q := Nat.mul_le_mul_right _ (by omega)
    omega

/-- The direction of an FFT as a sign. -/
noncomputable def direction (forward : Bool) : ℝ := if forward then -1 else 1

theorem direction_cases (forward : Bool) : direction forward = 1 ∨ direction forward = -1 := by
  cases forward
  · exact .inl rfl
  · exact .inr rfl

/-- A twiddle of the ROM is near its point of the circle. -/
theorem twiddle_entry (forward : Bool) (n j : Nat) (hn : n ∣ 1024) (h : j < n) :
    CEntry (twiddle forward n j) (turn (direction forward * (j / n))) := by
  unfold twiddle
  have h1 := twiddleCos_near n j hn h
  have h2 := twiddleSin_near n j hn h
  have hc : Entry (twiddleCos n j) (turn (j / n)).re := ⟨h1.1, h1.2.1, h1.2.2⟩
  have hs : Entry (twiddleSin n j) (turn (j / n)).im := ⟨h2.1, h2.2.1, h2.2.2⟩
  generalize twiddleCos n j = tc at hc
  generalize twiddleSin n j = ts at hs
  cases forward
  · have hd : direction false = 1 := rfl
    rw [hd, one_mul]
    exact ⟨hc, hs, norm_turn _⟩
  · have hd : direction true = -1 := rfl
    rw [hd, neg_one_mul, turn_neg]
    refine ⟨hc, hs.neg, ?_⟩
    rw [RCLike.norm_conj, norm_turn]

/-- The masses of an FFT's inputs: above the floor, and small enough for 256 of them to stay in range. -/
def MassOk (μ : Nat → ℝ) : Prop := ∀ i, floor ≤ μ i ∧ μ i ≤ 2 ^ 100

theorem massOf_bounds {μ : Nat → ℝ} (hμ : MassOk μ) (L B r : Nat) (hL : 0 < L) (hL' : L ≤ 1024) :
    floor ≤ massOf μ L B r ∧ massOf μ L B r ≤ 2 ^ 110 := by
  unfold massOf
  constructor
  · have h1 : μ (r + B * 0) ≤ ∑ i ∈ Finset.range L, μ (r + B * i) :=
      Finset.single_le_sum (f := fun i => μ (r + B * i)) (fun i _ => floor_pos.le.trans (hμ _).1)
        (Finset.mem_range.mpr hL)
    exact (hμ _).1.trans h1
  · have h1 : ∑ i ∈ Finset.range L, μ (r + B * i) ≤ ∑ _i ∈ Finset.range L, (2 : ℝ) ^ 100 :=
      Finset.sum_le_sum fun i _ => (hμ _).2
    rw [Finset.sum_const, Finset.card_range, nsmul_eq_mul] at h1
    have h2 : (L : ℝ) ≤ 1024 := by exact_mod_cast hL'
    have h3 : (L : ℝ) * 2 ^ 100 ≤ 1024 * 2 ^ 100 := mul_le_mul_of_nonneg_right h2 (by positivity)
    have h4 : (1024 : ℝ) * 2 ^ 100 = 2 ^ 110 := by norm_num
    linarith

/-- After `t` stages, block `b` holds the transform of the entries that start at the bit-reversal of `b`. -/
def Staged (ρ c : ℝ) (x : Nat → ℂ) (μ : Nat → ℝ) (bits t : Nat) (y : List Complex32) : Prop :=
  y.length = 2 ^ bits ∧ ∀ b j, b < 2 ^ (bits - t) → j < 2 ^ t →
    CNear (c + 8.4 * t) (massOf μ (2 ^ t) (2 ^ (bits - t)) (bitrev (bits - t) b)) (y.getD (2 ^ t * b + j) czero)
      (dft ρ x (2 ^ t) (2 ^ (bits - t)) (bitrev (bits - t) b) j)

/-- One stage takes the transforms of length `2^t` to those of length `2^(t+1)`, for 8.4 unit roundoffs. -/
theorem fftStage_staged {forward : Bool} {c : ℝ} {x : Nat → ℂ} {μ : Nat → ℝ} {bits t : Nat} {y : List Complex32}
    (hμ : MassOk μ) (hc : 0 ≤ c) (hc' : c ≤ 30) (ht : t < bits) (hb : bits ≤ 7)
    (h : Staged (direction forward) c x μ bits t y) :
    Staged (direction forward) c x μ bits (t + 1)
      (fftStage (tab (2 ^ t) fun j => twiddle forward (2 ^ bits) (j * (2 ^ bits / (2 * 2 ^ t)))) (2 ^ t)
        (2 ^ bits / (2 * 2 ^ t)) y) := by
  obtain ⟨q, hq⟩ : ∃ q, bits = t + 1 + q := ⟨bits - (t + 1), by omega⟩
  have hblocks : 2 ^ bits / (2 * 2 ^ t) = 2 ^ q := by
    rw [hq, ← pow_succ', pow_add, Nat.mul_div_cancel_left _ (by positivity)]
  have hsz : 2 ^ bits = 2 * 2 ^ t * 2 ^ q := by rw [hq, pow_add, pow_succ']
  have hq1 : bits - t = q + 1 := by omega
  have hq2 : bits - (t + 1) = q := by omega
  rw [hblocks]
  obtain ⟨hlen, hall⟩ := h
  have hp : (2 : Nat) ^ t ≤ 2 ^ 8 := Nat.pow_le_pow_right (by norm_num) (by omega)
  have hpos : 0 < (2 : Nat) ^ t := by positivity
  have htr : (t : ℝ) ≤ 6 := by exact_mod_cast (by omega : t ≤ 6)
  have key := fftStage_forall (tab (2 ^ t) fun j => twiddle forward (2 ^ bits) (j * 2 ^ q)) (2 ^ t) (2 ^ q) y
    (tab_length _ _) (hlen.trans hsz)
    (fun i z => ∀ b j, b < 2 ^ q → j < 2 ^ (t + 1) → i = 2 ^ (t + 1) * b + j →
      CNear (c + 8.4 * (t + 1 : Nat)) (massOf μ (2 ^ (t + 1)) (2 ^ q) (bitrev q b)) z
        (dft (direction forward) x (2 ^ (t + 1)) (2 ^ q) (bitrev q b) j)) ?_
  · refine ⟨key.1.trans hsz.symm, ?_⟩
    intro b j hb hj
    rw [hq2] at hb ⊢
    refine key.2 _ ?_ b j hb hj rfl
    rw [pow_succ'] at hj ⊢
    calc 2 * 2 ^ t * b + j < 2 * 2 ^ t * b + 2 * 2 ^ t := by omega
      _ = 2 * 2 ^ t * (b + 1) := by ring
      _ ≤ 2 * 2 ^ t * 2 ^ q := Nat.mul_le_mul_left _ (by omega)
  · intro b j hb hj
    have hb2 : 2 * b + 1 < 2 ^ (bits - t) := by rw [hq1, pow_succ']; omega
    have lo := hall (2 * b) j (by omega) hj
    have hi := hall (2 * b + 1) j hb2 hj
    rw [hq1, bitrev_even] at lo
    rw [hq1, bitrev_odd] at hi
    rw [show 2 ^ t * (2 * b) + j = 2 * 2 ^ t * b + j by ring, pow_succ' 2 q] at lo
    rw [show 2 ^ t * (2 * b + 1) + j = 2 * 2 ^ t * b + 2 ^ t + j by ring, pow_succ' 2 q] at hi
    have htw : CEntry ((tab (2 ^ t) fun j => twiddle forward (2 ^ bits) (j * 2 ^ q)).getD j czero)
        (turn (direction forward * (j / (2 * (2 ^ t : Nat))))) := by
      rw [tab_getD _ _ _ _ hj]
      have hlt : j * 2 ^ q < 2 ^ bits := by
        rw [hsz]
        refine Nat.mul_lt_mul_of_pos_right ?_ (by positivity)
        omega
      have hdvd : 2 ^ bits ∣ 1024 := by
        rw [show 1024 = 2 ^ 10 by norm_num]
        exact pow_dvd_pow 2 (by omega)
      have := twiddle_entry forward (2 ^ bits) (j * 2 ^ q) hdvd hlt
      have e : ((j * 2 ^ q : Nat) : ℝ) / ((2 ^ bits : Nat) : ℝ) = j / (2 * (2 ^ t : Nat)) := by
        rw [hsz]
        push_cast
        field_simp
      rwa [e] at this
    have hfit : ∀ k L B r, (0 : ℝ) ≤ k → k ≤ 58.9 + c → 0 < L → L ≤ 1024 → Fits k (massOf μ L B r) := by
      intro k L B r hk hk' hL hL'
      obtain ⟨g1, g2⟩ := massOf_bounds hμ L B r hL hL'
      exact ⟨hk, by linarith, g1, g2⟩
    have hnn : (0 : ℝ) ≤ t := Nat.cast_nonneg t
    have hprod := hi.cmul htw (hfit _ _ _ _ (by linarith) (by linarith) hpos (by omega))
    have lo' := lo.mono (c' := c + 8.4 * t + 6.2) (by linarith) le_rfl
      (hfit _ _ _ _ (by linarith) (by linarith) hpos (by omega))
    have hsum : Fits (c + 8.4 * t + 6.2 + 2.1) (massOf μ (2 ^ t) (2 * 2 ^ q) (bitrev q b) +
        massOf μ (2 ^ t) (2 * 2 ^ q) (bitrev q b + 2 ^ q)) := by
      rw [← massOf_split]
      exact hfit _ _ _ _ (by linarith) (by linarith) (by omega) (by omega)
    have hup : Fits (c + 8.4 * ((t + 1 : Nat) : ℝ)) (massOf μ (2 ^ t) (2 * 2 ^ q) (bitrev q b) +
        massOf μ (2 ^ t) (2 * 2 ^ q) (bitrev q b + 2 ^ q)) := by
      rw [← massOf_split]
      push_cast
      exact hfit _ _ _ _ (by linarith) (by linarith) (by omega) (by omega)
    have hle : c + 8.4 * t + 6.2 + 2.1 ≤ c + 8.4 * ((t + 1 : Nat) : ℝ) := by
      push_cast
      linarith
    have hadd := (lo'.cadd hprod hsum).mono hle le_rfl hup
    have hsub := (lo'.csub hprod hsum).mono hle le_rfl hup
    rw [← massOf_split] at hadd hsub
    have unique : ∀ b' j' : Nat, ∀ i, i < 2 * 2 ^ t → b' < 2 ^ q → j' < 2 ^ (t + 1) →
        2 * 2 ^ t * b + i = 2 ^ (t + 1) * b' + j' → b' = b ∧ j' = i := by
      intro b' j' i hi _ hj' he
      rw [pow_succ'] at hj' he
      have hbb : b' = b := by
        have h1 : (2 * 2 ^ t * b + i) / (2 * 2 ^ t) = b := by
          rw [Nat.mul_add_div (by omega), Nat.div_eq_of_lt hi, Nat.add_zero]
        have h2 : (2 * 2 ^ t * b' + j') / (2 * 2 ^ t) = b' := by
          rw [Nat.mul_add_div (by omega), Nat.div_eq_of_lt hj', Nat.add_zero]
        rw [← h2, ← he, h1]
      subst hbb
      exact ⟨rfl, by omega⟩
    constructor
    · intro b' j' hb' hj' he
      obtain ⟨rfl, rfl⟩ := unique b' j' j (by omega) hb' hj' he
      rw [pow_succ' 2 t, dft_split _ _ _ _ _ _ hpos]
      exact hadd
    · intro b' j' hb' hj' he
      obtain ⟨rfl, rfl⟩ := unique b' j' (2 ^ t + j) (by omega) hb' hj' (by rw [← he]; ring)
      rw [pow_succ' 2 t, Nat.add_comm (2 ^ t) j, dft_split_upper (direction_cases forward) _ _ _ _ _ hpos]
      exact hsub

theorem fftStages_staged {forward : Bool} {c : ℝ} {x : Nat → ℂ} {μ : Nat → ℝ} {bits : Nat} (hμ : MassOk μ) (hc : 0 ≤ c)
    (hc' : c ≤ 30) (hb : bits ≤ 7) (left t : Nat) (y : List Complex32) (hl : t + left = bits)
    (h : Staged (direction forward) c x μ bits t y) :
    Staged (direction forward) c x μ bits bits (fftStages forward (2 ^ bits) left (2 ^ t) y) := by
  induction left generalizing t y with
  | zero =>
    have : t = bits := by omega
    subst this
    exact h
  | succ left ih =>
    unfold fftStages
    dsimp only
    rw [← pow_succ']
    have := fftStage_staged hμ hc hc' (by omega) hb h
    rw [← pow_succ'] at this
    exact ih (t + 1) _ (by omega) this

/-- REF's FFT against the exact transform: 8.4 unit roundoffs of the total mass for each stage. -/
theorem fft_near {forward : Bool} {c : ℝ} {x : Nat → ℂ} {μ : Nat → ℝ} {bits : Nat} {z : List Complex32} (hμ : MassOk μ)
    (hc : 0 ≤ c) (hc' : c ≤ 30) (hb : bits ≤ 7)
    (h : ∀ i, i < 2 ^ bits → CNear c (μ i) (z.getD i czero) (x i)) (k : Nat) (hk : k < 2 ^ bits) :
    CNear (c + 8.4 * bits) (∑ i ∈ Finset.range (2 ^ bits), μ i) ((fft forward (2 ^ bits) z).getD k czero)
      (∑ i ∈ Finset.range (2 ^ bits), x i * turn (direction forward * (i * k / (2 ^ bits : Nat)))) := by
  have htop : F32.topBit (2 ^ bits) = bits := by
    have := F32.topBit_shift 1 0 bits (by norm_num) (by norm_num) (by omega)
    rwa [Nat.shiftLeft_eq, Nat.one_mul, Nat.zero_add] at this
  have start : Staged (direction forward) c x μ bits 0
      (tab (2 ^ bits) fun j => z.getD (bitrev (F32.topBit (2 ^ bits)) j) czero) := by
    refine ⟨tab_length _ _, ?_⟩
    intro b j hb' hj
    have : j = 0 := by
      rw [pow_zero] at hj
      omega
    subst this
    rw [Nat.sub_zero] at hb' ⊢
    rw [pow_zero, Nat.one_mul, Nat.add_zero, tab_getD _ _ _ _ hb', htop]
    have := h (bitrev bits b) (bitrev_lt bits b)
    have e1 : massOf μ 1 (2 ^ bits) (bitrev bits b) = μ (bitrev bits b) := by simp [massOf]
    have e2 : dft (direction forward) x 1 (2 ^ bits) (bitrev bits b) 0 = x (bitrev bits b) := by
      simp [dft, turn_zero]
    rw [e1, e2, Nat.cast_zero, mul_zero, add_zero]
    exact this
  have := (fftStages_staged hμ hc hc' hb bits 0 _ (by omega) start).2 0 k (by rw [Nat.sub_self]; norm_num) hk
  rw [Nat.sub_self, Nat.mul_zero, Nat.zero_add, pow_zero] at this
  unfold fft
  rw [htop] at this ⊢
  have e0 : bitrev 0 0 = 0 := rfl
  rw [e0] at this
  unfold massOf dft at this
  simp only [Nat.zero_add, Nat.one_mul] at this
  exact this

end Sys2Proof.Exact
end

