-- ==== Sys2Proof/Laws/RefForward.lean ====
section
/-! SUPPORT. REF's forward transform meets the accuracy law R127 (41_dct1d.md R132 to R134). -/

namespace Sys2Proof.Exact

open Sys2Proof.Machine

/-! ### The even/odd layout and the exact identities -/

/-- The source index of entry j of the even/odd layout (R132). -/
def layout (m j : Nat) : Nat := if j < m then 2 * j else 2 * (2 * m - 1 - j) + 1

/-- The layout is a permutation. -/
theorem sum_layout {M : Type} [AddCommMonoid M] (f : Nat → M) (m : Nat) :
    ∑ j ∈ Finset.range (2 * m), f (layout m j) = ∑ i ∈ Finset.range (2 * m), f i := by
  rw [sum_even_odd f, two_mul, Finset.sum_range_add]
  congr 1
  · refine Finset.sum_congr rfl fun j hj => ?_
    rw [layout, if_pos (Finset.mem_range.mp hj)]
  · rw [← Finset.sum_range_reflect (fun i => f (2 * i + 1))]
    refine Finset.sum_congr rfl fun j hj => ?_
    rw [layout, if_neg (by omega)]
    congr 2
    omega

/-- The real spectrum `V[k]` of the laid-out signal `v` of length `2m` (R133). -/
noncomputable def spectrum (v : Nat → ℝ) (m k : Nat) : ℂ :=
  ∑ j ∈ Finset.range (2 * m), (v j : ℂ) * turn (-(j * k / (2 * m)))

/-- `V[k] = conj(V[n-k])` (R134). -/
theorem spectrum_conj (v : Nat → ℝ) (m k : Nat) (hm : 0 < m) (hk : k ≤ 2 * m) :
    spectrum v m k = (starRingEnd ℂ) (spectrum v m (2 * m - k)) := by
  have hm' : (m : ℝ) ≠ 0 := by exact_mod_cast hm.ne'
  unfold spectrum
  rw [map_sum]
  refine Finset.sum_congr rfl fun j _ => ?_
  rw [map_mul, Complex.conj_ofReal, ← turn_neg, neg_neg, Nat.cast_sub hk]
  congr 1
  have : (j : ℝ) * (((2 * m : Nat) : ℝ) - k) / (2 * m) = (j : ℝ) + -(j * k / (2 * m)) := by
    push_cast
    field_simp
    ring
  rw [this, turn_add, turn_nat, one_mul]

/-- The angle of output `j` of the layout, in the terms of the real basis. -/
theorem cosBasis_layout (m j k : Nat) (hj : j < 2 * m) :
    cosBasis (2 * m) k (layout m j) = (turn (k / (4 * (2 * m)) + j * k / (2 * m))).re := by
  have hm' : (m : ℝ) ≠ 0 := by exact_mod_cast (by omega : m ≠ 0)
  have e : (k : ℝ) / (4 * (2 * m)) + j * k / (2 * m) = (4 * j + 1) * k / (4 * (2 * m)) := by
    field_simp
    ring
  rw [e, turn_re, cosBasis]
  unfold layout
  split
  · congr 1
    push_cast
    field_simp
    ring
  · have hc : ((2 * (2 * m - 1 - j) + 1 : Nat) : ℝ) = 2 * (2 * m - 1 - j) + 1 := by
      rw [show 2 * m - 1 - j = 2 * m - (1 + j) by omega]
      push_cast [Nat.cast_sub (show 1 + j ≤ 2 * m by omega)]
      ring
    have e2 : (2 * ((2 * (2 * m - 1 - j) + 1 : Nat) : ℝ) + 1) * k * Real.pi / (2 * ((2 * m : Nat) : ℝ)) =
        k * (2 * Real.pi) - 2 * Real.pi * ((4 * j + 1) * k / (4 * (2 * m))) := by
      rw [hc]
      push_cast
      field_simp
      ring
    rw [e2, Real.cos_nat_mul_two_pi_sub]

/-- The DCT sum is a rotated real part of the spectrum (R134). -/
theorem dct_sum_eq (x : Nat → ℝ) (m k : Nat) (hm : 0 < m) :
    ∑ i ∈ Finset.range (2 * m), x i * cosBasis (2 * m) k i =
      (turn (-(k / (4 * (2 * m)))) * spectrum (fun j => x (layout m j)) m k).re := by
  have hm' : (m : ℝ) ≠ 0 := by exact_mod_cast hm.ne'
  unfold spectrum
  rw [← sum_layout (fun i => x i * cosBasis (2 * m) k i), Finset.mul_sum, Complex.re_sum]
  refine Finset.sum_congr rfl fun j hj => ?_
  have hj' : j < 2 * m := Finset.mem_range.mp hj
  rw [mul_left_comm, Complex.re_ofReal_mul, ← turn_add, cosBasis_layout m j k hj']
  congr 1
  rw [← Complex.conj_re (turn (k / (4 * (2 * m)) + j * k / (2 * m))), ← turn_neg]
  congr 2
  ring

/-- The complex spectrum `Z[k]` of the packed signal (R132). -/
noncomputable def packed (v : Nat → ℝ) (m k : Nat) : ℂ :=
  ∑ j ∈ Finset.range m, (⟨v (2 * j), v (2 * j + 1)⟩ : ℂ) * turn (-(j * k / m))

/-- The two halves of the spectrum. -/
noncomputable def halfSum (v : Nat → ℝ) (m o k : Nat) : ℂ :=
  ∑ j ∈ Finset.range m, (v (2 * j + o) : ℂ) * turn (-(j * k / m))

theorem packed_eq (v : Nat → ℝ) (m k : Nat) :
    packed v m k = halfSum v m 0 k + Complex.I * halfSum v m 1 k := by
  unfold packed halfSum
  rw [Finset.mul_sum, ← Finset.sum_add_distrib]
  refine Finset.sum_congr rfl fun j _ => ?_
  rw [Nat.add_zero, Complex.mk_eq_add_mul_I]
  ring_nf

theorem packed_conj (v : Nat → ℝ) (m k : Nat) (hm : 0 < m) (hk : k ≤ m) :
    (starRingEnd ℂ) (packed v m (m - k)) = halfSum v m 0 k - Complex.I * halfSum v m 1 k := by
  have hm' : (m : ℝ) ≠ 0 := by exact_mod_cast hm.ne'
  unfold packed halfSum
  rw [map_sum, Finset.mul_sum, ← Finset.sum_sub_distrib]
  refine Finset.sum_congr rfl fun j _ => ?_
  rw [map_mul, ← turn_neg, neg_neg, Nat.cast_sub hk, Nat.add_zero]
  have : (j : ℝ) * ((m : ℝ) - k) / m = (j : ℝ) + -(j * k / m) := by
    field_simp
    ring
  rw [this, turn_add, turn_nat, one_mul, Complex.mk_eq_add_mul_I, map_add, map_mul, Complex.conj_ofReal,
    Complex.conj_ofReal, Complex.conj_I]
  ring_nf

theorem spectrum_eq (v : Nat → ℝ) (m k : Nat) (hm : 0 < m) :
    spectrum v m k = halfSum v m 0 k + turn (-(k / (2 * m))) * halfSum v m 1 k := by
  have hm' : (m : ℝ) ≠ 0 := by exact_mod_cast hm.ne'
  unfold spectrum halfSum
  rw [sum_even_odd, Finset.mul_sum]
  congr 1
  · refine Finset.sum_congr rfl fun j _ => ?_
    rw [Nat.add_zero]
    congr 2
    push_cast
    field_simp
  · refine Finset.sum_congr rfl fun j _ => ?_
    rw [mul_left_comm, ← turn_add]
    congr 2
    push_cast
    field_simp
    ring

theorem halfSum_zero (v : Nat → ℝ) (m o : Nat) : halfSum v m o 0 = ((∑ j ∈ Finset.range m, v (2 * j + o) : ℝ) : ℂ) := by
  unfold halfSum
  push_cast
  refine Finset.sum_congr rfl fun j _ => ?_
  rw [mul_zero, zero_div, neg_zero, turn_zero, mul_one]

theorem halfSum_top (v : Nat → ℝ) (m o : Nat) (hm : 0 < m) : halfSum v m o m = halfSum v m o 0 := by
  have hm' : (m : ℝ) ≠ 0 := by exact_mod_cast hm.ne'
  unfold halfSum
  refine Finset.sum_congr rfl fun j _ => ?_
  have h1 : (j : ℝ) * m / m = j := by field_simp
  rw [h1, turn_neg, turn_nat]
  simp [turn_zero]

/-! ### The f32 steps -/

/-- The unpacked spectrum is near the real spectrum (R133). -/
theorem refUnpack_near {c S : ℝ} {m k : Nat} {z : List Complex32} (v : Nat → ℝ) (hm : 2 ≤ m) (hm2 : m % 2 = 0)
    (hdvd : 4 * (2 * m) ∣ 1024) (hk : k ≤ m) (hc : 0 ≤ c) (hc' : c ≤ 60) (hS : floor ≤ S) (hS' : 4 * S ≤ 2 ^ 110)
    (hz : ∀ i, i < m → CNear c S (z.getD i czero) (packed v m i)) :
    CNear (c + 12.5) (4 * S) (refUnpack (2 * m) z k) (spectrum v m k) := by
  have hm0 : 0 < m := by omega
  have hm' : (m : ℝ) ≠ 0 := by exact_mod_cast hm0.ne'
  have hpos : 0 < S := lt_of_lt_of_le floor_pos hS
  have fits : ∀ e f : ℝ, 0 ≤ e → e ≤ 12.5 → 1 ≤ f → f ≤ 4 → Fits (c + e) (f * S) := by
    intro e f he he' hf hf'
    exact ⟨by linarith, by linarith, by nlinarith, by nlinarith⟩
  have hdiv : 2 * m / 2 = m := by omega
  have h0 := hz 0 (by omega)
  have hp0 := packed_eq v m 0
  rw [halfSum_zero, halfSum_zero] at hp0
  have hre : (packed v m 0).re = ∑ j ∈ Finset.range m, v (2 * j + 0) := by
    rw [hp0]
    simp
  have him : (packed v m 0).im = ∑ j ∈ Finset.range m, v (2 * j + 1) := by
    rw [hp0]
    simp
  have real : ∀ {x : F32} {r : ℝ} {w : ℂ}, Near (c + 1.1) (S + S) x r → w = r →
      CNear (c + 12.5) (4 * S) (x, F32.zero) w := by
    rintro x r w hx rfl
    refine CNear.of_parts (fits _ _ (by norm_num) le_rfl (by norm_num) le_rfl) hx.fin rfl ?_ ?_
    · rw [realOf_zero, Complex.ofReal_re, Complex.ofReal_im, sub_zero, abs_zero, add_zero]
      refine hx.err.trans ?_
      have := mul_pos unit_pos hpos
      nlinarith
    · rw [Complex.norm_real]
      exact hx.size.trans (by linarith)
  have fit2 : Fits (c + 1.1) (S + S) := by
    have := fits 1.1 2 (by norm_num) (by norm_num) (by norm_num) (by norm_num)
    rwa [two_mul] at this
  unfold refUnpack
  dsimp only
  rw [hdiv]
  split
  · rename_i hk0
    subst hk0
    refine real (h0.re.add h0.im fit2) ?_
    rw [hre, him, spectrum_eq v m 0 hm0, halfSum_zero, halfSum_zero]
    simp [turn_zero]
  split
  · rename_i hk0 hkm
    subst hkm
    refine real (h0.re.sub h0.im fit2) ?_
    rw [hre, him, spectrum_eq v k k hm0, halfSum_top _ _ _ hm0, halfSum_top _ _ _ hm0, halfSum_zero, halfSum_zero]
    have e : (k : ℝ) / (2 * k) = 1 / 2 := by field_simp
    rw [e, turn_neg, turn_half]
    simp
    ring
  split
  · rename_i hk0 hkm hkh
    have hkm' : m - k = k := by omega
    have hz' := hz k (by omega)
    have hconj := packed_conj v m k hm0 hk
    rw [hkm'] at hconj
    have hspec : spectrum v m k = (starRingEnd ℂ) (packed v m k) := by
      rw [hconj, spectrum_eq v m k hm0]
      have e : (k : ℝ) / (2 * m) = 1 / 4 := by
        have : (m : ℝ) = 2 * k := by exact_mod_cast (by omega : m = 2 * k)
        have hk' : (k : ℝ) ≠ 0 := by exact_mod_cast hk0
        rw [this]
        field_simp
        norm_num
      rw [e, turn_neg, turn_quarter, Complex.conj_I]
      ring
    rw [hspec]
    exact hz'.conj.mono (by linarith) (by linarith) (fits _ _ (by norm_num) le_rfl (by norm_num) le_rfl)
  · rename_i hk0 hkm hkh
    have ha := hz k (by omega)
    have hb := hz (m - k) (by omega)
    have ez : packed v m k = halfSum v m 0 k + Complex.I * halfSum v m 1 k := packed_eq v m k
    have ec := packed_conj v m k hm0 hk
    generalize z.getD k czero = a at ha
    generalize z.getD (m - k) czero = b at hb
    have fs : Fits (c + 2.1) (S + S) := by
      have := fits 2.1 2 (by norm_num) (by norm_num) (by norm_num) (by norm_num)
      rwa [two_mul] at this
    have hhalf : realOf F32.half = 1 / 2 := by
      have hu : F32.half.units = 2 ^ 148 := by decide
      unfold realOf
      rw [hu]
      push_cast
      norm_num
    have hmax : max (1 : ℝ) (1 / 2) = 1 := by norm_num
    have fsc : Fits (c + 2.1 + 2.1) (max 1 (1 / 2) * (S + S)) := by
      rw [hmax, one_mul, add_assoc]
      have := fits (2.1 + 2.1) 2 (by norm_num) (by norm_num) (by norm_num) (by norm_num)
      rwa [two_mul] at this
    have he := ((ha.sum (op := .add) (op' := .sub) hb.conj fs).scale (t := F32.half) rfl hhalf (by norm_num) fsc).1
    have ho := ((ha.swap.conj.sum_swapped (op := .add) (op' := .sub) hb.swap fs).scale (t := F32.half) rfl hhalf (by norm_num) fsc).1
    rw [hmax, one_mul] at he ho
    have htw : CEntry (twiddle true (4 * (2 * m)) (4 * k)) (turn (-(k / (2 * m)))) := by
      have := twiddle_entry true (4 * (2 * m)) (4 * k) hdvd (by omega)
      have e : direction true * (((4 * k : Nat) : ℝ) / ((4 * (2 * m) : Nat) : ℝ)) = -(k / (2 * m)) := by
        have hd : direction true = -1 := rfl
        rw [hd]
        push_cast
        field_simp
      rwa [e] at this
    have ft : Fits (c + 2.1 + 2.1 + 6.2) (S + S) := by
      have := fits (2.1 + 2.1 + 6.2) 2 (by norm_num) (by norm_num) (by norm_num) (by norm_num)
      rw [two_mul] at this
      convert this using 1
      ring
    have ht := ho.cmul htw ft
    have fa : Fits (c + 2.1 + 2.1 + 6.2 + 2.1) (S + S + (S + S)) := by
      have := fits (2.1 + 2.1 + 6.2 + 2.1) 4 (by norm_num) (by norm_num) (by norm_num) (by norm_num)
      convert this using 1 <;> ring_nf
    have hv := (he.mono (c' := c + 2.1 + 2.1 + 6.2) (by linarith) le_rfl ft).cadd ht fa
    have e1 : (((1 / 2 : ℝ) : ℂ) * (packed v m k + (starRingEnd ℂ) (packed v m (m - k)))) = halfSum v m 0 k := by
      rw [ez, ec]
      push_cast
      ring
    have e2 : (((1 / 2 : ℝ) : ℂ) * ((starRingEnd ℂ) (Complex.I * (starRingEnd ℂ) (packed v m k)) +
        Complex.I * (starRingEnd ℂ) (packed v m (m - k)))) = halfSum v m 1 k := by
      rw [map_mul, Complex.conj_I, Complex.conj_conj, ez, ec]
      push_cast
      have hI := Complex.I_mul_I
      linear_combination (-(halfSum v m 1 k)) * hI
    rw [e1, e2, ← spectrum_eq v m k hm0] at hv
    refine hv.mono (by linarith) (by linarith) (fits _ _ (by norm_num) le_rfl (by norm_num) le_rfl)

/-- A product with a scale factor `σ` whose table value is within 0.52 unit roundoffs of it. -/
theorem mul_scale_near {c m σ : ℝ} {t x : F32} {r : ℝ} (hx : Near c m x r) (ht : t.isFinite = true) (h0 : 0 ≤ σ)
    (hσ : σ ≤ 0.354) (hδ : |realOf t - σ| ≤ 0.52 * unit * σ) :
    (x.mul t).isFinite = true ∧ |realOf (x.mul t) - σ * r| ≤ (0.36 * c + 0.6) * (unit * m) := by
  have hum := hx.fits.um_pos
  have hpos := hx.fits.pos
  have hb : |realOf t| ≤ 0.3545 := by
    have := abs_sub_abs_le_abs_sub (realOf t) σ
    rw [abs_of_nonneg h0] at this
    have h2 : 0.52 * unit * σ ≤ 0.0001 := by
      have : 0.52 * unit ≤ 0.0001 := by unfold unit; norm_num
      nlinarith
    linarith
  obtain ⟨h1, h2⟩ := mul_err hx ht hb (by norm_num) hδ
  rw [mul_comm_of_isFinite hx.fin ht]
  refine ⟨h1, h2.trans ?_⟩
  rw [max_eq_left (by linarith)]
  have e : 0.52 * unit * σ * m = 0.52 * σ * (unit * m) := by ring
  rw [e]
  have := hx.fits.nonneg
  have e2 : unit * (0.3545 * (m + m / 100000)) = 0.3545 * (1 + 1 / 100000) * (unit * m) := by ring
  rw [e2]
  nlinarith

/-- The ROM's scale constants against `1/n` and `sqrt(2)/n` (R130). -/
theorem scale_constants (bits : Nat) (h : 1 ≤ bits) (h' : bits ≤ 7) :
    ((recipOf (2 * 2 ^ bits)).isFinite = true ∧ realOf (recipOf (2 * 2 ^ bits)) = 1 / (2 * 2 ^ bits)) ∧
      (sqrt2Over (2 * 2 ^ bits)).isFinite = true ∧
        |realOf (sqrt2Over (2 * 2 ^ bits)) - Real.sqrt 2 / (2 * 2 ^ bits)| ≤
          0.52 * unit * (Real.sqrt 2 / (2 * 2 ^ bits)) := by
  have key : ((recipOf (2 * 2 ^ bits)).isFinite = true ∧ (recipOf (2 * 2 ^ bits)).units * (2 * 2 ^ bits) = 2 ^ 149) ∧
      (sqrt2Over (2 * 2 ^ bits)).isFinite = true ∧
        (sqrt2Over (2 * 2 ^ bits)).units * (2 * 2 ^ bits) = 0xB504F3 * 2 ^ 126 := by
    have hcase : bits = 1 ∨ bits = 2 ∨ bits = 3 ∨ bits = 4 ∨ bits = 5 ∨ bits = 6 ∨ bits = 7 := by omega
    rcases hcase with rfl | rfl | rfl | rfl | rfl | rfl | rfl <;> decide +kernel
  obtain ⟨⟨k1, k2⟩, k3, k4⟩ := key
  have hd : (0 : ℝ) < 2 * 2 ^ bits := by positivity
  have r1 : realOf (recipOf (2 * 2 ^ bits)) = 1 / (2 * 2 ^ bits) := by
    have : ((recipOf (2 * 2 ^ bits)).units : ℝ) * (2 * 2 ^ bits) = 2 ^ 149 := by exact_mod_cast k2
    unfold realOf
    rw [div_eq_div_iff (by positivity) hd.ne', one_mul]
    exact this
  have r2 : realOf (sqrt2Over (2 * 2 ^ bits)) = (0xB504F3 / 2 ^ 23) / (2 * 2 ^ bits) := by
    have : ((sqrt2Over (2 * 2 ^ bits)).units : ℝ) * (2 * 2 ^ bits) = 0xB504F3 * 2 ^ 126 := by exact_mod_cast k4
    unfold realOf
    rw [div_eq_div_iff (by positivity) hd.ne', this]
    norm_num
  refine ⟨⟨k1, r1⟩, k3, ?_⟩
  have hs : |(0xB504F3 / 2 ^ 23 : ℝ) - Real.sqrt 2| ≤ 0.52 * unit * Real.sqrt 2 := by
    have h1 : (1.414213562 : ℝ) ≤ Real.sqrt 2 := Real.le_sqrt_of_sq_le (by norm_num)
    have h2 : Real.sqrt 2 ≤ 1.414213563 := by
      rw [Real.sqrt_le_left (by norm_num)]
      norm_num
    have h3 : (0.00000004 : ℝ) ≤ 0.52 * unit * Real.sqrt 2 := by
      unfold unit
      norm_num at *
      linarith
    refine le_trans ?_ h3
    rw [abs_le]
    constructor <;> norm_num at * <;> linarith
  rw [r2, ← sub_div, abs_div, abs_of_pos hd, mul_div_assoc']
  exact div_le_div_of_nonneg_right hs hd.le

/-- The rotated and scaled output is near the exact coefficient (R134). -/
theorem refRotate_near {c S : ℝ} {bits k : Nat} {v : List Complex32} (V : Nat → ℂ) (hb : 1 ≤ bits) (hb' : bits ≤ 7)
    (hk : k < 2 * 2 ^ bits) (hc : 0 ≤ c) (hc' : c ≤ 80) (hS : floor ≤ S) (hS' : 2 * S ≤ 2 ^ 110)
    (hconj : k ≤ 2 * 2 ^ bits → V k = (starRingEnd ℂ) (V (2 * 2 ^ bits - k)))
    (hv : ∀ i, i ≤ 2 ^ bits → CNear c S (v.getD i czero) (V i)) (hV0 : k = 0 → turn (-(k / (4 * (2 * 2 ^ bits)))) * V k = V k) :
    (refRotate (2 * 2 ^ bits) v k).isFinite = true ∧
      |realOf (refRotate (2 * 2 ^ bits) v k) -
        scale (2 * 2 ^ bits) k * (turn (-(k / (4 * (2 * 2 ^ bits)))) * V k).re| ≤ (0.72 * c + 3.2) * (unit * S) := by
  have hpos : 0 < S := lt_of_lt_of_le floor_pos hS
  have hum : 0 < unit * S := mul_pos unit_pos hpos
  obtain ⟨⟨rf, rv⟩, sf, sv⟩ := scale_constants bits hb hb'
  have hdiv : 2 * 2 ^ bits / 2 = 2 ^ bits := Nat.mul_div_cancel_left _ (by norm_num)
  have h4 : (4 : ℝ) ≤ 2 * 2 ^ bits := by
    have : (2 : ℝ) ^ 1 ≤ 2 ^ bits := pow_le_pow_right₀ (by norm_num) hb
    linarith
  have hdvd : 4 * (2 * 2 ^ bits) ∣ 1024 := by
    rw [show 4 * (2 * 2 ^ bits) = 2 ^ (bits + 3) by ring, show 1024 = 2 ^ 10 by norm_num]
    exact pow_dvd_pow 2 (by omega)
  unfold refRotate
  dsimp only
  rw [hdiv]
  split
  · rename_i hk0
    have h0 := hV0 hk0
    subst hk0
    have hre := (hv 0 (by positivity)).re
    obtain ⟨g1, g2⟩ := mul_scale_near (σ := 1 / (2 * 2 ^ bits)) hre rf (by positivity) (by
      rw [div_le_iff₀ (by positivity)]
      linarith) (by
      rw [rv, sub_self, abs_zero]
      have := unit_pos
      positivity)
    refine ⟨g1, ?_⟩
    rw [h0, scale, if_pos rfl]
    push_cast at g2 ⊢
    refine g2.trans (mul_le_mul_of_nonneg_right (by linarith) hum.le)
  · rename_i hk0
    have hsqrt : Real.sqrt 2 ≤ 1.415 := by
      rw [Real.sqrt_le_left (by norm_num)]
      norm_num
    have hσ : Real.sqrt 2 / (2 * 2 ^ bits) ≤ 0.354 := by
      rw [div_le_iff₀ (by positivity)]
      linarith
    have hσ0 : 0 ≤ Real.sqrt 2 / (2 * 2 ^ bits) := by positivity
    have hscale : scale (2 * 2 ^ bits) k = Real.sqrt 2 / (2 * 2 ^ bits) := by
      rw [scale, if_neg hk0]
      push_cast
      rfl
    have hcos := twiddleCos_near (4 * (2 * 2 ^ bits)) k hdvd (by omega)
    have hsin := twiddleSin_near (4 * (2 * 2 ^ bits)) k hdvd (by omega)
    have ec : Entry (twiddleCos (4 * (2 * 2 ^ bits)) k) (turn (k / (4 * (2 * 2 ^ bits)))).re := by
      push_cast at hcos
      exact ⟨hcos.1, hcos.2.1, hcos.2.2⟩
    have es : Entry (twiddleSin (4 * (2 * 2 ^ bits)) k) (turn (k / (4 * (2 * 2 ^ bits)))).im := by
      push_cast at hsin
      exact ⟨hsin.1, hsin.2.1, hsin.2.2⟩
    generalize twiddleCos (4 * (2 * 2 ^ bits)) k = tc at ec
    generalize twiddleSin (4 * (2 * 2 ^ bits)) k = ts at es
    generalize sqrt2Over (2 * 2 ^ bits) = t2 at sf sv
    rw [turn_neg]
    generalize hτ : turn (k / (4 * (2 * 2 ^ bits))) = τ at ec es
    have hτn : ‖τ‖ = 1 := by rw [← hτ, norm_turn]
    have hτre : |τ.re| ≤ 1 := hτn ▸ Complex.abs_re_le_norm τ
    have hτim : |τ.im| ≤ 1 := hτn ▸ Complex.abs_im_le_norm τ
    have f1 : Fits (c + 1.6) S := ⟨by linarith, by linarith, hS, by linarith⟩
    have f2 : Fits (c + 1.6 + 1.1) (S + S) := ⟨by linarith, by linarith, by linarith, by linarith⟩
    have fin : ∀ {x : F32} {r : ℝ}, Near (c + 1.6 + 1.1) (S + S) x r → r = ((starRingEnd ℂ) τ * V k).re →
        (x.mul t2).isFinite = true ∧
          |realOf (x.mul t2) - scale (2 * 2 ^ bits) k * ((starRingEnd ℂ) τ * V k).re| ≤
            (0.72 * c + 3.2) * (unit * S) := by
      rintro x r hx rfl
      obtain ⟨g1, g2⟩ := mul_scale_near hx sf hσ0 hσ sv
      refine ⟨g1, ?_⟩
      rw [hscale]
      refine g2.trans ?_
      have e : (0.36 * (c + 1.6 + 1.1) + 0.6) * (unit * (S + S)) = (0.72 * c + 3.144) * (unit * S) := by ring
      rw [e]
      exact mul_le_mul_of_nonneg_right (by linarith) hum.le
    split
    · rename_i hkm
      have hvk := hv k hkm
      refine fin ((hvk.re.mulEntry ec hτre f1).add (hvk.im.mulEntry es hτim f1) f2) ?_
      simp only [Complex.mul_re, Complex.conj_re, Complex.conj_im]
      ring
    · rename_i hkm
      have hvk := hv (2 * 2 ^ bits - k) (by omega)
      have hc' := hconj (by omega)
      refine fin ((hvk.re.mulEntry ec hτre f1).sub (hvk.im.mulEntry es hτim f1) f2) ?_
      rw [hc']
      simp only [Complex.mul_re, Complex.conj_re, Complex.conj_im]
      ring

/-! ### The accuracy law -/

/-- The mass of one input entry, with the floor. -/
noncomputable def entryMass (x : List F32) (i : Nat) : ℝ := |entries x i| + floor

theorem entries_abs_le (x : List F32) (i : Nat) : |entries x i| ≤ mass x := by
  unfold entries mass
  induction x generalizing i with
  | nil => simp [realOf_zero]
  | cons a x ih =>
    rw [List.map_cons, List.sum_cons]
    have hnn : ∀ y : List F32, 0 ≤ (y.map fun a => |realOf a|).sum := by
      intro y
      refine List.sum_nonneg fun r hr => ?_
      obtain ⟨b, -, rfl⟩ := List.mem_map.mp hr
      exact abs_nonneg _
    cases i with
    | zero =>
      have := hnn x
      simp
      linarith
    | succ i =>
      have h1 := ih i
      have h2 := abs_nonneg (realOf a)
      rw [List.getD_cons_succ]
      linarith

theorem mass_eq_sum (x : List F32) : mass x = ∑ i ∈ Finset.range x.length, |entries x i| := by
  unfold entries mass
  induction x with
  | nil => simp
  | cons a x ih =>
    rw [List.map_cons, List.sum_cons, List.length_cons, Finset.sum_range_succ', ih, add_comm]
    simp

theorem entryMass_ok {x : List F32} (h : mass x < 2 ^ 96) (i : Nat) : floor ≤ entryMass x i ∧ entryMass x i ≤ 2 ^ 97 := by
  unfold entryMass
  have h1 := entries_abs_le x i
  have h2 := abs_nonneg (entries x i)
  have h3 : floor ≤ 1 := by unfold floor; norm_num
  have h4 : (2 : ℝ) ^ 96 + 1 ≤ 2 ^ 97 := by norm_num
  constructor <;> linarith

theorem sum_entryMass (x : List F32) : ∑ i ∈ Finset.range x.length, entryMass x i = mass x + x.length * floor := by
  unfold entryMass
  rw [Finset.sum_add_distrib, Finset.sum_const, Finset.card_range, nsmul_eq_mul, mass_eq_sum]

theorem getD_finite {x : List F32} (h : ∀ a ∈ x, a.isFinite = true) (i : Nat) : (x.getD i F32.zero).isFinite = true := by
  rw [List.getD_eq_getElem?_getD]
  by_cases hi : i < x.length
  · rw [List.getElem?_eq_getElem hi]
    exact h _ (List.getElem_mem hi)
  · rw [List.getElem?_eq_none (by omega)]
    rfl

/-- The default accuracy bound is 256 unit roundoffs of the mass with the floors (R127). -/
theorem tolerance_default (n : Nat) (m : ℝ) : 256 * (unit * (m + n * floor)) = tolerance (1 / 65536) n m := by
  unfold tolerance unit floor
  norm_num
  ring

theorem refForward_accurate {bits : Nat} (hb : 1 ≤ bits) (hb' : bits ≤ 7) {x : List F32} (hlen : x.length = 2 * 2 ^ bits)
    (hfin : ∀ a ∈ x, a.isFinite = true) (hmass : mass x < 2 ^ 96) {k : Nat} (hk : k < 2 * 2 ^ bits) :
    ((refForward (2 * 2 ^ bits) x).getD k F32.zero).isFinite = true ∧
      |realOf ((refForward (2 * 2 ^ bits) x).getD k F32.zero) - dct1Exact (2 * 2 ^ bits) (entries x) k| ≤
        256 * (unit * (mass x + (2 * 2 ^ bits : Nat) * floor)) := by
  have hm2 : 2 ^ bits % 2 = 0 := by
    obtain ⟨b, rfl⟩ : ∃ b, bits = b + 1 := ⟨bits - 1, by omega⟩
    rw [pow_succ, Nat.mul_mod_left]
  have hm : 2 ≤ 2 ^ bits := by
    calc 2 = 2 ^ 1 := by norm_num
      _ ≤ 2 ^ bits := Nat.pow_le_pow_right (by norm_num) hb
  have hm256 : 2 ^ bits ≤ 128 := by
    calc 2 ^ bits ≤ 2 ^ 7 := Nat.pow_le_pow_right (by norm_num) hb'
      _ = 128 := by norm_num
  have hdvd : 4 * (2 * 2 ^ bits) ∣ 1024 := by
    rw [show 4 * (2 * 2 ^ bits) = 2 ^ (bits + 3) by ring, show 1024 = 2 ^ 10 by norm_num]
    exact pow_dvd_pow 2 (by omega)
  have hdiv : 2 * 2 ^ bits / 2 = 2 ^ bits := Nat.mul_div_cancel_left _ (by norm_num)
  obtain ⟨S, hS⟩ : ∃ S : ℝ, S = mass x + (2 * 2 ^ bits : Nat) * floor := ⟨_, rfl⟩
  have hsum : ∑ j ∈ Finset.range (2 ^ bits), (entryMass x (layout (2 ^ bits) (2 * j)) +
      entryMass x (layout (2 ^ bits) (2 * j + 1))) = S := by
    rw [Finset.sum_add_distrib, ← sum_even_odd (fun j => entryMass x (layout (2 ^ bits) j)), sum_layout, ← hlen,
      sum_entryMass, hlen, hS]
  have hSf : floor ≤ S := by
    have h1 := (abs_nonneg _).trans (entries_abs_le x 0)
    have h2 : (1 : ℝ) ≤ (2 * 2 ^ bits : Nat) := by exact_mod_cast (by omega : 1 ≤ 2 * 2 ^ bits)
    have := floor_pos
    rw [hS]
    nlinarith
  have hSb : 8 * S ≤ 2 ^ 110 := by
    have h2 : ((2 * 2 ^ bits : Nat) : ℝ) ≤ 256 := by exact_mod_cast (by omega : 2 * 2 ^ bits ≤ 256)
    have h3 : floor ≤ 1 := by unfold floor; norm_num
    have h4 : ((2 * 2 ^ bits : Nat) : ℝ) * floor ≤ 256 * 1 :=
      mul_le_mul h2 h3 floor_pos.le (by norm_num)
    have h5 : (8 : ℝ) * (2 ^ 96 + 256) ≤ 2 ^ 110 := by norm_num
    rw [hS]
    linarith
  have hZ : ∀ i, i < 2 ^ bits → CNear (8.4 * bits) S ((refForwardFft (2 * 2 ^ bits) x).getD i czero)
      (packed (fun j => entries x (layout (2 ^ bits) j)) (2 ^ bits) i) := by
    intro i hi
    have hμ : MassOk fun j => entryMass x (layout (2 ^ bits) (2 * j)) + entryMass x (layout (2 ^ bits) (2 * j + 1)) := by
      intro j
      have h1 := entryMass_ok hmass (layout (2 ^ bits) (2 * j))
      have h2 := entryMass_ok hmass (layout (2 ^ bits) (2 * j + 1))
      have := floor_pos
      have : (2 : ℝ) ^ 97 + 2 ^ 97 ≤ 2 ^ 100 := by norm_num
      constructor <;> linarith
    have hin : ∀ j, j < 2 ^ bits → CNear 0
        (entryMass x (layout (2 ^ bits) (2 * j)) + entryMass x (layout (2 ^ bits) (2 * j + 1)))
        ((tab (2 ^ bits) fun j => ((evenOdd (2 * 2 ^ bits) x).getD (2 * j) F32.zero,
          (evenOdd (2 * 2 ^ bits) x).getD (2 * j + 1) F32.zero)).getD j czero)
        ⟨entries x (layout (2 ^ bits) (2 * j)), entries x (layout (2 ^ bits) (2 * j + 1))⟩ := by
      intro j hj
      have heo : ∀ i, i < 2 * 2 ^ bits → (evenOdd (2 * 2 ^ bits) x).getD i F32.zero =
          x.getD (layout (2 ^ bits) i) F32.zero := by
        intro i hi
        rw [evenOdd, tab_getD _ _ _ _ hi, layout, hdiv]
        split <;> rfl
      rw [tab_getD _ _ _ _ hj, heo _ (by omega), heo _ (by omega)]
      have hb1 := hμ j
      refine ⟨⟨le_rfl, by norm_num, hb1.1, hb1.2.trans (by norm_num)⟩, getD_finite hfin _, getD_finite hfin _, ?_, ?_⟩
      · have e : valOf (x.getD (layout (2 ^ bits) (2 * j)) F32.zero, x.getD (layout (2 ^ bits) (2 * j + 1)) F32.zero) =
            ⟨entries x (layout (2 ^ bits) (2 * j)), entries x (layout (2 ^ bits) (2 * j + 1))⟩ := rfl
        rw [e, sub_self, norm_zero, zero_mul]
      · refine (norm_le_abs_add_abs _).trans ?_
        unfold entryMass
        have := floor_pos
        simp only
        linarith
    have := fft_near (forward := true) hμ le_rfl (by norm_num) hb' hin i hi
    rw [hsum, zero_add] at this
    unfold refForwardFft
    dsimp only
    rw [hdiv]
    convert this using 1
    unfold packed
    refine Finset.sum_congr rfl fun j _ => ?_
    congr 2
    have hd : direction true = -1 := rfl
    rw [hd]
    ring
  have hbr : (bits : ℝ) ≤ 7 := by exact_mod_cast hb'
  have hbn : (0 : ℝ) ≤ bits := Nat.cast_nonneg bits
  have hV : ∀ i, i ≤ 2 ^ bits → CNear (8.4 * bits + 12.5) (4 * S)
      ((tab (2 ^ bits + 1) (refUnpack (2 * 2 ^ bits) (refForwardFft (2 * 2 ^ bits) x))).getD i czero)
      (spectrum (fun j => entries x (layout (2 ^ bits) j)) (2 ^ bits) i) := by
    intro i hi
    rw [tab_getD _ _ _ _ (by omega)]
    exact refUnpack_near _ hm hm2 hdvd hi (by linarith) (by linarith) hSf (by linarith) hZ
  have hR := refRotate_near (S := 4 * S) (k := k) (spectrum (fun j => entries x (layout (2 ^ bits) j)) (2 ^ bits)) hb hb' hk
    (by linarith) (by linarith) (by have := floor_pos; linarith) (by linarith)
    (fun hle => spectrum_conj _ _ _ (by omega) hle) hV (by
      rintro rfl
      rw [Nat.cast_zero, zero_div, neg_zero, turn_zero, one_mul])
  unfold refForward
  dsimp only
  rw [hdiv, tab_getD _ _ _ _ hk, dct1Exact, dct_sum_eq (entries x) (2 ^ bits) k (by omega)]
  push_cast at hR ⊢
  refine ⟨hR.1, hR.2.trans ?_⟩
  have e : mass x + 2 * 2 ^ bits * floor = S := by
    rw [hS]
    push_cast
    ring
  rw [e, show unit * (4 * S) = 4 * (unit * S) by ring]
  have hum : 0 < unit * S := mul_pos unit_pos (lt_of_lt_of_le floor_pos hSf)
  nlinarith

end Sys2Proof.Exact
end

