-- ==== Sys2Proof/Laws/RefInverse.lean ====
section
/-! SUPPORT. REF's inverse transform meets the accuracy law R127 (41_dct1d.md R135 to R137). -/

namespace Sys2Proof.Exact

open Sys2Proof.Machine

/-! ### The exact identities -/

/-- The pre-rotated spectrum `H[k]` for k >= 1, and `X[0]` for k = 0 (R135). -/
noncomputable def rotated (x : Nat → ℝ) (n k : Nat) : ℂ :=
  if k = 0 then (x 0 : ℂ) else ((Real.sqrt 2)⁻¹ : ℝ) * (turn (k / (4 * n)) * ⟨x k, -x (n - k)⟩)

theorem sum_Ico_reflect {M : Type} [AddCommMonoid M] (f : Nat → M) (n : Nat) :
    ∑ k ∈ Finset.Ico 1 n, f (n - k) = ∑ k ∈ Finset.Ico 1 n, f k := by
  refine Finset.sum_nbij' (fun k => n - k) (fun k => n - k) ?_ ?_ ?_ ?_ ?_
  · intro k hk
    have := Finset.mem_Ico.mp hk
    exact Finset.mem_Ico.mpr ⟨by omega, by omega⟩
  · intro k hk
    have := Finset.mem_Ico.mp hk
    exact Finset.mem_Ico.mpr ⟨by omega, by omega⟩
  · intro k hk
    have := Finset.mem_Ico.mp hk
    exact Nat.sub_sub_self (by omega)
  · intro k hk
    have := Finset.mem_Ico.mp hk
    exact Nat.sub_sub_self (by omega)
  · intro k _
    rfl

theorem sum_range_eq_head {M : Type} [AddCommMonoid M] (f : Nat → M) (n : Nat) (hn : 0 < n) :
    ∑ k ∈ Finset.range n, f k = f 0 + ∑ k ∈ Finset.Ico 1 n, f k := by
  rw [Finset.range_eq_Ico, Finset.sum_eq_sum_Ico_succ_bot hn]

/-- `H[n-k] = conj(H[k])`. -/
theorem rotated_conj (x : Nat → ℝ) (n k : Nat) (h : 1 ≤ k) (h' : k < n) :
    rotated x n (n - k) = (starRingEnd ℂ) (rotated x n k) := by
  have hn : (n : ℝ) ≠ 0 := by exact_mod_cast (by omega : n ≠ 0)
  have e : (((n - k : Nat) : ℝ) / (4 * n)) = 1 / 4 + -(k / (4 * n)) := by
    rw [Nat.cast_sub h'.le]
    field_simp
    ring
  unfold rotated
  rw [if_neg (by omega), if_neg (by omega), Nat.sub_sub_self h'.le, e, turn_add, turn_quarter, turn_neg, map_mul, map_mul,
    Complex.conj_ofReal]
  have e2 : (starRingEnd ℂ) (⟨x k, -x (n - k)⟩ : ℂ) = Complex.I * ⟨x (n - k), -x k⟩ := by
    apply Complex.ext <;> simp
  rw [e2]
  ring

/-- The inverse transform of the pre-rotated spectrum is the laid-out output, a real number (R135 to R137). -/
theorem sum_rotated (x : Nat → ℝ) (m j : Nat) (hj : j < 2 * m) :
    ∑ k ∈ Finset.range (2 * m), rotated x (2 * m) k * turn (j * k / (2 * m)) =
      (idct1Exact (2 * m) x (layout m j) : ℂ) := by
  have hm' : (m : ℝ) ≠ 0 := by exact_mod_cast (by omega : m ≠ 0)
  have hterm : ∀ k ∈ Finset.Ico 1 (2 * m),
      rotated x (2 * m) k * turn (j * k / (2 * m)) +
        rotated x (2 * m) (2 * m - k) * turn (j * ((2 * m - k : Nat) : ℝ) / (2 * m)) =
      ((Real.sqrt 2 * (x k * cosBasis (2 * m) k (layout m j) +
        x (2 * m - k) * cosBasis (2 * m) (2 * m - k) (layout m j)) : ℝ) : ℂ) := by
    intro k hk
    obtain ⟨h1, h2⟩ := Finset.mem_Ico.mp hk
    have e : (j : ℝ) * ((2 * m - k : Nat) : ℝ) / (2 * m) = j + -(j * k / (2 * m)) := by
      rw [Nat.cast_sub h2.le]
      push_cast
      field_simp
      ring
    have ea : ((2 * m - k : Nat) : ℝ) / (4 * (2 * m)) + j * ((2 * m - k : Nat) : ℝ) / (2 * m) =
        j + (1 / 4 + -(k / (4 * (2 * m)) + j * k / (2 * m))) := by
      rw [e, Nat.cast_sub h2.le]
      push_cast
      field_simp
      ring
    rw [rotated_conj x _ k h1 h2, cosBasis_layout _ _ _ hj, cosBasis_layout _ _ _ hj, ea, e, turn_add (j : ℝ), turn_add (j : ℝ),
      turn_nat, one_mul, one_mul, turn_neg, ← map_mul, Complex.add_conj, turn_add (1 / 4), turn_quarter, turn_neg]
    congr 1
    unfold rotated
    rw [if_neg (by omega)]
    have e3 : ((Real.sqrt 2)⁻¹ : ℝ) * (turn (k / (4 * (2 * m : Nat))) * ⟨x k, -x (2 * m - k)⟩) * turn (j * k / (2 * m)) =
        ((Real.sqrt 2)⁻¹ : ℝ) * (turn (k / (4 * (2 * m)) + j * k / (2 * m)) * ⟨x k, -x (2 * m - k)⟩) := by
      rw [turn_add]
      push_cast
      ring
    rw [e3, Complex.re_ofReal_mul, Complex.mul_re, Complex.mul_re, Complex.I_re, Complex.I_im, Complex.conj_re, Complex.conj_im]
    have hs : Real.sqrt 2 * Real.sqrt 2 = 2 := Real.mul_self_sqrt (by norm_num)
    have hs0 : Real.sqrt 2 ≠ 0 := by positivity
    field_simp
    rw [pow_two, hs]
    ring
  rw [sum_range_eq_head _ _ (by omega)]
  have hhead : rotated x (2 * m) 0 * turn (j * (0 : Nat) / (2 * m)) = (x 0 : ℂ) := by
    unfold rotated
    rw [if_pos rfl, Nat.cast_zero, mul_zero, zero_div, turn_zero, mul_one]
  have hdouble : (2 : ℂ) * ∑ k ∈ Finset.Ico 1 (2 * m), rotated x (2 * m) k * turn (j * k / (2 * m)) =
      2 * ((Real.sqrt 2 * ∑ k ∈ Finset.Ico 1 (2 * m), x k * cosBasis (2 * m) k (layout m j) : ℝ) : ℂ) := by
    rw [two_mul]
    nth_rewrite 2 [← sum_Ico_reflect (fun k => rotated x (2 * m) k * turn (j * k / (2 * m)))]
    rw [← Finset.sum_add_distrib, Finset.sum_congr rfl hterm, ← Complex.ofReal_sum, ← Finset.mul_sum, Finset.sum_add_distrib,
      sum_Ico_reflect (fun k => x k * cosBasis (2 * m) k (layout m j))]
    push_cast
    ring
  rw [hhead, mul_left_cancel₀ (two_ne_zero' ℂ) hdouble, idct1Exact]
  push_cast
  ring

/-- The half-length complex inputs `Zs[k]` (R136). -/
noncomputable def folded (x : Nat → ℝ) (m k : Nat) : ℂ :=
  (rotated x (2 * m) k + rotated x (2 * m) (m + k)) +
    Complex.I * ((rotated x (2 * m) k - rotated x (2 * m) (m + k)) * turn (k / (2 * m)))

/-- The half-length transform gives two laid-out outputs at once (R136, R137). -/
theorem sum_folded (x : Nat → ℝ) (m j : Nat) (hj : j < m) :
    ∑ k ∈ Finset.range m, folded x m k * turn (k * j / m) =
      ⟨idct1Exact (2 * m) x (layout m (2 * j)), idct1Exact (2 * m) x (layout m (2 * j + 1))⟩ := by
  have hm' : (m : ℝ) ≠ 0 := by exact_mod_cast (by omega : m ≠ 0)
  have h0 := sum_rotated x m (2 * j) (by omega)
  have h1 := sum_rotated x m (2 * j + 1) (by omega)
  rw [two_mul m, Finset.sum_range_add, ← two_mul] at h0 h1
  rw [Complex.mk_eq_add_mul_I, ← h0, ← h1]
  rw [← Finset.sum_add_distrib, ← Finset.sum_add_distrib, Finset.sum_mul, ← Finset.sum_add_distrib]
  refine Finset.sum_congr rfl fun k _ => ?_
  have a1 : ((2 * j : Nat) : ℝ) * k / (2 * m) = k * j / m := by
    push_cast
    field_simp
  have a2 : ((2 * j : Nat) : ℝ) * ((m + k : Nat) : ℝ) / (2 * m) = j + k * j / m := by
    push_cast
    field_simp
  have a3 : ((2 * j + 1 : Nat) : ℝ) * k / (2 * m) = k / (2 * m) + k * j / m := by
    push_cast
    field_simp
    ring
  have a4 : ((2 * j + 1 : Nat) : ℝ) * ((m + k : Nat) : ℝ) / (2 * m) = j + (1 / 2 + (k / (2 * m) + k * j / m)) := by
    push_cast
    field_simp
    ring
  rw [a1, a2, a3, a4, turn_add (j : ℝ), turn_add (j : ℝ), turn_nat, turn_add (1 / 2), turn_half, turn_add (k / (2 * m))]
  unfold folded
  ring

/-! ### The f32 steps -/

theorem neg_neg_f32 (a : F32) : a.neg.neg = a := by cases a <;> simp [F32.neg]

/-- A sum of finite values does not depend on their order. -/
theorem sum_comm_of_isFinite {op : FOp} {a b : F32} (ha : a.isFinite = true) (hb : b.isFinite = true) :
    F32.sum op a b = F32.sum op b a := by
  obtain ⟨x, m, rfl⟩ := fin_of_isFinite ha
  obtain ⟨y, n, rfl⟩ := fin_of_isFinite hb
  unfold F32.sum
  dsimp only
  by_cases hxy : x = y
  · subst hxy
    rw [if_pos rfl, if_pos rfl, Nat.add_comm]
  rw [if_neg hxy, if_neg (Ne.symm hxy)]
  by_cases hmn : m = n
  · rw [if_pos hmn, if_pos hmn.symm]
  rw [if_neg hmn, if_neg (Ne.symm hmn)]
  by_cases hlt : n < m
  · rw [if_pos hlt, if_neg (by omega)]
  · rw [if_neg hlt, if_pos (by omega)]

/-- A complex product with a table value, in the other order. -/
theorem CNear.cmul_right {c m : ℝ} {t z : Complex32} {τ w : ℂ} (hz : CNear c m z w) (ht : CEntry t τ)
    (hf : Fits (c + 6.2) m) : CNear (c + 6.2) m (Machine.cmul z t) (w * τ) := by
  have hτre : |τ.re| ≤ 1 := ht.norm ▸ Complex.abs_re_le_norm τ
  have hτim : |τ.im| ≤ 1 := ht.norm ▸ Complex.abs_im_le_norm τ
  have hf' : Fits (c + 1.6) m := by
    have := hz.fits.nonneg
    have := hf.le
    exact ⟨by linarith, by linarith, hf.floor_le, hf.bound⟩
  have h1 := (hz.im.mulEntry ht.re hτre hf').fin
  have h2 := (hz.re.mulEntry ht.im hτim hf').fin
  have e : Machine.cmul z t = Machine.cmul t z := by
    unfold Machine.cmul F32.add
    rw [mul_comm_of_isFinite hz.fin_re ht.re.fin, mul_comm_of_isFinite hz.fin_im ht.im.fin,
      mul_comm_of_isFinite hz.fin_re ht.im.fin, mul_comm_of_isFinite hz.fin_im ht.re.fin, sum_comm_of_isFinite h2 h1]
  rw [e, mul_comm w]
  exact hz.cmul ht hf

/-- The ROM's `RH` against `1/sqrt(2)` (R130). -/
theorem recipSqrt2_near : recipSqrt2.isFinite = true ∧ |realOf recipSqrt2| ≤ 0.70711 ∧
    |realOf recipSqrt2 - (Real.sqrt 2)⁻¹| ≤ 0.4 * unit := by
  have hu : recipSqrt2.units = 0xB504F3 * 2 ^ 125 := by decide
  have hv : realOf recipSqrt2 = 0xB504F3 / 2 ^ 24 := by
    unfold realOf
    rw [hu]
    push_cast
    norm_num
  have h1 : (1.414213562 : ℝ) ≤ Real.sqrt 2 := Real.le_sqrt_of_sq_le (by norm_num)
  have h2 : Real.sqrt 2 ≤ 1.414213563 := by
    rw [Real.sqrt_le_left (by norm_num)]
    norm_num
  have hinv : (Real.sqrt 2)⁻¹ = Real.sqrt 2 / 2 := by
    have hs : Real.sqrt 2 * Real.sqrt 2 = 2 := Real.mul_self_sqrt (by norm_num)
    have hs0 : Real.sqrt 2 ≠ 0 := by positivity
    field_simp
    rw [pow_two, hs]
  refine ⟨by decide, ?_, ?_⟩
  · rw [hv]
    norm_num
  · rw [hv, hinv, abs_le]
    unfold unit
    constructor <;> norm_num at * <;> linarith

/-- The pre-rotated values are near `H[k]` (R135). -/
theorem refPreRotate_near {m k : Nat} {x : List F32} {μ : Nat → ℝ} (hdvd : 4 * (2 * m) ∣ 1024) (hk : 1 ≤ k)
    (hkm : k < m) (hfin : ∀ i, (x.getD i F32.zero).isFinite = true) (hμ : ∀ i, |entries x i| ≤ μ i)
    (hf : ∀ i, floor ≤ μ i ∧ μ i ≤ 2 ^ 100) :
    CNear 8.6 (0.7072 * (μ k + μ (2 * m - k))) (refPreRotate (2 * m) x k) (rotated (entries x) (2 * m) k) := by
  have hlt : k < 4 * (2 * m) := by omega
  have hfl := floor_pos
  have fits : ∀ i, Fits 0 (μ i) := fun i => ⟨le_rfl, by norm_num, (hf i).1, (hf i).2.trans (by norm_num)⟩
  have n1 : Near 0 (μ k) (x.getD k F32.zero) (entries x k) := .exact (hfin k) (fits k) (hμ k)
  have n2 : Near 0 (μ (2 * m - k)) (x.getD (2 * m - k) F32.zero) (entries x (2 * m - k)) :=
    .exact (hfin _) (fits _) (hμ _)
  have hcos := twiddleCos_near (4 * (2 * m)) k hdvd hlt
  have hsin := twiddleSin_near (4 * (2 * m)) k hdvd hlt
  have ec : Entry (twiddleCos (4 * (2 * m)) k) (turn (k / (4 * (2 * m : Nat)))).re := by
    push_cast at hcos ⊢
    exact ⟨hcos.1, hcos.2.1, hcos.2.2⟩
  have es : Entry (twiddleSin (4 * (2 * m)) k) (turn (k / (4 * (2 * m : Nat)))).im := by
    push_cast at hsin ⊢
    exact ⟨hsin.1, hsin.2.1, hsin.2.2⟩
  obtain ⟨rf, rle, rerr⟩ := recipSqrt2_near
  unfold refPreRotate rotated
  rw [if_neg (by omega)]
  dsimp only
  generalize twiddleCos (4 * (2 * m)) k = tc at ec
  generalize twiddleSin (4 * (2 * m)) k = ts at es
  generalize recipSqrt2 = r at rf rle rerr
  generalize hτ : turn (k / (4 * (2 * m : Nat))) = τ at ec es
  have hτn : ‖τ‖ = 1 := by rw [← hτ, norm_turn]
  have hτre : |τ.re| ≤ 1 := hτn ▸ Complex.abs_re_le_norm τ
  have hτim : |τ.im| ≤ 1 := hτn ▸ Complex.abs_im_le_norm τ
  have hk1 := hf k
  have hk2 := hf (2 * m - k)
  have hb : (2 : ℝ) ^ 100 + 2 ^ 100 ≤ 2 ^ 110 := by norm_num
  have f1 : ∀ i, Fits (0 + 1.6) (μ i) := fun i => ⟨by norm_num, by norm_num, (fits i).floor_le, (fits i).bound⟩
  have f2 : Fits (0 + 1.6 + 1.1) (μ k + μ (2 * m - k)) := ⟨by norm_num, by norm_num, by linarith, by linarith⟩
  have na := (n1.mulEntry ec hτre (f1 _)).add (n2.mulEntry es hτim (f1 _)) f2
  have nb := (n1.mulEntry es hτim (f1 _)).sub (n2.mulEntry ec hτre (f1 _)) f2
  have hum := f2.um_pos
  have hpos := f2.pos
  generalize hP : μ k + μ (2 * m - k) = P at na nb f2 hum hpos
  have part : ∀ {y : F32} {s : ℝ}, Near (0 + 1.6 + 1.1) P y s →
      (y.mul r).isFinite = true ∧ |realOf (y.mul r) - (Real.sqrt 2)⁻¹ * s| ≤ 3.03 * (unit * P) := by
    intro y s hy
    obtain ⟨g1, g2⟩ := mul_err hy rf rle (by norm_num) rerr
    rw [mul_comm_of_isFinite hy.fin rf]
    refine ⟨g1, g2.trans ?_⟩
    rw [max_eq_left (by linarith)]
    have e : 0.70711 * ((0 + 1.6 + 1.1) * (unit * P)) + 0.4 * unit * P + unit * (0.70711 * (P + P / 100000)) =
        (0.70711 * 2.7 + 0.4 + 0.70711 * (1 + 1 / 100000)) * (unit * P) := by ring
    rw [e]
    exact mul_le_mul_of_nonneg_right (by norm_num) hum.le
  obtain ⟨fa, ea⟩ := part na
  obtain ⟨fb, eb⟩ := part nb
  have hre : (((Real.sqrt 2)⁻¹ : ℝ) * (τ * ⟨entries x k, -entries x (2 * m - k)⟩) : ℂ).re =
      (Real.sqrt 2)⁻¹ * (τ.re * entries x k + τ.im * entries x (2 * m - k)) := by
    rw [Complex.re_ofReal_mul, Complex.mul_re]
    ring
  have him : (((Real.sqrt 2)⁻¹ : ℝ) * (τ * ⟨entries x k, -entries x (2 * m - k)⟩) : ℂ).im =
      (Real.sqrt 2)⁻¹ * (τ.im * entries x k - τ.re * entries x (2 * m - k)) := by
    rw [Complex.im_ofReal_mul, Complex.mul_im]
    ring
  have hinv : (Real.sqrt 2)⁻¹ ≤ 0.7072 := by
    have h1 : (1.4142 : ℝ) ≤ Real.sqrt 2 := Real.le_sqrt_of_sq_le (by norm_num)
    rw [inv_le_comm₀ (by positivity) (by norm_num)]
    norm_num at *
    linarith
  refine CNear.of_parts ⟨by norm_num, by norm_num, by linarith, by linarith⟩ fa fb ?_ ?_
  · rw [hre, him]
    have e : 8.6 * (unit * (0.7072 * P)) = 6.08192 * (unit * P) := by ring
    rw [e]
    linarith
  · rw [norm_mul, Complex.norm_real, norm_mul, hτn, one_mul, Real.norm_of_nonneg (by positivity)]
    refine mul_le_mul hinv ?_ (norm_nonneg _) (by norm_num)
    refine (norm_le_abs_add_abs _).trans ?_
    rw [← hP]
    simp only [abs_neg]
    exact add_le_add (hμ _) (hμ _)

/-- The mass of one half-length input. -/
noncomputable def foldedMass (μ : Nat → ℝ) (m k : Nat) : ℝ :=
  if k = 0 then 2 * (μ 0 + μ m) else 1.4144 * (μ k + μ (2 * m - k) + (μ (m - k) + μ (m + k)))

/-- The half-length inputs together weigh at most 2.8288 times the input. -/
theorem sum_foldedMass {μ : Nat → ℝ} {m : Nat} (hm : 0 < m) (h : ∀ i, 0 ≤ μ i) :
    ∑ k ∈ Finset.range m, foldedMass μ m k ≤ 2.8288 * ∑ k ∈ Finset.range (2 * m), μ k := by
  rw [two_mul m, Finset.sum_range_add, sum_range_eq_head _ _ hm, sum_range_eq_head _ _ hm,
    sum_range_eq_head (fun k => μ (m + k)) _ hm]
  have e : ∑ k ∈ Finset.Ico 1 m, foldedMass μ m k =
      1.4144 * (∑ k ∈ Finset.Ico 1 m, μ k + ∑ k ∈ Finset.Ico 1 m, μ (m + k) +
        (∑ k ∈ Finset.Ico 1 m, μ k + ∑ k ∈ Finset.Ico 1 m, μ (m + k))) := by
    have r1 := sum_Ico_reflect (fun k => μ (m + k)) m
    have r2 := sum_Ico_reflect μ m
    nth_rewrite 1 [← r1]
    nth_rewrite 2 [← r2]
    rw [← Finset.sum_add_distrib, ← Finset.sum_add_distrib, ← Finset.sum_add_distrib, Finset.mul_sum]
    refine Finset.sum_congr rfl fun k hk => ?_
    obtain ⟨h1, h2⟩ := Finset.mem_Ico.mp hk
    rw [foldedMass, if_neg (by omega), show 2 * m - k = m + (m - k) by omega]
  have e0 : foldedMass μ m 0 = 2 * (μ 0 + μ m) := if_pos rfl
  rw [e, e0, Nat.add_zero]
  have h0 := h 0
  have h1 := h m
  linarith

/-- The packed half-length inputs are near `Zs[k]` (R136). -/
theorem refPack_near {m k : Nat} {x : List F32} {μ : Nat → ℝ} {h : List Complex32} (hdvd : 4 * (2 * m) ∣ 1024)
    (hm : m % 2 = 0) (hk : k < m) (hfin : ∀ i, (x.getD i F32.zero).isFinite = true) (hμ : ∀ i, |entries x i| ≤ μ i)
    (hf : ∀ i, floor ≤ μ i ∧ μ i ≤ 2 ^ 100)
    (hh : ∀ k, 1 ≤ k → k < m →
      CNear 8.6 (0.7072 * (μ k + μ (2 * m - k))) (h.getD k czero) (rotated (entries x) (2 * m) k)) :
    CNear 19 (foldedMass μ m k) (refPack (2 * m) x h k) (folded (entries x) m k) := by
  have hm' : (m : ℝ) ≠ 0 := by exact_mod_cast (by omega : m ≠ 0)
  have hfl := floor_pos
  have hdiv : 2 * m / 2 = m := Nat.mul_div_cancel_left _ (by norm_num)
  have h110 : (1024 : ℝ) * 2 ^ 100 = 2 ^ 110 := by norm_num
  have bounds := hf
  unfold refPack
  dsimp only
  rw [hdiv]
  by_cases hk0 : k = 0
  · subst hk0
    rw [if_pos rfl]
    have b0 := bounds 0
    have bm := bounds m
    have fits : ∀ i, Fits 0 (μ i) := fun i => ⟨le_rfl, by norm_num, (hf i).1, (hf i).2.trans (by norm_num)⟩
    have n0 : Near 0 (μ 0) (x.getD 0 F32.zero) (entries x 0) := .exact (hfin _) (fits _) (hμ _)
    have n1 : Near 0 (μ m) (x.getD m F32.zero) (entries x m) := .exact (hfin _) (fits _) (hμ _)
    have f2 : Fits (0 + 1.1) (μ 0 + μ m) := ⟨by norm_num, by norm_num, by linarith, by linarith⟩
    have na := n0.add n1 f2
    have nb := n0.sub n1 f2
    have hrot : rotated (entries x) (2 * m) m = (entries x m : ℂ) := by
      have e : (m : ℝ) / (4 * ((2 * m : Nat) : ℝ)) = 1 / 8 := by
        push_cast
        field_simp
        norm_num
      have ht : turn (1 / 8) = ((Real.sqrt 2 / 2 : ℝ) : ℂ) * (1 + Complex.I) := by
        apply Complex.ext
        · rw [turn_re, show 2 * Real.pi * (1 / 8) = Real.pi / 4 by ring, Real.cos_pi_div_four, Complex.re_ofReal_mul]
          simp
        · rw [turn_im, show 2 * Real.pi * (1 / 8) = Real.pi / 4 by ring, Real.sin_pi_div_four, Complex.im_ofReal_mul]
          simp
      have hs0 : (Real.sqrt 2) ≠ 0 := by positivity
      rw [rotated, if_neg (by omega), e, ht, show 2 * m - m = m by omega, Complex.mk_eq_add_mul_I]
      have hc : (((Real.sqrt 2)⁻¹ : ℝ) : ℂ) * ((Real.sqrt 2 / 2 : ℝ) : ℂ) = 1 / 2 := by
        rw [← Complex.ofReal_mul]
        have : (Real.sqrt 2)⁻¹ * (Real.sqrt 2 / 2) = 1 / 2 := by field_simp
        rw [this]
        push_cast
        rfl
      have hI := Complex.I_mul_I
      push_cast at hc ⊢
      linear_combination ((1 + Complex.I) * (entries x m - entries x m * Complex.I)) * hc - (entries x m : ℂ) / 2 * hI
    have hfold : folded (entries x) m 0 = ⟨entries x 0 + entries x m, entries x 0 - entries x m⟩ := by
      have h0 : rotated (entries x) (2 * m) 0 = (entries x 0 : ℂ) := if_pos rfl
      rw [folded, Nat.add_zero, hrot, h0, Nat.cast_zero, zero_div, turn_zero, Complex.mk_eq_add_mul_I]
      push_cast
      ring
    have hmass : foldedMass μ m 0 = 2 * (μ 0 + μ m) := if_pos rfl
    rw [hfold, hmass]
    refine CNear.of_parts ⟨by norm_num, by norm_num, by linarith, by linarith⟩ na.fin nb.fin ?_ ?_
    · have := na.err
      have := nb.err
      have := f2.um_pos
      have e : 19 * (unit * (2 * (μ 0 + μ m))) = 38 * (unit * (μ 0 + μ m)) := by ring
      rw [e]
      dsimp only
      linarith
    · refine (norm_le_abs_add_abs _).trans ?_
      have := na.size
      have := nb.size
      dsimp only
      linarith
  have hmass : foldedMass μ m k = 1.4144 * (μ k + μ (2 * m - k) + (μ (m - k) + μ (m + k))) := if_neg hk0
  have b1 := bounds k
  have b2 := bounds (2 * m - k)
  have b3 := bounds (m - k)
  have b4 := bounds (m + k)
  have fitsK : ∀ c, 0 ≤ c → c ≤ 100 → Fits c (foldedMass μ m k) := by
    intro c hc hc'
    rw [hmass]
    exact ⟨hc, hc', by linarith, by linarith⟩
  rw [if_neg hk0]
  have ha := hh k (by omega) hk
  have hrefl := rotated_conj (entries x) (2 * m) (m - k) (by omega) (by omega)
  rw [show 2 * m - (m - k) = m + k by omega] at hrefl
  by_cases hkm : k = m / 2
  · rw [if_pos hkm]
    have hmk : m - k = k := by omega
    rw [hmk] at hrefl
    have hq : (k : ℝ) / (2 * m) = 1 / 4 := by
      have : (m : ℝ) = 2 * k := by exact_mod_cast (by omega : m = 2 * k)
      have hk' : (k : ℝ) ≠ 0 := by exact_mod_cast hk0
      rw [this]
      field_simp
      norm_num
    have htwo : realOf F32.two = 2 := by
      have hu : F32.two.units = 2 ^ 150 := by decide
      unfold realOf
      rw [hu]
      push_cast
      norm_num
    have hmax : max (1 : ℝ) 2 = 2 := by norm_num
    have hs := (ha.scale (t := F32.two) rfl htwo (by norm_num) (by
      rw [hmax]
      exact ⟨by norm_num, by norm_num, by linarith, by linarith⟩)).2.conj
    rw [hmax] at hs
    have hfold : folded (entries x) m k = (starRingEnd ℂ) (((2 : ℝ) : ℂ) * rotated (entries x) (2 * m) k) := by
      rw [folded, hrefl, hq, turn_quarter, map_mul, Complex.conj_ofReal]
      have hI := Complex.I_mul_I
      push_cast
      linear_combination (rotated (entries x) (2 * m) k - (starRingEnd ℂ) (rotated (entries x) (2 * m) k)) * hI
    rw [hfold]
    refine hs.mono (by norm_num) ?_ (fitsK _ (by norm_num) (by norm_num))
    rw [hmass]
    linarith
  · rw [if_neg hkm]
    have hb := hh (m - k) (by omega) (by omega)
    rw [show 2 * m - (m - k) = m + k by omega] at hb
    have hcm : (0.7072 : ℝ) * (μ k + μ (2 * m - k)) + 0.7072 * (μ (m - k) + μ (m + k)) =
        0.7072 * (μ k + μ (2 * m - k) + (μ (m - k) + μ (m + k))) := by ring
    generalize h.getD k czero = a at ha
    generalize h.getD (m - k) czero = b at hb
    have fq : ∀ c : ℝ, 0 ≤ c → c ≤ 100 → Fits c (0.7072 * (μ k + μ (2 * m - k)) + 0.7072 * (μ (m - k) + μ (m + k))) :=
      fun c hc hc' => ⟨hc, hc', by linarith, by linarith⟩
    have hfe := ha.sum (op := .add) (op' := .sub) hb.conj (fq _ (by norm_num) (by norm_num))
    have hd := ha.sum (op := .sub) (op' := .add) hb.conj.neg (fq _ (by norm_num) (by norm_num))
    have htw : CEntry (twiddle false (4 * (2 * m)) (4 * k)) (turn (k / (2 * m))) := by
      have := twiddle_entry false (4 * (2 * m)) (4 * k) hdvd (by omega)
      have e : direction false * (((4 * k : Nat) : ℝ) / ((4 * (2 * m) : Nat) : ℝ)) = k / (2 * m) := by
        have hd : direction false = 1 := rfl
        rw [hd]
        push_cast
        field_simp
      rwa [e] at this
    rw [neg_neg_f32] at hd
    have hfo := hd.cmul_right htw (fq _ (by norm_num) (by norm_num))
    have hz := (hfe.mono (c' := 8.6 + 2.1 + 6.2) (by norm_num) le_rfl (fq _ (by norm_num) (by norm_num))).sum
      (op := .sub) (op' := .add) hfo.conj.swap (by
        rw [hcm]
        exact ⟨by norm_num, by norm_num, by linarith, by linarith⟩)
    have hfold : folded (entries x) m k = rotated (entries x) (2 * m) k + (starRingEnd ℂ) (rotated (entries x) (2 * m) (m - k)) +
        Complex.I * (starRingEnd ℂ) ((starRingEnd ℂ) ((rotated (entries x) (2 * m) k +
          -(starRingEnd ℂ) (rotated (entries x) (2 * m) (m - k))) * turn (k / (2 * m)))) := by
      rw [folded, hrefl, Complex.conj_conj, sub_eq_add_neg]
    rw [hfold]
    refine hz.mono (by norm_num) ?_ (fitsK _ (by norm_num) (by norm_num))
    rw [hcm, hmass]
    linarith

/-! ### The accuracy law -/

theorem getD_flatMap_pair (z : List Complex32) (j : Nat) :
    (z.flatMap fun c => [c.1, c.2]).getD (2 * j) F32.zero = (z.getD j czero).1 ∧
      (z.flatMap fun c => [c.1, c.2]).getD (2 * j + 1) F32.zero = (z.getD j czero).2 := by
  induction z generalizing j with
  | nil => exact ⟨rfl, rfl⟩
  | cons a z ih =>
    rw [List.flatMap_cons]
    cases j with
    | zero => exact ⟨rfl, rfl⟩
    | succ j => exact ih j

theorem refInverse_accurate {bits : Nat} (hb : 1 ≤ bits) (hb' : bits ≤ 7) {x : List F32} (hlen : x.length = 2 * 2 ^ bits)
    (hfin : ∀ a ∈ x, a.isFinite = true) (hmass : mass x < 2 ^ 96) {i : Nat} (hi : i < 2 * 2 ^ bits) :
    ((refInverse (2 * 2 ^ bits) x).getD i F32.zero).isFinite = true ∧
      |realOf ((refInverse (2 * 2 ^ bits) x).getD i F32.zero) - idct1Exact (2 * 2 ^ bits) (entries x) i| ≤
        256 * (unit * (mass x + (2 * 2 ^ bits : Nat) * floor)) := by
  obtain ⟨m, hmdef⟩ : ∃ m, m = 2 ^ bits := ⟨_, rfl⟩
  have hm2 : m % 2 = 0 := by
    obtain ⟨b, rfl⟩ : ∃ b, bits = b + 1 := ⟨bits - 1, by omega⟩
    rw [hmdef, pow_succ, Nat.mul_mod_left]
  have hdvd : 4 * (2 * m) ∣ 1024 := by
    rw [hmdef, show 4 * (2 * 2 ^ bits) = 2 ^ (bits + 3) by ring, show 1024 = 2 ^ 10 by norm_num]
    exact pow_dvd_pow 2 (by omega)
  have hm256 : m ≤ 128 := by
    rw [hmdef]
    calc 2 ^ bits ≤ 2 ^ 7 := Nat.pow_le_pow_right (by norm_num) hb'
      _ = 128 := by norm_num
  have hm0 : 0 < m := by rw [hmdef]; positivity
  have hok := entryMass_ok hmass
  have hf : ∀ i, floor ≤ entryMass x i ∧ entryMass x i ≤ 2 ^ 100 := fun i =>
    ⟨(hok i).1, (hok i).2.trans (by norm_num)⟩
  have hμ : ∀ i, |entries x i| ≤ entryMass x i := fun i => by
    unfold entryMass
    linarith [floor_pos]
  have hpack : ∀ k, k < m → CNear 19 (foldedMass (entryMass x) m k)
      ((tab m (refPack (2 * m) x (tab m (refPreRotate (2 * m) x)))).getD k czero) (folded (entries x) m k) := by
    intro k hk
    rw [tab_getD _ _ _ _ hk]
    refine refPack_near hdvd hm2 hk (getD_finite hfin) hμ hf fun j hj hjm => ?_
    rw [tab_getD _ _ _ _ hjm]
    exact refPreRotate_near hdvd hj hjm (getD_finite hfin) hμ hf
  have hmassOk : MassOk (foldedMass (entryMass x) m) := by
    intro k
    unfold foldedMass
    have := floor_pos
    have h97 : (8 : ℝ) * 2 ^ 97 = 2 ^ 100 := by norm_num
    have h1 := hok k
    have h2 := hok (2 * m - k)
    have h3 := hok (m - k)
    have h4 := hok (m + k)
    have h5 := hok 0
    have h6 := hok m
    split <;> constructor <;> linarith
  have hfft := fun j hj => fft_near (forward := false) (bits := bits) hmassOk (by norm_num) (by norm_num) hb'
    (fun k hk => hpack k (by rw [hmdef]; exact hk)) j hj
  have hS : ∑ k ∈ Finset.range (2 ^ bits), foldedMass (entryMass x) m k ≤
      2.8288 * (mass x + (2 * 2 ^ bits : Nat) * floor) := by
    have hsum := sum_entryMass x
    rw [hlen, ← hmdef] at hsum
    rw [← hmdef, ← hsum]
    exact sum_foldedMass hm0 fun i => floor_pos.le.trans (hok i).1
  have hbits : (bits : ℝ) ≤ 7 := by exact_mod_cast hb'
  have hout : ∀ p, p < 2 * m →
      (((fft false m (tab m (refPack (2 * m) x (tab m (refPreRotate (2 * m) x))))).flatMap
        fun c => [c.1, c.2]).getD p F32.zero).isFinite = true ∧
      |realOf (((fft false m (tab m (refPack (2 * m) x (tab m (refPreRotate (2 * m) x))))).flatMap
        fun c => [c.1, c.2]).getD p F32.zero) - idct1Exact (2 * m) (entries x) (layout m p)| ≤
        256 * (unit * (mass x + (2 * 2 ^ bits : Nat) * floor)) := by
    intro p hp
    have hj := hfft (p / 2) (by rw [← hmdef]; omega)
    have hw : ∑ i ∈ Finset.range (2 ^ bits), folded (entries x) m i *
        turn (direction false * (i * (p / 2 : Nat) / (2 ^ bits : Nat))) =
        ⟨idct1Exact (2 * m) (entries x) (layout m (2 * (p / 2))),
          idct1Exact (2 * m) (entries x) (layout m (2 * (p / 2) + 1))⟩ := by
      rw [← hmdef, ← sum_folded _ _ _ (by omega)]
      refine Finset.sum_congr rfl fun k _ => ?_
      have hd : direction false = 1 := rfl
      rw [hd, one_mul]
    rw [hw, ← hmdef] at hj
    rw [← hmdef] at hS
    have hpos := hj.fits.pos
    have hum := unit_pos
    have herr : (19 + 8.4 * (bits : ℝ)) * (unit * ∑ i ∈ Finset.range m, foldedMass (entryMass x) m i) ≤
        256 * (unit * (mass x + (2 * m : Nat) * floor)) := by
      have h1 : (19 + 8.4 * (bits : ℝ)) * (unit * ∑ i ∈ Finset.range m, foldedMass (entryMass x) m i) ≤
          77.8 * (unit * (2.8288 * (mass x + (2 * m : Nat) * floor))) :=
        mul_le_mul (by linarith) (mul_le_mul_of_nonneg_left hS hum.le) (mul_nonneg hum.le hpos.le) (by norm_num)
      have h2 : 0 ≤ unit * (mass x + (2 * m : Nat) * floor) := mul_nonneg hum.le (by linarith)
      refine h1.trans ?_
      have e : 77.8 * (unit * (2.8288 * (mass x + (2 * m : Nat) * floor))) =
          220.08064 * (unit * (mass x + (2 * m : Nat) * floor)) := by ring
      rw [e]
      exact mul_le_mul_of_nonneg_right (by norm_num) h2
    obtain ⟨g0, g1⟩ := getD_flatMap_pair (fft false m (tab m (refPack (2 * m) x (tab m (refPreRotate (2 * m) x))))) (p / 2)
    rw [← hmdef]
    rcases Nat.mod_two_eq_zero_or_one p with hpar | hpar
    · rw [show 2 * (p / 2) = p by omega] at g0 hj
      rw [g0]
      exact ⟨hj.re.fin, hj.re.err.trans herr⟩
    · rw [show 2 * (p / 2) + 1 = p by omega] at g1 hj
      rw [g1]
      exact ⟨hj.im.fin, hj.im.err.trans herr⟩
  unfold refInverse
  dsimp only
  rw [tab_getD _ _ _ _ hi, ← hmdef, Nat.mul_div_cancel_left _ (show 0 < 2 by norm_num)]
  rw [← hmdef] at hi hout
  split
  · have := hout (i / 2) (by omega)
    rwa [show layout m (i / 2) = i by unfold layout; split <;> omega] at this
  · have := hout (2 * m - 1 - i / 2) (by omega)
    rwa [show layout m (2 * m - 1 - i / 2) = i by unfold layout; split <;> omega] at this

/-- The lengths from 4 on are twice a power of two. -/
theorem goodLength_cases {n : Nat} (h : goodLength n = true) (h4 : 4 ≤ n) :
    ∃ bits, 1 ≤ bits ∧ bits ≤ 7 ∧ n = 2 * 2 ^ bits := by
  unfold goodLength isPow2 at h
  simp only [Bool.and_eq_true, decide_eq_true_eq, beq_iff_eq, Nat.shiftLeft_eq, Nat.one_mul] at h
  obtain ⟨hle, -, hpow⟩ := h
  have hmax : Config.nmax = 256 := rfl
  generalize F32.topBit n = t at hpow
  have h1 : 2 ≤ t := by
    by_contra hc
    have : 2 ^ t ≤ 2 ^ 1 := Nat.pow_le_pow_right (by norm_num) (by omega)
    omega
  have h2 : t ≤ 8 := by
    by_contra hc
    have : 2 ^ 9 ≤ 2 ^ t := Nat.pow_le_pow_right (by norm_num) (by omega)
    omega
  exact ⟨t - 1, by omega, by omega, by rw [hpow, ← pow_succ', Nat.sub_add_cancel (by omega)]⟩

/-- `REF` meets the accuracy law R127 with the default bound `DCT_EPS` = 2^-16 (R137). -/
theorem ref_accurate : AccuracyLaw .ref (1 / 65536) := by
  intro n h4 hn x hlen hfin _ hmass k hk
  obtain ⟨bits, hb, hb', rfl⟩ := goodLength_cases hn h4
  have h1 : 2 * 2 ^ bits ≠ 1 := by omega
  have h2 : 2 * 2 ^ bits ≠ 2 := by omega
  have hf := refForward_accurate hb hb' hlen hfin hmass hk
  have hi := refInverse_accurate hb hb' hlen hfin hmass hk
  rw [tolerance_default] at hf hi
  unfold dct1 idct1
  rw [if_neg h1, if_neg h2, if_neg h1, if_neg h2]
  exact ⟨hf, hi⟩

end Sys2Proof.Exact
end

