-- ==== Sys2Proof/Laws/Words.lean ====
section
/-! SUPPORT. Every finite result of an operation, and of a transform, is the value of a word (00_scope.md R10): what one pass
writes, the next may read. -/

namespace Sys2Proof.Machine.F32

/-- The value of some word. -/
def IsWord (x : F32) : Prop := ∃ w : Word, x = ofWord w

/-- Storing such a value and reading it back gives it again. -/
theorem IsWord.ofWord_toWord {x : F32} (h : IsWord x) : ofWord x.toWord = x := by
  obtain ⟨w, rfl⟩ := h
  rw [toWord_ofWord]

theorem isWord_zero : IsWord zero := ⟨0, by decide⟩

/-- The value of a word with a given exponent field and fraction. -/
theorem isWord_fields (neg : Bool) (e f : Nat) (he : e < 255) (hf : f < 0x800000) :
    IsWord (.fin neg (if e = 0 then f else (0x800000 + f) <<< (e - 1))) := by
  refine ⟨BitVec.ofNat 32 (signPart neg + e * 0x800000 + f), ?_⟩
  have hs : signPart neg = 0 ∨ signPart neg = 0x80000000 := by cases neg <;> simp [signPart]
  have hn : (BitVec.ofNat 32 (signPart neg + e * 0x800000 + f)).toNat = signPart neg + e * 0x800000 + f := by
    rw [BitVec.toNat_ofNat]
    omega
  have hb : (BitVec.ofNat 32 (signPart neg + e * 0x800000 + f)).getLsbD 31 = neg := by
    rw [BitVec.getLsbD, hn, Nat.testBit_eq_decide_div_mod_eq]
    cases neg
    · have : signPart false = 0 := rfl
      rw [this]
      simp only [decide_eq_false_iff_not]
      omega
    · have : signPart true = 0x80000000 := rfl
      rw [this]
      simp only [decide_eq_true_eq]
      omega
  unfold ofWord
  dsimp only
  rw [hb, hn, show (signPart neg + e * 0x800000 + f) / 0x800000 % 256 = e by omega,
    show (signPart neg + e * 0x800000 + f) % 0x800000 = f by omega, if_neg (show ¬ e = 255 by omega)]

/-- A magnitude of 24 significant bits below 2^277 is the value of a word. -/
theorem isWord_of_bits (neg : Bool) (q j : Nat) (hq : q ≤ 2 ^ 24) (hj : j ≠ 0 → 2 ^ 23 ≤ q) (h : q <<< j < 2 ^ 277) :
    IsWord (.fin neg (q <<< j)) := by
  rw [Nat.shiftLeft_eq] at h ⊢
  by_cases hsmall : q < 2 ^ 23
  · have : j = 0 := by
      by_contra hc
      have := hj hc
      omega
    subst this
    have := isWord_fields neg 0 q (by norm_num) (by omega)
    rwa [if_pos rfl, ← Nat.mul_one q, ← Nat.pow_zero 2] at this
  have bound : ∀ i, 2 ^ 23 * 2 ^ i < 2 ^ 277 → i < 254 := by
    intro i hi
    by_contra hc
    have : 2 ^ 23 * 2 ^ 254 ≤ 2 ^ 23 * 2 ^ i := Nat.mul_le_mul_left _ (Nat.pow_le_pow_right (by norm_num) (by omega))
    have e : 2 ^ 23 * 2 ^ 254 = 2 ^ 277 := by rw [← pow_add]
    omega
  by_cases htop : q = 2 ^ 24
  · subst htop
    have e : 2 ^ 24 * 2 ^ j = 2 ^ 23 * 2 ^ (j + 1) := by rw [pow_succ' 2 j, ← Nat.mul_assoc, ← pow_succ]
    rw [e] at h ⊢
    have := isWord_fields neg (j + 2) 0 (by have := bound _ h; omega) (by norm_num)
    rwa [if_neg (by omega), Nat.shiftLeft_eq, show j + 2 - 1 = j + 1 by omega] at this
  · have hb := bound j (lt_of_le_of_lt (Nat.mul_le_mul_right _ (by omega)) h)
    have := isWord_fields neg (j + 1) (q - 0x800000) (by omega) (by omega)
    rwa [if_neg (by omega), Nat.shiftLeft_eq, show 0x800000 + (q - 0x800000) = q by omega, Nat.add_sub_cancel] at this

theorem topBitBelow_le (k m : Nat) (h : m ≠ 0) : 2 ^ topBitBelow k m ≤ m := by
  induction k generalizing m with
  | zero => exact Nat.one_le_iff_ne_zero.mpr h
  | succ k ih =>
    unfold topBitBelow
    split
    · exact ih m h
    · rename_i hs
      have := ih _ hs
      rw [Nat.shiftRight_eq_div_pow] at this ⊢
      rw [pow_add, Nat.mul_comm]
      exact (Nat.le_div_iff_mul_le (by positivity)).mp this

theorem topBitBelow_large (k m : Nat) (h : 2 ^ 2 ^ k ≤ m) : topBitBelow k m + 1 = 2 ^ k := by
  induction k generalizing m with
  | zero => rfl
  | succ k ih =>
    have e : (1 : Nat) <<< k = 2 ^ k := by rw [Nat.shiftLeft_eq, Nat.one_mul]
    have hq : 2 ^ 2 ^ k ≤ m >>> 2 ^ k := by
      rw [Nat.shiftRight_eq_div_pow, Nat.le_div_iff_mul_le (by positivity), ← pow_add, ← two_mul, ← pow_succ']
      exact h
    have hpos : 0 < 2 ^ 2 ^ k := by positivity
    unfold topBitBelow
    rw [e, if_neg (by omega), Nat.add_assoc, ih _ hq, ← two_mul, ← pow_succ']

/-- A finite result of rounding is the value of a word. -/
theorem isWord_round {s m : Nat} {neg : Bool} (hs : s ≤ 149) (h : (round s neg m).isFinite = true) :
    IsWord (round s neg m) := by
  unfold round at h ⊢
  dsimp only at h ⊢
  split at h
  case isFalse => simp [isFinite] at h
  rename_i hv
  rw [if_pos hv]
  rw [Nat.shiftLeft_eq, Nat.one_mul] at hv
  obtain ⟨e, he⟩ : ∃ e, e = max (topBit m - 23) s := ⟨_, rfl⟩
  obtain ⟨q, hq, hqv⟩ : ∃ q, (q = m >>> e ∨ q = m >>> e + 1) ∧ quantize s m e = q <<< (e - s) := by
    unfold quantize
    dsimp only
    split
    · exact ⟨_, .inr rfl, rfl⟩
    · exact ⟨_, .inl rfl, rfl⟩
  rw [← he, hqv] at hv ⊢
  refine isWord_of_bits neg q (e - s) ?_ ?_ hv
  · have hlt : m < 2 ^ (e + 24) := by
      by_cases hm : m < 2 ^ 2 ^ 10
      · have h1 : m < 2 ^ (topBit m + 1) := by
          rw [topBit_eq_log2 m hm, Nat.log2_eq_log_two]
          exact Nat.lt_pow_succ_log_self (by norm_num) m
        exact lt_of_lt_of_le h1 (Nat.pow_le_pow_right (by norm_num) (by omega))
      · exfalso
        have ht := topBitBelow_large 10 m (by omega)
        have ht' : topBit m = 1023 := by
          show topBitBelow 10 m = 1023
          omega
        have he' : e = 1000 := by omega
        have h1 : 2 ^ 24 ≤ m >>> e := by
          rw [he', Nat.shiftRight_eq_div_pow, Nat.le_div_iff_mul_le (by positivity), ← pow_add]
          omega
        have h2 : 2 ^ 24 * 2 ^ 253 ≤ q <<< (e - s) := by
          rw [Nat.shiftLeft_eq]
          exact Nat.mul_le_mul (by omega) (Nat.pow_le_pow_right (by norm_num) (by omega))
        have e2 : (2 : Nat) ^ 24 * 2 ^ 253 = 2 ^ 277 := by rw [← pow_add]
        omega
    have : m >>> e < 2 ^ 24 := by
      rw [Nat.shiftRight_eq_div_pow, Nat.div_lt_iff_lt_mul (by positivity), ← pow_add, Nat.add_comm]
      exact hlt
    omega
  · intro hj
    have ht : e = topBit m - 23 := by omega
    have h0 : m ≠ 0 := by
      rintro rfl
      have : topBit 0 = 0 := by decide
      omega
    have h1 := topBitBelow_le 10 m h0
    have : 2 ^ 23 ≤ m >>> e := by
      rw [Nat.shiftRight_eq_div_pow, Nat.le_div_iff_mul_le (by positivity), ← pow_add]
      refine le_trans (le_of_eq ?_) h1
      congr 1
      show 23 + e = topBit m
      omega
    omega

/-- A finite sum is the value of a word. -/
theorem isWord_sum {op : FOp} {a b : F32} (h : (sum op a b).isFinite = true) : IsWord (sum op a b) := by
  cases a <;> cases b <;> unfold sum at h ⊢ <;> simp only [quietNaN] at h ⊢
  case fin.fin x m y n =>
    by_cases hxy : x = y
    · rw [if_pos hxy] at h ⊢
      exact isWord_round (by norm_num) h
    rw [if_neg hxy] at h ⊢
    by_cases hmn : m = n
    · rw [if_pos hmn]
      exact isWord_zero
    rw [if_neg hmn] at h ⊢
    split at h
    · rename_i hlt
      rw [if_pos hlt]
      exact isWord_round (by norm_num) h
    · rename_i hlt
      rw [if_neg hlt]
      exact isWord_round (by norm_num) h
  case inf.inf x y =>
    split at h <;> simp [isFinite] at h
  all_goals simp [isFinite] at h

/-- A finite product is the value of a word. -/
theorem isWord_mul {a b : F32} (h : (mul a b).isFinite = true) : IsWord (mul a b) := by
  cases a <;> cases b <;> unfold mul at h ⊢ <;> simp only [quietNaN] at h ⊢
  case fin.fin x m y n => exact isWord_round le_rfl h
  case fin.inf x m y => split at h <;> simp [isFinite] at h
  case inf.fin x y n => split at h <;> simp [isFinite] at h
  all_goals simp [isFinite] at h

end Sys2Proof.Machine.F32

namespace Sys2Proof.Machine

open F32

/-- A pair made by one complex sum or difference. -/
def IsSum (z : Complex32) : Prop := ∃ a b, z = cadd a b ∨ z = csub a b

theorem IsSum.isWord {z : Complex32} (h : IsSum z) :
    (z.1.isFinite = true → IsWord z.1) ∧ (z.2.isFinite = true → IsWord z.2) := by
  obtain ⟨a, b, rfl | rfl⟩ := h <;> exact ⟨isWord_sum, isWord_sum⟩

theorem mem_zipWith_exists {α β γ : Type} {f : α → β → γ} {a : List α} {b : List β} {z : γ}
    (h : z ∈ List.zipWith f a b) : ∃ x y, z = f x y := by
  induction a generalizing b with
  | nil => simp at h
  | cons x a ih =>
    cases b with
    | nil => simp at h
    | cons y b =>
      rw [List.zipWith_cons_cons, List.mem_cons] at h
      rcases h with rfl | h
      · exact ⟨x, y, rfl⟩
      · exact ih h

theorem fftStage_isSum (ws : List Complex32) (half blocks : Nat) (y : List Complex32) :
    ∀ z ∈ fftStage ws half blocks y, IsSum z := by
  induction blocks generalizing y with
  | zero => simp [fftStage]
  | succ blocks ih =>
    intro z hz
    unfold fftStage at hz
    rw [List.mem_append, List.mem_append] at hz
    rcases hz with hz | hz | hz
    · obtain ⟨a, b, h⟩ := mem_zipWith_exists hz
      exact ⟨a, b, .inl h⟩
    · obtain ⟨a, b, h⟩ := mem_zipWith_exists hz
      exact ⟨a, b, .inr h⟩
    · exact ih _ z hz

theorem fftStages_isSum (forward : Bool) (m left half : Nat) (y : List Complex32)
    (h : left = 0 → ∀ z ∈ y, IsSum z) : ∀ z ∈ fftStages forward m left half y, IsSum z := by
  induction left generalizing half y with
  | zero => exact h rfl
  | succ left ih => exact ih _ _ fun _ => fftStage_isSum _ _ _ _

/-- What a property of every entry says of `getD`, the default among them. -/
theorem getD_of_forall {α : Type} {l : List α} {d : α} {P : α → Prop} (h : ∀ a ∈ l, P a) (hd : P d) (i : Nat) :
    P (l.getD i d) := by
  rw [List.getD_eq_getElem?_getD]
  by_cases hi : i < l.length
  · rw [List.getElem?_eq_getElem hi]
    exact h _ (List.getElem_mem hi)
  · rw [List.getElem?_eq_none (by omega)]
    exact hd

/-- A finite output of a 1-D transform is the value of a word. -/
theorem transform_isWord {f : Numerics → Nat → List F32 → List F32} (hf : f = dct1 ∨ f = idct1) {num : Numerics} {n : Nat}
    {x : List F32} (hn : 4 ≤ n) (k : Nat) (h : ((f num n x).getD k F32.zero).isFinite = true) :
    IsWord ((f num n x).getD k F32.zero) := by
  have hopen : ∀ inv, IsWord ((openTransform inv n x).getD k F32.zero) := by
    intro inv
    refine getD_of_forall ?_ isWord_zero k
    intro a ha
    obtain ⟨i, -, rfl⟩ := mem_tab.mp ha
    dsimp only
    split
    · generalize (Config.transformOutput inv n (List.map toWord x) i).getLsbD 31 = s
      cases s
      · exact ⟨0, by decide⟩
      · exact ⟨0x80000000, by decide⟩
    · exact ⟨_, rfl⟩
  rcases hf with rfl | rfl
  · unfold dct1 at h ⊢
    rw [if_neg (by omega), if_neg (by omega)] at h ⊢
    cases num with
    | unspecified => exact hopen _
    | ref =>
      have key : ∀ a ∈ refForward n x, a.isFinite = true → IsWord a := by
        intro a ha hfin
        obtain ⟨i, -, rfl⟩ := mem_tab.mp ha
        unfold refRotate at hfin ⊢
        dsimp only at hfin ⊢
        split at hfin
        · rename_i h1
          rw [if_pos h1]
          exact isWord_mul hfin
        · rename_i h1
          rw [if_neg h1]
          split at hfin
          · rename_i h2
            rw [if_pos h2]
            exact isWord_mul hfin
          · rename_i h2
            rw [if_neg h2]
            exact isWord_mul hfin
      exact getD_of_forall key (fun _ => isWord_zero) k h
  · unfold idct1 at h ⊢
    rw [if_neg (by omega), if_neg (by omega)] at h ⊢
    cases num with
    | unspecified => exact hopen _
    | ref =>
      have htop : topBit (n / 2) ≠ 0 := by
        intro h0
        by_cases hbig : n / 2 < 2 ^ 2 ^ 10
        · rw [topBit_eq_log2 _ hbig, Nat.log2_eq_log_two, Nat.log_eq_zero_iff] at h0
          omega
        · have := topBitBelow_large 10 (n / 2) (by omega)
          unfold topBit at h0
          omega
      have key : ∀ a ∈ refInverse n x, a.isFinite = true → IsWord a := by
        intro a ha
        have hsum := fftStages_isSum false (n / 2) (topBit (n / 2)) 1
          (tab (n / 2) fun j => (tab (n / 2) (refPack n x (tab (n / 2) (refPreRotate n x)))).getD
            (bitrev (topBit (n / 2)) j) czero) (fun h0 => absurd h0 htop)
        have hv : ∀ b ∈ (fft false (n / 2) (tab (n / 2) (refPack n x (tab (n / 2) (refPreRotate n x))))).flatMap
            (fun c => [c.1, c.2]), b.isFinite = true → IsWord b := by
          intro b hb
          obtain ⟨z, hz, hb⟩ := List.mem_flatMap.mp hb
          have hz := (hsum z hz).isWord
          simp only [List.mem_cons, List.not_mem_nil, or_false] at hb
          rcases hb with rfl | rfl
          · exact hz.1
          · exact hz.2
        obtain ⟨i, -, rfl⟩ := mem_tab.mp ha
        split
        · exact getD_of_forall hv (fun _ => isWord_zero) _
        · exact getD_of_forall hv (fun _ => isWord_zero) _
      exact getD_of_forall key (fun _ => isWord_zero) k h

end Sys2Proof.Machine
end

