-- ==== Sys2Proof/Laws/Accuracy2d.lean ====
section
/-! SUPPORT. The 2-D transforms against the exact ones (42_dct2d.md R157), from the accuracy law R127: what one pass over
lines does, lengths 1 and 2 among them, and two passes. -/

namespace Sys2Proof.Exact

open Sys2Proof.Machine

/-! ### What the law says of `DCT_EPS` -/

theorem exists_words {x : List F32} (h : ∀ a ∈ x, F32.IsWord a) : ∃ ws : List Word, x = ws.map F32.ofWord := by
  induction x with
  | nil => exact ⟨[], rfl⟩
  | cons a x ih =>
    obtain ⟨w, rfl⟩ := h a List.mem_cons_self
    obtain ⟨ws, rfl⟩ := ih fun b hb => h b (List.mem_cons_of_mem _ hb)
    exact ⟨w :: ws, rfl⟩

/-- No f32 lies strictly between 1 and `1 + 2^-23`. -/
theorem gap_above_one {x : F32} (hw : F32.IsWord x) : |realOf x - (1 + unit)| ≥ unit := by
  obtain ⟨w, rfl⟩ := hw
  have key : (F32.ofWord w).units ≤ 2 ^ 149 ∨ 2 ^ 149 + 2 ^ 126 ≤ (F32.ofWord w).units := by
    have hpos : (0 : Int) ≤ 2 ^ 149 := by norm_num
    unfold F32.ofWord
    dsimp only
    have he : w.toNat / 0x800000 % 256 < 256 := Nat.mod_lt _ (by norm_num)
    have hf : w.toNat % 0x800000 < 0x800000 := Nat.mod_lt _ (by norm_num)
    generalize w.toNat / 0x800000 % 256 = e at he ⊢
    generalize w.toNat % 0x800000 = f at hf ⊢
    by_cases h255 : e = 255
    · rw [if_pos h255]
      left
      split <;> exact hpos
    rw [if_neg h255]
    have mag : (if e = 0 then f else (0x800000 + f) <<< (e - 1)) ≤ 2 ^ 149 ∨
        2 ^ 149 + 2 ^ 126 ≤ (if e = 0 then f else (0x800000 + f) <<< (e - 1)) := by
      by_cases h0 : e = 0
      · rw [if_pos h0]
        left
        omega
      · rw [if_neg h0, Nat.shiftLeft_eq]
        by_cases hlt : e - 1 < 126
        · left
          have h1 : 2 ^ (e - 1) ≤ 2 ^ 125 := Nat.pow_le_pow_right (by norm_num) (by omega)
          calc (0x800000 + f) * 2 ^ (e - 1) ≤ 2 ^ 24 * 2 ^ 125 := Nat.mul_le_mul (by omega) h1
            _ = 2 ^ 149 := by rw [← pow_add]
        · obtain ⟨i, hi⟩ : ∃ i, e - 1 = 126 + i := ⟨e - 1 - 126, by omega⟩
          rw [hi, pow_add, Nat.mul_left_comm]
          have hi1 : 1 ≤ 2 ^ i := Nat.one_le_two_pow
          by_cases hone : (0x800000 + f) * 2 ^ i ≤ 2 ^ 23
          · left
            calc 2 ^ 126 * ((0x800000 + f) * 2 ^ i) ≤ 2 ^ 126 * 2 ^ 23 := Nat.mul_le_mul_left _ hone
              _ = 2 ^ 149 := by rw [← pow_add]
          · right
            calc 2 ^ 149 + 2 ^ 126 = 2 ^ 126 * (2 ^ 23 + 1) := by rw [Nat.mul_add, ← pow_add, Nat.mul_one]
              _ ≤ 2 ^ 126 * ((0x800000 + f) * 2 ^ i) := Nat.mul_le_mul_left _ (by omega)
    generalize (if e = 0 then f else (0x800000 + f) <<< (e - 1)) = m at mag ⊢
    have hu : (F32.fin (w.getLsbD 31) m).units = if w.getLsbD 31 then -(m : Int) else m := rfl
    rw [hu]
    split
    · left
      have : (0 : Int) ≤ m := Int.natCast_nonneg m
      omega
    · rcases mag with h | h
      · left
        exact_mod_cast h
      · right
        exact_mod_cast h
  have hu : unit = 2 ^ 125 / 2 ^ 149 := by unfold unit; norm_num
  have h1 : (1 : ℝ) = 2 ^ 149 / 2 ^ 149 := by norm_num
  have e : realOf (F32.ofWord w) - (1 + unit) = (((F32.ofWord w).units : ℝ) - (2 ^ 149 + 2 ^ 125)) / 2 ^ 149 := by
    unfold realOf
    rw [hu]
    field_simp
  rw [e, abs_div, abs_of_pos (show (0 : ℝ) < 2 ^ 149 by positivity), ge_iff_le, hu]
  refine div_le_div_of_nonneg_right ?_ (by positivity)
  rcases key with h | h
  · have h' : ((F32.ofWord w).units : ℝ) ≤ 2 ^ 149 := by exact_mod_cast h
    refine le_trans ?_ (neg_le_abs _)
    linarith
  · have h' : (2 : ℝ) ^ 149 + 2 ^ 126 ≤ ((F32.ofWord w).units : ℝ) := by exact_mod_cast h
    have : (2 : ℝ) ^ 126 = 2 * 2 ^ 125 := by norm_num
    refine le_trans ?_ (le_abs_self _)
    linarith

/-- An accuracy bound is at least about half a unit in the last place: no build rounds better. -/
theorem AccuracyLaw.eps_ge {num : Numerics} {eps : ℝ} (h : AccuracyLaw num eps) : unit ≤ 1.01 * eps := by
  obtain ⟨x, hx⟩ : ∃ x : List F32, x = [0x3F800000, 0, 0x33800000, 0].map F32.ofWord := ⟨_, rfl⟩
  have u0 : (F32.ofWord 0x3F800000).units = 2 ^ 149 := by decide
  have u1 : (F32.ofWord 0).units = 0 := by decide
  have u2 : (F32.ofWord 0x33800000).units = 2 ^ 125 := by decide
  have r0 : realOf (F32.ofWord 0x3F800000) = 1 := by
    unfold realOf
    rw [u0]
    push_cast
    norm_num
  have r1 : realOf (F32.ofWord 0) = 0 := by
    unfold realOf
    rw [u1]
    norm_num
  have r2 : realOf (F32.ofWord 0x33800000) = unit := by
    unfold realOf unit
    rw [u2]
    push_cast
    norm_num
  have hmass : mass x = 1 + unit := by
    have hu := unit_pos
    rw [hx]
    unfold mass
    simp only [List.map_cons, List.map_nil, List.sum_cons, List.sum_nil, r0, r1, r2, abs_one, abs_zero, abs_of_pos hu]
    ring
  have hexact : idct1Exact 4 (entries x) 0 = 1 + unit := by
    have e0 : entries x 0 = 1 := by rw [hx]; exact r0
    have e1 : entries x 1 = 0 := by rw [hx]; exact r1
    have e2 : entries x 2 = unit := by rw [hx]; exact r2
    have e3 : entries x 3 = 0 := by rw [hx]; exact r1
    have hc : cosBasis 4 2 0 = Real.sqrt 2 / 2 := by
      unfold cosBasis
      rw [← Real.cos_pi_div_four]
      congr 1
      push_cast
      ring
    have hs : Real.sqrt 2 * Real.sqrt 2 = 2 := Real.mul_self_sqrt (by norm_num)
    unfold idct1Exact
    rw [show Finset.Ico 1 4 = {1, 2, 3} by decide, Finset.sum_insert (by decide), Finset.sum_insert (by decide),
      Finset.sum_singleton, e0, e1, e2, e3, hc]
    linear_combination (unit / 2) * hs
  have hlaw := (h 4 le_rfl (by decide) x (by rw [hx]; rfl) (by
    rw [hx]
    intro a ha
    simp only [List.map_cons, List.map_nil, List.mem_cons, List.not_mem_nil, or_false] at ha
    rcases ha with rfl | rfl | rfl | rfl <;> decide) ⟨_, hx⟩ (by
    rw [hmass]
    unfold unit
    norm_num) 0 (by norm_num)).2
  have hgap := gap_above_one (transform_isWord (.inr rfl) le_rfl 0 hlaw.1)
  have := hgap.trans (hexact ▸ hlaw.2)
  rw [hmass] at this
  unfold tolerance at this
  have h140 : ((4 : Nat) : ℝ) / 2 ^ 140 ≤ 0.001 * unit := by
    unfold unit
    norm_num
  have hu1 : unit ≤ 0.001 := by
    unfold unit
    norm_num
  have hu := unit_pos
  nlinarith

/-! ### One pass -/

/-- The pass `f` over lines of length `n` is within `e` of the mass and the floor from the exact sums with the kernel
`K`. -/
structure LineLaw (f : List F32 → List F32) (K : Nat → Nat → ℝ) (n : Nat) (e : ℝ) : Prop where
  near : ∀ x : List F32, x.length = n → (∀ a ∈ x, a.isFinite = true) → (∀ a ∈ x, F32.IsWord a) → mass x < 2 ^ 96 →
    ∀ k, k < n → ((f x).getD k F32.zero).isFinite = true ∧ F32.IsWord ((f x).getD k F32.zero) ∧
      |realOf ((f x).getD k F32.zero) - ∑ i ∈ Finset.range n, entries x i * K k i| ≤ e * mass x + n / 2 ^ 140
  length : ∀ x : List F32, x.length = n → (f x).length = n
  kernel : ∀ k i, k < n → |K k i| ≤ Real.sqrt 2

/-- The kernel of the forward transform (00_scope.md R12). -/
noncomputable def forwardKernel (n k i : Nat) : ℝ := scale n k * cosBasis n k i

/-- The kernel of the inverse transform (00_scope.md R12). -/
noncomputable def inverseKernel (n i k : Nat) : ℝ := inverseBasis n k i

theorem one_le_sqrt_two : (1 : ℝ) ≤ Real.sqrt 2 := Real.le_sqrt_of_sq_le (by norm_num)

theorem sqrt_two_le : Real.sqrt 2 ≤ 1.4143 := by
  rw [Real.sqrt_le_left (by norm_num)]
  norm_num

theorem abs_cosBasis_le (n k i : Nat) : |cosBasis n k i| ≤ 1 := Real.abs_cos_le_one _

theorem forwardKernel_le (n k i : Nat) (hk : k < n) : |forwardKernel n k i| ≤ Real.sqrt 2 := by
  have hn : (1 : ℝ) ≤ n := by exact_mod_cast (by omega : 1 ≤ n)
  have hs := one_le_sqrt_two
  have hsc : |scale n k| ≤ Real.sqrt 2 := by
    unfold scale
    rw [abs_of_nonneg (by split <;> positivity)]
    split <;> rw [div_le_iff₀ (by positivity)] <;> nlinarith
  unfold forwardKernel
  rw [abs_mul]
  calc |scale n k| * |cosBasis n k i| ≤ Real.sqrt 2 * 1 :=
        mul_le_mul hsc (abs_cosBasis_le n k i) (abs_nonneg _) (by positivity)
    _ = Real.sqrt 2 := mul_one _

theorem inverseKernel_le (n i k : Nat) : |inverseKernel n i k| ≤ Real.sqrt 2 := by
  unfold inverseKernel inverseBasis
  split
  · rw [abs_one]
    exact one_le_sqrt_two
  · rw [abs_mul, abs_of_nonneg (Real.sqrt_nonneg 2)]
    calc Real.sqrt 2 * |cosBasis n k i| ≤ Real.sqrt 2 * 1 :=
          mul_le_mul_of_nonneg_left (abs_cosBasis_le n k i) (Real.sqrt_nonneg 2)
      _ = Real.sqrt 2 := mul_one _

theorem dct1Exact_eq (n k : Nat) (x : Nat → ℝ) :
    dct1Exact n x k = ∑ i ∈ Finset.range n, x i * forwardKernel n k i := by
  unfold dct1Exact forwardKernel
  rw [Finset.mul_sum]
  exact Finset.sum_congr rfl fun i _ => by ring

theorem idct1Exact_eq (n i : Nat) (x : Nat → ℝ) (hn : 0 < n) :
    idct1Exact n x i = ∑ k ∈ Finset.range n, x k * inverseKernel n i k := by
  rw [sum_range_eq_head _ _ hn]
  unfold idct1Exact inverseKernel inverseBasis
  rw [if_pos rfl, mul_one, Finset.mul_sum]
  congr 1
  refine Finset.sum_congr rfl fun k hk => ?_
  rw [if_neg (by have := Finset.mem_Ico.mp hk; omega)]
  ring

theorem goodLength_small {n : Nat} (h : goodLength n = true) (h4 : ¬ 4 ≤ n) : n = 1 ∨ n = 2 := by
  have : n < 4 := by omega
  interval_cases n <;> revert h <;> decide

theorem half_near {s : F32} {r d m : ℝ} (hs : s.isFinite = true) (hd : |realOf s - r| ≤ unit * |r|) (hr : |r| ≤ m)
    (hm : m < 2 ^ 96) (he : d = 1 / 2 * r) :
    (s.mul F32.half).isFinite = true ∧ |realOf (s.mul F32.half) - d| ≤ 1.001 * unit * m + 2 / 2 ^ 140 := by
  subst he
  have hhalf : realOf F32.half = 1 / 2 := by
    have hu : F32.half.units = 2 ^ 148 := by decide
    unfold realOf
    rw [hu]
    push_cast
    norm_num
  have hu := unit_pos
  have hu1 : unit ≤ 0.0001 := by unfold unit; norm_num
  have hr0 := abs_nonneg r
  have hsz : |realOf s| ≤ 1.0001 * m := by
    have := abs_sub_abs_le_abs_sub (realOf s) r
    nlinarith
  have hp : |realOf s * realOf F32.half| ≤ 0.50005 * m := by
    rw [abs_mul, hhalf, abs_of_pos (show (0 : ℝ) < 1 / 2 by norm_num)]
    linarith
  have h126 : (2 : ℝ) ^ 96 ≤ 2 ^ 126 := by norm_num
  obtain ⟨h1, h2⟩ := mul_near hs (show F32.half.isFinite = true from rfl) (hp.trans (by linarith))
  refine ⟨h1, ?_⟩
  have h3 : max |realOf s * realOf F32.half| (1 / 2 ^ 126) ≤ 0.50005 * m + 1 / 2 ^ 126 :=
    max_le (hp.trans (by linarith [show (0 : ℝ) ≤ 1 / 2 ^ 126 by positivity])) (by linarith)
  have h4 := h2.trans (mul_le_mul_of_nonneg_left h3 hu.le)
  have h5 : unit * (1 / 2 ^ 126) ≤ 2 / 2 ^ 140 := by unfold unit; norm_num
  have e : realOf (s.mul F32.half) - 1 / 2 * r =
      (realOf (s.mul F32.half) - realOf s * realOf F32.half) + 1 / 2 * (realOf s - r) := by
    rw [hhalf]
    ring
  have h6 : |1 / 2 * (realOf s - r)| ≤ 1 / 2 * (unit * m) := by
    rw [abs_mul, abs_of_pos (show (0 : ℝ) < 1 / 2 by norm_num)]
    have := hd.trans (mul_le_mul_of_nonneg_left hr hu.le)
    linarith
  rw [e]
  refine (abs_add_le _ _).trans ((add_le_add h4 h6).trans ?_)
  have : 0 ≤ unit * m := mul_nonneg hu.le (hr0.trans hr)
  have e2 : unit * (0.50005 * m + 1 / 2 ^ 126) = 0.50005 * (unit * m) + unit * (1 / 2 ^ 126) := by ring
  have e3 : 1.001 * unit * m = 1.001 * (unit * m) := by ring
  rw [e2, e3]
  linarith

theorem cosBasis_two : cosBasis 2 1 0 = Real.sqrt 2 / 2 ∧ cosBasis 2 1 1 = -(Real.sqrt 2 / 2) := by
  unfold cosBasis
  constructor
  · rw [← Real.cos_pi_div_four]
    congr 1
    push_cast
    ring
  · rw [← Real.cos_pi_div_four, ← Real.cos_pi_sub]
    congr 1
    push_cast
    ring

theorem entries_pair (a b : F32) : entries [a, b] 0 = realOf a ∧ entries [a, b] 1 = realOf b := ⟨rfl, rfl⟩

theorem mass_pair (a b : F32) : mass [a, b] = |realOf a| + |realOf b| := by
  unfold mass
  simp

/-- Every length obeys the line law under the accuracy law: lengths 1 and 2 are exact and rounded once a step. -/
theorem AccuracyLaw.forward {num : Numerics} {eps : ℝ} (h : AccuracyLaw num eps) {n : Nat} (hn : goodLength n = true) :
    LineLaw (dct1 num n) (forwardKernel n) n (1.03 * eps) where
  length x hx := dct1_length num n x fun h1 => hx.trans h1
  kernel k i hk := forwardKernel_le n k i hk
  near x hx hfin hword hmass k hk := by
    have heps := h.eps_ge
    have hm0 : 0 ≤ mass x := (abs_nonneg _).trans (entries_abs_le x 0)
    have hu := unit_pos
    rw [← dct1Exact_eq]
    by_cases h4 : 4 ≤ n
    · obtain ⟨h1, h2⟩ := (h n h4 hn x hx hfin (exists_words hword) hmass k hk).1
      refine ⟨h1, transform_isWord (.inl rfl) h4 k h1, h2.trans ?_⟩
      unfold tolerance
      have : eps * mass x ≤ 1.03 * eps * mass x := mul_le_mul_of_nonneg_right (by linarith) hm0
      linarith
    rcases goodLength_small hn h4 with rfl | rfl
    · obtain ⟨a, rfl⟩ := List.length_eq_one_iff.mp hx
      have hk0 : k = 0 := by omega
      subst hk0
      have hd : dct1 num 1 [a] = [a] := rfl
      rw [hd]
      refine ⟨hfin a List.mem_cons_self, hword a List.mem_cons_self, ?_⟩
      have e : dct1Exact 1 (entries [a]) 0 = realOf a := by
        unfold dct1Exact scale cosBasis
        simp [entries]
      rw [e]
      have : 0 ≤ 1.03 * eps * mass [a] := mul_nonneg (by linarith) hm0
      have e2 : realOf ([a].getD 0 F32.zero) - realOf a = 0 := sub_self _
      rw [e2, abs_zero]
      positivity
    · obtain ⟨a, b, rfl⟩ := List.length_eq_two.mp hx
      have ha := hfin a List.mem_cons_self
      have hb := hfin b (List.mem_cons_of_mem _ List.mem_cons_self)
      rw [mass_pair] at hmass hm0 ⊢
      have h126 : (2 : ℝ) ^ 96 ≤ 2 ^ 126 := by norm_num
      have hsum := abs_add_le (realOf a) (realOf b)
      have hdif := abs_sub (realOf a) (realOf b)
      obtain ⟨s1, s2⟩ := add_near ha hb (hsum.trans (by linarith))
      obtain ⟨d1, d2⟩ := sub_near ha hb (hdif.trans (by linarith))
      have bound : 1.001 * unit * (|realOf a| + |realOf b|) + 2 / 2 ^ 140 ≤
          1.03 * eps * (|realOf a| + |realOf b|) + (2 : Nat) / 2 ^ 140 := by
        push_cast
        have := mul_le_mul_of_nonneg_right (show 1.001 * unit ≤ 1.03 * eps by linarith) hm0
        linarith
      have hs : Real.sqrt 2 * Real.sqrt 2 = 2 := Real.mul_self_sqrt (by norm_num)
      have hd : dct1 num 2 [a, b] = [(a.add b).mul F32.half, (a.sub b).mul F32.half] := rfl
      rw [hd]
      have hk2 : k = 0 ∨ k = 1 := by omega
      rcases hk2 with rfl | rfl
      · have e : dct1Exact 2 (entries [a, b]) 0 = 1 / 2 * (realOf a + realOf b) := by
          unfold dct1Exact scale cosBasis
          rw [Finset.sum_range_succ, Finset.sum_range_one, (entries_pair a b).1, (entries_pair a b).2]
          simp
        obtain ⟨f1, f2⟩ := half_near s1 s2 hsum hmass e
        exact ⟨f1, F32.isWord_mul f1, f2.trans bound⟩
      · have e : dct1Exact 2 (entries [a, b]) 1 = 1 / 2 * (realOf a - realOf b) := by
          unfold dct1Exact scale
          rw [Finset.sum_range_succ, Finset.sum_range_one, (entries_pair a b).1, (entries_pair a b).2, if_neg (by norm_num),
            cosBasis_two.1, cosBasis_two.2]
          push_cast
          linear_combination ((realOf a - realOf b) / 4) * hs
        obtain ⟨f1, f2⟩ := half_near d1 d2 hdif hmass e
        exact ⟨f1, F32.isWord_mul f1, f2.trans bound⟩

/-- The same for the inverse transform. -/
theorem AccuracyLaw.inverse {num : Numerics} {eps : ℝ} (h : AccuracyLaw num eps) {n : Nat} (hn : goodLength n = true) :
    LineLaw (idct1 num n) (inverseKernel n) n (1.03 * eps) where
  length x hx := idct1_length num n x fun h1 => hx.trans h1
  kernel k i _ := inverseKernel_le n k i
  near x hx hfin hword hmass k hk := by
    have heps := h.eps_ge
    have hm0 : 0 ≤ mass x := (abs_nonneg _).trans (entries_abs_le x 0)
    have hu := unit_pos
    rw [← idct1Exact_eq _ _ _ (by omega)]
    by_cases h4 : 4 ≤ n
    · obtain ⟨h1, h2⟩ := (h n h4 hn x hx hfin (exists_words hword) hmass k hk).2
      refine ⟨h1, transform_isWord (.inr rfl) h4 k h1, h2.trans ?_⟩
      unfold tolerance
      have : eps * mass x ≤ 1.03 * eps * mass x := mul_le_mul_of_nonneg_right (by linarith) hm0
      linarith
    rcases goodLength_small hn h4 with rfl | rfl
    · obtain ⟨a, rfl⟩ := List.length_eq_one_iff.mp hx
      have hk0 : k = 0 := by omega
      subst hk0
      have hd : idct1 num 1 [a] = [a] := rfl
      rw [hd]
      refine ⟨hfin a List.mem_cons_self, hword a List.mem_cons_self, ?_⟩
      have e : idct1Exact 1 (entries [a]) 0 = realOf a := by
        unfold idct1Exact
        simp [entries]
      rw [e]
      have : 0 ≤ 1.03 * eps * mass [a] := mul_nonneg (by linarith) hm0
      have e2 : realOf ([a].getD 0 F32.zero) - realOf a = 0 := sub_self _
      rw [e2, abs_zero]
      positivity
    · obtain ⟨a, b, rfl⟩ := List.length_eq_two.mp hx
      have ha := hfin a List.mem_cons_self
      have hb := hfin b (List.mem_cons_of_mem _ List.mem_cons_self)
      rw [mass_pair] at hmass hm0 ⊢
      have h126 : (2 : ℝ) ^ 96 ≤ 2 ^ 126 := by norm_num
      have hsum := abs_add_le (realOf a) (realOf b)
      have hdif := abs_sub (realOf a) (realOf b)
      obtain ⟨s1, s2⟩ := add_near ha hb (hsum.trans (by linarith))
      obtain ⟨d1, d2⟩ := sub_near ha hb (hdif.trans (by linarith))
      have bound : ∀ r : ℝ, |r| ≤ |realOf a| + |realOf b| →
          unit * |r| ≤ 1.03 * eps * (|realOf a| + |realOf b|) + (2 : Nat) / 2 ^ 140 := by
        intro r hr
        have h1 := mul_le_mul_of_nonneg_left hr hu.le
        have h2 := mul_le_mul_of_nonneg_right (show unit ≤ 1.03 * eps by linarith) hm0
        have h3 : (0 : ℝ) ≤ (2 : Nat) / 2 ^ 140 := by positivity
        linarith
      have hs : Real.sqrt 2 * Real.sqrt 2 = 2 := Real.mul_self_sqrt (by norm_num)
      have c0 : ∀ i : Nat, idct1Exact 2 (entries [a, b]) i = realOf a + Real.sqrt 2 * (realOf b * cosBasis 2 1 i) := by
        intro i
        unfold idct1Exact
        rw [show Finset.Ico 1 2 = {1} by decide, Finset.sum_singleton, (entries_pair a b).1, (entries_pair a b).2]
      have hd : idct1 num 2 [a, b] = [a.add b, a.sub b] := rfl
      rw [hd]
      have hk2 : k = 0 ∨ k = 1 := by omega
      rcases hk2 with rfl | rfl
      · have e : idct1Exact 2 (entries [a, b]) 0 = realOf a + realOf b := by
          rw [c0, cosBasis_two.1]
          linear_combination (realOf b / 2) * hs
        rw [e]
        exact ⟨s1, F32.isWord_sum s1, s2.trans (bound _ hsum)⟩
      · have e : idct1Exact 2 (entries [a, b]) 1 = realOf a - realOf b := by
          rw [c0, cosBasis_two.2]
          linear_combination (-(realOf b / 2)) * hs
        rw [e]
        exact ⟨d1, F32.isWord_sum d1, d2.trans (bound _ hdif)⟩

/-! ### Two passes -/

theorem entries_tab (n : Nat) (g : Nat → F32) (i : Nat) (h : i < n) : entries (tab n g) i = realOf (g i) := by
  unfold entries
  rw [tab_getD _ _ _ _ h]

theorem mass_tab (n : Nat) (g : Nat → F32) : mass (tab n g) = ∑ i ∈ Finset.range n, |realOf (g i)| := by
  rw [mass_eq_sum, tab_length]
  exact Finset.sum_congr rfl fun i hi => by rw [entries_tab _ _ _ (Finset.mem_range.mp hi)]

theorem forall_mem_tab {α : Type} {n : Nat} {g : Nat → α} {P : α → Prop} (h : ∀ i, i < n → P (g i)) :
    ∀ a ∈ tab n g, P a := by
  intro a ha
  obtain ⟨i, hi, rfl⟩ := mem_tab.mp ha
  exact h i hi

/-- A pass over the lines of length `n`, then one across them: the errors of the proof sketch of R157. -/
theorem two_passes {f g : List F32 → List F32} {K L : Nat → Nat → ℝ} {n m : Nat} {e : ℝ} (hf : LineLaw f K n e)
    (hg : LineLaw g L m e) (hn : 0 < n) (hm : 0 < m) (hn' : n ≤ 256) (hm' : m ≤ 256) (he : 0 ≤ e) (he' : e ≤ 0.065)
    (p : Nat → Nat → F32) (hfin : ∀ x y, x < n → y < m → (p x y).isFinite = true)
    (hword : ∀ x y, x < n → y < m → F32.IsWord (p x y)) {M : ℝ}
    (hM : ∑ y ∈ Finset.range m, ∑ x ∈ Finset.range n, |realOf (p x y)| = M) (hbig : M < 2 ^ 95) {u v : Nat} (hu : u < n)
    (hv : v < m) :
    ((g (tab m fun y => (f (tab n fun x => p x y)).getD u F32.zero)).getD v F32.zero).isFinite = true ∧
      |realOf ((g (tab m fun y => (f (tab n fun x => p x y)).getD u F32.zero)).getD v F32.zero) -
        ∑ y ∈ Finset.range m, (∑ x ∈ Finset.range n, realOf (p x y) * K u x) * L v y| ≤
          2.9 * e * M + 3 * (n * m) / 2 ^ 140 := by
  obtain ⟨F, hF⟩ : ∃ F : ℝ, F = 1 / 2 ^ 140 := ⟨_, rfl⟩
  have hF0 : 0 ≤ F := by rw [hF]; positivity
  have hn1 : (1 : ℝ) ≤ n := by exact_mod_cast hn
  have hm1 : (1 : ℝ) ≤ m := by exact_mod_cast hm
  have hn2 : (n : ℝ) ≤ 256 := by exact_mod_cast hn'
  have hm2 : (m : ℝ) ≤ 256 := by exact_mod_cast hm'
  have hs0 := Real.sqrt_nonneg 2
  have hs1 := sqrt_two_le
  have hM0 : 0 ≤ M := by
    rw [← hM]
    exact Finset.sum_nonneg fun y _ => Finset.sum_nonneg fun x _ => abs_nonneg _
  have hline : ∀ y, y < m → ∑ x ∈ Finset.range n, |realOf (p x y)| ≤ M := by
    intro y hy
    rw [← hM]
    exact Finset.single_le_sum (f := fun y => ∑ x ∈ Finset.range n, |realOf (p x y)|)
      (fun y _ => Finset.sum_nonneg fun x _ => abs_nonneg _) (Finset.mem_range.mpr hy)
  have h95 : (2 : ℝ) ^ 96 = 2 * 2 ^ 95 := by norm_num
  obtain ⟨T, hT⟩ : ∃ T : Nat → F32, T = fun y => (f (tab n fun x => p x y)).getD u F32.zero := ⟨_, rfl⟩
  obtain ⟨E, hE⟩ : ∃ E : Nat → ℝ, E = fun y => ∑ x ∈ Finset.range n, realOf (p x y) * K u x := ⟨_, rfl⟩
  obtain ⟨μ, hμ⟩ : ∃ μ : Nat → ℝ, μ = fun y => ∑ x ∈ Finset.range n, |realOf (p x y)| := ⟨_, rfl⟩
  have hμM : ∑ y ∈ Finset.range m, μ y = M := by rw [hμ]; exact hM
  have first : ∀ y, y < m → (T y).isFinite = true ∧ F32.IsWord (T y) ∧ |realOf (T y) - E y| ≤ e * μ y + n * F := by
    intro y hy
    have := hf.near (tab n fun x => p x y) (tab_length _ _) (forall_mem_tab fun x hx => hfin x y hx hy)
      (forall_mem_tab fun x hx => hword x y hx hy) (by
        rw [mass_tab]
        exact lt_of_le_of_lt (hline y hy) (by linarith)) u hu
    rw [mass_tab] at this
    have hsum : ∑ i ∈ Finset.range n, entries (tab n fun x => p x y) i * K u i = E y := by
      rw [hE]
      exact Finset.sum_congr rfl fun x hx => by rw [entries_tab _ _ _ (Finset.mem_range.mp hx)]
    rw [hsum] at this
    rw [hT, hμ, hF]
    refine ⟨this.1, this.2.1, this.2.2.trans (le_of_eq ?_)⟩
    ring
  have hEμ : ∀ y, |E y| ≤ Real.sqrt 2 * μ y := by
    intro y
    rw [hE, hμ]
    refine (Finset.abs_sum_le_sum_abs _ _).trans ?_
    dsimp only
    rw [Finset.mul_sum]
    refine Finset.sum_le_sum fun x _ => ?_
    rw [abs_mul, mul_comm]
    exact mul_le_mul_of_nonneg_right (hf.kernel u x hu) (abs_nonneg _)
  have hconst : ∑ y ∈ Finset.range m, (n : ℝ) * F = m * (n * F) := by
    rw [Finset.sum_const, Finset.card_range, nsmul_eq_mul]
  have hmass : ∑ y ∈ Finset.range m, |realOf (T y)| ≤ (Real.sqrt 2 + e) * M + m * (n * F) := by
    rw [← hμM, ← hconst, Finset.mul_sum, ← Finset.sum_add_distrib]
    refine Finset.sum_le_sum fun y hy => ?_
    have h1 := (first y (Finset.mem_range.mp hy)).2.2
    have h2 := abs_sub_abs_le_abs_sub (realOf (T y)) (E y)
    have h3 := hEμ y
    linarith
  have hmn : (m : ℝ) * (n * F) ≤ 1 := by
    have h1 : (m : ℝ) * n ≤ 256 * 256 := mul_le_mul hm2 hn2 (by linarith) (by norm_num)
    have h2 : (256 : ℝ) * 256 * F ≤ 1 := by rw [hF]; norm_num
    have h3 := mul_le_mul_of_nonneg_right h1 hF0
    linarith
  have hmass96 : (Real.sqrt 2 + e) * M + m * (n * F) < 2 ^ 96 := by
    have h1 : (Real.sqrt 2 + e) * M ≤ 1.5 * M := mul_le_mul_of_nonneg_right (by linarith) hM0
    have h2 : (1 : ℝ) ≤ 0.1 * 2 ^ 95 := by norm_num
    linarith
  have second := hg.near (tab m T) (tab_length _ _) (forall_mem_tab fun y hy => (first y hy).1)
    (forall_mem_tab fun y hy => (first y hy).2.1) (by
      rw [mass_tab]
      exact lt_of_le_of_lt hmass hmass96) v hv
  rw [mass_tab] at second
  have hsum : ∑ i ∈ Finset.range m, entries (tab m T) i * L v i = ∑ y ∈ Finset.range m, realOf (T y) * L v y :=
    Finset.sum_congr rfl fun y hy => by rw [entries_tab _ _ _ (Finset.mem_range.mp hy)]
  rw [hsum] at second
  have hcarry : |∑ y ∈ Finset.range m, realOf (T y) * L v y - ∑ y ∈ Finset.range m, E y * L v y| ≤
      Real.sqrt 2 * (e * M + m * (n * F)) := by
    rw [← Finset.sum_sub_distrib, ← hμM, ← hconst, Finset.mul_sum, ← Finset.sum_add_distrib, Finset.mul_sum]
    refine (Finset.abs_sum_le_sum_abs _ _).trans (Finset.sum_le_sum fun y hy => ?_)
    have hy' := Finset.mem_range.mp hy
    rw [← sub_mul, abs_mul, mul_comm]
    exact mul_le_mul (hg.kernel v y hv) (first y hy').2.2 (abs_nonneg _) hs0
  rw [hT] at second hcarry
  have hEsum : ∑ y ∈ Finset.range m, E y * L v y =
      ∑ y ∈ Finset.range m, (∑ x ∈ Finset.range n, realOf (p x y) * K u x) * L v y := by rw [hE]
  rw [hEsum] at hcarry
  refine ⟨second.1, (abs_sub_le _ _ _).trans ((add_le_add second.2.2 hcarry).trans ?_)⟩
  rw [hT] at hmass
  have hmul := mul_le_mul_of_nonneg_left hmass he
  have hmF : (m : ℝ) / 2 ^ 140 = m * F := by rw [hF]; ring
  have h3F : 3 * ((n : ℝ) * m) / 2 ^ 140 = 3 * (m * (n * F)) := by rw [hF]; ring
  have hmm : (m : ℝ) * F ≤ m * (n * F) := by
    have : F ≤ n * F := by nlinarith
    exact mul_le_mul_of_nonneg_left this (by linarith)
  rw [hmF, h3F]
  have hmnF : 0 ≤ (m : ℝ) * (n * F) := by positivity
  have t1 : e * ((Real.sqrt 2 + e) * M + m * (n * F)) ≤ e * M * 1.4793 + 0.065 * (m * (n * F)) := by
    have a1 : e * M * (Real.sqrt 2 + e) ≤ e * M * 1.4793 :=
      mul_le_mul_of_nonneg_left (by linarith) (mul_nonneg he hM0)
    have a2 : e * (m * (n * F)) ≤ 0.065 * (m * (n * F)) := mul_le_mul_of_nonneg_right he' hmnF
    have a3 : e * ((Real.sqrt 2 + e) * M + m * (n * F)) = e * M * (Real.sqrt 2 + e) + e * (m * (n * F)) := by ring
    linarith
  have t2 : Real.sqrt 2 * (e * M + m * (n * F)) ≤ 1.4143 * (e * M + m * (n * F)) :=
    mul_le_mul_of_nonneg_right hs1 (by have := mul_nonneg he hM0; linarith)
  have := mul_nonneg he hM0
  linarith

/-! ### The fixed pass order -/

theorem getD_map {α β : Type} (l : List α) (f : α → β) (a : α) (b : β) (i : Nat) (h : i < l.length) :
    (l.map f).getD i b = f (l.getD i a) := by
  rw [List.getD_eq_getElem?_getD, List.getD_eq_getElem?_getD, List.getElem?_map, List.getElem?_eq_getElem h]
  rfl

/-- A line of a transpose is a column. -/
theorem getD_transpose (w x : Nat) (b : Block) (h : x < w) :
    (transpose w b).getD x [] = b.map fun row => row.getD x F32.zero := tab_getD _ _ _ _ h

theorem at_transpose (w x y : Nat) (b : Block) (hx : x < w) (hy : y < b.length) :
    (transpose w b).at y x = b.at x y := by
  unfold Block.at
  rw [getD_transpose _ _ _ hx, getD_map _ _ [] _ _ hy]

theorem at_map (f : List F32 → List F32) (b : Block) (x y : Nat) (hy : y < b.length) :
    Block.at (b.map f) x y = (f (b.getD y [])).getD x F32.zero := by
  unfold Block.at
  rw [getD_map _ _ [] _ _ hy]

theorem list_eq_tab {α : Type} (l : List α) (n : Nat) (d : α) (h : l.length = n) : l = tab n fun i => l.getD i d := by
  apply List.ext_getElem
  · rw [tab_length, h]
  · intro i h1 h2
    have := tab_getD n (fun i => l.getD i d) i d (h ▸ h1)
    rw [List.getD_eq_getElem?_getD, List.getElem?_eq_getElem h2] at this
    simp only [Option.getD_some] at this
    rw [this, List.getD_eq_getElem?_getD, List.getElem?_eq_getElem h1, Option.getD_some]

/-- A row of an array of the right shape, and a column. -/
theorem row_eq_tab {w h : Nat} {b : Block} (hb : Block.shaped w h b) (y : Nat) (hy : y < h) :
    b.getD y [] = tab w fun x => b.at x y := by
  refine list_eq_tab _ w F32.zero ?_
  rw [List.getD_eq_getElem?_getD, List.getElem?_eq_getElem (by rw [hb.1]; exact hy)]
  exact hb.2 _ (List.getElem_mem _)

theorem column_eq_tab {w h : Nat} {b : Block} (hb : Block.shaped w h b) (x : Nat) (hx : x < w) :
    (transpose w b).getD x [] = tab h fun y => b.at x y := by
  have e := row_eq_tab (transpose_shaped w h b hb.1) x hx
  rw [e]
  exact List.map_congr_left fun y hy => by
    rw [at_transpose _ _ _ _ hx (by rw [hb.1]; exact List.mem_range.mp hy)]

/-- The composition of R152 with any 1-D passes that obey the line law. -/
theorem separable_near {f : Nat → List F32 → List F32} {K : Nat → Nat → Nat → ℝ} {w h : Nat} {e : ℝ}
    (hlw : LineLaw (f w) (K w) w e) (hlh : LineLaw (f h) (K h) h e) (hw : 0 < w) (hh : 0 < h) (hw' : w ≤ 256)
    (hh' : h ≤ 256) (he : 0 ≤ e) (he' : e ≤ 0.065) {b : Block} (hb : Block.shaped w h b)
    (hfin : ∀ x y, x < w → y < h → (b.at x y).isFinite = true) (hword : ∀ x y, x < w → y < h → F32.IsWord (b.at x y))
    {M : ℝ} (hM : ∑ x ∈ Finset.range w, ∑ y ∈ Finset.range h, |realOf (b.at x y)| = M) (hbig : M < 2 ^ 95) {u v : Nat}
    (hu : u < w) (hv : v < h) :
    ((separable f w h b).at u v).isFinite = true ∧
      |realOf ((separable f w h b).at u v) -
        ∑ x ∈ Finset.range w, ∑ y ∈ Finset.range h, realOf (b.at x y) * (K w u x * K h v y)| ≤
          2.9 * e * M + 3 * (w * h) / 2 ^ 140 := by
  unfold separable
  split
  · have h1 := map_shaped w w h b (f w) hb hlw.length
    have h2 := transpose_shaped w h _ h1.1
    have h3 := map_shaped h h w _ (f h) h2 hlh.length
    rw [at_transpose _ _ _ _ hv (by rw [h3.1]; exact hu), at_map _ _ _ _ (by rw [h2.1]; exact hu), column_eq_tab h1 _ hu]
    have hT : (tab h fun y => Block.at (b.map (f w)) u y) =
        tab h fun y => (f w (tab w fun x => b.at x y)).getD u F32.zero :=
      List.map_congr_left fun y hy => by
        rw [at_map _ _ _ _ (by rw [hb.1]; exact List.mem_range.mp hy), row_eq_tab hb y (List.mem_range.mp hy)]
    rw [hT]
    have key := two_passes hlw hlh hw hh hw' hh' he he' (fun x y => b.at x y) hfin hword
      (by rw [Finset.sum_comm]; exact hM) hbig hu hv
    have hsum : ∑ x ∈ Finset.range w, ∑ y ∈ Finset.range h, realOf (b.at x y) * (K w u x * K h v y) =
        ∑ y ∈ Finset.range h, (∑ x ∈ Finset.range w, realOf (b.at x y) * K w u x) * K h v y := by
      rw [Finset.sum_comm]
      refine Finset.sum_congr rfl fun y _ => ?_
      rw [Finset.sum_mul]
      exact Finset.sum_congr rfl fun x _ => by ring
    rw [hsum]
    exact key
  · have h1 := transpose_shaped w h b hb.1
    have h2 := map_shaped h h w _ (f h) h1 hlh.length
    have h3 := transpose_shaped h w _ h2.1
    rw [at_map _ _ _ _ (by rw [h3.1]; exact hv), column_eq_tab h2 _ hv]
    have hT : (tab w fun x => Block.at ((transpose w b).map (f h)) v x) =
        tab w fun x => (f h (tab h fun y => b.at x y)).getD v F32.zero :=
      List.map_congr_left fun x hx => by
        rw [at_map _ _ _ _ (by rw [h1.1]; exact List.mem_range.mp hx), column_eq_tab hb x (List.mem_range.mp hx)]
    rw [hT]
    have key := two_passes hlh hlw hh hw hh' hw' he he' (fun y x => b.at x y) (fun y x hy hx => hfin x y hx hy)
      (fun y x hy hx => hword x y hx hy) hM hbig hv hu
    have hsum : ∑ x ∈ Finset.range w, ∑ y ∈ Finset.range h, realOf (b.at x y) * (K w u x * K h v y) =
        ∑ x ∈ Finset.range w, (∑ y ∈ Finset.range h, realOf (b.at x y) * K h v y) * K w u x := by
      refine Finset.sum_congr rfl fun x _ => ?_
      rw [Finset.sum_mul]
      exact Finset.sum_congr rfl fun y _ => by ring
    rw [hsum, mul_comm (w : ℝ)]
    exact key

theorem goodLength_bounds {n : Nat} (h : goodLength n = true) : 0 < n ∧ n ≤ 256 := by
  unfold goodLength isPow2 at h
  simp only [Bool.and_eq_true, decide_eq_true_eq] at h
  exact ⟨Nat.pos_of_ne_zero h.2.1, h.1⟩

/-- The 2-D bound of R157, for the forward and the inverse transform. -/
theorem AccuracyLaw.two_dimensional {num : Numerics} {eps : ℝ} (h : AccuracyLaw num eps) (heps : eps ≤ 1 / 16) {w hh : Nat}
    (hw : goodLength w = true) (hhg : goodLength hh = true) {b : Block} (hb : Block.shaped w hh b)
    (hfin : ∀ x y, x < w → y < hh → (b.at x y).isFinite = true)
    (hword : ∀ x y, x < w → y < hh → F32.IsWord (b.at x y)) {M : ℝ}
    (hM : ∑ x ∈ Finset.range w, ∑ y ∈ Finset.range hh, |realOf (b.at x y)| = M) (hbig : M < 2 ^ 95) {u v : Nat}
    (hu : u < w) (hv : v < hh) :
    (((dct2 num w hh b).at u v).isFinite = true ∧
      |realOf ((dct2 num w hh b).at u v) - dct2Exact w hh (fun x y => realOf (b.at x y)) u v| ≤
        3 * eps * M + 3 * (w * hh) / 2 ^ 140) ∧
    (((idct2 num w hh b).at u v).isFinite = true ∧
      |realOf ((idct2 num w hh b).at u v) - idct2Exact w hh (fun x y => realOf (b.at x y)) u v| ≤
        3 * eps * M + 3 * (w * hh) / 2 ^ 140) := by
  have hge := h.eps_ge
  have hu0 := unit_pos
  have he : 0 ≤ 1.03 * eps := by linarith
  have he' : 1.03 * eps ≤ 0.065 := by linarith
  obtain ⟨hw0, hw256⟩ := goodLength_bounds hw
  obtain ⟨hh0, hh256⟩ := goodLength_bounds hhg
  have hM0 : 0 ≤ M := by
    rw [← hM]
    exact Finset.sum_nonneg fun x _ => Finset.sum_nonneg fun y _ => abs_nonneg _
  have hle : 2.9 * (1.03 * eps) * M ≤ 3 * eps * M := mul_le_mul_of_nonneg_right (by linarith) hM0
  constructor
  · obtain ⟨h1, h2⟩ := separable_near (f := dct1 num) (h.forward hw) (h.forward hhg) hw0 hh0 hw256 hh256 he he' hb hfin
      hword hM hbig hu hv
    refine ⟨h1, ?_⟩
    have hx : dct2Exact w hh (fun x y => realOf (b.at x y)) u v =
        ∑ x ∈ Finset.range w, ∑ y ∈ Finset.range hh,
          realOf (b.at x y) * (forwardKernel w u x * forwardKernel hh v y) := by
      unfold dct2Exact forwardKernel
      rw [Finset.mul_sum]
      refine Finset.sum_congr rfl fun x _ => ?_
      rw [Finset.mul_sum]
      exact Finset.sum_congr rfl fun y _ => by ring
    rw [hx]
    exact h2.trans (by linarith)
  · obtain ⟨h1, h2⟩ := separable_near (f := idct1 num) (h.inverse hw) (h.inverse hhg) hw0 hh0 hw256 hh256 he he' hb hfin
      hword hM hbig hu hv
    refine ⟨h1, ?_⟩
    have hx : idct2Exact w hh (fun x y => realOf (b.at x y)) u v =
        ∑ x ∈ Finset.range w, ∑ y ∈ Finset.range hh,
          realOf (b.at x y) * (inverseKernel w u x * inverseKernel hh v y) := by
      unfold idct2Exact inverseKernel
      refine Finset.sum_congr rfl fun x _ => Finset.sum_congr rfl fun y _ => by ring
    rw [hx]
    exact h2.trans (by linarith)

end Sys2Proof.Exact
end

