-- ==== Sys2Proof/Laws/PerInstr.lean ====
section
/-! SUPPORT. One lemma per command: its word matches its own row of spec/opcode_table.json (30_encoding.md R80). -/

namespace Sys2Proof.Laws.FitsRow

set_option Elab.async false

/-- The row of the opcode table that the command is. -/
def rowIndex : Instr → Nat
  | .gridNew _ => 0
  | .viewNew _ => 1
  | .getSample _ => 2
  | .setSample _ => 3
  | .swap _ => 4
  | .widenQ _ => 5
  | .free _ => 6
  | .dct1d => 7
  | .idct1d => 8
  | .dct2d _ => 9
  | .idct2d _ => 10
  | .itxDct8 _ => 11
  | .itxHornuss _ => 12
  | .itxDct2 _ => 13
  | .itxDct4 _ => 14
  | .itxDct16 _ => 15
  | .itxDct32 _ => 16
  | .itxDct16X8 _ => 17
  | .itxDct8X16 _ => 18
  | .itxDct32X8 _ => 19
  | .itxDct8X32 _ => 20
  | .itxDct32X16 _ => 21
  | .itxDct16X32 _ => 22
  | .itxDct4X8 _ => 23
  | .itxDct8X4 _ => 24
  | .itxAfv0 _ => 25
  | .itxAfv1 _ => 26
  | .itxAfv2 _ => 27
  | .itxAfv3 _ => 28
  | .itxDct64 _ => 29
  | .itxDct64X32 _ => 30
  | .itxDct32X64 _ => 31
  | .itxDct128 _ => 32
  | .itxDct128X64 _ => 33
  | .itxDct64X128 _ => 34
  | .itxDct256 _ => 35
  | .itxDct256X128 _ => 36
  | .itxDct128X256 _ => 37
  | .itxUnsupported27 _ => 38
  | .itxUnsupported28_31 _ _ => 39

/-- The word of a well-formed command matches its own row. -/
def Statement (i : Instr) : Prop :=
  i.wellFormed = true → (opcodeTable[rowIndex i]?).any (fun r => r.matches (encode i)) = true

theorem gridNew (d : Slot) : Statement (.gridNew d) := by
  revert d
  unfold Statement
  decide +kernel

theorem viewNew (d : Slot) : Statement (.viewNew d) := by
  revert d
  unfold Statement
  decide +kernel

theorem getSample (d : Slot) : Statement (.getSample d) := by
  revert d
  unfold Statement
  decide +kernel

theorem setSample (d : Slot) : Statement (.setSample d) := by
  revert d
  unfold Statement
  decide +kernel

theorem swap (d : Slot) : Statement (.swap d) := by
  revert d
  unfold Statement
  decide +kernel

theorem widenQ (d : Slot) : Statement (.widenQ d) := by
  revert d
  unfold Statement
  decide +kernel

theorem free (d : Slot) : Statement (.free d) := by
  revert d
  unfold Statement
  decide +kernel

theorem dct1d : Statement .dct1d := by
  unfold Statement
  decide +kernel

theorem idct1d : Statement .idct1d := by
  unfold Statement
  decide +kernel

theorem dct2d (d : Slot) : Statement (.dct2d d) := by
  revert d
  unfold Statement
  decide +kernel

theorem idct2d (d : Slot) : Statement (.idct2d d) := by
  revert d
  unfold Statement
  decide +kernel

theorem itxDct8 (d : Slot) : Statement (.itxDct8 d) := by
  revert d
  unfold Statement
  decide +kernel

theorem itxHornuss (d : Slot) : Statement (.itxHornuss d) := by
  revert d
  unfold Statement
  decide +kernel

theorem itxDct2 (d : Slot) : Statement (.itxDct2 d) := by
  revert d
  unfold Statement
  decide +kernel

theorem itxDct4 (d : Slot) : Statement (.itxDct4 d) := by
  revert d
  unfold Statement
  decide +kernel

theorem itxDct16 (d : Slot) : Statement (.itxDct16 d) := by
  revert d
  unfold Statement
  decide +kernel

theorem itxDct32 (d : Slot) : Statement (.itxDct32 d) := by
  revert d
  unfold Statement
  decide +kernel

theorem itxDct16X8 (d : Slot) : Statement (.itxDct16X8 d) := by
  revert d
  unfold Statement
  decide +kernel

theorem itxDct8X16 (d : Slot) : Statement (.itxDct8X16 d) := by
  revert d
  unfold Statement
  decide +kernel

theorem itxDct32X8 (d : Slot) : Statement (.itxDct32X8 d) := by
  revert d
  unfold Statement
  decide +kernel

theorem itxDct8X32 (d : Slot) : Statement (.itxDct8X32 d) := by
  revert d
  unfold Statement
  decide +kernel

theorem itxDct32X16 (d : Slot) : Statement (.itxDct32X16 d) := by
  revert d
  unfold Statement
  decide +kernel

theorem itxDct16X32 (d : Slot) : Statement (.itxDct16X32 d) := by
  revert d
  unfold Statement
  decide +kernel

theorem itxDct4X8 (d : Slot) : Statement (.itxDct4X8 d) := by
  revert d
  unfold Statement
  decide +kernel

theorem itxDct8X4 (d : Slot) : Statement (.itxDct8X4 d) := by
  revert d
  unfold Statement
  decide +kernel

theorem itxAfv0 (d : Slot) : Statement (.itxAfv0 d) := by
  revert d
  unfold Statement
  decide +kernel

theorem itxAfv1 (d : Slot) : Statement (.itxAfv1 d) := by
  revert d
  unfold Statement
  decide +kernel

theorem itxAfv2 (d : Slot) : Statement (.itxAfv2 d) := by
  revert d
  unfold Statement
  decide +kernel

theorem itxAfv3 (d : Slot) : Statement (.itxAfv3 d) := by
  revert d
  unfold Statement
  decide +kernel

theorem itxDct64 (d : Slot) : Statement (.itxDct64 d) := by
  revert d
  unfold Statement
  decide +kernel

theorem itxDct64X32 (d : Slot) : Statement (.itxDct64X32 d) := by
  revert d
  unfold Statement
  decide +kernel

theorem itxDct32X64 (d : Slot) : Statement (.itxDct32X64 d) := by
  revert d
  unfold Statement
  decide +kernel

theorem itxDct128 (d : Slot) : Statement (.itxDct128 d) := by
  revert d
  unfold Statement
  decide +kernel

theorem itxDct128X64 (d : Slot) : Statement (.itxDct128X64 d) := by
  revert d
  unfold Statement
  decide +kernel

theorem itxDct64X128 (d : Slot) : Statement (.itxDct64X128 d) := by
  revert d
  unfold Statement
  decide +kernel

theorem itxDct256 (d : Slot) : Statement (.itxDct256 d) := by
  revert d
  unfold Statement
  decide +kernel

theorem itxDct256X128 (d : Slot) : Statement (.itxDct256X128 d) := by
  revert d
  unfold Statement
  decide +kernel

theorem itxDct128X256 (d : Slot) : Statement (.itxDct128X256 d) := by
  revert d
  unfold Statement
  decide +kernel

theorem itxUnsupported27 (d : Slot) : Statement (.itxUnsupported27 d) := by
  revert d
  unfold Statement
  decide +kernel

theorem itxUnsupported28_31 (d : Slot) (tt : Fin 32) : Statement (.itxUnsupported28_31 d tt) := by
  revert d tt
  unfold Statement
  decide +kernel

end Sys2Proof.Laws.FitsRow
end

