-- ==== Sys2Proof/Laws/Region.lean ====
section
/-! SUPPORT. Descriptor regions: where they lie, reading one as a 2-D array, and writing one row by row. -/

namespace Sys2Proof.Machine

/-- Rows never overlap: the stride is at least the width. -/
theorem Desc.Legal.width_le_stride {p : Params} {x : Desc} (h : x.Legal p) (hk : x.kind ≠ .empty) :
    x.w ≤ x.stride.toNat := by
  rcases hx : x.kind with _ | _ | _
  · exact absurd hx hk
  · rw [(h.2.1 hx).stride_width]
    exact le_rfl
  · exact (h.2.2 hx).stride_ge

theorem Desc.Legal.height_pos {p : Params} {x : Desc} (h : x.Legal p) (hk : x.kind ≠ .empty) : 1 ≤ x.h := by
  rcases hx : x.kind with _ | _ | _
  · exact absurd hx hk
  · exact (h.2.1 hx).height_pos
  · exact (h.2.2 hx).height_pos

theorem Desc.Legal.width_pos {p : Params} {x : Desc} (h : x.Legal p) (hk : x.kind ≠ .empty) : 1 ≤ x.w := by
  rcases hx : x.kind with _ | _ | _
  · exact absurd hx hk
  · exact (h.2.1 hx).width_pos
  · exact (h.2.2 hx).width_pos

/-- The region ends inside the storage the descriptor covers. -/
theorem Desc.Legal.regionEnd_le_len {p : Params} {x : Desc} (h : x.Legal p) (hk : x.kind ≠ .empty) :
    x.regionEnd ≤ x.base.toNat + x.len.toNat := by
  unfold Desc.regionEnd Desc.addr Desc.origin
  rcases hx : x.kind with _ | _ | _
  · exact absurd hx hk
  · have g := h.2.1 hx
    have hs : x.stride.toNat = x.w := by rw [g.stride_width]; rfl
    have hh := g.height_pos
    have hm : (x.h - 1) * x.w + x.w = x.w * x.h := by
      obtain ⟨k, hk⟩ : ∃ k, x.h = k + 1 := ⟨x.h - 1, by omega⟩
      rw [hk, Nat.add_sub_cancel, Nat.mul_comm x.w, Nat.succ_mul]
    have := g.len_eq
    rw [hs]
    omega
  · have v := h.2.2 hx
    have ho : x.offset.toNat = 0 := by rw [v.offset_zero]; rfl
    have := v.len_ge
    rw [Nat.mul_comm] at this
    omega

theorem Desc.Legal.in_sram {p : Params} {x : Desc} (h : x.Legal p) (hk : x.kind ≠ .empty) :
    x.base.toNat + x.len.toNat ≤ p.sramWords := by
  rcases hx : x.kind with _ | _ | _
  · exact absurd hx hk
  · exact (h.2.1 hx).in_sram
  · exact (h.2.2 hx).in_sram

theorem Desc.Legal.regionEnd_le {p : Params} {x : Desc} (h : x.Legal p) (hk : x.kind ≠ .empty) :
    x.regionEnd ≤ p.sramWords :=
  (h.regionEnd_le_len hk).trans (h.in_sram hk)

/-- A legal descriptor passes the map check. -/
theorem onMap_of_legal {s : State} {x : Desc} {v : Verdict} (h : x.Legal s.params) (hk : x.kind ≠ .empty) :
    onMap x s v = v := if_pos (h.regionEnd_le hk)

theorem withDesc_empty {d : Slot} {s : State} {f : Desc → Verdict} (h : (s.desc[d]).kind = .empty) :
    withDesc d s f = .raises .badDesc := if_pos h

theorem withDesc_defined {d : Slot} {s : State} {f : Desc → Verdict} (h : (s.desc[d]).kind ≠ .empty) :
    withDesc d s f = f s.desc[d] := if_neg h

theorem Desc.row_end_le (x : Desc) (row : Nat) (hr : row < x.h) : x.addr x.w row ≤ x.regionEnd := by
  unfold Desc.regionEnd Desc.addr
  have : row * x.stride.toNat ≤ (x.h - 1) * x.stride.toNat := Nat.mul_le_mul_right _ (by omega)
  omega

theorem Desc.addr_zero_add (x : Desc) (col row : Nat) : x.addr 0 row + col = x.addr col row := by
  unfold Desc.addr
  omega

/-- A later row begins after an earlier row's end. -/
theorem Desc.rows_apart (x : Desc) (hw : x.w ≤ x.stride.toNat) {r r' : Nat} (h : r < r') :
    x.addr x.w r ≤ x.addr 0 r' := by
  unfold Desc.addr
  have : (r + 1) * x.stride.toNat ≤ r' * x.stride.toNat := Nat.mul_le_mul_right _ h
  rw [Nat.succ_mul] at this
  omega

/-- The region as a 2-D array is its samples position by position. -/
theorem State.block_eq_tabulate (s : State) (x : Desc) :
    s.block x = tabulate x.w x.h fun col row => F32.ofWord (s.sramWord (x.addr col row)) := by
  unfold State.block State.regionWords tabulate tab
  rw [List.map_map]
  refine List.map_congr_left fun row _ => ?_
  show (s.sramRun (x.addr 0 row) x.w).map F32.ofWord = _
  rw [State.sramRun_eq, tab, List.map_map]
  refine List.map_congr_left fun col _ => ?_
  show F32.ofWord (s.sramWord (x.addr 0 row + col)) = _
  rw [Desc.addr_zero_add]

theorem Block.at_eq {b : Block} {w h x y : Nat} (hb : Block.shaped w h b) (hx : x < w) (hy : y < h) :
    ∃ (h1 : y < b.length) (h2 : x < (b[y]).length), b.at x y = (b[y])[x] := by
  have h1 : y < b.length := by rw [hb.1]; exact hy
  have h2 : x < (b[y]).length := by rw [hb.2 _ (List.getElem_mem h1)]; exact hx
  refine ⟨h1, h2, ?_⟩
  unfold Block.at
  rw [List.getD_eq_getElem?_getD, List.getD_eq_getElem?_getD, List.getElem?_eq_getElem h1, Option.getD_some,
    List.getElem?_eq_getElem h2, Option.getD_some]

theorem Block.at_tabulate (w h : Nat) (f : Nat → Nat → F32) {x y : Nat} (hx : x < w) (hy : y < h) :
    (tabulate w h f).at x y = f x y := by
  unfold Block.at tabulate
  rw [tab_getD _ _ _ _ hy, tab_getD _ _ _ _ hx]

theorem Desc.blockRuns_length (x : Desc) (b : Block) : (x.blockRuns b).length = b.length := by
  simp [Desc.blockRuns, Desc.regionRuns]

theorem Desc.blockRuns_getElem (x : Desc) (b : Block) (row : Nat) (h : row < b.length) :
    (x.blockRuns b)[row]'(by rw [Desc.blockRuns_length]; exact h) = (x.addr 0 row, (b[row]).map F32.toWord) := by
  have hl : row < (b.map fun r => r.map F32.toWord).length := by simpa using h
  have : (x.blockRuns b)[row]? = some (x.addr 0 row, (b[row]).map F32.toWord) := by
    unfold Desc.blockRuns Desc.regionRuns
    rw [tab_getElem?, if_pos hl, List.getD_eq_getElem?_getD, List.getElem?_eq_getElem hl, Option.getD_some,
      List.getElem_map]
  rw [List.getElem?_eq_getElem (by rw [Desc.blockRuns_length]; exact h)] at this
  exact Option.some.inj this

theorem Desc.mem_blockRuns {x : Desc} {b : Block} {w h : Nat} (hb : Block.shaped w h b) {r : Run}
    (hr : r ∈ x.blockRuns b) : ∃ row, row < h ∧ r.1 = x.addr 0 row ∧ r.2.length = w := by
  obtain ⟨row, hrow, rfl⟩ := List.mem_iff_getElem.mp hr
  rw [Desc.blockRuns_length] at hrow
  refine ⟨row, hb.1 ▸ hrow, ?_, ?_⟩
  · rw [Desc.blockRuns_getElem x b row hrow]
  · rw [Desc.blockRuns_getElem x b row hrow, List.length_map]
    exact hb.2 _ (List.getElem_mem hrow)

/-- Every run of a written region lies inside sample memory. -/
theorem Desc.blockRuns_within {p : Params} {x : Desc} (hl : x.Legal p) (hk : x.kind ≠ .empty) {b : Block}
    (hb : Block.shaped x.w x.h b) : ∀ r ∈ x.blockRuns b, Run.within r p.sramWords := by
  intro r hr
  obtain ⟨row, hrow, h1, h2⟩ := Desc.mem_blockRuns hb hr
  have := x.row_end_le row hrow
  have := hl.regionEnd_le hk
  unfold Run.within
  rw [h1, h2, Desc.addr_zero_add]
  omega

/-- A written region reads back, sample by sample. -/
theorem Memory.wordFrom_blockRuns (n : Nat) (m : Memory) {x : Desc} (hw : x.w ≤ x.stride.toNat) {b : Block}
    (hb : Block.shaped x.w x.h b) {col row : Nat} (hc : col < x.w) (hr : row < x.h) :
    (m.putRuns (x.blockRuns b)).wordFrom n (x.addr col row) = (b.at col row).toWord := by
  obtain ⟨h1, h2, hat⟩ := Block.at_eq hb hc hr
  have hlen : row < (x.blockRuns b).length := by rw [Desc.blockRuns_length]; exact h1
  have hi : col < ((x.blockRuns b)[row]).2.length := by
    rw [Desc.blockRuns_getElem x b row h1, List.length_map]; exact h2
  have key := Memory.wordFrom_putRuns_inside n m (x.blockRuns b) row col hlen hi ?_
  · have e : ((x.blockRuns b)[row]).1 = x.addr 0 row := by rw [Desc.blockRuns_getElem x b row h1]
    rw [e, Desc.addr_zero_add] at key
    rw [key, hat]
    have : ((x.blockRuns b)[row]).2[col]? = some ((b[row])[col]).toWord := by
      rw [Desc.blockRuns_getElem x b row h1, List.getElem?_map, List.getElem?_eq_getElem h2]
      rfl
    rw [List.getElem?_eq_getElem hi] at this
    exact Option.some.inj this
  · intro j hj hlt
    rw [Desc.blockRuns_length] at hj
    have := x.rows_apart hw hlt
    refine .inl ?_
    rw [Desc.blockRuns_getElem x b row h1, Desc.blockRuns_getElem x b j hj]
    simp only
    rw [Desc.addr_zero_add]
    have hlt' : x.addr col row < x.addr x.w row := by unfold Desc.addr; omega
    omega

/-- Writing a region leaves every byte outside it alone. -/
theorem Memory.byteFrom_blockRuns_outside (n : Nat) (m : Memory) {x : Desc} {b : Block}
    (hb : Block.shaped x.w x.h b) {a : Nat} (h : ∀ col row, col < x.w → row < x.h → a / 4 ≠ x.addr col row) :
    (m.putRuns (x.blockRuns b)).byteFrom n a = m.byteFrom n a := by
  apply Memory.byteFrom_putRuns_outside
  intro r hr hc
  obtain ⟨row, hrow, h1, h2⟩ := Desc.mem_blockRuns hb hr
  unfold Run.covers at hc
  rw [h1, h2] at hc
  refine h (a / 4 - x.addr 0 row) row (by omega) hrow ?_
  rw [← Desc.addr_zero_add x (a / 4 - x.addr 0 row) row]
  omega

end Sys2Proof.Machine
end

