-- ==== Sys2Proof/Laws/Plans.lean ====
section
/-! SUPPORT. What every command's plan is, from a legal build and legal descriptors: it never leaves the map, its runs lie
in sample memory, and the descriptor it defines is legal. -/

namespace Sys2Proof.Machine

/-- The plan writes inside sample memory and defines a legal descriptor. -/
structure Plan.Sound (p : Params) (q : Plan) : Prop where
  runs_within : ∀ r ∈ q.writes, Run.within r p.sramWords
  desc_legal : ∀ d x, q.desc = some (d, x) → x.Legal p

/-- The verdict never leaves the map, and what it runs is sound. -/
def Verdict.Sound (p : Params) : Verdict → Prop
  | .runs q => q.Sound p
  | .raises _ => True
  | .offMap _ => False

theorem Plan.Sound.store {p : Params} {rs : List Run} (h : ∀ r ∈ rs, Run.within r p.sramWords) :
    (Plan.store rs).Sound p := ⟨h, fun _ _ e => nomatch e⟩

theorem Plan.Sound.define {p : Params} {d : Slot} {x : Desc} {rs : List Run} (hx : x.Legal p)
    (h : ∀ r ∈ rs, Run.within r p.sramWords) : (Plan.define d x rs).Sound p := by
  refine ⟨h, fun d' x' e => ?_⟩
  have := congrArg Prod.snd (Option.some.inj e)
  dsimp only at this
  exact this ▸ hx

theorem Plan.Sound.registers {p : Params} (rdata : Option Word) (result : Option Bool) :
    (Plan.mk [] none rdata result).Sound p := by
  constructor
  · intro r hr
    nomatch hr
  · intro d x e
    nomatch e

theorem alignWords_pos (p : Params) : 0 < p.alignWords := by
  unfold Params.alignWords
  cases p.alignment <;> decide

theorem sramWords_lt {p : Params} (h : p.Legal) : p.sramWords < 2 ^ 32 :=
  Nat.pow_lt_pow_right (by norm_num) (by have := h.sramWords_max; omega)

/-- `pad` aligns (40_grid.md R91, R92). -/
theorem padOf_aligned (p : Params) (a : Nat) : (a + padOf p a) % p.alignWords = 0 := by
  have hp := alignWords_pos p
  unfold padOf
  generalize p.alignWords = n at hp ⊢
  have hr := Nat.mod_lt a hp
  have hd := Nat.div_add_mod a n
  by_cases h0 : a % n = 0
  · rw [h0, Nat.sub_zero, Nat.mod_self, Nat.add_zero, h0]
  · have hm : (n - a % n) % n = n - a % n := Nat.mod_eq_of_lt (by omega)
    rw [hm]
    have e : a + (n - a % n) = n * (a / n + 1) := by rw [Nat.mul_add, Nat.mul_one]; omega
    rw [e, Nat.mul_mod_right]

/-- A grid descriptor made from integers that fit is legal. -/
theorem legalGrid_make {p : Params} (hp : p.Legal) {base w h : Nat} (hw : 1 ≤ w) (hh : 1 ≤ h)
    (hfit : base + padOf p base + w * h ≤ p.sramWords) :
    (Desc.make .grid base (padOf p base) w h w (padOf p base + w * h)).Legal p := by
  have hlt := sramWords_lt hp
  have hww : w ≤ w * h := Nat.le_mul_of_pos_right w hh
  have hhh : h ≤ w * h := Nat.le_mul_of_pos_left h hw
  have e : ∀ n, n < 2 ^ 32 → (BitVec.ofNat 32 n).toNat = n := fun n hn => by
    rw [BitVec.toNat_ofNat, Nat.mod_eq_of_lt hn]
  refine ⟨fun hk => (nomatch hk), fun _ => ?_, fun hk => (nomatch hk)⟩
  constructor
  · show 1 ≤ (BitVec.ofNat 32 w).toNat
    rw [e w (by omega)]; exact hw
  · show 1 ≤ (BitVec.ofNat 32 h).toNat
    rw [e h (by omega)]; exact hh
  · rfl
  · show (BitVec.ofNat 32 (padOf p base)).toNat = padOf p (BitVec.ofNat 32 base).toNat
    rw [e base (by omega), e _ (by omega)]
  · show ((BitVec.ofNat 32 base).toNat + (BitVec.ofNat 32 (padOf p base)).toNat) % p.alignWords = 0
    rw [e base (by omega), e _ (by omega)]
    exact padOf_aligned p base
  · show (BitVec.ofNat 32 (padOf p base + w * h)).toNat = (BitVec.ofNat 32 (padOf p base)).toNat +
      (BitVec.ofNat 32 w).toNat * (BitVec.ofNat 32 h).toNat
    rw [e w (by omega), e h (by omega), e _ (by omega), e _ (by omega)]
  · show (BitVec.ofNat 32 base).toNat + (BitVec.ofNat 32 (padOf p base + w * h)).toNat ≤ p.sramWords
    rw [e base (by omega), e _ (by omega)]
    omega

/-- A view descriptor made from register values that pass the checks is legal. -/
theorem legalView_make {p : Params} {base len w h st : Word} (hw : w.toNat ≠ 0) (hh : h.toNat ≠ 0)
    (hst : w.toNat ≤ st.toNat) (hlen : st.toNat * (h.toNat - 1) + w.toNat ≤ len.toNat)
    (hfit : base.toNat + len.toNat ≤ p.sramWords) :
    (Desc.make .view base.toNat 0 w.toNat h.toNat st.toNat len.toNat).Legal p := by
  refine ⟨fun hk => (nomatch hk), fun hk => (nomatch hk), fun _ => ?_⟩
  unfold Desc.make
  simp only [BitVec.ofNat_toNat, BitVec.setWidth_eq]
  exact ⟨Nat.pos_of_ne_zero hw, Nat.pos_of_ne_zero hh, hst, rfl, hlen, hfit⟩

theorem withDesc_sound {d : Slot} {s : State} {f : Desc → Verdict}
    (h : (s.desc[d]).kind ≠ .empty → (f s.desc[d]).Sound s.params) : (withDesc d s f).Sound s.params := by
  by_cases hk : (s.desc[d]).kind = .empty
  · rw [withDesc_empty hk]; trivial
  · rw [withDesc_defined hk]; exact h hk

theorem withTarget_sound {tt : Nat} {d : Slot} {s : State} {f : Desc → Verdict}
    (h : (s.desc[d]).kind ≠ .empty → (f s.desc[d]).Sound s.params) : (withTarget tt d s f).Sound s.params := by
  unfold withTarget
  refine withDesc_sound fun hk => ?_
  split
  · trivial
  · exact h hk

theorem planGridNew_sound {s : State} (h : s.params.Legal) (d : Slot) : (planGridNew d s).Sound s.params := by
  unfold planGridNew
  dsimp only
  split
  · trivial
  rename_i hz
  split
  · trivial
  rename_i hfit
  rw [not_or] at hz
  refine Plan.Sound.define (legalGrid_make h (by omega) (by omega) (by omega)) ?_
  intro r hr
  rw [List.mem_singleton] at hr
  subst hr
  unfold Run.within
  rw [List.length_replicate]
  omega

theorem planViewNew_sound {s : State} (d : Slot) : (planViewNew d s).Sound s.params := by
  unfold planViewNew
  dsimp only
  split
  · trivial
  rename_i hz
  split
  · trivial
  rename_i hfit
  simp only [not_or, Nat.not_lt] at hz hfit
  exact Plan.Sound.define (legalView_make hz.1 hz.2.1 hz.2.2.1 hz.2.2.2 hfit) fun r hr => nomatch hr

theorem addr_lt_of_inBounds {x : Desc} {col row : Nat} (h : x.inBounds col row ≠ false) :
    x.addr col row < x.regionEnd := by
  unfold Desc.inBounds at h
  rw [ne_eq, Bool.not_eq_false, Bool.and_eq_true, decide_eq_true_eq, decide_eq_true_eq] at h
  have := x.row_end_le row h.2
  have : x.addr col row < x.addr x.w row := by unfold Desc.addr; omega
  omega

theorem sample_within {s : State} {x : Desc} (hl : x.Legal s.params) (hk : x.kind ≠ .empty) {col row : Nat}
    (h : x.inBounds col row ≠ false) (w : Word) : Run.within (x.addr col row, [w]) s.params.sramWords := by
  have := addr_lt_of_inBounds h
  have := hl.regionEnd_le hk
  unfold Run.within
  simp only [List.length_singleton]
  omega

theorem planGetSample_sound {s : State} {d : Slot} (hl : (s.desc[d]).Legal s.params) :
    (planGetSample d s).Sound s.params := by
  unfold planGetSample
  refine withDesc_sound fun hk => ?_
  split
  · trivial
  rw [onMap_of_legal hl hk]
  exact Plan.Sound.registers _ _

theorem planSetSample_sound {s : State} {d : Slot} (hl : (s.desc[d]).Legal s.params) :
    (planSetSample d s).Sound s.params := by
  unfold planSetSample
  refine withDesc_sound fun hk => ?_
  split
  · trivial
  rename_i hb
  rw [onMap_of_legal hl hk]
  refine Plan.Sound.store fun r hr => ?_
  rw [List.mem_singleton] at hr
  subst hr
  exact sample_within hl hk hb _

theorem planSwap_sound {s : State} {d : Slot} (hl : (s.desc[d]).Legal s.params) :
    (planSwap d s).Sound s.params := by
  unfold planSwap
  refine withDesc_sound fun hk => ?_
  split
  · trivial
  rename_i ha
  split
  · trivial
  rename_i hb
  rw [onMap_of_legal hl hk]
  refine Plan.Sound.store fun r hr => ?_
  simp only [List.mem_cons, List.not_mem_nil, or_false] at hr
  rcases hr with rfl | rfl
  · exact sample_within hl hk ha _
  · exact sample_within hl hk hb _

theorem planWidenQ_sound {s : State} {d : Slot} : (planWidenQ d s).Sound s.params :=
  withDesc_sound fun _ => Plan.Sound.registers _ _

theorem legal_emptySlot (p : Params) : Desc.emptySlot.Legal p :=
  ⟨fun _ => rfl, fun h => (nomatch h), fun h => (nomatch h)⟩

theorem planFree_sound {s : State} {d : Slot} : (planFree d s).Sound s.params :=
  Plan.Sound.define (legal_emptySlot _) fun _ hr => nomatch hr

theorem plan1d_sound {s : State} {f : Numerics → Nat → List F32 → List F32}
    (hf : ∀ num n x, x.length = n → (f num n x).length = n) : (plan1d f s).Sound s.params := by
  unfold plan1d
  dsimp only
  split
  · trivial
  split
  · trivial
  rename_i hfit
  rw [not_or] at hfit
  refine Plan.Sound.store fun r hr => ?_
  rw [List.mem_singleton] at hr
  subst hr
  unfold Run.within
  simp only [List.length_map]
  rw [hf _ _ _ (by simp)]
  omega

theorem plan2d_sound {s : State} {d : Slot} (hl : (s.desc[d]).Legal s.params)
    {f : Numerics → Nat → Nat → Block → Block}
    (hf : ∀ num w h b, Block.shaped w h b → Block.shaped w h (f num w h b)) : (plan2d f d s).Sound s.params := by
  unfold plan2d
  refine withDesc_sound fun hk => ?_
  split
  · trivial
  rw [onMap_of_legal hl hk]
  exact Plan.Sound.store (Desc.blockRuns_within hl hk (hf _ _ _ _ (s.block_shaped _)))

theorem planFixed_sound {s : State} {d : Slot} (hl : (s.desc[d]).Legal s.params) {tt : Nat}
    {path : Params → Block → Block} (hpath : ∀ p b, Block.shaped 8 8 (path p b)) :
    (planFixed tt path d s).Sound s.params := by
  unfold planFixed
  refine withTarget_sound fun hk => ?_
  split
  · trivial
  rename_i h8
  simp only [not_or, Decidable.not_not] at h8
  rw [onMap_of_legal hl hk]
  exact Plan.Sound.store (Desc.blockRuns_within hl hk (by rw [h8.1, h8.2]; exact hpath _ _))

theorem planUnsupported_sound {s : State} {d : Slot} : (planUnsupported d s).Sound s.params :=
  withDesc_sound fun _ => trivial

/-- The target of a general tag is a pair of good lengths. -/
theorem ttDim_good {p : Params} (h : p.Legal) {tt : Nat} (ht : tt < 27) :
    goodLength (p.ttDim tt).1 = true ∧ goodLength (p.ttDim tt).2 = true := by
  refine h.dims_good _ ?_
  unfold Params.ttDim
  have hl : tt < p.ttDims.length := by rw [h.dims_count]; exact ht
  rw [List.getD_eq_getElem?_getD, List.getElem?_eq_getElem hl, Option.getD_some]
  exact List.getElem_mem hl

theorem goodLength_pos {n : Nat} (h : goodLength n = true) : 1 ≤ n := by
  unfold goodLength isPow2 at h
  simp only [Bool.and_eq_true, decide_eq_true_eq, ne_eq] at h
  omega

theorem reallocated_legal {p : Params} (hp : p.Legal) {x : Desc} (hx : x.LegalGrid p) {w h : Nat} (hw : 1 ≤ w)
    (hh : 1 ≤ h) (hfit : x.origin + w * h ≤ p.sramWords) : (x.reallocated w h).Legal p := by
  unfold Desc.reallocated
  unfold Desc.origin at hfit
  rw [hx.offset_pad] at hfit ⊢
  exact legalGrid_make hp hw hh hfit

theorem reallocated_size {x : Desc} {w h : Nat} (hw : goodLength w = true)
    (hh : goodLength h = true) : (x.reallocated w h).w = w ∧ (x.reallocated w h).h = h := by
  have e : ∀ n, goodLength n = true → (BitVec.ofNat 32 n).toNat = n := fun n hn => by
    have : n ≤ 256 := by
      unfold goodLength at hn
      simp only [Bool.and_eq_true, decide_eq_true_eq] at hn
      exact hn.1
    rw [BitVec.toNat_ofNat, Nat.mod_eq_of_lt (by omega)]
  exact ⟨e w hw, e h hh⟩

theorem planGeneral_sound {s : State} (hp : s.params.Legal) {d : Slot} (hl : (s.desc[d]).Legal s.params) {tt : Nat}
    (ht : tt < 27) : (planGeneral tt d s).Sound s.params := by
  unfold planGeneral
  refine withTarget_sound fun hk => ?_
  dsimp only
  split
  · rename_i hsame
    rw [onMap_of_legal hl hk]
    have e := Prod.mk.inj hsame
    refine Plan.Sound.store (Desc.blockRuns_within hl hk ?_)
    rw [e.1, e.2]
    exact generalSamples_shaped _ _ _ _
  split
  · trivial
  rename_i hview
  split
  · trivial
  rename_i hfit
  rw [onMap_of_legal hl hk]
  have hg : (s.desc[d]).kind = .grid := by
    rcases hx : (s.desc[d]).kind with _ | _ | _
    · exact absurd hx hk
    · rfl
    · exact absurd hx hview
  obtain ⟨g1, g2⟩ := ttDim_good hp ht
  have hx := reallocated_legal hp (hl.2.1 hg) (goodLength_pos g1) (goodLength_pos g2) (by omega)
  refine Plan.Sound.define hx (Desc.blockRuns_within hx (fun h => nomatch h) ?_)
  obtain ⟨s1, s2⟩ := reallocated_size (x := s.desc[d]) g1 g2
  rw [s1, s2]
  exact generalSamples_shaped _ _ _ _

/-- Every command's plan is sound in a legal state. -/
theorem planOf_sound (i : Instr) {s : State} (hp : s.params.Legal) (hd : ∀ d : Slot, (s.desc[d]).Legal s.params) :
    (planOf i s).Sound s.params := by
  cases i with
  | gridNew d => exact planGridNew_sound hp d
  | viewNew d => exact planViewNew_sound d
  | getSample d => exact planGetSample_sound (hd d)
  | setSample d => exact planSetSample_sound (hd d)
  | swap d => exact planSwap_sound (hd d)
  | widenQ d => exact planWidenQ_sound
  | free d => exact planFree_sound
  | dct1d => exact plan1d_sound fun num n x hx => dct1_length num n x fun h1 => hx.trans h1
  | idct1d => exact plan1d_sound fun num n x hx => idct1_length num n x fun h1 => hx.trans h1
  | dct2d d => exact plan2d_sound (hd d) dct2_shaped
  | idct2d d => exact plan2d_sound (hd d) idct2_shaped
  | itxHornuss d => exact planFixed_sound (hd d) pathHornuss_shaped
  | itxDct2 d => exact planFixed_sound (hd d) pathDct2_shaped
  | itxDct4 d => exact planFixed_sound (hd d) pathDct4_shaped
  | itxDct4X8 d => exact planFixed_sound (hd d) pathDct4X8_shaped
  | itxDct8X4 d => exact planFixed_sound (hd d) pathDct8X4_shaped
  | itxAfv0 d => exact planFixed_sound (hd d) (afv_shaped 0)
  | itxAfv1 d => exact planFixed_sound (hd d) (afv_shaped 1)
  | itxAfv2 d => exact planFixed_sound (hd d) (afv_shaped 2)
  | itxAfv3 d => exact planFixed_sound (hd d) (afv_shaped 3)
  | itxUnsupported27 d => exact planUnsupported_sound
  | itxUnsupported28_31 d tt => exact planUnsupported_sound
  | itxDct8 d => exact planGeneral_sound hp (hd d) (by norm_num)
  | itxDct16 d => exact planGeneral_sound hp (hd d) (by norm_num)
  | itxDct32 d => exact planGeneral_sound hp (hd d) (by norm_num)
  | itxDct16X8 d => exact planGeneral_sound hp (hd d) (by norm_num)
  | itxDct8X16 d => exact planGeneral_sound hp (hd d) (by norm_num)
  | itxDct32X8 d => exact planGeneral_sound hp (hd d) (by norm_num)
  | itxDct8X32 d => exact planGeneral_sound hp (hd d) (by norm_num)
  | itxDct32X16 d => exact planGeneral_sound hp (hd d) (by norm_num)
  | itxDct16X32 d => exact planGeneral_sound hp (hd d) (by norm_num)
  | itxDct64 d => exact planGeneral_sound hp (hd d) (by norm_num)
  | itxDct64X32 d => exact planGeneral_sound hp (hd d) (by norm_num)
  | itxDct32X64 d => exact planGeneral_sound hp (hd d) (by norm_num)
  | itxDct128 d => exact planGeneral_sound hp (hd d) (by norm_num)
  | itxDct128X64 d => exact planGeneral_sound hp (hd d) (by norm_num)
  | itxDct64X128 d => exact planGeneral_sound hp (hd d) (by norm_num)
  | itxDct256 d => exact planGeneral_sound hp (hd d) (by norm_num)
  | itxDct256X128 d => exact planGeneral_sound hp (hd d) (by norm_num)
  | itxDct128X256 d => exact planGeneral_sound hp (hd d) (by norm_num)

end Sys2Proof.Machine
end

