-- ==== Sys2Proof/Tests/Slice0.lean ====
section
/-! SUPPORT. The model's own tests: expected results come from the spec's encodings, rules and worked vectors
(95_test_vectors.md, named V<n> below). After them, for every statement with hypotheses, a state and operands that meet
them. -/

namespace Sys2Proof.Tests

open Sys2Proof.Machine

/-! The kernel checks these theorems by evaluation; one at a time keeps the memory they need small. -/

set_option Elab.async false

/-! ### Helpers -/

/-- Six operand values. -/
def ops (a b c d e f : Nat) : Vector Word 6 :=
  #v[BitVec.ofNat 32 a, BitVec.ofNat 32 b, BitVec.ofNat 32 c, BitVec.ofNat 32 d, BitVec.ofNat 32 e, BitVec.ofNat 32 f]

/-- A running command with its latched operands. -/
def running (w : Word) (larg : Vector Word 6) : State := { State.reset with engine := .busy, lcmd := w, larg := larg }

/-- The state with a descriptor in a slot. -/
def slotted (d : Slot) (x : Desc) (s : State) : State := { s with desc := s.desc.set d x }

/-- The state with words in sample memory from word address `a` on. -/
def loaded (a : Nat) (ws : List Word) (s : State) : State := { s with sram := s.sram.putRun (a, ws) }

/-- The command ends in a next state with this property. -/
def ends (o : Host.Outcome State Fault Refusal) (f : State → Bool) : Bool :=
  match o with
  | .next t => f t
  | .fault _ => false
  | .refused _ => false

/-- The state after k steps, or the state in which the machine stopped. -/
def after (k : Nat) (s : State) : State :=
  match k with
  | 0 => s
  | k + 1 =>
    match step s with
    | .next t => after k t
    | .fault _ => s
    | .refused _ => s

/-- The words `a .. a+n-1`. -/
def wordsAt (t : State) (a n : Nat) : List Word := t.sramRun a n

/-- The fault taken: its code. -/
def faultOf (t : State) : Nat := if t.engine = .error then t.cause.toNat else 0

/-- The grid of V10 and the view of V11. -/
def gridV10 : Desc := ⟨.grid, 3, 5, 4, 2, 4, 13⟩

def viewV11 : Desc := ⟨.view, 100, 0, 4, 3, 10, 30⟩

/-- The 8 x 8 grid of section 2.5. -/
def grid88 : Desc := ⟨.grid, 64, 0, 8, 8, 8, 64⟩

/-- An 8 x 8 block with the listed coefficients (x, y, word), +0.0 elsewhere. -/
def block88 (cs : List (Nat × Nat × Word)) : Block :=
  tabulate 8 8 fun x y =>
    match cs.find? fun c => c.1 == x && c.2.1 == y with
    | some c => F32.ofWord c.2.2
    | none => F32.zero

/-- The array is this function of the position, a zero of either sign where it is 0. -/
def blockIs (b : Block) (f : Nat → Nat → Word) : Bool :=
  (List.range 8).all fun y => (List.range 8).all fun x =>
    if f x y = 0 then (b.at x y).isZero else (b.at x y).toWord == f x y

/-! ### Well-formedness: the one check refuses an ill-formed term (43_dispatch.md R198) -/

theorem test_wellFormed_refuses_tag_27_as_28_31 : (Instr.itxUnsupported28_31 0 27).wellFormed = false := by decide

theorem test_wellFormed_accepts_tag_28 : (Instr.itxUnsupported28_31 0 28).wellFormed = true := by decide

/-! ### Decoding: a word of every command, from the encodings of 30_encoding.md R70, R79 and R86 -/

theorem test_decode_grid_family :
    decode 0x00000301#32 = .instr (.gridNew 3) ∧
    decode 0x00000F02#32 = .instr (.viewNew 15) ∧
    decode 0x00000703#32 = .instr (.getSample 7) ∧
    decode 0x00000104#32 = .instr (.setSample 1) ∧
    decode 0x00000905#32 = .instr (.swap 9) ∧
    decode 0x00000C06#32 = .instr (.widenQ 12) ∧
    decode 0x00000307#32 = .instr (.free 3) := by decide +kernel

theorem test_decode_transform_family :
    decode 0x00000008#32 = .instr .dct1d ∧
    decode 0x00000048#32 = .instr .idct1d ∧
    decode 0x00000709#32 = .instr (.dct2d 7) ∧
    decode 0x00000149#32 = .instr (.idct2d 1) := by decide +kernel

theorem test_decode_itx_tags_0_to_13 :
    decode 0x0000030A#32 = .instr (.itxDct8 3) ∧
    decode 0x00010F0A#32 = .instr (.itxHornuss 15) ∧
    decode 0x0002070A#32 = .instr (.itxDct2 7) ∧
    decode 0x0003010A#32 = .instr (.itxDct4 1) ∧
    decode 0x0004090A#32 = .instr (.itxDct16 9) ∧
    decode 0x00050C0A#32 = .instr (.itxDct32 12) ∧
    decode 0x0006030A#32 = .instr (.itxDct16X8 3) ∧
    decode 0x00070F0A#32 = .instr (.itxDct8X16 15) ∧
    decode 0x0008070A#32 = .instr (.itxDct32X8 7) ∧
    decode 0x0009010A#32 = .instr (.itxDct8X32 1) ∧
    decode 0x000A090A#32 = .instr (.itxDct32X16 9) ∧
    decode 0x000B0C0A#32 = .instr (.itxDct16X32 12) ∧
    decode 0x000C030A#32 = .instr (.itxDct4X8 3) ∧
    decode 0x000D0F0A#32 = .instr (.itxDct8X4 15) := by decide +kernel

theorem test_decode_itx_tags_14_to_31 :
    decode 0x000E030A#32 = .instr (.itxAfv0 3) ∧
    decode 0x000F0F0A#32 = .instr (.itxAfv1 15) ∧
    decode 0x0010070A#32 = .instr (.itxAfv2 7) ∧
    decode 0x0011010A#32 = .instr (.itxAfv3 1) ∧
    decode 0x0012090A#32 = .instr (.itxDct64 9) ∧
    decode 0x00130C0A#32 = .instr (.itxDct64X32 12) ∧
    decode 0x0014030A#32 = .instr (.itxDct32X64 3) ∧
    decode 0x00150F0A#32 = .instr (.itxDct128 15) ∧
    decode 0x0016070A#32 = .instr (.itxDct128X64 7) ∧
    decode 0x0017010A#32 = .instr (.itxDct64X128 1) ∧
    decode 0x0018090A#32 = .instr (.itxDct256 9) ∧
    decode 0x00190C0A#32 = .instr (.itxDct256X128 12) ∧
    decode 0x001A030A#32 = .instr (.itxDct128X256 3) ∧
    decode 0x001B0F0A#32 = .instr (.itxUnsupported27 15) ∧
    decode 0x001E070A#32 = .instr (.itxUnsupported28_31 7 30) := by decide +kernel

/-- The illegal words of 95_test_vectors.md section 2.1. -/
theorem test_decode_refuses_illegal_words :
    decode 0x00000000#32 = .rejected .unassignedOpcode ∧ decode 0x0000000B#32 = .rejected .unassignedOpcode ∧
    decode 0x0000003F#32 = .rejected .unassignedOpcode ∧ decode 0x00000041#32 = .rejected .unusedField ∧
    decode 0x00000108#32 = .rejected .unusedField ∧ decode 0x00010001#32 = .rejected .unusedField ∧
    decode 0x0000004A#32 = .rejected .unusedField ∧ decode 0x00000081#32 = .rejected .reservedBit ∧
    decode 0x00001001#32 = .rejected .reservedBit ∧ decode 0x80000009#32 = .rejected .reservedBit ∧
    decode 0x0020000A#32 = .rejected .reservedBit := by decide +kernel

/-- The rows of opcode_table.json with their free bits 0 decode to the rows' own commands. -/
theorem test_table_rows_decode_in_order :
    (opcodeTable.map fun r => (decodeTableWord 32 r.bits.toNat).map Laws.FitsRow.rowIndex) =
      (List.range 40).map some := by decide +kernel

/-! ### The twiddle ROM (41_dct1d.md R130) -/

/-- pi in units of 2^-120. -/
def piFixed : Nat := 4175892906503776358826876457663557747

/-- The sum `term_k - term_(k+1) + …` of the power series of the cosine, in units of 2^-120. -/
def cosSeries (x2 : Nat) : Nat → Nat → Int → Int
  | 0, _, _ => 0
  | left + 1, k, term => term + cosSeries x2 left (k + 1) (-(term * x2 / (2 ^ 120 * ((2 * k + 1) * (2 * k + 2)))))

/-- cos(2*pi*j/1024) in units of 2^-120, for j <= 256. -/
def cosFixed (j : Nat) : Int :=
  let x := 2 * piFixed * j / 1024
  cosSeries (x * x / 2 ^ 120) 24 0 (2 ^ 120)

/-- The table entry is nearer to the cosine than half its last place, with 2^-90 to spare. -/
def romEntryOk (j : Nat) : Bool :=
  let v := (quarterWave j).units
  let e := F32.topBit v.natAbs - 23
  let c := cosFixed j * 2 ^ 29
  if j = 256 then v == 0 && decide (c.natAbs < 2 ^ 59)
  else decide (2 * (v - c).natAbs + 2 ^ 59 < 2 ^ e)

theorem test_rom_is_correctly_rounded : (List.range 257).all romEntryOk = true := by decide +kernel

/-- The three constants are correctly rounded: twice the square of the neighbouring half-way points brackets the real value
(1/sqrt(2) is the square root of 1/2; sqrt(2)/4 squared is 1/8; 1/4 is exact). -/
theorem test_constants_are_correctly_rounded :
    (let v := recipSqrt2.units.natAbs
     let u := 2 ^ (F32.topBit v - 23)
     decide ((2 * v - u) ^ 2 < 2 ^ 299) && decide (2 ^ 299 < (2 * v + u) ^ 2)) = true ∧
    (let v := (sqrt2Over 4).units.natAbs
     let u := 2 ^ (F32.topBit v - 23)
     decide ((2 * v - u) ^ 2 < 2 ^ 297) && decide (2 ^ 297 < (2 * v + u) ^ 2)) = true ∧
    (recipOf 4).units = 2 ^ 147 := by decide +kernel

/-! ### f32 arithmetic (41_dct1d.md R138, V3) -/

/-- 1.0 plus the smallest subnormal rounds to 1.0; twice 3.0e38 overflows; -0.0 plus -0.0 is -0.0. -/
theorem test_f32_sums :
    ((F32.ofWord 0x3F800000#32).add (F32.ofWord 0x00000001#32)).toWord = 0x3F800000#32 ∧
    ((F32.ofWord 0x7F61B1E6#32).add (F32.ofWord 0x7F61B1E6#32)).toWord = 0x7F800000#32 ∧
    ((F32.ofWord 0x80000000#32).add (F32.ofWord 0x80000000#32)).toWord = 0x80000000#32 := by decide +kernel

/-! ### The grid family (V10 to V17) -/

theorem test_gridNew_v10 :
    ends (exec (.gridNew 0) (running 0x00000001#32 (ops 3 4 2 0 0 0)))
      (fun t => decide (t.desc[0] = gridV10) && wordsAt t 8 8 == List.replicate 8 0 &&
        decide (t.sram.head? = some (32, 0)) && decide (t.sram.length = 32)) = true := by decide +kernel

/-- V15: pad(262140) = 4, so the grid passes the end of sample memory. -/
theorem test_gridNew_v15_out_of_range :
    ends (exec (.gridNew 0) (running 0x00000001#32 (ops 262140 2 2 0 0 0))) (fun t => faultOf t == 8) = true := by
  decide +kernel

theorem test_viewNew_v11 :
    ends (exec (.viewNew 1) (running 0x00000102#32 (ops 100 24 4 3 10 0)))
      (fun t => decide (t.desc[1] = ⟨.view, 100, 0, 4, 3, 10, 24⟩) && decide (t.sram = [])) = true := by decide +kernel

/-- V15: a region that is too short and past the end reports the lower code. -/
theorem test_viewNew_v15_short_region_first :
    ends (exec (.viewNew 1) (running 0x00000102#32 (ops 262140 23 4 3 10 0))) (fun t => faultOf t == 6) = true := by
  decide +kernel

theorem test_set_v12 :
    ends (exec (.setSample 1) (slotted 1 viewV11 (running 0x00000104#32 (ops 3 2 0x3FC00000 0 0 0))))
      (fun t => wordsAt t 123 1 == [0x3FC00000#32] && decide (t.sram.length = 4)) = true := by decide +kernel

/-- V13: an operand is not masked. -/
theorem test_set_v13_out_of_bounds :
    ends (exec (.setSample 0) (slotted 0 gridV10 (running 0x00000004#32 (ops 0xFFFFFFFF 0 1 0 0 0))))
      (fun t => faultOf t == 7 && decide (t.fcmd = 0x00000004#32)) = true := by decide +kernel

/-- V12: a NaN word comes back bit for bit. -/
theorem test_get_v12 :
    ends (exec (.getSample 1)
        (loaded 100 [0x7FC00001#32] (slotted 1 viewV11 (running 0x00000103#32 (ops 0 0 0 0 0 0)))))
      (fun t => t.rdata == 0x7FC00001#32 && decide (t.cmdcnt = 1)) = true := by decide +kernel

/-- V13: `get(width, 0)` is out of bounds. -/
theorem test_get_v13_width_is_out_of_bounds :
    ends (exec (.getSample 0) (slotted 0 gridV10 (running 0x00000003#32 (ops 4 0 0 0 0 0))))
      (fun t => faultOf t == 7) = true := by decide +kernel

theorem test_swap_v14 :
    ends (exec (.swap 0) (loaded 8 [0x3F800000#32, 0x40000000#32]
        (slotted 0 gridV10 (running 0x00000005#32 (ops 0 0 1 0 0 0)))))
      (fun t => wordsAt t 8 2 == [0x40000000#32, 0x3F800000#32]) = true := by decide +kernel

/-- V16: the grid widens to 4 lanes and not to 8; the view to 2 and not to 4. STATUS then reads 0x12 or 0x02. -/
theorem test_widenQ_v16 :
    ends (exec (.widenQ 0) (slotted 0 gridV10 (running 0x00000006#32 (ops 4 0 0 0 0 0))))
      (fun t => t.statusWord == 0x12#32) = true ∧
    ends (exec (.widenQ 0) (slotted 0 gridV10 (running 0x00000006#32 (ops 8 0 0 0 0 0))))
      (fun t => t.statusWord == 0x02#32) = true ∧
    ends (exec (.widenQ 1) (slotted 1 viewV11 (running 0x00000106#32 (ops 2 0 0 0 0 0)))) (fun t => t.result) = true ∧
    ends (exec (.widenQ 1) (slotted 1 viewV11 (running 0x00000106#32 (ops 4 0 0 0 0 0)))) (fun t => !t.result) = true := by
  decide +kernel

theorem test_free_v17 :
    ends (exec (.free 0) (slotted 0 gridV10 (running 0x00000007#32 (ops 0 0 0 0 0 0))))
      (fun t => decide (t.desc[0] = Desc.emptySlot) && decide (t.cmdcnt = 1)) = true := by decide +kernel

/-! ### The 1-D commands (V1, V3, V8, V9) -/

/-- V1 under REF, with overlapping ranges (V9): input at 0, output at 2. -/
theorem test_dct1d_v1_overlapping :
    ends (exec .dct1d (loaded 0 [0x3F800000#32, 0, 0x3F800000#32, 0] (running 0x00000008#32 (ops 0 2 4 0 0 0))))
      (fun t => wordsAt t 2 4 == [0x3F000000#32, 0x3E43EF15#32, 0x00000000#32, 0x3EEC835D#32] &&
        wordsAt t 0 2 == [0x3F800000#32, 0x00000000#32]) = true := by decide +kernel

theorem test_idct1d_v1 :
    ends (exec .idct1d (loaded 16 [0x3F000000#32, 0x3E43EF15#32, 0, 0x3EEC835D#32]
        (running 0x00000048#32 (ops 16 32 4 0 0 0))))
      (fun t => wordsAt t 32 4 == [0x3F7FFFFF#32, 0x33800000#32, 0x3F7FFFFF#32, 0x33800000#32]) = true := by
  decide +kernel

/-- V4 and V5 under REF: the impulse and the ramp of length 8. -/
theorem test_ref_v4_v5 :
    (dct1 .ref 8 ([0x3F800000, 0, 0, 0, 0, 0, 0, 0].map (F32.ofWord ∘ BitVec.ofNat 32))).map F32.toWord =
      [0x3E000000#32, 0x3E318A85#32, 0x3E273D74#32, 0x3E168317#32, 0x3DFFFFFF#32, 0x3DC9234E#32, 0x3D8A8BD4#32,
       0x3D0D42AF#32] ∧
    (idct1 .ref 8 ([0x40900000, 0xC011C5EC, 0, 0xBE73D114, 0, 0xBD917820, 0, 0xBC92D999].map
        (F32.ofWord ∘ BitVec.ofNat 32))).map F32.toWord =
      [0x3F800000#32, 0x40000000#32, 0x40400001#32, 0x40800000#32, 0x40A00000#32, 0x40C00000#32, 0x40E00000#32,
       0x41000000#32] := by decide +kernel

/-- V3, any NUMERICS: length 2, both directions. -/
theorem test_length_two_v3 :
    ends (exec .dct1d (loaded 0 [0x40400000#32, 0x3F800000#32] (running 0x00000008#32 (ops 0 4 2 0 0 0))))
      (fun t => wordsAt t 4 2 == [0x40000000#32, 0x3F800000#32]) = true ∧
    ends (exec .idct1d (loaded 0 [0x40000000#32, 0x3F800000#32] (running 0x00000048#32 (ops 0 4 2 0 0 0))))
      (fun t => wordsAt t 4 2 == [0x40400000#32, 0x3F800000#32]) = true := by decide +kernel

/-- V9: the length check comes first; 262140 + 4 fits and 262142 + 4 does not. -/
theorem test_length_and_range_faults_v9 :
    ends (exec .dct1d (running 0x00000008#32 (ops 262143 16 0 0 0 0))) (fun t => faultOf t == 5) = true ∧
    ends (exec .dct1d (running 0x00000008#32 (ops 0 16 512 0 0 0))) (fun t => faultOf t == 5) = true ∧
    ends (exec .idct1d (running 0x00000048#32 (ops 262142 16 4 0 0 0))) (fun t => faultOf t == 8) = true := by
  decide +kernel

/-! ### The 2-D commands (V20, V21, V24) -/

/-- The strided view of V25. -/
def viewV25 : Desc := ⟨.view, 200, 0, 2, 2, 10, 12⟩

theorem test_dct2d_v25 :
    ends (exec (.dct2d 1) (loaded 200 [0x3F800000#32, 0x40000000#32] (loaded 210 [0x40400000#32, 0x40800000#32]
        (slotted 1 viewV25 (running 0x00000109#32 (ops 0 0 0 0 0 0))))))
      (fun t => wordsAt t 200 2 == [0x40200000#32, 0xBF000000#32] &&
        wordsAt t 210 2 == [0xBF800000#32, 0x00000000#32] && decide (t.sram.length = 16)) = true := by decide +kernel

theorem test_idct2d_v20 :
    ends (exec (.idct2d 1) (loaded 200 [0x40200000#32, 0xBF000000#32] (loaded 210 [0xBF800000#32, 0]
        (slotted 1 viewV25 (running 0x00000149#32 (ops 0 0 0 0 0 0))))))
      (fun t => wordsAt t 200 2 == [0x3F800000#32, 0x40000000#32] &&
        wordsAt t 210 2 == [0x40400000#32, 0x40800000#32]) = true := by decide +kernel

/-- V21 under REF: the wide grid runs rows first, the tall one columns first. -/
theorem test_dct2_v21 :
    (dct2 .ref 4 2 [[0x3F800000, 0x40000000, 0x40400000, 0x40800000].map (F32.ofWord ∘ BitVec.ofNat 32),
        [0x40A00000, 0x40C00000, 0x40E00000, 0x41000000].map (F32.ofWord ∘ BitVec.ofNat 32)]).map
        (fun r => r.map F32.toWord) =
      [[0x40900000#32, 0xBF8EBF91#32, 0x00000000#32, 0xBDA25127#32], [0xC0000000#32, 0, 0, 0]] ∧
    (dct2 .ref 2 4 ([[0x3F800000, 0x40A00000], [0x40000000, 0x40C00000], [0x40400000, 0x40E00000],
        [0x40800000, 0x41000000]].map fun r => r.map (F32.ofWord ∘ BitVec.ofNat 32))).map
        (fun r => r.map F32.toWord) =
      [[0x40900000#32, 0xC0000000#32], [0xBF8EBF91#32, 0], [0x00000000#32, 0], [0xBDA25127#32, 0]] := by
  decide +kernel

/-- V24: a 3-wide grid and an empty slot. -/
theorem test_dct2d_v24_faults :
    ends (exec (.dct2d 0) (slotted 0 ⟨.grid, 0, 0, 3, 2, 3, 6⟩ (running 0x00000009#32 (ops 0 0 0 0 0 0))))
      (fun t => faultOf t == 5) = true ∧
    ends (exec (.idct2d 4) (running 0x00000449#32 (ops 0 0 0 0 0 0))) (fun t => faultOf t == 2) = true := by
  decide +kernel

/-! ### The fixed tags (V30 to V35, V40) -/

theorem test_path_dct2_v31 :
    blockIs (pathDct2 Params.default (block88 [(0, 0, 0x3F800000#32), (1, 0, 0x40000000#32)]))
      (fun _ y => if y < 4 then 0x40400000#32 else 0xBF800000#32) = true := by decide +kernel

theorem test_path_dct4_v32 :
    blockIs (pathDct4 Params.default (block88 [(2, 0, 0x3F800000#32)]))
      (fun x y => if x < 4 ∧ y < 4 then
        [0x3FA73D74#32, 0x3F0A8BD4#32, 0xBF0A8BD4#32, 0xBFA73D74#32].getD x 0 else 0) = true := by decide +kernel

theorem test_path_hornuss_v33 :
    blockIs (pathHornuss Params.default (block88 [(0, 0, 0x40000000#32), (2, 2, 0x3F800000#32)]))
      (fun x y => if x = 0 ∧ y = 0 then 0x40400000#32 else 0x40000000#32) = true ∧
    blockIs (pathHornuss { Params.default with hornussSumExcludes5 := false }
        (block88 [(0, 0, 0x40000000#32), (2, 2, 0x3F800000#32)]))
      (fun x y => if x < 4 ∧ y < 4 then (if x = 0 ∧ y = 0 then 0x403C0000#32 else 0x3FF80000#32)
        else 0x40000000#32) = true := by decide +kernel

/-- The cosine words of V34. -/
def cosV34 : List Word :=
  [0x3FB18A85#32, 0x3F968317#32, 0x3F49234C#32, 0x3E8D42B0#32, 0xBE8D42B0#32, 0xBF49234C#32, 0xBF968317#32,
   0xBFB18A85#32]

theorem test_path_dct4x8_v34 :
    blockIs (pathDct4X8 Params.default (block88 [(1, 0, 0x3F800000#32)]))
      (fun x y => if y < 4 then cosV34.getD x 0 else 0) = true := by decide +kernel

theorem test_path_dct8x4_v34 :
    blockIs (pathDct8X4 Params.default (block88 [(1, 0, 0x3F800000#32)]))
      (fun x y => if x < 4 then cosV34.getD y 0 else 0) = true := by decide +kernel

theorem test_path_afv0_v35 :
    blockIs (pathAfv0 { Params.default with afvBasis := some (List.replicate 256 0x3F800000#32) }
        (block88 [(0, 0, 0x3F800000#32), (0, 1, 0x3F800000#32), (1, 0, 0xC0000000#32)]))
      (fun x y => if 4 ≤ x ∧ y < 4 then 0x40800000#32 else 0) = true := by decide +kernel

theorem test_path_afv1_v35 :
    blockIs (pathAfv1 { Params.default with afvBasis := some (List.replicate 256 0x3F800000#32) }
        (block88 [(0, 0, 0x3F800000#32), (0, 1, 0x3F800000#32), (1, 0, 0xC0000000#32)]))
      (fun x y => if x < 4 ∧ y < 4 then 0x40800000#32 else 0) = true := by decide +kernel

theorem test_path_afv2_v35 :
    blockIs (pathAfv2 { Params.default with afvBasis := some (List.replicate 256 0x3F800000#32) }
        (block88 [(0, 0, 0x3F800000#32), (0, 1, 0x3F800000#32), (1, 0, 0xC0000000#32)]))
      (fun x y => if 4 ≤ x ∧ 4 ≤ y then 0x40800000#32 else 0) = true := by decide +kernel

theorem test_path_afv3_v35 :
    blockIs (pathAfv3 { Params.default with afvBasis := some (List.replicate 256 0x3F800000#32) }
        (block88 [(0, 0, 0x3F800000#32), (0, 1, 0x3F800000#32), (1, 0, 0xC0000000#32)]))
      (fun x y => if x < 4 ∧ 4 ≤ y then 0x40800000#32 else 0) = true := by decide +kernel

/-- The AFV quadrant is the basis row of the one nonzero coefficient, mirrored by the flips: coefficient (2, 0), with
`dcs0 = 0`, reads row 1 of the basis. -/
theorem test_afv_quadrant_reads_its_basis_row :
    (let basis := (List.range 256).map fun n => if n / 16 = 1 then F32.toWord (.fin false (n % 16 * 2 ^ 149)) else 0
     let p := { Params.default with afvBasis := some basis }
     let b := block88 [(2, 0, 0x3F800000#32)]
     ((pathAfv0 p b).at 1 2).units == 9 * 2 ^ 149 && ((pathAfv3 p b).at 6 5).units == 9 * 2 ^ 149) = true := by
  decide +kernel

/-- V31 through the command: the whole block is read and written. -/
theorem test_itx_dct2_command :
    ends (exec (.itxDct2 2) (loaded 64 ([0x3F800000#32, 0x40000000#32] ++ List.replicate 62 0)
        (slotted 2 grid88 (running 0x0002020A#32 (ops 8 8 0 0 0 0)))))
      (fun t => wordsAt t 95 2 == [0x40400000#32, 0xBF800000#32] && decide (t.sram.length = 256)) = true := by
  decide +kernel

/-- V40: a wrong target, a block that is not 8 x 8. -/
theorem test_fixed_tag_faults_v40 :
    ends (exec (.itxDct2 2) (slotted 2 grid88 (running 0x0002020A#32 (ops 4 4 0 0 0 0))))
      (fun t => faultOf t == 4) = true ∧
    ends (exec (.itxHornuss 2) (slotted 2 ⟨.grid, 64, 0, 16, 16, 16, 256⟩ (running 0x0001020A#32 (ops 8 8 0 0 0 0))))
      (fun t => faultOf t == 4) = true := by decide +kernel

/-! ### The general and unsupported tags (V36 to V40) -/

/-- V38 under REF: the tall layout puts flat sample 1 at C(0, 1) with LONG_AXIS_ROWS and at C(1, 0) with NATURAL. -/
theorem test_coefficient_layout_v38 :
    (let flat := F32.zero :: F32.ofWord 0x3F800000#32 :: List.replicate 126 F32.zero
     ((coefficients .longAxisRows 8 16 flat).at 0 1).toWord == 0x3F800000#32 &&
       ((coefficients .longAxisRows 8 16 flat).at 1 0).isZero &&
       ((coefficients .natural 8 16 flat).at 1 0).toWord == 0x3F800000#32) = true := by decide +kernel

/-- V36: an 8 x 8 view with DC 2.0 becomes the constant. -/
theorem test_itx_dct8_v36 :
    ends (exec (.itxDct8 2) (loaded 64 (0x40000000#32 :: List.replicate 63 0)
        (slotted 2 ⟨.view, 64, 0, 8, 8, 8, 64⟩ (running 0x0000020A#32 (ops 8 8 0 0 0 0)))))
      (fun t => wordsAt t 64 1 == [0x40000000#32] && wordsAt t 126 2 == [0x40000000#32, 0x40000000#32]) = true := by
  decide +kernel

/-- V37, the shrink: an 8 x 16 grid under ITX.DCT8 keeps flat samples 0 to 63. -/
theorem test_itx_dct8_shrinks_a_grid :
    ends (exec (.itxDct8 2) (loaded 64 (0x40000000#32 :: List.replicate 63 0 ++ [0x40A00000#32] ++ List.replicate 63 0)
        (slotted 2 ⟨.grid, 64, 0, 8, 16, 8, 128⟩ (running 0x0000020A#32 (ops 8 8 0 0 0 0)))))
      (fun t => decide (t.desc[2] = grid88) && wordsAt t 127 2 == [0x40000000#32, 0x40A00000#32]) = true := by
  decide +kernel

/-- Every general tag with the right target faults with DIM_MISMATCH on a 4 x 2 view (V36). -/
theorem test_general_tags_refuse_a_view_of_another_footprint :
    (Claims.generalItx.all fun g =>
      let wh := Params.default.ttDim g.1
      ends (exec (g.2 0) (slotted 0 ⟨.view, 0, 0, 4, 2, 4, 8⟩ (running 0 (ops wh.1 wh.2 0 0 0 0))))
        (fun t => faultOf t == 4 && decide (t.sram = []))) = true := by decide +kernel

/-- V37, the range: ITX.DCT256 on a grid at 200000 would pass the end. -/
theorem test_itx_dct256_v37_out_of_range :
    ends (exec (.itxDct256 2) (slotted 2 ⟨.grid, 200000, 0, 8, 8, 8, 64⟩ (running 0x0018020A#32 (ops 256 256 0 0 0 0))))
      (fun t => faultOf t == 8) = true := by decide +kernel

/-- V40: UNSUPPORTED_TT on a valid slot, BAD_DESC on an empty one. -/
theorem test_unsupported_tags_v40 :
    ends (exec (.itxUnsupported27 2) (slotted 2 grid88 (running 0x001B020A#32 (ops 8 8 0 0 0 0))))
      (fun t => faultOf t == 3) = true ∧
    ends (exec (.itxUnsupported28_31 7 28) (slotted 2 grid88 (running 0x001C070A#32 (ops 8 8 0 0 0 0))))
      (fun t => faultOf t == 2) = true := by decide +kernel

/-! ### The host's side (V41 to V49) -/

/-- V41 to V43: fault entry with IE_ERR, rejection, W1C of REJ, masking. -/
theorem test_fault_and_rejection_v41_v42 :
    (let s := { (slotted 2 grid88 State.reset) with
       bus := [Claims.hostWrite 0x008 0x4, Claims.hostWrite 0x018 0x001B020A, .engineTurn,
         Claims.hostWrite 0x018 0x00000007, Claims.hostWrite 0x00C 0x4, Claims.hostWrite 0x00C 0x8,
         Claims.hostWrite 0x008 0x0] }
     decide ((after 3 s).statusWord = 0x4#32) && decide ((after 3 s).causeWord = 0x3#32) &&
       decide ((after 3 s).fcmd = 0x001B020A#32) && (after 3 s).irq && decide ((after 4 s).statusWord = 0xC#32) &&
       decide ((after 5 s).statusWord = 0xC#32) && decide ((after 6 s).statusWord = 0x4#32) && !(after 7 s).irq) =
      true := by decide +kernel

/-- V45: three bad accesses, each a bus error that changes nothing else. -/
theorem test_bus_errors_v45 :
    (let bad : List Access := [⟨.registers, 0x00C, 2, none⟩, ⟨.registers, 0x019, 4, some 1⟩, ⟨.sram, 1, 1, some 1⟩]
     bad.all fun a => decide (after 1 { State.reset with bus := [.host a] } =
       { State.reset with response := some .busError })) = true := by decide +kernel

/-- V47: soft reset with the IE bits set in the same write. -/
theorem test_soft_reset_v47 :
    (let s := { (loaded 64 [0x40000000#32] (slotted 2 grid88 State.reset)) with
       engine := .error, cause := 3, fcmd := 0x001B020A#32, ieErr := true, bus := [Claims.hostWrite 0x008 0x7] }
     decide ((after 1 s).ctrlWord = 0) && decide ((after 1 s).statusWord = 0) && decide ((after 1 s).causeWord = 0) &&
       decide ((after 1 s).desc[2] = Desc.emptySlot) && wordsAt (after 1 s) 64 1 == [0x40000000#32]) = true := by
  decide +kernel

/-- V48: the same two CMD writes, under both schedules. -/
theorem test_command_while_busy_v48 :
    (let s1 := { State.reset with bus := [Claims.hostWrite 0x018 0x7, Claims.hostWrite 0x018 0x107, .engineTurn] }
     let s2 := { State.reset with
       bus := [Claims.hostWrite 0x018 0x7, .engineTurn, Claims.hostWrite 0x018 0x107, .engineTurn] }
     (after 3 s1).rej && decide ((after 3 s1).cmdcnt = 1) && !(after 4 s2).rej && decide ((after 4 s2).cmdcnt = 2)) =
      true := by decide +kernel

/-- V49: the operand written after acceptance reaches the next command only. -/
theorem test_operand_latch_v49 :
    (let s := { (loaded 0 [0, 0, 0, 0] State.reset) with
       bus := [Claims.hostWrite 0x024 16, Claims.hostWrite 0x028 4, Claims.hostWrite 0x018 0x8,
         Claims.hostWrite 0x028 3, .engineTurn, Claims.hostWrite 0x018 0x8, .engineTurn] }
     decide ((after 5 s).statusWord = 0x2#32) && decide ((after 5 s).cmdcnt = 1) && faultOf (after 7 s) == 5) = true := by
  decide +kernel

/-- A host SRAM read submitted while BUSY waits for the command and sees its result (20_memory.md R55). -/
theorem test_held_access_sees_the_command :
    (let s := { (slotted 0 gridV10 (running 0x00000004#32 (ops 0 0 0x3FC00000 0 0 0))) with bus := [Claims.sramRead 8] }
     decide ((after 1 s).response = none) && decide ((after 2 s).response = some (.readData 0x3FC00000#32))) = true := by
  decide +kernel

/-! ## Witnesses: for every statement with hypotheses, a state and operands that meet them together

`stage` puts a descriptor in slot 0 of a default build with a running command; `stage_inv` shows that it keeps the
invariant. -/

theorem default_legal : Params.default.Legal where
  sramWords_min := by decide
  sramWords_max := by decide
  dims_count := by decide
  dims_good := by decide +kernel
  dims_fixed := by decide
  basis_count := fun _ h => nomatch h
  basis_finite := fun _ h => nomatch h
  accurate := by
    have e : ((Params.default.dctEps : Rat) : ℝ) = 1 / 65536 := by
      show ((1 / 65536 : Rat) : ℝ) = 1 / 65536
      norm_num
    rw [e]
    exact Exact.ref_accurate

theorem gridV10_legal : gridV10.Legal Params.default :=
  ⟨fun h => (nomatch h), fun _ => ⟨by decide, by decide, by decide, by decide, by decide, by decide, by decide⟩,
    fun h => (nomatch h)⟩

theorem grid88_legal : grid88.Legal Params.default :=
  ⟨fun h => (nomatch h), fun _ => ⟨by decide, by decide, by decide, by decide, by decide, by decide, by decide⟩,
    fun h => (nomatch h)⟩

theorem viewV11_legal : viewV11.Legal Params.default :=
  ⟨fun h => (nomatch h), fun h => (nomatch h), fun _ => ⟨by decide, by decide, by decide, by decide, by decide, by decide⟩⟩

/-- A default build with a descriptor in slot 0, a running command, its operands, and waiting bus events. -/
def stage (x : Desc) (w : Word) (larg : Vector Word 6) (bus : List Event) : State :=
  { slotted 0 x (running w larg) with bus := bus }

theorem stage_inv {x : Desc} (hx : x.Legal Params.default) (w : Word) (larg : Vector Word 6) (bus : List Event) :
    (stage x w larg bus).Inv where
  params_legal := default_legal
  desc_legal := by
    intro d
    show (((Vector.replicate 16 Desc.emptySlot).set 0 x)[d]).Legal Params.default
    rw [Fin.getElem_fin, Vector.getElem_set]
    split
    · exact hx
    · rw [Vector.getElem_replicate]
      exact legal_emptySlot _
  sram_canonical := List.Pairwise.nil
  sram_inside := fun _ h => nomatch h
  done_idle := fun h => nomatch h
  no_fault := fun _ => ⟨rfl, rfl⟩
  one_fault := fun h => nomatch h

/-- No operand matters. -/
def noOps : Vector Word 6 := ops 0 0 0 0 0 0

/-- The same state in the ERROR state, after a fault with code 2. -/
def stopped (bus : List Event) : State :=
  { State.reset with engine := .error, cause := 2, fcmd := 0x3#32, bus := bus }

theorem witness_StepRunsTheDecodedCommand :
    (∃ (s : State) (i : Instr), s.engine = .busy ∧ decode s.lcmd = .instr i ∧ s.bus = []) ∧
    (∃ (s : State) (i : Instr) (rest : List Event), s.engine = .busy ∧ decode s.lcmd = .instr i ∧ s.bus = .engineTurn :: rest) ∧
    (∃ (s : State) (i : Instr) (a : Access) (rest : List Event), s.engine = .busy ∧ decode s.lcmd = .instr i ∧
      s.bus = .host a :: rest ∧ a.window = .sram ∧ a.bytes = 4 ∧ a.offset % 4 = 0 ∧
      a.offset < 4 * s.params.sramWords) ∧
    (∃ (w : Word) (i : Instr), decode w = .instr i) ∧ ∃ s : State, s.engine ≠ .busy ∧ s.bus = [] :=
  ⟨⟨stage grid88 7 noOps [], .free 0, rfl, by decide, rfl⟩,
   ⟨stage grid88 7 noOps [.engineTurn], .free 0, [], rfl, by decide, rfl⟩,
   ⟨stage grid88 7 noOps [Claims.sramRead 262143], .free 0, ⟨.sram, 1048572, 4, none⟩, [], rfl, by decide, rfl, rfl,
     rfl, by decide, by decide⟩,
   ⟨7, .free 0, by decide⟩, ⟨State.reset, by decide, rfl⟩⟩

theorem witness_AcceptanceLatchesWordAndOperands :
    ∃ (s : State) (w : Word) (rest : List Event), s.engine = .idle ∧ s.bus = Claims.hostWrite 0x018 w :: rest :=
  ⟨{ State.reset with bus := [Claims.hostWrite 0x018 7] }, 7, [], rfl, rfl⟩

theorem witness_IllegalWordsFaultAndOnlyThey :
    ∃ s : State, s.engine = .busy ∧ s.bus = [] ∧ Claims.illegal s.lcmd :=
  ⟨stage grid88 0x0B noOps [], rfl, rfl, .inr (.inl (.inr (by decide)))⟩

theorem witness_LegalWordsMatchExactlyOneRow :
    ∃ (w : Word) (s : State), Claims.unusedSet w ∧ s.engine = .busy ∧ s.bus = [] ∧ s.lcmd = w :=
  ⟨0x00010001, stage grid88 0x00010001 noOps [], .inr (.inr ⟨by decide, by decide⟩), rfl, rfl, rfl⟩

theorem witness_DecodeOfEncodeIsTheCommand :
    (Instr.itxUnsupported28_31 15 28).wellFormed = true ∧ (Instr.itxUnsupported28_31 0 31).wellFormed = true := by
  decide

theorem witness_EncodeOfDecodeIsTheWord : ∃ w i, decode w = .instr i := ⟨0x001F0F0A, .itxUnsupported28_31 15 31, by decide⟩

theorem witness_DecodedFieldsAreTheWordsFields : ∃ w i, decode w = .instr i := ⟨0x48, .idct1d, by decide⟩

theorem witness_IdentificationRegistersReadConstants :
    (∃ (s : State) (v : Word) (rest : List Event), s.bus = Claims.hostWrite 0x03C v :: rest) ∧
      ∃ s : State, s.params.Legal :=
  ⟨⟨{ State.reset with bus := [Claims.hostWrite 0x03C 1] }, 1, [], rfl⟩, State.reset, default_legal⟩

theorem witness_ResetWindowReadsTheResetColumn :
    (1023 < 1024 ∧ 1023 ≠ 0 ∧ 1023 ≠ 1 ∧ 1023 ≠ 15) ∧ (2 < 1024 ∧ 2 ≠ 0 ∧ 2 ≠ 1 ∧ 2 ≠ 15) := by decide

theorem witness_UnmappedAndReadOnlyOffsets :
    (∃ (s : State) (v : Word) (rest : List Event), s.bus = Claims.hostWrite (4 * 1023) v :: rest) ∧
    (∃ (s : State) (rest : List Event), s.bus = Claims.hostRead (4 * 71) :: rest) ∧
    (∀ k ∈ [0, 1, 4, 5, 7, 14, 15, 16, 1023], k ∉ [2, 3, 6, 8, 9, 10, 11, 12, 13]) ∧
    ∀ k ∈ [6, 16, 63, 71, 191, 192, 1023],
      (16 ≤ k ∧ k < 64) ∨ 192 ≤ k ∨ (64 ≤ k ∧ k < 192 ∧ k % 8 = 7) ∨ k = 6 :=
  ⟨⟨{ State.reset with bus := [Claims.hostWrite (4 * 1023) 1] }, 1, [], rfl⟩,
   ⟨{ State.reset with bus := [Claims.hostRead (4 * 71)] }, [], rfl⟩, by decide, by decide⟩

theorem free_completes (s : State) : ∃ t, exec (.free 0) s = .next t ∧ t.engine = .idle := ⟨_, rfl, rfl⟩

theorem get_on_empty_slot_faults {s : State} {d : Slot} (h : (s.desc[d]).kind = .empty) :
    ∃ t, exec (.getSample d) s = .next t ∧ t.engine = .error := by
  have hp : planOf (.getSample d) s = .raises .badDesc := by
    unfold planOf planGetSample
    exact withDesc_empty h
  exact ⟨_, exec_of_raises hp, rfl⟩

theorem witness_DoneBitLifecycle :
    (∃ s t, exec (.free 0) s = .next t) ∧
    (∃ s t, s.Inv ∧ s.engine = .busy ∧ exec (.getSample 4) s = .next t ∧ t.engine = .error) ∧
    (∃ (s : State) (w : Word) (rest : List Event), s.engine = .idle ∧ s.bus = Claims.hostWrite 0x018 w :: rest) ∧
    ∃ (s : State) (v : Word) (rest : List Event), s.bus = Claims.hostWrite 0x00C v :: rest := by
  obtain ⟨t, ht, he⟩ := get_on_empty_slot_faults (s := stage grid88 3 noOps []) (d := 4) (by decide)
  exact ⟨⟨State.reset, _, rfl⟩, ⟨_, t, stage_inv grid88_legal 3 noOps [], rfl, ht, he⟩,
    ⟨{ State.reset with bus := [Claims.hostWrite 0x018 7] }, 7, [], rfl, rfl⟩,
    ⟨{ State.reset with bus := [Claims.hostWrite 0x00C 2] }, 2, [], rfl⟩⟩

theorem witness_RejBitLifecycle :
    (∃ (s : State) (w : Word) (rest : List Event), (s.engine = .busy ∨ s.engine = .error) ∧
      s.bus = Claims.hostWrite 0x018 w :: rest) ∧
    (∃ (s : State) (v : Word) (rest : List Event), s.bus = Claims.hostWrite 0x00C v :: rest) ∧
    ∃ s : State, Claims.resetNext s :=
  ⟨⟨stage grid88 7 noOps [Claims.hostWrite 0x018 7], 7, [], .inl rfl, rfl⟩,
   ⟨{ State.reset with bus := [Claims.hostWrite 0x00C 8] }, 8, [], rfl⟩,
   ⟨stopped [Claims.hostWrite 0x008 1], .inr ⟨1, [], rfl, by decide⟩⟩⟩

theorem witness_EngineStateTransitions :
    (∃ s t : State, step s = .next t ∧ s.engine = .idle) ∧ (∃ s t : State, step s = .next t ∧ s.engine = .busy) ∧
    (∃ s t : State, step s = .next t ∧ s.engine = .error) ∧
    (∃ (s : State) (w : Word) (rest : List Event), s.engine = .idle ∧ s.bus = Claims.hostWrite 0x018 w :: rest) ∧
    ∃ s : State, Claims.resetNext s :=
  ⟨⟨State.reset, _, rfl, rfl⟩, ⟨stage grid88 7 noOps [.hardReset], _, rfl, rfl⟩, ⟨stopped [], _, rfl, rfl⟩,
   ⟨{ State.reset with bus := [Claims.hostWrite 0x018 7] }, 7, [], rfl, rfl⟩, ⟨stopped [.hardReset], .inl ⟨[], rfl⟩⟩⟩

theorem witness_OperandRegistersDoNotReachARunningCommand :
    ∃ (s : State) (i : Fin 6) (v : Word) (rest : List Event),
      s.bus = Claims.hostWrite (0x020 + 4 * i.val) v :: rest ∧ s.engine = .busy :=
  ⟨stage grid88 7 noOps [Claims.hostWrite 0x034 9], 5, 9, [], rfl, rfl⟩

theorem witness_SramAccessIsHeldWhileBusy :
    ∃ (s : State) (a : Access) (rest : List Event), s.Inv ∧ s.engine = .busy ∧ s.bus = .host a :: rest ∧
      a.window = .sram ∧ a.bytes = 4 ∧ a.offset % 4 = 0 ∧ a.offset < 4 * s.params.sramWords :=
  ⟨stage grid88 7 noOps [Claims.sramRead 262143], ⟨.sram, 1048572, 4, none⟩, [], stage_inv grid88_legal _ _ _, rfl, rfl,
    rfl, rfl, by decide, by decide⟩

theorem witness_RegisterAccessIsNeverHeld :
    (∃ (s : State) (rest : List Event), s.engine = .busy ∧ s.bus = Claims.hostRead 0xFFC :: rest) ∧
    ∃ (s : State) (v : Word) (rest : List Event), s.engine = .busy ∧ s.bus = Claims.hostWrite 0x000 v :: rest :=
  ⟨⟨stage grid88 7 noOps [Claims.hostRead 0xFFC], [], rfl, rfl⟩,
   ⟨stage grid88 7 noOps [Claims.hostWrite 0x000 1], 1, [], rfl, rfl⟩⟩

theorem witness_BadAccessGetsABusErrorOnly :
    (∃ (s : State) (a : Access) (rest : List Event), s.bus = .host a :: rest ∧
      a.offset < windowBytes s.params a.window ∧ (a.bytes ≠ 4 ∨ a.offset % 4 ≠ 0)) ∧
    ∃ (s : State) (a : Access) (rest : List Event), s.engine = .busy ∧ s.bus = .host a :: rest ∧
      a.offset < windowBytes s.params a.window ∧ (a.bytes ≠ 4 ∨ a.offset % 4 ≠ 0) :=
  ⟨⟨{ State.reset with bus := [.host ⟨.registers, 4095, 1, none⟩] }, ⟨.registers, 4095, 1, none⟩, [], rfl, by decide,
     .inl (by decide)⟩,
   ⟨stage grid88 7 noOps [.host ⟨.sram, 1048575, 4, none⟩], ⟨.sram, 1048575, 4, none⟩, [], rfl, rfl, by decide,
     .inr (by decide)⟩⟩

theorem witness_SramWriteThenReadReturnsTheWord :
    ∃ (s : State) (a : Nat) (v : Word) (rest : List Event), s.engine ≠ .busy ∧ a < s.params.sramWords ∧
      s.bus = Claims.sramWrite a v :: Claims.sramRead a :: rest :=
  ⟨{ State.reset with bus := [Claims.sramWrite 262143 9, Claims.sramRead 262143] }, 262143, 9, [], by decide, by decide,
    rfl⟩

theorem witness_FaultsArePreciseAndCompletionIsFramed :
    (∃ (s : State) (why : IllegalWord), decode s.lcmd = .rejected why) ∧ (∃ i s t, exec i s = .next t ∧ t.engine = .error) ∧
    ∃ i s t, exec i s = .next t ∧ t.engine = .idle := by
  obtain ⟨t, ht, he⟩ := get_on_empty_slot_faults (s := State.reset) (d := 0) (by decide)
  obtain ⟨u, hu, hi⟩ := free_completes State.reset
  exact ⟨⟨State.reset, .unassignedOpcode, by decide⟩, ⟨.getSample 0, _, t, ht, he⟩, ⟨.free 0, _, u, hu, hi⟩⟩

theorem witness_CauseCodesRaisedByEachCommand :
    ∃ i s t, i.wellFormed = true ∧ exec i s = .next t ∧ t.engine = .error := by
  obtain ⟨t, ht, he⟩ := get_on_empty_slot_faults (s := State.reset) (d := 0) (by decide)
  exact ⟨.getSample 0, _, t, rfl, ht, he⟩

/-- The three kinds of hypothesis: an illegal word; two causes at once, of which the lower is the least (V15); none. -/
theorem witness_LowestNumberedCauseIsReported :
    (∃ s : State, Claims.illegal s.lcmd) ∧
    (∃ s : State, s.Inv ∧ Claims.applies (.viewNew 1) s 6 ∧ Claims.applies (.viewNew 1) s 8 ∧
      ∀ c, c < 6 → ¬ Claims.applies (.viewNew 1) s c) ∧
    ∃ s : State, s.Inv ∧ ∀ c, ¬ Claims.applies (.free 0) s c := by
  refine ⟨⟨State.reset, .inr (.inl (.inl (by decide)))⟩,
    ⟨stage grid88 0x102 (ops 262140 23 4 3 10 0) [], stage_inv grid88_legal _ _ _, ?_, ?_, ?_⟩,
    ⟨stage grid88 7 noOps [], stage_inv grid88_legal _ _ _, fun _ h => h⟩⟩
  · exact .inl ⟨rfl, .inr (.inr (.inr (by decide)))⟩
  · exact .inr ⟨rfl, by decide⟩
  · rintro c hc (⟨rfl, -⟩ | ⟨rfl, -⟩)
    · exact absurd hc (by decide)
    · exact absurd hc (by decide)

theorem witness_ErrorStateIsLeftByResetOnly :
    (∃ s t : State, s.engine = .error ∧ step s = .next t ∧ ¬ Claims.resetNext s) ∧
    ∃ s : State, s.engine = .error ∧ Claims.resetNext s := by
  refine ⟨⟨stopped [], _, rfl, rfl, ?_⟩, ⟨stopped [.hardReset], rfl, .inl ⟨[], rfl⟩⟩⟩
  rintro (⟨rest, h⟩ | ⟨v, rest, h, -⟩) <;> nomatch h

theorem witness_HardResetState : ∃ (s : State) (rest : List Event), s.engine = .busy ∧ s.bus = .hardReset :: rest :=
  ⟨stage grid88 7 noOps [.hardReset], [], rfl, rfl⟩

theorem witness_ControlWriteResetsOrEnables :
    (∃ (s : State) (v : Word) (rest : List Event), s.bus = Claims.hostWrite 0x008 v :: rest ∧ v.getLsbD 0 = true ∧
      s.engine ≠ .busy) ∧
    ∃ (s : State) (v : Word) (rest : List Event), s.bus = Claims.hostWrite 0x008 v :: rest ∧ v.getLsbD 0 = false :=
  ⟨⟨stopped [Claims.hostWrite 0x008 7], 7, [], rfl, by decide, by decide⟩,
   ⟨stopped [Claims.hostWrite 0x008 6], 6, [], rfl, by decide⟩⟩

theorem witness_AbandonedCommandTouchesItsWriteSetOnly :
    (∃ (s : State) (v : Word) (rest : List Event), s.engine = .busy ∧ v.getLsbD 0 = true ∧
      s.bus = Claims.hostWrite 0x008 v :: rest ∧
      ∃ r ∈ s.writeSet, ¬ Claims.inWords r.1 r.2.length 0 ∧ Claims.inWords r.1 r.2.length 32) ∧
    (∃ s u : State, s.engine = .busy ∧ engineStep s = .next u ∧ u.engine = .error) ∧
    ∃ s u : State, s.engine = .busy ∧ engineStep s = .next u ∧ u.engine = .idle := by
  refine ⟨⟨stage gridV10 0x4 (ops 0 0 5 0 0 0) [Claims.hostWrite 0x008 1], 1, [], rfl, by decide, rfl, (8, [5]), ?_, ?_, ?_⟩,
    ⟨stage grid88 0 noOps [], _, rfl, rfl, rfl⟩, ⟨stage grid88 7 noOps [], _, rfl, rfl, rfl⟩⟩
  · decide +kernel
  · exact fun h => absurd h.1 (by decide)
  · exact ⟨by decide, by decide⟩

theorem witness_EveryAcceptedCommandEnds : ∃ s : State, s.Inv ∧ s.engine = .busy ∧ s.bus.length = 2 :=
  ⟨stage grid88 7 noOps [Claims.hostRead 0x00C, Claims.hostRead 0x00C], stage_inv grid88_legal _ _ _, rfl, rfl⟩

theorem witness_EveryStepKeepsTheInvariant : ∃ s : State, s.Inv ∧ s.engine = .busy :=
  ⟨stage viewV11 0x3 noOps [], stage_inv viewV11_legal _ _ _, rfl⟩

/-- The last sample of the view. -/
theorem witness_SampleAddressesLieInSampleMemory :
    ∃ (s : State) (d : Slot) (col row : Nat), s.Inv ∧ (s.desc[d]).kind ≠ .empty ∧ col < (s.desc[d]).w ∧
      row < (s.desc[d]).h ∧ col + 1 = (s.desc[d]).w ∧ row + 1 = (s.desc[d]).h :=
  ⟨stage viewV11 0x3 noOps [], 0, 3, 2, stage_inv viewV11_legal _ _ _, by decide, by decide, by decide, by decide,
    by decide⟩

theorem witness_DescriptorsChangeOnlyByTheirOwners :
    ∃ (s t : State) (d : Slot), step s = .next t ∧ t.desc[d] ≠ s.desc[d] :=
  ⟨stage grid88 7 noOps [], _, 0, rfl, by decide⟩

theorem witness_OnlyGetWritesRdataAndOnlyWidenWritesResult :
    (∃ i s t, exec i s = .next t ∧ (∀ d, i ≠ .getSample d) ∧ ∀ d, i ≠ .widenQ d) ∧
    (∃ i s t, exec i s = .next t ∧ t.engine = .error) ∧
    (∃ d s t, exec (.getSample d) s = .next t ∧ t.engine = .idle) ∧ ∃ s : State, Claims.resetNext s := by
  obtain ⟨t, ht, he⟩ := get_on_empty_slot_faults (s := State.reset) (d := 0) (by decide)
  exact ⟨⟨.free 0, State.reset, _, rfl, (fun _ h => (nomatch h)), (fun _ h => (nomatch h))⟩, ⟨.getSample 0, _, t, ht, he⟩,
    ⟨0, stage gridV10 3 (ops 3 1 0 0 0 0) [], _, rfl, rfl⟩, ⟨stopped [.hardReset], .inl ⟨[], rfl⟩⟩⟩

/-- The alignment hypotheses with each of the clauses: a zero width, a grid one word too long, and one that just fits. -/
theorem witness_GridNewCreatesAZeroedAlignedGrid :
    (∃ (s : State) (off : Nat), (s.larg[0].toNat + off) % s.params.alignWords = 0 ∧
      (∀ o, o < off → (s.larg[0].toNat + o) % s.params.alignWords ≠ 0) ∧ s.larg[1].toNat = 0) ∧
    (∃ (s : State) (off : Nat), (s.larg[0].toNat + off) % s.params.alignWords = 0 ∧
      (∀ o, o < off → (s.larg[0].toNat + o) % s.params.alignWords ≠ 0) ∧ s.larg[1].toNat ≠ 0 ∧ s.larg[2].toNat ≠ 0 ∧
      s.larg[0].toNat + off + s.larg[1].toNat * s.larg[2].toNat = s.params.sramWords + 1) ∧
    ∃ (s : State) (off : Nat), (s.larg[0].toNat + off) % s.params.alignWords = 0 ∧
      (∀ o, o < off → (s.larg[0].toNat + o) % s.params.alignWords ≠ 0) ∧ s.larg[1].toNat ≠ 0 ∧ s.larg[2].toNat ≠ 0 ∧
      s.larg[0].toNat + off + s.larg[1].toNat * s.larg[2].toNat = s.params.sramWords :=
  ⟨⟨stage grid88 1 (ops 3 0 2 0 0 0) [], 5, by decide, by decide, by decide⟩,
   ⟨stage grid88 1 (ops 262136 3 3 0 0 0) [], 0, by decide, by decide, by decide, by decide, by decide⟩,
   ⟨stage grid88 1 (ops 262131 2 4 0 0 0) [], 5, by decide, by decide, by decide, by decide, by decide⟩⟩

/-- Each of the clauses at its boundary: a region short by one, one word past the end, and one that just fits. -/
theorem witness_ViewNewCreatesAWindow :
    (∃ s : State, s.larg[1].toNat + 1 = s.larg[4].toNat * (s.larg[3].toNat - 1) + s.larg[2].toNat) ∧
    (∃ s : State, ¬ (s.larg[2].toNat = 0 ∨ s.larg[3].toNat = 0 ∨ s.larg[4].toNat < s.larg[2].toNat ∨
      s.larg[1].toNat < s.larg[4].toNat * (s.larg[3].toNat - 1) + s.larg[2].toNat) ∧
      s.larg[0].toNat + s.larg[1].toNat = s.params.sramWords + 1) ∧
    ∃ s : State, ¬ (s.larg[2].toNat = 0 ∨ s.larg[3].toNat = 0 ∨ s.larg[4].toNat < s.larg[2].toNat ∨
      s.larg[1].toNat < s.larg[4].toNat * (s.larg[3].toNat - 1) + s.larg[2].toNat) ∧
      s.larg[0].toNat + s.larg[1].toNat = s.params.sramWords :=
  ⟨⟨running 2 (ops 100 23 4 3 10 0), by decide⟩, ⟨running 2 (ops 262121 24 4 3 10 0), by decide, by decide⟩,
   ⟨running 2 (ops 262120 24 4 3 10 0), by decide, by decide⟩⟩

/-- The three clauses: an empty slot, a column at the width, the last sample. -/
theorem witness_GetReadsOneSample :
    (∃ (d : Slot) (s : State), (s.desc[d]).Legal s.params ∧ (s.desc[d]).kind = .empty) ∧
    (∃ (d : Slot) (s : State), (s.desc[d]).Legal s.params ∧ (s.desc[d]).kind ≠ .empty ∧
      Claims.outside s d s.larg[0] s.larg[1]) ∧
    ∃ (d : Slot) (s : State), (s.desc[d]).Legal s.params ∧ (s.desc[d]).kind ≠ .empty ∧
      ¬ Claims.outside s d s.larg[0] s.larg[1] :=
  ⟨⟨1, stage gridV10 3 noOps [], (stage_inv gridV10_legal _ _ _).desc_legal 1, by decide⟩,
   ⟨0, stage gridV10 3 (ops 4 0 0 0 0 0) [], gridV10_legal, by decide, .inl (by decide)⟩,
   ⟨0, stage gridV10 3 (ops 3 1 0 0 0 0) [], gridV10_legal, by decide,
     fun h => h.elim (fun h => absurd h (by decide)) fun h => absurd h (by decide)⟩⟩

theorem witness_SetWritesOneSample :
    ∃ (d : Slot) (s : State), (s.desc[d]).Legal s.params ∧ (s.desc[d]).kind ≠ .empty ∧
      ¬ Claims.outside s d s.larg[0] s.larg[1] := witness_GetReadsOneSample.2.2

/-- Two positions, equal or not, and one outside. -/
theorem witness_SwapExchangesTwoSamples :
    (∃ (d : Slot) (s : State), (s.desc[d]).Legal s.params ∧ (s.desc[d]).kind ≠ .empty ∧
      Claims.outside s d s.larg[2] s.larg[3]) ∧
    (∃ (d : Slot) (s : State), (s.desc[d]).Legal s.params ∧ (s.desc[d]).kind ≠ .empty ∧
      ¬ Claims.outside s d s.larg[0] s.larg[1] ∧ ¬ Claims.outside s d s.larg[2] s.larg[3] ∧
      (s.larg[0], s.larg[1]) ≠ (s.larg[2], s.larg[3])) ∧
    ∃ (d : Slot) (s : State), (s.desc[d]).Legal s.params ∧ (s.desc[d]).kind ≠ .empty ∧
      ¬ Claims.outside s d s.larg[0] s.larg[1] ∧ ¬ Claims.outside s d s.larg[2] s.larg[3] ∧
      (s.larg[0], s.larg[1]) = (s.larg[2], s.larg[3]) := by
  have inside : ∀ (a b c e : Nat), a < 4 → b < 2 → c < 4 → e < 2 →
      ¬ Claims.outside (stage gridV10 5 (ops a b c e 0 0) []) 0 (BitVec.ofNat 32 a) (BitVec.ofNat 32 b) := by
    intro a b c e ha hb _ _ h
    have h4 : (((stage gridV10 5 (ops a b c e 0 0) []).desc[(0 : Slot)])).w = 4 := rfl
    have h2 : (((stage gridV10 5 (ops a b c e 0 0) []).desc[(0 : Slot)])).h = 2 := rfl
    unfold Claims.outside at h
    rw [h4, h2, BitVec.toNat_ofNat, BitVec.toNat_ofNat, Nat.mod_eq_of_lt (by omega), Nat.mod_eq_of_lt (by omega)] at h
    omega
  exact ⟨⟨0, stage gridV10 5 (ops 0 0 4 0 0 0) [], gridV10_legal, by decide, .inl (by decide)⟩,
    ⟨0, stage gridV10 5 (ops 0 0 3 1 0 0) [], gridV10_legal, by decide, inside 0 0 3 1 (by decide) (by decide) (by decide)
      (by decide), fun h => h.elim (fun h => absurd h (by decide)) fun h => absurd h (by decide), by decide⟩,
    ⟨0, stage gridV10 5 (ops 2 1 2 1 0 0) [], gridV10_legal, by decide, inside 2 1 2 1 (by decide) (by decide) (by decide)
      (by decide), fun h => h.elim (fun h => absurd h (by decide)) fun h => absurd h (by decide), by decide⟩⟩

theorem witness_WidenQueryAnswersAvailability :
    (∃ (d : Slot) (s : State), (s.desc[d]).kind = .empty) ∧ ∃ (d : Slot) (s : State), (s.desc[d]).kind ≠ .empty :=
  ⟨⟨1, stage gridV10 6 noOps [], by decide⟩, ⟨0, stage gridV10 6 noOps [], by decide⟩⟩

theorem lengthOk_256 : Claims.lengthOk 256 := ⟨8, le_rfl, by norm_num⟩

theorem not_lengthOk_257 : ¬ Claims.lengthOk 257 := by
  rintro ⟨k, hk, h⟩
  have : 2 ^ k ≤ 2 ^ 8 := Nat.pow_le_pow_right (by norm_num) hk
  omega

/-- The three clauses at their boundaries: length 257; length 256 one word past the end; length 256 ending at the end. -/
theorem witness_OneDimensionalTransformCommands :
    (∃ s : State, ¬ Claims.lengthOk s.larg[2].toNat) ∧
    (∃ s : State, Claims.lengthOk s.larg[2].toNat ∧ s.larg[0].toNat + s.larg[2].toNat = s.params.sramWords + 1) ∧
    ∃ s : State, Claims.lengthOk s.larg[2].toNat ∧ s.larg[0].toNat + s.larg[2].toNat = s.params.sramWords ∧
      s.larg[1].toNat + s.larg[2].toNat ≤ s.params.sramWords :=
  ⟨⟨running 8 (ops 0 0 257 0 0 0), not_lengthOk_257⟩, ⟨running 8 (ops 261889 0 256 0 0 0), lengthOk_256, by decide⟩,
   ⟨running 8 (ops 261888 0 256 0 0 0), lengthOk_256, by decide, by decide⟩⟩

/-- The 8 x 8 grid with every sample `v`, under the command `w`. -/
def filled (v w : Word) (larg : Vector Word 6) : State :=
  { stage grid88 w larg [] with sram := (stage grid88 w larg []).sram.putRun (64, List.replicate 64 v) }

theorem filled_inv (v w : Word) (larg : Vector Word 6) : (filled v w larg).Inv := by
  have h0 := stage_inv grid88_legal w larg []
  exact ⟨h0.params_legal, h0.desc_legal, Memory.putRun_wf h0.sram_canonical _,
    Memory.mem_putRuns_bound (rs := [(64, List.replicate 64 v)]) h0.sram_inside (by
      intro r hr
      rw [List.mem_singleton] at hr
      subst hr
      unfold Run.within
      rw [List.length_replicate]
      show 64 + 64 ≤ Params.default.sramWords
      decide), h0.done_idle, h0.no_fault, h0.one_fault⟩

theorem filled_word (v w : Word) (larg : Vector Word 6) (k : Nat) (hk : k < 64) :
    (filled v w larg).sramWord (64 + k) = v := by
  have := Memory.wordFrom_putRun_inside (stage grid88 w larg []).powerOns (stage grid88 w larg []).sram
    (64, List.replicate 64 v) k (by simp only [List.length_replicate]; exact hk)
  refine Eq.trans this ?_
  rw [List.getElem_replicate]

/-- The descriptor of the filled grid, and the address of a sample. -/
theorem filled_addr (v w : Word) (larg : Vector Word 6) :
    ((filled v w larg).desc[(0 : Slot)]).w = 8 ∧ ((filled v w larg).desc[(0 : Slot)]).h = 8 ∧
      ((filled v w larg).desc[(0 : Slot)]).kind ≠ .empty ∧
      ∀ col row, ((filled v w larg).desc[(0 : Slot)]).addr col row = 64 + (row * 8 + col) := by
  have hx : (filled v w larg).desc[(0 : Slot)] = grid88 := rfl
  rw [hx]
  refine ⟨by decide, by decide, by decide, fun col row => ?_⟩
  have ho : grid88.origin = 64 := by decide
  have hs : grid88.stride.toNat = 8 := by decide
  unfold Desc.addr
  rw [ho, hs]
  omega

theorem filled_sample (v w : Word) (larg : Vector Word 6) (col row : Nat)
    (hc : col < ((filled v w larg).desc[(0 : Slot)]).w) (hr : row < ((filled v w larg).desc[(0 : Slot)]).h) :
    (filled v w larg).sramWord (((filled v w larg).desc[(0 : Slot)]).addr col row) = v := by
  obtain ⟨hw, hh, -, ha⟩ := filled_addr v w larg
  rw [hw] at hc
  rw [hh] at hr
  rw [ha]
  exact filled_word v w larg _ (by omega)

/-- 1.0 as a real number. -/
theorem realOf_one : Exact.realOf (F32.ofWord 0x3F800000) = 1 := by
  have hu : (F32.ofWord 0x3F800000).units = 2 ^ 149 := by decide
  unfold Exact.realOf
  rw [hu]
  push_cast
  norm_num

/-- Lengths 1 and 2 at the end of sample memory, and 64 ones on a legal build. -/
theorem witness_ShortTransformsAreBitExact :
    (∃ s : State, s.larg[0].toNat + s.larg[2].toNat ≤ s.params.sramWords ∧
      s.larg[1].toNat + s.larg[2].toNat ≤ s.params.sramWords ∧ s.larg[2].toNat = 1) ∧
    (∃ s : State, s.larg[0].toNat + s.larg[2].toNat ≤ s.params.sramWords ∧
      s.larg[1].toNat + s.larg[2].toNat ≤ s.params.sramWords ∧ s.larg[2].toNat = 2) ∧
    ∃ s : State, s.larg[0].toNat + s.larg[2].toNat ≤ s.params.sramWords ∧
      s.larg[1].toNat + s.larg[2].toNat ≤ s.params.sramWords ∧ s.params.Legal ∧ Claims.lengthOk s.larg[2].toNat ∧
      4 ≤ s.larg[2].toNat ∧
      (∀ c ∈ tab s.larg[2].toNat fun j => F32.ofWord (s.sramWord (s.larg[0].toNat + j)), c.isFinite = true) ∧
      Exact.mass (tab s.larg[2].toNat fun j => F32.ofWord (s.sramWord (s.larg[0].toNat + j))) < 2 ^ 96 := by
  refine ⟨⟨running 8 (ops 262143 0 1 0 0 0), by decide, by decide, by decide⟩,
    ⟨running 8 (ops 262142 262142 2 0 0 0), by decide, by decide, by decide⟩,
    ⟨filled 0x3F800000 8 (ops 64 64 64 0 0 0), by decide, by decide, default_legal, ⟨6, by decide, by decide⟩, by decide,
      ?_, ?_⟩⟩
  · have h0 : (filled 0x3F800000 8 (ops 64 64 64 0 0 0)).larg[0].toNat = 64 := by decide
    have h2 : (filled 0x3F800000 8 (ops 64 64 64 0 0 0)).larg[2].toNat = 64 := by decide
    rw [h0, h2]
    refine Exact.forall_mem_tab fun j hj => ?_
    rw [filled_word _ _ _ _ hj]
    decide
  · have h0 : (filled 0x3F800000 8 (ops 64 64 64 0 0 0)).larg[0].toNat = 64 := by decide
    have h2 : (filled 0x3F800000 8 (ops 64 64 64 0 0 0)).larg[2].toNat = 64 := by decide
    rw [h0, h2, Exact.mass_tab]
    refine lt_of_le_of_lt (b := ∑ _j ∈ Finset.range 64, (1 : ℝ)) ?_ (by norm_num)
    refine Finset.sum_le_sum fun j hj => ?_
    rw [filled_word _ _ _ _ (Finset.mem_range.mp hj), realOf_one, abs_one]

/-- An empty slot, a 3-high view, and an 8 x 8 grid. -/
theorem witness_TwoDimensionalTransformCommands :
    (∃ (d : Slot) (s : State), (s.desc[d]).Legal s.params ∧ (s.desc[d]).kind = .empty) ∧
    (∃ (d : Slot) (s : State), (s.desc[d]).Legal s.params ∧ (s.desc[d]).kind ≠ .empty ∧
      ¬ (Claims.lengthOk (s.desc[d]).w ∧ Claims.lengthOk (s.desc[d]).h)) ∧
    ∃ (d : Slot) (s : State), (s.desc[d]).Legal s.params ∧ (s.desc[d]).kind ≠ .empty ∧
      Claims.lengthOk (s.desc[d]).w ∧ Claims.lengthOk (s.desc[d]).h := by
  refine ⟨⟨1, stage grid88 9 noOps [], (stage_inv grid88_legal _ _ _).desc_legal 1, by decide⟩,
    ⟨0, stage viewV11 9 noOps [], viewV11_legal, by decide, ?_⟩,
    ⟨0, stage grid88 9 noOps [], grid88_legal, by decide, ⟨3, by decide, by decide⟩, ⟨3, by decide, by decide⟩⟩⟩
  rintro ⟨-, k, hk, h⟩
  have h3 : (((stage viewV11 9 noOps []).desc[(0 : Slot)])).h = 3 := rfl
  rw [h3] at h
  interval_cases k <;> omega

/-- Both orders of the sides; an 8 x 8 grid of ones, and one of zeros. -/
theorem witness_LongerAxisIsTransformedFirst :
    ((idct1, idct2) ∈ [(dct1, dct2), (idct1, idct2)] ∧ (3 < 4 ∧ 1 < 2 ∧ 2 ≤ 4) ∧ (1 < 2 ∧ 3 < 4 ∧ 2 < 4)) ∧
    (∃ (d : Slot) (s : State), s.Inv ∧ (s.desc[d]).kind ≠ .empty ∧ Claims.lengthOk (s.desc[d]).w ∧
      Claims.lengthOk (s.desc[d]).h ∧ s.params.dctEps ≤ 1 / 16 ∧
      (∑ col ∈ Finset.range (s.desc[d]).w, ∑ row ∈ Finset.range (s.desc[d]).h,
        |Exact.realOf (F32.ofWord (s.sramWord ((s.desc[d]).addr col row)))|) < 2 ^ 95 ∧
      ∀ col row, col < (s.desc[d]).w → row < (s.desc[d]).h →
        (F32.ofWord (s.sramWord ((s.desc[d]).addr col row))).isFinite = true) ∧
    ∃ (d : Slot) (s : State), s.Inv ∧ (s.desc[d]).kind ≠ .empty ∧ Claims.lengthOk (s.desc[d]).w ∧
      Claims.lengthOk (s.desc[d]).h ∧ ∀ col row, col < (s.desc[d]).w → row < (s.desc[d]).h →
        (F32.ofWord (s.sramWord ((s.desc[d]).addr col row))).isZero = true := by
  have good : ∀ v, Claims.lengthOk ((filled v 9 noOps).desc[(0 : Slot)]).w ∧
      Claims.lengthOk ((filled v 9 noOps).desc[(0 : Slot)]).h := by
    intro v
    obtain ⟨hw, hh, -, -⟩ := filled_addr v 9 noOps
    rw [hw, hh]
    exact ⟨⟨3, by decide, by decide⟩, ⟨3, by decide, by decide⟩⟩
  refine ⟨⟨List.mem_cons_of_mem _ List.mem_cons_self, by decide, by decide⟩,
    ⟨0, filled 0x3F800000 9 noOps, filled_inv _ _ _, (filled_addr _ _ _).2.2.1, (good _).1, (good _).2, ?_, ?_, ?_⟩,
    ⟨0, filled 0 9 noOps, filled_inv _ _ _, (filled_addr _ _ _).2.2.1, (good _).1, (good _).2, ?_⟩⟩
  · show (1 / 65536 : Rat) ≤ 1 / 16
    norm_num
  · refine lt_of_le_of_lt (b := ∑ _col ∈ Finset.range 8, ∑ _row ∈ Finset.range 8, (1 : ℝ)) ?_ (by norm_num)
    refine Finset.sum_le_sum fun col hc => Finset.sum_le_sum fun row hr => ?_
    rw [filled_sample _ _ _ _ _ (Finset.mem_range.mp hc) (Finset.mem_range.mp hr), realOf_one, abs_one]
  · intro col row hc hr
    rw [filled_sample _ _ _ _ _ hc hr]
    decide
  · intro col row hc hr
    rw [filled_sample _ _ _ _ _ hc hr]
    decide

/-- A wrong target, and an 8 x 8 block with the right one. -/
theorem witness_FixedTagsTransformAnEightByEightBlock :
    (∃ g ∈ Claims.fixedItx, g.1 = 17) ∧
    (∃ (d : Slot) (s : State), s.Inv ∧ (s.desc[d]).kind ≠ .empty ∧ (s.larg[0].toNat, s.larg[1].toNat) ≠ (8, 8)) ∧
    ∃ (d : Slot) (s : State), s.Inv ∧ (s.desc[d]).kind ≠ .empty ∧ s.larg[0].toNat = 8 ∧ s.larg[1].toNat = 8 ∧
      (s.desc[d]).w = 8 ∧ (s.desc[d]).h = 8 :=
  ⟨⟨(17, .itxAfv3, pathAfv3), by simp [Claims.fixedItx], rfl⟩,
   ⟨0, stage grid88 0x2000A (ops 8 9 0 0 0 0) [], stage_inv grid88_legal _ _ _, by decide, by decide⟩,
   ⟨0, stage grid88 0x2000A (ops 8 8 0 0 0 0) [], stage_inv grid88_legal _ _ _, by decide, by decide, by decide, by decide,
     by decide⟩⟩

theorem witness_GeneralTagsTransformInPlace :
    (26, 256, 128) ∈ Claims.defaultTargets ∧ ∃ g ∈ Claims.generalItx, ∃ (d : Slot) (s : State) (w h : Nat), s.Inv ∧ (s.desc[d]).kind ≠ .empty ∧
      s.params.ttDim g.1 = (w, h) ∧ s.larg[0].toNat = w ∧ s.larg[1].toNat = h ∧ (s.desc[d]).w = w ∧ (s.desc[d]).h = h :=
  ⟨by decide, (0, .itxDct8), by simp [Claims.generalItx], 0, stage grid88 0xA (ops 8 8 0 0 0 0) [], 8, 8,
    stage_inv grid88_legal _ _ _, by decide, by decide, by decide, by decide, by decide, by decide⟩

/-- An 8 x 8 grid of the last 64 words. -/
def gridAtEnd : Desc := ⟨.grid, 262080, 0, 8, 8, 8, 64⟩

theorem gridAtEnd_legal : gridAtEnd.Legal Params.default :=
  ⟨fun h => (nomatch h), fun _ => ⟨by decide, by decide, by decide, by decide, by decide, by decide, by decide⟩,
    fun h => (nomatch h)⟩

/-- A view of another footprint, a grid that would pass the end, and a grid that grows in place, under ITX.DCT16. -/
theorem witness_GeneralTagsReallocateAGrid :
    (∃ (d : Slot) (s : State), s.Inv ∧ s.params.ttDim 4 = (16, 16) ∧ s.larg[0].toNat = 16 ∧ s.larg[1].toNat = 16 ∧
      ((s.desc[d]).w, (s.desc[d]).h) ≠ (16, 16) ∧ (s.desc[d]).kind = .view) ∧
    (∃ (d : Slot) (s : State), s.Inv ∧ s.params.ttDim 4 = (16, 16) ∧ s.larg[0].toNat = 16 ∧ s.larg[1].toNat = 16 ∧
      ((s.desc[d]).w, (s.desc[d]).h) ≠ (16, 16) ∧ (s.desc[d]).kind = .grid ∧
      s.params.sramWords < (s.desc[d]).origin + 16 * 16) ∧
    ∃ (d : Slot) (s : State), s.Inv ∧ s.params.ttDim 4 = (16, 16) ∧ s.larg[0].toNat = 16 ∧ s.larg[1].toNat = 16 ∧
      ((s.desc[d]).w, (s.desc[d]).h) ≠ (16, 16) ∧ (s.desc[d]).kind = .grid ∧
      (s.desc[d]).origin + 16 * 16 ≤ s.params.sramWords :=
  ⟨⟨0, stage viewV11 0x4000A (ops 16 16 0 0 0 0) [], stage_inv viewV11_legal _ _ _, by decide, by decide, by decide,
     by decide, by decide⟩,
   ⟨0, stage gridAtEnd 0x4000A (ops 16 16 0 0 0 0) [], stage_inv gridAtEnd_legal _ _ _, by decide, by decide, by decide,
     by decide, by decide, by decide⟩,
   ⟨0, stage grid88 0x4000A (ops 16 16 0 0 0 0) [], stage_inv grid88_legal _ _ _, by decide, by decide, by decide,
     by decide, by decide, by decide⟩⟩

theorem witness_UnsupportedTagsTakeTheirFault :
    Claims.unsupportedItx 0 (.itxUnsupported27 0) ∧ Claims.unsupportedItx 0 (.itxUnsupported28_31 0 28) ∧
    Claims.unsupportedItx 0 (.itxUnsupported28_31 0 31) ∧ (∃ (d : Slot) (s : State), (s.desc[d]).kind = .empty) ∧
    ∃ (d : Slot) (s : State), (s.desc[d]).kind ≠ .empty :=
  ⟨.inl rfl, .inr ⟨28, by decide, rfl⟩, .inr ⟨31, by decide, rfl⟩, witness_WidenQueryAnswersAvailability⟩

theorem witness_Aux2MixesSuperCells :
    8 ∈ [2, 4, 8] ∧ (3 < 8 / 2 ∧ 3 < 8 / 2) ∧ (2 ∈ [2, 4, 8] ∧ 2 < 8 ∧ 0 < 8 ∧ 2 ≤ 2) := by decide

theorem witness_QuadrantPathsDct4AndHornuss : 1 < 2 ∧ 1 < 2 ∧ 3 < 4 ∧ 3 < 4 := by decide

theorem witness_HalfPathsDct4X8AndDct8X4 : 1 < 2 ∧ (7 < 8 ∧ 3 < 4) ∧ (3 < 4 ∧ 7 < 8) := by decide

theorem witness_AfvPartsAndPlacement : 3 < 4 ∧ (3 < 4 ∧ 3 < 4) ∧ (7 < 8 ∧ 3 < 4) := by decide

/-- The largest finite value and a subnormal. -/
theorem witness_AdditionRoundsOnceToNearestEven :
    (F32.ofWord 0x7F7FFFFF#32).isFinite = true ∧ (F32.ofWord 0x80000001#32).isFinite = true := by decide

theorem witness_MultiplicationRoundsOnceToNearestEven :
    (F32.ofWord 0x7F7FFFFF#32).isFinite = true ∧ (F32.ofWord 0x80000001#32).isFinite = true := by decide

theorem witness_FftStageIsItsButterflies :
    ∃ (ws : List Complex32) (half blocks : Nat) (y : List Complex32) (b j : Nat), ws.length = half ∧
      y.length = 2 * half * blocks ∧ b < blocks ∧ j < half :=
  ⟨[czero, czero], 2, 2, List.replicate 8 czero, 1, 1, rfl, by decide, by decide, by decide⟩

theorem witness_TransformOfZerosIsZeros :
    idct1 ∈ [dct1, idct1] ∧ ∃ (n : Nat) (x : List F32), Claims.lengthOk n ∧ x.length = n ∧ ∀ a ∈ x, a.isZero = true :=
  ⟨List.mem_cons_of_mem _ List.mem_cons_self, 256, List.replicate 256 (.fin true 0), lengthOk_256,
    List.length_replicate, fun a ha => by rw [List.eq_of_mem_replicate ha]; rfl⟩

/-- ITX.DCT2 on an 8 x 8 grid of zeros completes. -/
theorem witness_ZeroBlocksStayZeroUnderEveryTag :
    ∃ (d : Slot) (s t : State), s.Inv ∧ (∃ g ∈ Claims.fixedItx, Instr.itxDct2 d = g.2.1 d) ∧
      exec (.itxDct2 d) s = .next t ∧ t.engine = .idle ∧ ∀ col row, col < (s.desc[d]).w → row < (s.desc[d]).h →
        (F32.ofWord (s.sramWord ((s.desc[d]).addr col row))).isZero = true := by
  have hinv := filled_inv 0 0x2000A (ops 8 8 0 0 0 0)
  have hsample := filled_sample 0 0x2000A (ops 8 8 0 0 0 0)
  have hkind := (filled_addr 0 0x2000A (ops 8 8 0 0 0 0)).2.2.1
  have htarget : ¬ ((filled 0 0x2000A (ops 8 8 0 0 0 0)).operand 0, (filled 0 0x2000A (ops 8 8 0 0 0 0)).operand 1) ≠
      (filled 0 0x2000A (ops 8 8 0 0 0 0)).params.ttDim 2 := by decide
  have hsize : ¬ (((filled 0 0x2000A (ops 8 8 0 0 0 0)).desc[(0 : Slot)]).w ≠ 8 ∨
      ((filled 0 0x2000A (ops 8 8 0 0 0 0)).desc[(0 : Slot)]).h ≠ 8) := by decide
  generalize filled 0 0x2000A (ops 8 8 0 0 0 0) = s at hinv hsample hkind htarget hsize
  have hplan : planOf (.itxDct2 0) s =
      .runs (.store ((s.desc[(0 : Slot)]).blockRuns (pathDct2 s.params (s.block s.desc[(0 : Slot)])))) := by
    unfold planOf planItxDct2 planFixed withTarget
    dsimp only
    rw [withDesc_defined hkind, if_neg htarget, if_neg hsize, onMap_of_legal (hinv.desc_legal 0) hkind]
  refine ⟨0, s, _, hinv, ⟨(2, .itxDct2, pathDct2), by simp [Claims.fixedItx], rfl⟩, exec_of_runs hplan, rfl, ?_⟩
  intro col row hc hr
  rw [hsample col row hc hr]
  decide

theorem witness_DcOnlyBlocksBecomeConstant :
    ∃ (w h : Nat) (c : Word) (b : Nat → Nat → F32), Claims.lengthOk w ∧ Claims.lengthOk h ∧
      (F32.ofWord c).isFinite = true ∧ (F32.ofWord c).isZero = false ∧ b 0 0 = F32.ofWord c ∧
      ∀ u v, u ≠ 0 ∨ v ≠ 0 → (b u v).isZero = true :=
  ⟨256, 1, 0x3FC00000, fun u v => if u = 0 ∧ v = 0 then F32.ofWord 0x3FC00000 else F32.zero, lengthOk_256,
    ⟨0, by decide, rfl⟩, by decide, by decide, rfl, fun u v h => by
      have : ¬ (u = 0 ∧ v = 0) := by omega
      simp only [if_neg this]
      rfl⟩

theorem witness_ExactTransformsAreInverse : ∃ n i : Nat, i < n := ⟨1, 0, by decide⟩

end Sys2Proof.Tests
end

section
/-! PROOFS. The host's side of a step: what a register access does to the state, and the registers read through the
window. -/

namespace Sys2Proof.Machine

open Claims

/-! ### Register accesses (10_state.md R20, R48) -/

theorem headHeld_registers {s : State} {off n : Nat} {w : Option Word} {rest : List Event}
    (h : s.bus = .host ⟨.registers, off, n, w⟩ :: rest) : s.headHeld = false := by
  simp [State.headHeld, h, State.holds]

theorem access_register {s : State} {off : Nat} (hoff : off < 4096) (h4 : off % 4 = 0) (w : Option Word) :
    s.access ⟨.registers, off, 4, w⟩ = s.wordAccess ⟨.registers, off, 4, w⟩ := by
  simp [State.access, Access.wordAligned, windowBytes, Config.registerBytes, hoff, h4]

/-- A register write is carried out in the next step, in every engine state. -/
theorem step_hostWrite {s : State} {off : Nat} {v : Word} {rest : List Event} (hoff : off < 4096) (h4 : off % 4 = 0)
    (h : s.bus = hostWrite off v :: rest) :
    step s = .next { State.writeRegister off v { s with bus := rest } with response := some .written } := by
  rw [step_of_event h (headHeld_registers h)]
  exact congrArg Host.Outcome.next (access_register hoff h4 (some v))

/-- A register read is answered in the next step, in every engine state. -/
theorem step_hostRead {s : State} {off : Nat} {rest : List Event} (hoff : off < 4096) (h4 : off % 4 = 0)
    (h : s.bus = hostRead off :: rest) :
    step s = .next { s with bus := rest, response := some (.readData (s.readRegister off)) } := by
  rw [step_of_event h (headHeld_registers h)]
  exact congrArg Host.Outcome.next (access_register hoff h4 none)

theorem step_hardReset {s : State} {rest : List Event} (h : s.bus = .hardReset :: rest) :
    step s = .next (State.hardReset { s with bus := rest }) :=
  step_of_event h (by simp [State.headHeld, h])

/-! ### Register writes, one lemma per kind of offset -/

theorem writeRegister_ctrl_reset {v : Word} (hv : v.getLsbD 0 = true) (s : State) :
    State.writeRegister 0x008 v s = s.softReset := if_pos hv

theorem writeRegister_ctrl_enables {v : Word} (hv : v.getLsbD 0 = false) (s : State) :
    State.writeRegister 0x008 v s = s.writeEnables v := if_neg (by rw [hv]; exact Bool.false_ne_true)

theorem writeRegister_status (v : Word) (s : State) : State.writeRegister 0x00C v s = s.writeStatus v := rfl

theorem writeRegister_cmd (v : Word) (s : State) : State.writeRegister 0x018 v s = s.submit v := rfl

/-- The offsets whose writes have an effect: CTRL, STATUS, CMD and ARG0 to ARG5. -/
def writableOffsets : List Nat := [0x008, 0x00C, 0x018, 0x020, 0x024, 0x028, 0x02C, 0x030, 0x034]

theorem writeRegister_ignored {off : Nat} (h : off ∉ writableOffsets) (v : Word) (s : State) :
    State.writeRegister off v s = s := by
  unfold State.writeRegister
  split <;> simp [writableOffsets] at h ⊢

/-- Everything a register write can do. -/
theorem writeRegister_cases (off : Nat) (v : Word) (s : State) :
    (off = 0x008 ∧ v.getLsbD 0 = true ∧ State.writeRegister off v s = s.softReset) ∨
      State.writeRegister off v s = s.writeEnables v ∨ State.writeRegister off v s = s.writeStatus v ∨
      (off = 0x018 ∧ State.writeRegister off v s = s.submit v) ∨
      (∃ i, State.writeRegister off v s = s.writeArg i v) ∨ State.writeRegister off v s = s := by
  by_cases h : off ∈ writableOffsets
  · simp only [writableOffsets, List.mem_cons, List.not_mem_nil, or_false] at h
    rcases h with rfl | rfl | rfl | rfl | rfl | rfl | rfl | rfl | rfl
    · cases hv : v.getLsbD 0 with
      | true => exact .inl ⟨rfl, rfl, writeRegister_ctrl_reset hv s⟩
      | false => exact .inr (.inl (writeRegister_ctrl_enables hv s))
    · exact .inr (.inr (.inl rfl))
    · exact .inr (.inr (.inr (.inl ⟨rfl, rfl⟩)))
    · exact .inr (.inr (.inr (.inr (.inl ⟨0, rfl⟩))))
    · exact .inr (.inr (.inr (.inr (.inl ⟨1, rfl⟩))))
    · exact .inr (.inr (.inr (.inr (.inl ⟨2, rfl⟩))))
    · exact .inr (.inr (.inr (.inr (.inl ⟨3, rfl⟩))))
    · exact .inr (.inr (.inr (.inr (.inl ⟨4, rfl⟩))))
    · exact .inr (.inr (.inr (.inr (.inl ⟨5, rfl⟩))))
  · exact .inr (.inr (.inr (.inr (.inr (writeRegister_ignored h v s)))))

theorem submit_idle {s : State} (h : s.engine = .idle) (w : Word) :
    s.submit w = { s with lcmd := w, larg := s.arg, done := false, engine := .busy } := if_pos h

theorem submit_not_idle {s : State} (h : s.engine ≠ .idle) (w : Word) : s.submit w = { s with rej := true } := if_neg h

/-- Everything a host access can do: answer only, write a register, or write a word of sample memory. -/
theorem access_cases (s : State) (a : Access) :
    (∃ r, s.access a = { s with response := r }) ∨
      (∃ off v, a = ⟨.registers, off, 4, some v⟩ ∧
        s.access a = { State.writeRegister off v s with response := some .written }) ∨
      ∃ i v, i < s.params.sramWords ∧ s.access a = { s.writeSram i v with response := some .written } := by
  unfold State.access
  by_cases hin : windowBytes s.params a.window ≤ a.offset
  · exact .inl ⟨_, if_pos hin⟩
  by_cases hal : a.wordAligned s.params = false
  · exact .inl ⟨_, by rw [if_neg hin, if_pos hal]⟩
  rw [if_neg hin, if_neg hal]
  obtain ⟨window, off, n, write⟩ := a
  obtain rfl : n = 4 := by simp [Access.wordAligned] at hal; omega
  rcases window with _ | _ <;> rcases write with _ | v
  · exact .inl ⟨_, rfl⟩
  · exact .inr (.inl ⟨off, v, rfl, rfl⟩)
  · exact .inl ⟨_, rfl⟩
  · refine .inr (.inr ⟨off / 4, v, ?_, rfl⟩)
    simp only [windowBytes] at hin
    omega

/-- Everything a step can do: an engine turn, with the queue as it is or after its event was taken from it, the reset
input, or a host access. -/
theorem step_next_cases {s t : State} (h : step s = .next t) :
    (∃ bus, engineTurn { s with bus := bus } = .next t) ∨
      (∃ rest, s.bus = .hardReset :: rest ∧ t = State.hardReset { s with bus := rest }) ∨
      ∃ a rest, s.bus = .host a :: rest ∧ t = State.access { s with bus := rest } a := by
  rcases step_cases s with ⟨hs, -⟩ | ⟨e, rest, hb, -, hs⟩
  · exact .inl ⟨s.bus, hs ▸ h⟩
  rw [hs] at h
  cases e with
  | engineTurn => exact .inl ⟨rest, h⟩
  | hardReset => exact .inr (.inl ⟨rest, hb, (Host.Outcome.next.inj h).symm⟩)
  | host a => exact .inr (.inr ⟨a, rest, hb, (Host.Outcome.next.inj h).symm⟩)

/-! ### Resets -/

/-- Every reset ends in a state in which every register that both resets clear is clear. -/
theorem step_of_resetNext {s : State} (h : resetNext s) : ∃ t, step s = .next t ∧ t.clearRegisters = t := by
  rcases h with ⟨rest, hb⟩ | ⟨v, rest, hb, hv⟩
  · exact ⟨_, step_hardReset hb, rfl⟩
  · exact ⟨_, step_hostWrite (by decide) (by decide) hb, by rw [writeRegister_ctrl_reset hv]; rfl⟩

theorem registersReset_clearRegisters (s : State) : registersReset s.clearRegisters := by
  refine ⟨rfl, rfl, rfl, rfl, rfl, fun i => ?_, rfl, rfl, fun d => ?_, rfl⟩
  · exact Vector.getElem_replicate ..
  · exact Vector.getElem_replicate ..

theorem abandon_of_not_busy {s : State} (h : s.engine ≠ .busy) : s.abandon = s := if_neg h

/-! ### Register reads -/

/-- Beyond the named registers the window shows descriptors, and 0 elsewhere. -/
theorem readRegister_named_below {off : Nat} (h : 0x40 ≤ off) (s : State) :
    s.readRegister off =
      if h : 0x100 ≤ off ∧ off < 0x300 then (s.desc[(off - 0x100) / 32]'(by omega)).field (off % 32 / 4) else 0 := by
  obtain ⟨n, rfl⟩ := Nat.exists_eq_add_of_le' h
  rfl

theorem readRegister_outside {off : Nat} (h : 0x40 ≤ off) (hd : ¬ (0x100 ≤ off ∧ off < 0x300)) (s : State) :
    s.readRegister off = 0 := by
  rw [readRegister_named_below h, dif_neg hd]

theorem readRegister_desc (s : State) (d : Slot) {f : Nat} (hf : f < 8) :
    s.readRegister (0x100 + 32 * d.val + 4 * f) = (s.desc[d]).field f := by
  have hd := d.isLt
  have hslot : (0x100 + 32 * d.val + 4 * f - 0x100) / 32 = d.val := by omega
  have hfield : (0x100 + 32 * d.val + 4 * f) % 32 / 4 = f := by omega
  rw [readRegister_named_below (by omega), dif_pos (by omega)]
  simp only [hslot, hfield]
  rfl

end Sys2Proof.Machine
end

section
/-! PROOFS. The machine invariant: every operation of the state keeps it, hence every step does. -/

namespace Sys2Proof.Machine

/-! ### What a legal state says at once -/

theorem State.Inv.plan_sound {s : State} (h : s.Inv) (i : Instr) : (planOf i s).Sound s.params :=
  planOf_sound i h.params_legal h.desc_legal

theorem State.Inv.done_of_busy {s : State} (h : s.Inv) (hb : s.engine = .busy) : s.done = false := by
  cases hd : s.done with
  | false => rfl
  | true => exact nomatch (h.done_idle hd).symm.trans hb

theorem emptySlots_legal (p : Params) (d : Slot) : ((Vector.replicate 16 Desc.emptySlot)[d]).Legal p := by
  rw [Fin.getElem_fin, Vector.getElem_replicate]
  exact legal_emptySlot p

/-- The write set of the running command lies in sample memory. -/
theorem State.Inv.writeSet_within {s : State} (h : s.Inv) : ∀ r ∈ s.writeSet, Run.within r s.params.sramWords := by
  intro r hr
  unfold State.writeSet at hr
  cases hd : decode s.lcmd with
  | rejected why => rw [hd] at hr; nomatch hr
  | instr i =>
    rw [hd] at hr
    have hs := h.plan_sound i
    dsimp only at hr
    cases hp : planOf i s with
    | runs p => rw [hp] at hr hs; exact hs.runs_within r hr
    | raises c => rw [hp] at hr; nomatch hr
    | offMap a => rw [hp] at hs; exact hs.elim

/-! ### Operations that keep the invariant -/

/-- Changes outside the build, the descriptors, sample memory, the engine, DONE and the fault record do not matter, and DONE
may be cleared. -/
theorem State.Inv.of_frame {s t : State} (h : s.Inv) (hparams : t.params = s.params) (hdesc : t.desc = s.desc)
    (hsram : t.sram = s.sram) (hengine : t.engine = s.engine) (hdone : t.done = true → s.done = true)
    (hcause : t.cause = s.cause) (hfcmd : t.fcmd = s.fcmd) : t.Inv where
  params_legal := hparams ▸ h.params_legal
  desc_legal := by rw [hparams, hdesc]; exact h.desc_legal
  sram_canonical := hsram ▸ h.sram_canonical
  sram_inside := by rw [hparams, hsram]; exact h.sram_inside
  done_idle hd := hengine ▸ h.done_idle (hdone hd)
  no_fault he := by rw [hcause, hfcmd]; exact h.no_fault (hengine ▸ he)
  one_fault he := by rw [hcause]; exact h.one_fault (hengine ▸ he)

theorem State.Inv.withBus {s : State} (h : s.Inv) (rest : List Event) : State.Inv { s with bus := rest } :=
  h.of_frame rfl rfl rfl rfl id rfl rfl

theorem State.Inv.answered {s : State} (h : s.Inv) (r : Option Response) : State.Inv { s with response := r } :=
  h.of_frame rfl rfl rfl rfl id rfl rfl

theorem State.Inv.writeArg {s : State} (h : s.Inv) (i : Fin 6) (v : Word) : (s.writeArg i v).Inv :=
  h.of_frame rfl rfl rfl rfl id rfl rfl

theorem State.Inv.writeEnables {s : State} (h : s.Inv) (v : Word) : (s.writeEnables v).Inv :=
  h.of_frame rfl rfl rfl rfl id rfl rfl

theorem State.Inv.writeStatus {s : State} (h : s.Inv) (v : Word) : (s.writeStatus v).Inv :=
  h.of_frame rfl rfl rfl rfl (fun hd => (Bool.and_eq_true_iff.mp hd).1) rfl rfl

/-- Acceptance clears DONE before the engine leaves IDLE. -/
theorem State.Inv.submit {s : State} (h : s.Inv) (w : Word) : (s.submit w).Inv := by
  by_cases hi : s.engine = .idle
  · rw [submit_idle hi]
    exact ⟨h.params_legal, h.desc_legal, h.sram_canonical, h.sram_inside, nofun,
      fun _ => h.no_fault (by rw [hi]; exact nofun), nofun⟩
  · rw [submit_not_idle hi]
    exact h.of_frame rfl rfl rfl rfl id rfl rfl

theorem State.Inv.writeSram {s : State} (h : s.Inv) {a : Nat} (ha : a < s.params.sramWords) (v : Word) :
    (s.writeSram a v).Inv where
  params_legal := h.params_legal
  desc_legal := h.desc_legal
  sram_canonical := Memory.putRun_wf h.sram_canonical _
  sram_inside := Memory.mem_putRuns_bound (rs := [(a, [v])]) h.sram_inside fun r hr => by
    rw [List.mem_singleton.mp hr]
    exact ha
  done_idle := h.done_idle
  no_fault := h.no_fault
  one_fault := h.one_fault

/-- A completing command defines legal descriptors and writes inside sample memory. -/
theorem State.Inv.completes {s : State} (h : s.Inv) (hb : s.engine = .busy) {p : Plan} (hp : p.Sound s.params) :
    (s.applyPlan p).complete.Inv where
  params_legal := h.params_legal
  desc_legal d := by
    show ((p.table s.desc)[d]).Legal s.params
    unfold Plan.table
    cases hd : p.desc with
    | none => exact h.desc_legal d
    | some dx =>
      obtain ⟨d', x⟩ := dx
      simp only [Fin.getElem_fin, Vector.getElem_set]
      split
      · exact hp.desc_legal d' x hd
      · exact h.desc_legal d
  sram_canonical := Memory.putRuns_wf h.sram_canonical _
  sram_inside := Memory.mem_putRuns_bound h.sram_inside hp.runs_within
  done_idle _ := rfl
  no_fault _ := h.no_fault (by rw [hb]; exact nofun)
  one_fault he := nomatch he

theorem Cause.code_bounds (c : Cause) : 1 ≤ c.code.toNat ∧ c.code.toNat ≤ 8 := by
  cases c <;> decide

theorem State.Inv.faultEntry {s : State} (h : s.Inv) (hb : s.engine = .busy) (c : Cause) : (s.faultEntry c).Inv where
  params_legal := h.params_legal
  desc_legal := h.desc_legal
  sram_canonical := h.sram_canonical
  sram_inside := h.sram_inside
  done_idle hd := nomatch hd.symm.trans (h.done_of_busy hb)
  no_fault he := absurd rfl he
  one_fault _ := c.code_bounds

/-! ### Resets -/

theorem foldl_putBytes_wf (f : Run → List Byte) (rs : List Run) {m : Memory} (hm : m.wf) :
    Memory.wf (rs.foldl (fun m r => m.putBytes (4 * r.1) (f r)) m) := by
  induction rs generalizing m with
  | nil => exact hm
  | cons r rs ih => exact ih (Memory.putBytes_wf hm _ _)

theorem mem_foldl_putBytes_bound {f : Run → List Byte} (hf : ∀ r, (f r).length = 4 * r.2.length) {n : Nat}
    {rs : List Run} (hr : ∀ r ∈ rs, Run.within r n) {m : Memory} (hm : ∀ c ∈ m, c.1 < 4 * n) :
    ∀ c ∈ rs.foldl (fun m r => m.putBytes (4 * r.1) (f r)) m, c.1 < 4 * n := by
  induction rs generalizing m with
  | nil => exact hm
  | cons r rs ih =>
    refine ih (fun r' hr' => hr r' (List.mem_cons_of_mem _ hr')) fun c hc => ?_
    rcases Memory.mem_putBytes hc with hc | hc
    · exact hm c hc
    · have hw : r.1 + r.2.length ≤ n := hr r List.mem_cons_self
      rw [hf] at hc
      omega

theorem State.abandonedBytes_length (s : State) (r : Run) : (s.abandonedBytes r).length = 4 * r.2.length :=
  tab_length _ _

theorem State.Inv.abandon {s : State} (h : s.Inv) : s.abandon.Inv := by
  by_cases hb : s.engine = .busy
  · unfold State.abandon
    rw [if_pos hb]
    exact ⟨h.params_legal, h.desc_legal, foldl_putBytes_wf _ _ h.sram_canonical,
      mem_foldl_putBytes_bound s.abandonedBytes_length h.writeSet_within h.sram_inside, h.done_idle, h.no_fault,
      h.one_fault⟩
  · rw [abandon_of_not_busy hb]
    exact h

theorem State.Inv.clearRegisters {s : State} (h : s.Inv) : s.clearRegisters.Inv where
  params_legal := h.params_legal
  desc_legal := emptySlots_legal s.params
  sram_canonical := h.sram_canonical
  sram_inside := h.sram_inside
  done_idle _ := rfl
  no_fault _ := ⟨rfl, rfl⟩
  one_fault he := nomatch he

theorem State.Inv.softReset {s : State} (h : s.Inv) : s.softReset.Inv := h.abandon.clearRegisters

/-- The state after power-on of a legal build keeps the invariant. -/
theorem resetWith_inv {p : Params} (hp : p.Legal) : (State.resetWith p).Inv where
  params_legal := hp
  desc_legal := emptySlots_legal p
  sram_canonical := List.Pairwise.nil
  sram_inside _ hc := nomatch hc
  done_idle _ := rfl
  no_fault _ := ⟨rfl, rfl⟩
  one_fault he := nomatch he

theorem State.Inv.hardReset {s : State} (h : s.Inv) : s.hardReset.Inv :=
  (resetWith_inv h.params_legal).of_frame rfl rfl rfl rfl id rfl rfl

/-! ### The step -/

theorem State.Inv.writeRegister {s : State} (h : s.Inv) (off : Nat) (v : Word) : (State.writeRegister off v s).Inv := by
  rcases writeRegister_cases off v s with ⟨-, -, e⟩ | e | e | ⟨-, e⟩ | ⟨i, e⟩ | e <;> rw [e]
  · exact h.softReset
  · exact h.writeEnables v
  · exact h.writeStatus v
  · exact h.submit v
  · exact h.writeArg i v
  · exact h

theorem State.Inv.access {s : State} (h : s.Inv) (a : Access) : (s.access a).Inv := by
  rcases access_cases s a with ⟨r, e⟩ | ⟨off, v, -, e⟩ | ⟨i, v, hi, e⟩ <;> rw [e]
  · exact h.answered r
  · exact (h.writeRegister off v).answered _
  · exact (h.writeSram hi v).answered _

/-- Under the invariant no command leaves the map. -/
theorem State.Inv.exec_next {s : State} (h : s.Inv) (hb : s.engine = .busy) (i : Instr) :
    ∃ t, exec i s = .next t ∧ t.Inv := by
  have hs := h.plan_sound i
  cases hp : planOf i s with
  | runs p => exact ⟨_, exec_of_runs hp, h.completes hb (by rw [hp] at hs; exact hs)⟩
  | raises c => exact ⟨_, exec_of_raises hp, h.faultEntry hb c⟩
  | offMap a => rw [hp] at hs; exact hs.elim

theorem State.Inv.engineTurn_next {s : State} (h : s.Inv) : ∃ t, engineTurn s = .next t ∧ t.Inv := by
  by_cases hb : s.engine = .busy
  · rw [engineTurn_busy hb]
    cases hd : decode s.lcmd with
    | instr i => rw [engineStep_of_instr hd]; exact h.exec_next hb i
    | rejected why => exact ⟨_, engineStep_of_rejected hd, h.faultEntry hb _⟩
  · exact ⟨s, engineTurn_not_busy hb, h⟩

theorem State.Inv.step_next {s : State} (h : s.Inv) : ∃ t, step s = .next t ∧ t.Inv := by
  rcases step_cases s with ⟨hs, -⟩ | ⟨e, rest, -, -, hs⟩ <;> rw [hs]
  · exact h.engineTurn_next
  · cases e with
    | host a => exact ⟨_, rfl, (h.withBus rest).access a⟩
    | engineTurn => exact (h.withBus rest).engineTurn_next
    | hardReset => exact ⟨_, rfl, (h.withBus rest).hardReset⟩

/-- The default build is one that R7 allows: `REF` keeps the accuracy law with its `DCT_EPS`. The tests prove it for their
witnesses too; the proofs rest on nothing of the tests. -/
theorem defaultBuild_legal : Params.default.Legal where
  sramWords_min := by decide
  sramWords_max := by decide
  dims_count := rfl
  dims_good := by decide
  dims_fixed := by decide
  basis_count _ h := nomatch h
  basis_finite _ h := nomatch h
  accurate := by
    have heps : ((Params.default.dctEps : Rat) : ℝ) = 1 / 65536 := by norm_num [Params.default]
    exact heps ▸ Exact.ref_accurate

/-- Settles O31: each event and each engine turn keeps the invariant, and no command leaves the map. -/
theorem everyStepKeepsTheInvariant : Obligations.EveryStepKeepsTheInvariant := fun _ h => h.step_next

/-- Settles O30: power-on of the default build. -/
theorem invariantHoldsAtReset : Obligations.InvariantHoldsAtReset := resetWith_inv defaultBuild_legal

end Sys2Proof.Machine
end

section
/-! PROOFS. The statements about registers, STATUS and descriptors (10_state.md). -/

namespace Sys2Proof.Machine

open Claims

/-! ### Register words, bit by bit -/

/-- The bits of CTRL, from its two enables. -/
theorem ctrlWord_bits (s : State) :
    s.ctrlWord.getLsbD 0 = false ∧ s.ctrlWord.extractLsb' 3 29 = 0 := by
  unfold State.ctrlWord
  generalize s.ieDone = done, s.ieErr = err
  revert done err
  decide

/-- The bits of STATUS, from the five values it shows. -/
theorem statusWord_bits (s : State) :
    s.statusWord.getLsbD 0 = s.busy ∧ s.statusWord.getLsbD 2 = s.err ∧ s.statusWord.extractLsb' 5 27 = 0 := by
  unfold State.statusWord
  generalize s.busy = busy, s.done = done, s.err = err, s.rej = rej, s.result = result
  revert busy done err rej result
  decide

theorem extractLsb'_toNat_ofNat {n : Nat} (hn : n < 2 ^ 32) (start len : Nat) :
    ((BitVec.ofNat 32 n).extractLsb' start len).toNat = n / 2 ^ start % 2 ^ len := by
  rw [BitVec.extractLsb'_toNat, BitVec.toNat_ofNat, Nat.mod_eq_of_lt hn, Nat.shiftRight_eq_div_pow]

theorem causeWord_reserved (s : State) : s.causeWord.extractLsb' 8 24 = 0 := by
  have h := s.cause.isLt
  apply BitVec.eq_of_toNat_eq
  unfold State.causeWord
  rw [extractLsb'_toNat_ofNat (by omega), Nat.div_eq_of_lt h]
  rfl

/-- The four fields of CFG (10_state.md R38). -/
theorem cfgWordOf_fields {p : Params} (hp : p.Legal) :
    ((cfgWordOf p).extractLsb' 0 8).toNat = p.log2SramWords ∧
      ((cfgWordOf p).extractLsb' 8 8).toNat = p.alignment.bytes ∧ ((cfgWordOf p).extractLsb' 16 8).toNat = 16 ∧
      ((cfgWordOf p).extractLsb' 24 8).toNat = 8 := by
  have hl := hp.sramWords_max
  have ha : p.alignment.bytes ≤ 32 := by cases p.alignment <;> decide
  unfold cfgWordOf Config.ndesc Config.log2Nmax
  generalize p.log2SramWords = l at hl
  generalize p.alignment.bytes = a at ha
  have hlt : l + 0x100 * a + 0x10000 * 16 + 0x1000000 * 8 < 2 ^ 32 := by omega
  refine ⟨?_, ?_, ?_, ?_⟩ <;> rw [extractLsb'_toNat_ofNat hlt] <;> omega

/-! ### The register window -/

/-- Settles O9: the three offsets are not writable, and CFG is read field by field. -/
theorem identificationRegistersReadConstants : Obligations.IdentificationRegistersReadConstants := by
  refine ⟨fun s v rest off hoff hb => ?_, fun s hp => ?_⟩
  · have hwindow : ∀ o ∈ [0x000, 0x004, 0x03C], o < 4096 ∧ o % 4 = 0 ∧ o ∉ writableOffsets := by decide
    obtain ⟨hlt, h4, hro⟩ := hwindow off hoff
    rw [step_hostWrite hlt h4 hb, writeRegister_ignored hro]
  · obtain ⟨hsize, halign, hndesc, hnmax⟩ := cfgWordOf_fields hp
    exact ⟨rfl, rfl, congrArg (2 ^ ·) hsize, halign, hndesc, hnmax⟩

/-- A word of the descriptor window is a field of a slot. -/
theorem readRegister_desc_word (s : State) {k : Nat} (hk : 64 ≤ k ∧ k < 192) :
    ∃ d : Slot, s.readRegister (4 * k) = (s.desc[d]).field (k % 8) := by
  refine ⟨⟨(k - 64) / 8, by omega⟩, ?_⟩
  rw [← readRegister_desc s _ (f := k % 8) (by omega)]
  congr 1
  dsimp only
  omega

theorem emptySlot_field (f : Nat) : Desc.emptySlot.field f = 0 := by
  unfold Desc.field
  split <;> rfl

/-- Settles O10: the named registers one by one, then the descriptor window, whose slots are empty, and the unmapped
words. -/
theorem resetWindowReadsTheResetColumn : Obligations.ResetWindowReadsTheResetColumn := by
  refine ⟨rfl, rfl, rfl, fun k hk h0 h1 h15 => ?_⟩
  by_cases hnamed : k < 16
  · have hreads : ∀ k < 16, k ≠ 0 → k ≠ 1 → k ≠ 15 → State.reset.readRegister (4 * k) = 0 := by decide
    exact hreads k hnamed h0 h1 h15
  by_cases hdesc : 64 ≤ k ∧ k < 192
  · obtain ⟨d, hread⟩ := readRegister_desc_word State.reset hdesc
    have hempty : State.reset.desc[d] = Desc.emptySlot := Vector.getElem_replicate ..
    rw [hread, hempty, emptySlot_field]
  · exact readRegister_outside (by omega) (by omega) _

/-- Settles O12: each offset is a field of the slot, and KIND reads the code of the kind. -/
theorem descriptorWindowReadsTheTable : Obligations.DescriptorWindowReadsTheTable := by
  intro s d at_
  refine ⟨?_, readRegister_desc s d (f := 1) (by decide), readRegister_desc s d (f := 2) (by decide),
    readRegister_desc s d (f := 3) (by decide), readRegister_desc s d (f := 4) (by decide),
    readRegister_desc s d (f := 5) (by decide), readRegister_desc s d (f := 6) (by decide),
    readRegister_desc s d (f := 7) (by decide)⟩
  have hkind : at_ 0x00 = (s.desc[d]).kind.code := readRegister_desc s d (f := 0) (by decide)
  rw [hkind]
  cases (s.desc[d]).kind <;> decide

theorem unmapped_word_reads_zero (s : State) {k : Nat}
    (h : (16 ≤ k ∧ k < 64) ∨ 192 ≤ k ∨ (64 ≤ k ∧ k < 192 ∧ k % 8 = 7) ∨ k = 6) : s.readRegister (4 * k) = 0 := by
  rcases h with h | h | ⟨hlo, hhi, hf⟩ | rfl
  · exact readRegister_outside (by omega) (by omega) s
  · exact readRegister_outside (by omega) (by omega) s
  · obtain ⟨d, hread⟩ := readRegister_desc_word s ⟨hlo, hhi⟩
    rw [hread, hf]
    rfl
  · rfl

/-- Settles O11: writes by the list of writable offsets, reads by where the word lies in the window, reserved bits by
the words themselves. -/
theorem unmappedAndReadOnlyOffsets : Obligations.UnmappedAndReadOnlyOffsets := by
  refine ⟨fun s k v rest hk hro hb => ?_, fun s k rest hk hzero hb => ?_, fun s => ?_⟩
  · have hoff : 4 * k ∉ writableOffsets := fun hmem => hro (by
      simp only [writableOffsets, List.mem_cons, List.not_mem_nil, or_false] at hmem ⊢
      omega)
    rw [step_hostWrite (by omega) (by omega) hb, writeRegister_ignored hoff]
  · rw [step_hostRead (by omega) (by omega) hb, unmapped_word_reads_zero s hzero]
  · obtain ⟨hsrst, hctrl⟩ := ctrlWord_bits s
    obtain ⟨-, -, hstatus⟩ := statusWord_bits s
    exact ⟨hctrl, hsrst, hstatus, causeWord_reserved s⟩

/-! ### STATUS and the engine state -/

theorem step_cmd_idle {s : State} {w : Word} {rest : List Event} (hi : s.engine = .idle)
    (hb : s.bus = hostWrite 0x018 w :: rest) :
    step s = .next { s with
      bus := rest, response := some .written, lcmd := w, larg := s.arg, done := false, engine := .busy } := by
  rw [step_hostWrite (by decide) (by decide) hb, writeRegister_cmd, submit_idle (s := { s with bus := rest }) hi]

/-- A STATUS write clears DONE and REJ where the written bit is 1. -/
theorem step_status {s : State} {v : Word} {rest : List Event} (hb : s.bus = hostWrite 0x00C v :: rest) :
    step s = .next { s with
      bus := rest, response := some .written, done := (if v.getLsbD 1 then false else s.done),
      rej := if v.getLsbD 3 then false else s.rej } := by
  have hand (old bit : Bool) : (old && !bit) = if bit then false else old := by cases bit <;> simp
  rw [step_hostWrite (by decide) (by decide) hb, writeRegister_status]
  unfold State.writeStatus
  rw [hand, hand]

/-- Settles O2: the CMD write reaches `State.submit` in IDLE. -/
theorem acceptanceLatchesWordAndOperands : Obligations.AcceptanceLatchesWordAndOperands :=
  fun _ _ _ hi hb => step_cmd_idle hi hb

/-- Settles O13: completion sets DONE, fault entry leaves it, and it is already 0 while a command runs. -/
theorem doneBitLifecycle : Obligations.DoneBitLifecycle := by
  refine ⟨fun i s t h => ?_, fun i s t hinv hbusy h herr => ?_, fun s w rest hi hb => ?_, fun s v rest hb => ?_⟩
  · rcases exec_next_cases h with ⟨p, -, rfl⟩ | ⟨c, -, rfl⟩
    · exact .inl ⟨rfl, rfl⟩
    · exact .inr ⟨rfl, rfl⟩
  · rcases exec_next_cases h with ⟨p, -, rfl⟩ | ⟨c, -, rfl⟩
    · nomatch herr
    · exact hinv.done_of_busy hbusy
  · exact ⟨_, step_cmd_idle hi hb, rfl⟩
  · exact step_status hb

/-- Settles O14: the CMD write reaches `State.submit` outside IDLE. -/
theorem rejBitLifecycle : Obligations.RejBitLifecycle := by
  refine ⟨fun s w rest hengine hb => ?_, fun s v rest hb => ⟨_, step_status hb, rfl⟩, fun s h => ?_⟩
  · have hne : s.engine ≠ .idle := by rcases hengine with h | h <;> rw [h] <;> exact nofun
    rw [step_hostWrite (by decide) (by decide) hb, writeRegister_cmd, submit_not_idle (s := { s with bus := rest }) hne]
  · obtain ⟨t, hstep, hclear⟩ := step_of_resetNext h
    exact ⟨t, hstep, by rw [← hclear]; rfl⟩

/-! ### The engine state machine (10_state.md R47) -/

theorem engineTurn_engine_cases {s t : State} (h : engineTurn s = .next t) :
    t.engine = s.engine ∨
      (s.engine = .busy ∧ t.engine = .idle ∧ t.done = true ∧ t.cmdcnt = s.cmdcnt + 1) ∨
      (s.engine = .busy ∧ t.engine = .error ∧ t.fcmd = s.lcmd ∧ t.cause ≠ 0) := by
  rcases engineTurn_next_cases h with ⟨-, rfl⟩ | ⟨hb, ⟨i, p, -, -, rfl⟩ | ⟨c, rfl⟩⟩
  · exact .inl rfl
  · exact .inr (.inl ⟨hb, rfl, rfl, rfl⟩)
  · exact .inr (.inr ⟨hb, rfl, rfl, by cases c <;> exact nofun⟩)

theorem submit_engine_cases (s : State) (w : Word) :
    (s.submit w).engine = s.engine ∨ (s.engine = .idle ∧ (s.submit w).engine = .busy) := by
  by_cases hi : s.engine = .idle
  · exact .inr ⟨hi, by rw [submit_idle hi]⟩
  · exact .inl (by rw [submit_not_idle hi])

theorem access_engine_cases (s : State) (a : Access) :
    (s.access a).engine = s.engine ∨
      (s.engine = .idle ∧ (s.access a).engine = .busy ∧ ∃ w, Event.host a = hostWrite 0x018 w) ∨
      ((s.access a).engine = .idle ∧ ∃ v, Event.host a = hostWrite 0x008 v ∧ v.getLsbD 0 = true) := by
  rcases access_cases s a with ⟨r, e⟩ | ⟨off, v, rfl, e⟩ | ⟨i, v, -, e⟩ <;> rw [e]
  · exact .inl rfl
  · dsimp only
    rcases writeRegister_cases off v s with ⟨rfl, hv, e⟩ | e | e | ⟨rfl, e⟩ | ⟨i, e⟩ | e <;> rw [e]
    · exact .inr (.inr ⟨s.softReset_engine, v, rfl, hv⟩)
    · exact .inl rfl
    · exact .inl rfl
    · rcases submit_engine_cases s v with he | ⟨hi, he⟩
      · exact .inl he
      · exact .inr (.inl ⟨hi, he, v, rfl⟩)
    · exact .inl rfl
    · exact .inl rfl
  · exact .inl rfl

/-- What a step can make of the engine state: nothing, a completion, a fault, an acceptance, or a reset. -/
theorem step_engine_cases {s t : State} (h : step s = .next t) :
    t.engine = s.engine ∨
      (s.engine = .busy ∧ t.engine = .idle ∧ t.done = true ∧ t.cmdcnt = s.cmdcnt + 1) ∨
      (s.engine = .busy ∧ t.engine = .error ∧ t.fcmd = s.lcmd ∧ t.cause ≠ 0) ∨
      (s.engine = .idle ∧ t.engine = .busy ∧ ∃ w rest, s.bus = hostWrite 0x018 w :: rest) ∨
      (t.engine = .idle ∧ resetNext s) := by
  rcases step_next_cases h with ⟨bus, h⟩ | ⟨rest, hb, rfl⟩ | ⟨a, rest, hb, rfl⟩
  · rcases engineTurn_engine_cases h with same | completion | fault
    · exact .inl same
    · exact .inr (.inl completion)
    · exact .inr (.inr (.inl fault))
  · exact .inr (.inr (.inr (.inr ⟨rfl, .inl ⟨rest, hb⟩⟩)))
  · rcases access_engine_cases { s with bus := rest } a with same | ⟨hi, hbusy, w, hw⟩ | ⟨hidle, v, hv, hbit⟩
    · exact .inl same
    · exact .inr (.inr (.inr (.inl ⟨hi, hbusy, w, rest, hw ▸ hb⟩)))
    · exact .inr (.inr (.inr (.inr ⟨hidle, .inr ⟨v, rest, hv ▸ hb, hbit⟩⟩)))

/-- Settles O15: the transitions are those of `step_engine_cases`, read from each engine state. -/
theorem engineStateTransitions : Obligations.EngineStateTransitions := by
  refine ⟨fun s => ?_, fun s t h => ?_, fun s w rest hi hb => ⟨_, step_cmd_idle hi hb, rfl⟩, fun s h => ?_⟩
  · obtain ⟨hbusy, herr, -⟩ := statusWord_bits s
    exact ⟨hbusy, herr⟩
  · rcases step_engine_cases h with same | ⟨hb, hidle, hdone, hcnt⟩ | ⟨hb, herr, hfcmd, hcause⟩ | ⟨hi, hbusy, hcmd⟩ |
      ⟨hidle, hreset⟩
    · exact ⟨fun he => .inl (same.trans he), fun he => .inl (same.trans he), fun he => .inl (same.trans he)⟩
    · rw [hb]
      exact ⟨nofun, fun _ => .inr (.inl ⟨hidle, hdone, hcnt⟩), nofun⟩
    · rw [hb]
      exact ⟨nofun, fun _ => .inr (.inr (.inl ⟨herr, hfcmd, hcause⟩)), nofun⟩
    · rw [hi]
      exact ⟨fun _ => .inr ⟨hbusy, hcmd⟩, nofun, nofun⟩
    · exact ⟨fun _ => .inl hidle, fun _ => .inr (.inr (.inr ⟨hidle, hreset⟩)), fun _ => .inr ⟨hidle, hreset⟩⟩
  · obtain ⟨t, hstep, hclear⟩ := step_of_resetNext h
    exact ⟨t, hstep, by rw [← hclear]; rfl⟩

/-- Settles O27: with no running command nothing is abandoned, so sample memory is as it was. -/
theorem controlWriteResetsOrEnables : Obligations.ControlWriteResetsOrEnables := by
  refine fun s v rest hb => ⟨fun hv => ?_, fun hv => ?_, (ctrlWord_bits s).1⟩
  · rw [step_hostWrite (by decide) (by decide) hb, writeRegister_ctrl_reset hv]
    refine ⟨_, rfl, registersReset_clearRegisters (State.abandon { s with bus := rest }), State.softReset_lcmd _,
      State.softReset_larg _, State.softReset_params _, State.softReset_bus _, fun hne => ?_⟩
    unfold State.softReset
    rw [abandon_of_not_busy (s := { s with bus := rest }) hne]
    exact ⟨rfl, fun a => rfl⟩
  · rw [step_hostWrite (by decide) (by decide) hb, writeRegister_ctrl_enables hv]
    rfl

/-- Settles O32: a sample lies before the end of its row, and the rows before the end of the region. -/
theorem sampleAddressesLieInSampleMemory : Obligations.SampleAddressesLieInSampleMemory := by
  intro s d col row hinv hk hcol hrow
  have hlegal := hinv.desc_legal d
  generalize s.desc[d] = x at hk hcol hrow hlegal ⊢
  have hrowend := x.row_end_le row hrow
  have hlen := hlegal.regionEnd_le_len hk
  have hsram := hlegal.in_sram hk
  have hbase : x.base.toNat ≤ x.origin := Nat.le_add_right _ _
  refine ⟨rfl, ?_, ?_, ?_⟩ <;> unfold Desc.addr at * <;> omega

end Sys2Proof.Machine
end

section
/-! PROOFS. RDATA and RESULT: which plans write them (10_state.md R31, R37). -/

namespace Sys2Proof.Machine

/-! ### A property of the plan a command runs -/

/-- Where the verdict runs a plan, the plan has the property. -/
def Verdict.RunsOnly (P : Plan → Prop) : Verdict → Prop
  | .runs p => P p
  | .raises _ => True
  | .offMap _ => True

section RunsOnly
variable {P : Plan → Prop} {s : State}

theorem Verdict.RunsOnly.plan {v : Verdict} {p : Plan} (h : v.RunsOnly P) (hv : v = .runs p) : P p := by
  subst hv
  exact h

theorem Verdict.RunsOnly.runs {p : Plan} (h : P p) : (Verdict.runs p).RunsOnly P := h

theorem Verdict.RunsOnly.mono {Q : Plan → Prop} {v : Verdict} (h : v.RunsOnly P) (hPQ : ∀ p, P p → Q p) :
    v.RunsOnly Q := by
  cases v with
  | runs p => exact hPQ p h
  | raises c => trivial
  | offMap a => trivial

theorem Verdict.RunsOnly.ite {c : Prop} [Decidable c] {v w : Verdict} (hv : v.RunsOnly P) (hw : w.RunsOnly P) :
    (if c then v else w).RunsOnly P := by
  split
  · exact hv
  · exact hw

/-- A check that raises, before the rest. -/
theorem Verdict.RunsOnly.check {c : Prop} [Decidable c] {e : Cause} {v : Verdict} (hv : v.RunsOnly P) :
    (if c then .raises e else v).RunsOnly P := .ite trivial hv

theorem withDesc_runsOnly {d : Slot} {f : Desc → Verdict} (h : (f s.desc[d]).RunsOnly P) :
    (withDesc d s f).RunsOnly P := .check h

theorem withTarget_runsOnly {tt : Nat} {d : Slot} {f : Desc → Verdict} (h : (f s.desc[d]).RunsOnly P) :
    (withTarget tt d s f).RunsOnly P := withDesc_runsOnly (.check h)

theorem onMap_runsOnly {x : Desc} {v : Verdict} (h : v.RunsOnly P) : (onMap x s v).RunsOnly P := .ite h trivial

end RunsOnly

/-! ### Plans and the two result registers -/

/-- The plan writes neither RDATA nor RESULT. -/
def Plan.NoResult (p : Plan) : Prop := p.rdata = none ∧ p.result = none

theorem planGridNew_noResult (d : Slot) (s : State) : (planGridNew d s).RunsOnly Plan.NoResult :=
  .check (.check (.runs ⟨rfl, rfl⟩))

theorem planViewNew_noResult (d : Slot) (s : State) : (planViewNew d s).RunsOnly Plan.NoResult :=
  .check (.check (.runs ⟨rfl, rfl⟩))

theorem planSetSample_noResult (d : Slot) (s : State) : (planSetSample d s).RunsOnly Plan.NoResult :=
  withDesc_runsOnly (.check (onMap_runsOnly (.runs ⟨rfl, rfl⟩)))

theorem planSwap_noResult (d : Slot) (s : State) : (planSwap d s).RunsOnly Plan.NoResult :=
  withDesc_runsOnly (.check (.check (onMap_runsOnly (.runs ⟨rfl, rfl⟩))))

theorem plan1d_noResult (f : Numerics → Nat → List F32 → List F32) (s : State) :
    (plan1d f s).RunsOnly Plan.NoResult := .check (.check (.runs ⟨rfl, rfl⟩))

theorem plan2d_noResult (f : Numerics → Nat → Nat → Block → Block) (d : Slot) (s : State) :
    (plan2d f d s).RunsOnly Plan.NoResult := withDesc_runsOnly (.check (onMap_runsOnly (.runs ⟨rfl, rfl⟩)))

theorem planFixed_noResult (tt : Nat) (path : Params → Block → Block) (d : Slot) (s : State) :
    (planFixed tt path d s).RunsOnly Plan.NoResult := withTarget_runsOnly (.check (onMap_runsOnly (.runs ⟨rfl, rfl⟩)))

theorem planGeneral_noResult (tt : Nat) (d : Slot) (s : State) : (planGeneral tt d s).RunsOnly Plan.NoResult :=
  withTarget_runsOnly (.ite (onMap_runsOnly (.runs ⟨rfl, rfl⟩)) (.check (.check (onMap_runsOnly (.runs ⟨rfl, rfl⟩)))))

theorem planUnsupported_noResult (d : Slot) (s : State) : (planUnsupported d s).RunsOnly Plan.NoResult :=
  withDesc_runsOnly trivial

theorem planGetSample_runsOnly (d : Slot) (s : State) :
    (planGetSample d s).RunsOnly fun p =>
      p.rdata = some (s.sramWord ((s.desc[d]).addr (s.operand 0) (s.operand 1))) ∧ p.result = none :=
  withDesc_runsOnly (.check (onMap_runsOnly (.runs ⟨rfl, rfl⟩)))

theorem planWidenQ_runsOnly (d : Slot) (s : State) : (planWidenQ d s).RunsOnly fun p => p.rdata = none :=
  withDesc_runsOnly (.runs rfl)

/-- Every command but GET and WIDEN_Q leaves both registers alone. -/
theorem planOf_noResult {i : Instr} (hget : ∀ d, i ≠ .getSample d) (hwiden : ∀ d, i ≠ .widenQ d) (s : State) :
    (planOf i s).RunsOnly Plan.NoResult := by
  cases i with
  | getSample d => exact absurd rfl (hget d)
  | widenQ d => exact absurd rfl (hwiden d)
  | gridNew d => exact planGridNew_noResult d s
  | viewNew d => exact planViewNew_noResult d s
  | setSample d => exact planSetSample_noResult d s
  | swap d => exact planSwap_noResult d s
  | free d => exact .runs ⟨rfl, rfl⟩
  | dct1d => exact plan1d_noResult _ s
  | idct1d => exact plan1d_noResult _ s
  | dct2d d => exact plan2d_noResult _ d s
  | idct2d d => exact plan2d_noResult _ d s
  | itxHornuss d => exact planFixed_noResult _ _ d s
  | itxDct2 d => exact planFixed_noResult _ _ d s
  | itxDct4 d => exact planFixed_noResult _ _ d s
  | itxDct4X8 d => exact planFixed_noResult _ _ d s
  | itxDct8X4 d => exact planFixed_noResult _ _ d s
  | itxAfv0 d => exact planFixed_noResult _ _ d s
  | itxAfv1 d => exact planFixed_noResult _ _ d s
  | itxAfv2 d => exact planFixed_noResult _ _ d s
  | itxAfv3 d => exact planFixed_noResult _ _ d s
  | itxUnsupported27 d => exact planUnsupported_noResult d s
  | itxUnsupported28_31 d tt => exact planUnsupported_noResult d s
  | _ d => exact planGeneral_noResult _ d s

theorem planOf_rdata_none {i : Instr} (hget : ∀ d, i ≠ .getSample d) (s : State) :
    (planOf i s).RunsOnly fun p => p.rdata = none := by
  by_cases hwiden : ∃ d, i = .widenQ d
  · obtain ⟨d, rfl⟩ := hwiden
    exact planWidenQ_runsOnly d s
  · exact (planOf_noResult hget (not_exists.mp hwiden) s).mono fun _ hp => hp.1

theorem planOf_result_none {i : Instr} (hwiden : ∀ d, i ≠ .widenQ d) (s : State) :
    (planOf i s).RunsOnly fun p => p.result = none := by
  by_cases hget : ∃ d, i = .getSample d
  · obtain ⟨d, rfl⟩ := hget
    exact (planGetSample_runsOnly d s).mono fun _ hp => hp.2
  · exact (planOf_noResult (not_exists.mp hget) hwiden s).mono fun _ hp => hp.2

/-- Settles O34: only GET's plan holds a word for RDATA and only WIDEN_Q's a bit for RESULT, and a fault carries
out no plan. -/
theorem onlyGetWritesRdataAndOnlyWidenWritesResult : Obligations.OnlyGetWritesRdataAndOnlyWidenWritesResult := by
  refine ⟨fun i s t h hget => ?_, fun i s t h hwiden => ?_, fun i s t h herr => ?_, fun d s t h hidle => ?_,
    fun s h => ?_⟩
  · rcases exec_next_cases h with ⟨p, hp, rfl⟩ | ⟨c, -, rfl⟩
    · rw [State.complete_rdata, State.applyPlan_rdata, (planOf_rdata_none hget s).plan hp, Option.getD_none]
    · rfl
  · rcases exec_next_cases h with ⟨p, hp, rfl⟩ | ⟨c, -, rfl⟩
    · rw [State.complete_result, State.applyPlan_result, (planOf_result_none hwiden s).plan hp, Option.getD_none]
    · rfl
  · rcases exec_next_cases h with ⟨p, -, rfl⟩ | ⟨c, -, rfl⟩
    · nomatch herr
    · exact ⟨rfl, rfl⟩
  · rcases exec_next_cases h with ⟨p, hp, rfl⟩ | ⟨c, -, rfl⟩
    · obtain ⟨hrdata, -⟩ := (planGetSample_runsOnly d s).plan hp
      rw [State.complete_rdata, State.applyPlan_rdata, hrdata]
      rfl
    · nomatch hidle
  · obtain ⟨t, hstep, hclear⟩ := step_of_resetNext h
    exact ⟨t, hstep, by rw [← hclear]; rfl, by rw [← hclear]; rfl⟩

end Sys2Proof.Machine
end

section
/-! PROOFS. The statements about the bus and sample memory (20_memory.md). -/

namespace Sys2Proof.Machine

open Claims

/-! ### Which accesses wait (20_memory.md R55) -/

theorem headHeld_host {s : State} {a : Access} {rest : List Event} (h : s.bus = .host a :: rest) :
    s.headHeld = s.holds a := by
  unfold State.headHeld
  rw [h]

theorem holds_of_not_busy {s : State} (h : s.engine ≠ .busy) (a : Access) : s.holds a = false := by
  simp [State.holds, State.busy, h]

theorem holds_sram_of_busy {s : State} {a : Access} (h : s.engine = .busy) (hw : a.window = .sram) (hn : a.bytes = 4)
    (h4 : a.offset % 4 = 0) (hin : a.offset < 4 * s.params.sramWords) : s.holds a = true := by
  simp [State.holds, State.busy, Access.wordAligned, windowBytes, h, hw, hn, h4, hin]

/-- With no command running, a host access is carried out in the next step. -/
theorem step_host_of_not_busy {s : State} {a : Access} {rest : List Event} (h : s.engine ≠ .busy)
    (hb : s.bus = .host a :: rest) : step s = .next (State.access { s with bus := rest } a) :=
  step_of_event hb ((headHeld_host hb).trans (holds_of_not_busy h a))

/-- The turn of a BUSY engine ends its command, and touches neither the queue nor the answer to the host. -/
theorem engineTurn_busy_ends {s t : State} (hb : s.engine = .busy) (h : engineTurn s = .next t) :
    t.engine ≠ .busy ∧ t.bus = s.bus ∧ t.response = s.response := by
  rcases engineTurn_next_cases h with ⟨hne, -⟩ | ⟨-, ⟨i, p, -, -, rfl⟩ | ⟨c, rfl⟩⟩
  · exact absurd hb hne
  · exact ⟨nofun, rfl, rfl⟩
  · exact ⟨nofun, rfl, rfl⟩

theorem submit_bus (s : State) (w : Word) : (s.submit w).bus = s.bus := by
  by_cases h : s.engine = .idle
  · rw [submit_idle h]
  · rw [submit_not_idle h]

/-- No register write, a soft reset among them, touches the queue. -/
theorem writeRegister_bus (off : Nat) (v : Word) (s : State) : (State.writeRegister off v s).bus = s.bus := by
  rcases writeRegister_cases off v s with ⟨-, -, e⟩ | e | e | ⟨-, e⟩ | ⟨i, e⟩ | e <;> rw [e]
  · exact State.softReset_bus s
  · exact State.writeEnables_bus v s
  · exact State.writeStatus_bus v s
  · exact submit_bus s v
  · exact State.writeArg_bus i v s

/-! ### Word accesses to sample memory (20_memory.md R57) -/

theorem access_sram {s : State} {a : Nat} (ha : a < s.params.sramWords) (w : Option Word) :
    s.access ⟨.sram, 4 * a, 4, w⟩ = s.wordAccess ⟨.sram, 4 * a, 4, w⟩ := by
  simp [State.access, Access.wordAligned, windowBytes, ha]

theorem step_sramWrite {s : State} {a : Nat} {v : Word} {rest : List Event} (h : s.engine ≠ .busy)
    (ha : a < s.params.sramWords) (hb : s.bus = sramWrite a v :: rest) :
    step s = .next { s with bus := rest, sram := s.sram.putRun (a, [v]), response := some .written } := by
  rw [step_host_of_not_busy h hb, access_sram (s := { s with bus := rest }) ha]
  simp only [State.wordAccess, Nat.mul_div_cancel_left a (show 0 < 4 by decide)]
  rfl

theorem step_sramRead {s : State} {a : Nat} {v : Word} {rest : List Event} (h : s.engine ≠ .busy)
    (ha : a < s.params.sramWords) (hb : s.bus = sramRead a :: rest) (hv : s.sramWord a = v) :
    step s = .next { s with bus := rest, response := some (.readData v) } := by
  rw [step_host_of_not_busy h hb, access_sram (s := { s with bus := rest }) ha, ← hv]
  simp only [State.wordAccess, Nat.mul_div_cancel_left a (show 0 < 4 by decide)]
  rfl

/-! ### What a written word reads as (20_memory.md R52, R63) -/

/-- Byte j of a word is its bits 8*j+7 : 8*j. -/
theorem wordBytes_getElem (w : Word) {j : Nat} (hj : j < 4) :
    (wordBytes w)[j]'hj = w.extractLsb' (8 * j) 8 := by
  have hbyte : ∀ n, BitVec.ofNat 8 (w.toNat / 2 ^ n) = w.extractLsb' n 8 := fun n => by
    rw [← Nat.shiftRight_eq_div_pow]
    rfl
  match j, hj with
  | 0, _ => rfl
  | 1, _ => exact hbyte 8
  | 2, _ => exact hbyte 16
  | 3, _ => exact hbyte 24

theorem byteFrom_putRun_word (n : Nat) (m : Memory) (a : Nat) (w : Word) {j : Nat} (hj : j < 4) :
    (m.putRun (a, [w])).byteFrom n (4 * a + j) = w.extractLsb' (8 * j) 8 :=
  (Memory.byteFrom_putBytes_inside n m (4 * a) (wordBytes w) j hj).trans (wordBytes_getElem w hj)

/-! ### The statements -/

/-- Settles O18: while the access is held the engine takes its turn, and that turn ends the command that held it. -/
theorem sramAccessIsHeldWhileBusy : Obligations.SramAccessIsHeldWhileBusy := by
  intro s a rest hinv hbusy hb hwindow hbytes h4 hin
  have hheld : s.headHeld = true := (headHeld_host hb).trans (holds_sram_of_busy hbusy hwindow hbytes h4 hin)
  obtain ⟨t, hturn, -⟩ := hinv.engineTurn_next
  obtain ⟨hne, hbus, hresponse⟩ := engineTurn_busy_ends hbusy hturn
  exact ⟨t, (step_of_held hb hheld).trans hturn, hne, hbus, hresponse, step_host_of_not_busy hne (hbus.trans hb)⟩

/-- Settles O21: the write is a run of one word, and the read that follows finds that word. -/
theorem sramWriteThenReadReturnsTheWord : Obligations.SramWriteThenReadReturnsTheWord := by
  intro s a v rest hne ha hb
  have hword : (s.sram.putRun (a, [v])).wordFrom s.powerOns a = v :=
    Memory.wordFrom_putRun_inside s.powerOns s.sram (a, [v]) 0 Nat.one_pos
  refine ⟨_, step_sramWrite hne ha hb, rfl, hword, fun b hout => ?_, fun j hj => ?_, rfl, ?_⟩
  · exact Memory.byteFrom_putRun_outside s.powerOns s.sram (a, [v]) b hout
  · exact byteFrom_putRun_word s.powerOns s.sram a v hj
  · exact step_sramRead hne ha rfl hword

/-- Settles O19: no register access is held, and no register write touches the queue. -/
theorem registerAccessIsNeverHeld : Obligations.RegisterAccessIsNeverHeld := by
  refine fun s off rest hoff h4 => ⟨step_hostRead hoff h4, fun v hb => ?_⟩
  exact ⟨_, step_hostWrite hoff h4 hb, writeRegister_bus off v { s with bus := rest }, rfl, rfl⟩

end Sys2Proof.Machine
end

section
/-! PROOFS. The encoding (30_encoding.md R70 to R86): the fields of a word, what the decoder makes of them, and the rows
of the opcode table. -/

namespace Sys2Proof

open Claims

/-! ### The fields of a word, read as numbers and as bit ranges (R70) -/

/-- OPC, INV, DA and TT of a word. -/
def wordFields (w : Word) : Nat × Nat × Nat × Nat := (opcOf w, invOf w, (slotOf w).val, (tagOf w).val)

theorem fields_of_wordFields {w : Word} {opc inv da tt : Nat} (h : (opc, inv, da, tt) = wordFields w) :
    opcOf w = opc ∧ invOf w = inv ∧ (slotOf w).val = da ∧ (tagOf w).val = tt := by
  simpa [wordFields, eq_comm] using h

theorem invOf_lt (w : Word) : invOf w < 2 := Nat.mod_lt _ (by decide)

theorem toNat_extractLsb' (w : Word) (i n : Nat) : (w.extractLsb' i n).toNat = w.toNat / 2 ^ i % 2 ^ n := by
  rw [BitVec.extractLsb'_toNat, Nat.shiftRight_eq_div_pow]

theorem extractLsb'_eq_zero_iff (w : Word) (i n : Nat) :
    w.extractLsb' i n = 0 ↔ w.toNat / 2 ^ i % 2 ^ n = 0 := by
  rw [← BitVec.toNat_inj, toNat_extractLsb']
  rfl

theorem getLsbD_eq_true_iff (w : Word) (i : Nat) : w.getLsbD i = true ↔ w.toNat / 2 ^ i % 2 ≠ 0 := by
  rw [BitVec.getLsbD, Nat.testBit_eq_decide_div_mod_eq, decide_eq_true_iff]
  omega

theorem opcField_eq_opcOf (w : Word) : opcField w = opcOf w := by
  unfold opcField opcOf
  rw [toNat_extractLsb']
  omega

theorem bitRanges_eq_wordFields (w : Word) :
    ((w.extractLsb' 0 6).toNat, (w.extractLsb' 6 1).toNat, (w.extractLsb' 8 4).toNat, (w.extractLsb' 16 5).toNat) =
      wordFields w := by
  simp only [toNat_extractLsb']
  simp [wordFields, opcOf, invOf, slotOf, tagOf]

theorem reservedSet_iff (w : Word) : reservedSet w ↔ reservedClear w = false := by
  have hw := w.isLt
  unfold reservedSet reservedClear
  simp only [ne_eq, getLsbD_eq_true_iff, extractLsb'_eq_zero_iff, Bool.and_eq_false_iff, beq_eq_false_iff_ne]
  omega

/-- The three faults of a word (60_exceptions.md R222), of the fields that the decoder reads. -/
theorem illegal_iff (w : Word) :
    illegal w ↔ reservedClear w = false ∨ (opcOf w = 0 ∨ 0x0B ≤ opcOf w) ∨
      (opcOf w ≠ 0x08 ∧ opcOf w ≠ 0x09 ∧ invOf w ≠ 0) ∨ (opcOf w = 0x08 ∧ (slotOf w).val ≠ 0) ∨
      (opcOf w ≠ 0x0A ∧ (tagOf w).val ≠ 0) := by
  unfold illegal unassigned unusedSet
  simp only [reservedSet_iff, opcField_eq_opcOf, ne_eq, getLsbD_eq_true_iff, extractLsb'_eq_zero_iff]
  rfl

/-! ### A word is its fields -/

section commandWord
variable {opc inv da tt : Nat} (hopc : opc < 64) (hinv : inv < 2) (hda : da < 16) (htt : tt < 32)
include hopc hinv hda htt

theorem toNat_commandWord : (commandWord opc inv da tt).toNat = opc + 64 * inv + 256 * da + 65536 * tt := by
  unfold commandWord
  rw [BitVec.toNat_ofNat]
  omega

theorem reservedClear_commandWord : reservedClear (commandWord opc inv da tt) = true := by
  unfold reservedClear
  rw [toNat_commandWord hopc hinv hda htt]
  simp only [Bool.and_eq_true, beq_iff_eq]
  omega

theorem wordFields_commandWord : wordFields (commandWord opc inv da tt) = (opc, inv, da, tt) := by
  simp only [wordFields, opcOf, invOf, slotOf, tagOf, toNat_commandWord hopc hinv hda htt, Prod.mk.injEq]
  omega

end commandWord

/-- With the reserved bits 0, no bit of a word lies outside its fields. -/
theorem commandWord_of_fields {w : Word} (hr : reservedClear w = true) :
    commandWord (opcOf w) (invOf w) (slotOf w).val (tagOf w).val = w := by
  simp only [reservedClear, Bool.and_eq_true, beq_iff_eq] at hr
  apply BitVec.eq_of_toNat_eq
  unfold commandWord
  rw [BitVec.toNat_ofNat]
  simp only [opcOf, invOf, slotOf, tagOf]
  omega

/-- The encoder writes the fields of R79 and R86. -/
theorem encode_eq_commandWord (i : Instr) :
    encode i = commandWord (fieldsOf i).1 (fieldsOf i).2.1 (fieldsOf i).2.2.1 (fieldsOf i).2.2.2 := by
  cases i <;> rfl

theorem encode_of_fields {w : Word} {i : Instr} (hr : reservedClear w = true) (h : fieldsOf i = wordFields w) :
    encode i = w := by
  rw [encode_eq_commandWord, h]
  exact commandWord_of_fields hr

/-! ### The decoder, one equation per assigned OPC (R79) -/

/-- The commands that use DA alone, with their OPC (R79). -/
def slotCommands : List (Nat × (Slot → Instr)) :=
  [(0x01, .gridNew), (0x02, .viewNew), (0x03, .getSample), (0x04, .setSample), (0x05, .swap), (0x06, .widenQ),
   (0x07, .free)]

theorem slotCommands_cases {opc : Nat} {mk : Slot → Instr} (h : (opc, mk) ∈ slotCommands) :
    (opc = 0x01 ∧ mk = .gridNew) ∨ (opc = 0x02 ∧ mk = .viewNew) ∨ (opc = 0x03 ∧ mk = .getSample) ∨
      (opc = 0x04 ∧ mk = .setSample) ∨ (opc = 0x05 ∧ mk = .swap) ∨ (opc = 0x06 ∧ mk = .widenQ) ∨
      (opc = 0x07 ∧ mk = .free) := by
  simpa [slotCommands] using h

section decode
variable {w : Word} (hr : reservedClear w = true)

theorem decode_reserved (h : reservedClear w = false) : decode w = .rejected .reservedBit := if_pos h

include hr

theorem decode_slotCommand {mk : Slot → Instr} (h : (opcOf w, mk) ∈ slotCommands) :
    decode w = decodeSlotOnly w mk := by
  rcases slotCommands_cases h with ⟨ho, rfl⟩ | ⟨ho, rfl⟩ | ⟨ho, rfl⟩ | ⟨ho, rfl⟩ | ⟨ho, rfl⟩ | ⟨ho, rfl⟩ | ⟨ho, rfl⟩ <;>
    simp [decode, hr, ho]

theorem decode_1d (h : opcOf w = 0x08) :
    decode w = if (slotOf w).val ≠ 0 ∨ (tagOf w).val ≠ 0 then .rejected .unusedField
      else .instr (if invOf w = 0 then .dct1d else .idct1d) := by
  simp [decode, hr, h]

theorem decode_2d (h : opcOf w = 0x09) :
    decode w = if (tagOf w).val ≠ 0 then .rejected .unusedField
      else .instr (if invOf w = 0 then .dct2d (slotOf w) else .idct2d (slotOf w)) := by
  simp [decode, hr, h]

theorem decode_itx (h : opcOf w = 0x0A) :
    decode w = if invOf w ≠ 0 then .rejected .unusedField else .instr (itxOf (tagOf w) (slotOf w)) := by
  simp [decode, hr, h]

theorem decode_unassigned (h : opcOf w = 0 ∨ 0x0B ≤ opcOf w) : decode w = .rejected .unassignedOpcode := by
  unfold decode
  rw [if_neg (by simp [hr])]
  split
  iterate 10 · omega
  · rfl

end decode

/-- The OPC values of R79. -/
theorem opc_cases (w : Word) :
    (opcOf w = 0 ∨ 0x0B ≤ opcOf w) ∨ (∃ mk, (opcOf w, mk) ∈ slotCommands) ∨ opcOf w = 0x08 ∨ opcOf w = 0x09 ∨
      opcOf w = 0x0A := by
  have hslot : 1 ≤ opcOf w → opcOf w ≤ 7 → ∃ mk, (opcOf w, mk) ∈ slotCommands := by
    intro h1 h7
    interval_cases opcOf w <;> simp [slotCommands]
  by_cases h : 1 ≤ opcOf w ∧ opcOf w ≤ 7
  · exact .inr (.inl (hslot h.1 h.2))
  · omega

/-! ### Commands and their fields (R79, R86) -/

theorem slotCommands_fields {opc : Nat} {mk : Slot → Instr} (h : (opc, mk) ∈ slotCommands) (d : Slot) :
    (mk d).wellFormed = true ∧ fieldsOf (mk d) = (opc, 0, d.val, 0) := by
  rcases slotCommands_cases h with
    ⟨rfl, rfl⟩ | ⟨rfl, rfl⟩ | ⟨rfl, rfl⟩ | ⟨rfl, rfl⟩ | ⟨rfl, rfl⟩ | ⟨rfl, rfl⟩ | ⟨rfl, rfl⟩ <;> exact ⟨rfl, rfl⟩

theorem slotCommands_opc {opc : Nat} {mk : Slot → Instr} (h : (opc, mk) ∈ slotCommands) : 1 ≤ opc ∧ opc ≤ 7 := by
  have := slotCommands_cases h
  omega

theorem itxOf_fields (tt : Fin 32) (d : Slot) :
    (itxOf tt d).wellFormed = true ∧ fieldsOf (itxOf tt d) = (0x0A, 0, d.val, tt.val) := by
  fin_cases tt <;> exact ⟨rfl, rfl⟩

theorem itxOf_unsupported {tt : Fin 32} (h : 28 ≤ tt.val) (d : Slot) : itxOf tt d = .itxUnsupported28_31 d tt := by
  unfold itxOf
  split
  iterate 28 · omega
  · rfl

/-- An ITX command is named by its tag field. -/
theorem exists_itxOf {i : Instr} (d : Slot) (h : i = itxOf (Fin.ofNat 32 (fieldsOf i).2.2.2) d) :
    ∃ tt d, i = itxOf tt d := ⟨_, d, h⟩

/-- Every well-formed command is of one of the forms that the decoder tells apart. -/
theorem wellFormed_cases {i : Instr} (h : i.wellFormed = true) :
    (∃ opc mk d, (opc, mk) ∈ slotCommands ∧ i = mk d) ∨ i = .dct1d ∨ i = .idct1d ∨ (∃ d, i = .dct2d d) ∨
      (∃ d, i = .idct2d d) ∨ ∃ tt d, i = itxOf tt d := by
  cases i with
  | gridNew d => exact .inl ⟨0x01, _, d, by simp [slotCommands], rfl⟩
  | viewNew d => exact .inl ⟨0x02, _, d, by simp [slotCommands], rfl⟩
  | getSample d => exact .inl ⟨0x03, _, d, by simp [slotCommands], rfl⟩
  | setSample d => exact .inl ⟨0x04, _, d, by simp [slotCommands], rfl⟩
  | swap d => exact .inl ⟨0x05, _, d, by simp [slotCommands], rfl⟩
  | widenQ d => exact .inl ⟨0x06, _, d, by simp [slotCommands], rfl⟩
  | free d => exact .inl ⟨0x07, _, d, by simp [slotCommands], rfl⟩
  | dct1d => exact .inr (.inl rfl)
  | idct1d => exact .inr (.inr (.inl rfl))
  | dct2d d => exact .inr (.inr (.inr (.inl ⟨d, rfl⟩)))
  | idct2d d => exact .inr (.inr (.inr (.inr (.inl ⟨d, rfl⟩))))
  | itxUnsupported28_31 d tt =>
    exact .inr (.inr (.inr (.inr (.inr ⟨tt, d, (itxOf_unsupported (of_decide_eq_true h) d).symm⟩))))
  | _ d => exact .inr (.inr (.inr (.inr (.inr (exists_itxOf d rfl)))))

theorem fieldsOf_lt (i : Instr) :
    (fieldsOf i).1 < 64 ∧ (fieldsOf i).2.1 < 2 ∧ (fieldsOf i).2.2.1 < 16 ∧ (fieldsOf i).2.2.2 < 32 := by
  cases i <;> simp [fieldsOf]

/-! ### What the decoder makes of a word -/

/-- The word is that of a command: reserved bits 0, and every field as the command has it (R70, R79, R86). -/
structure WordOf (w : Word) (i : Instr) : Prop where
  reserved : reservedClear w = true
  wellFormed : i.wellFormed = true
  fields : fieldsOf i = wordFields w

theorem wordOf_encode {i : Instr} (h : i.wellFormed = true) : WordOf (encode i) i := by
  obtain ⟨hopc, hinv, hda, htt⟩ := fieldsOf_lt i
  rw [encode_eq_commandWord]
  exact ⟨reservedClear_commandWord hopc hinv hda htt, h, (wordFields_commandWord hopc hinv hda htt).symm⟩

theorem decode_of_wordOf {w : Word} {i : Instr} (h : WordOf w i) : decode w = .instr i := by
  obtain ⟨hr, hwf, hf⟩ := h
  rcases wellFormed_cases hwf with ⟨opc, mk, d, hmem, rfl⟩ | rfl | rfl | ⟨d, rfl⟩ | ⟨d, rfl⟩ | ⟨tt, d, rfl⟩
  · obtain ⟨rfl, hinv, hda, htt⟩ := fields_of_wordFields ((slotCommands_fields hmem d).2.symm.trans hf)
    rw [decode_slotCommand hr hmem, decodeSlotOnly, if_neg (by omega), Fin.ext hda]
  · obtain ⟨hopc, hinv, hda, htt⟩ := fields_of_wordFields hf
    rw [decode_1d hr hopc, if_neg (by omega), if_pos hinv]
  · obtain ⟨hopc, hinv, hda, htt⟩ := fields_of_wordFields hf
    rw [decode_1d hr hopc, if_neg (by omega), if_neg (by omega)]
  · obtain ⟨hopc, hinv, hda, htt⟩ := fields_of_wordFields hf
    rw [decode_2d hr hopc, if_neg (by omega), if_pos hinv, Fin.ext hda]
  · obtain ⟨hopc, hinv, hda, htt⟩ := fields_of_wordFields hf
    rw [decode_2d hr hopc, if_neg (by omega), if_neg (by omega), Fin.ext hda]
  · obtain ⟨hopc, hinv, hda, htt⟩ := fields_of_wordFields ((itxOf_fields tt d).2.symm.trans hf)
    rw [decode_itx hr hopc, if_neg (by omega), Fin.ext hda, Fin.ext htt]

/-- The faults left once the reserved bits are 0. -/
theorem illegal_iff_of_clear {w : Word} (hr : reservedClear w = true) :
    illegal w ↔ (opcOf w = 0 ∨ 0x0B ≤ opcOf w) ∨
      (opcOf w ≠ 0x08 ∧ opcOf w ≠ 0x09 ∧ invOf w ≠ 0) ∨ (opcOf w = 0x08 ∧ (slotOf w).val ≠ 0) ∨
      (opcOf w ≠ 0x0A ∧ (tagOf w).val ≠ 0) := by
  rw [illegal_iff, hr, Bool.true_eq_false, false_or]

theorem decode_of_illegal {w : Word} (h : illegal w) : ∃ why, decode w = .rejected why := by
  cases hr : reservedClear w with
  | false => exact ⟨_, decode_reserved hr⟩
  | true =>
    rw [illegal_iff_of_clear hr] at h
    rcases opc_cases w with hopc | ⟨mk, hmem⟩ | hopc | hopc | hopc
    · exact ⟨_, decode_unassigned hr hopc⟩
    · have hbounds := slotCommands_opc hmem
      exact ⟨_, by rw [decode_slotCommand hr hmem, decodeSlotOnly, if_pos (by omega)]⟩
    · exact ⟨_, by rw [decode_1d hr hopc, if_pos (by omega)]⟩
    · exact ⟨_, by rw [decode_2d hr hopc, if_pos (by omega)]⟩
    · exact ⟨_, by rw [decode_itx hr hopc, if_pos (by omega)]⟩

/-- A word without a fault is the word of a command. -/
theorem exists_wordOf {w : Word} (h : ¬ illegal w) : ∃ i, WordOf w i := by
  have hr : reservedClear w = true := by
    cases hr : reservedClear w with
    | false => exact absurd ((illegal_iff w).mpr (.inl hr)) h
    | true => rfl
  rw [illegal_iff_of_clear hr] at h
  have hinvlt := invOf_lt w
  rcases opc_cases w with hopc | ⟨mk, hmem⟩ | hopc | hopc | hopc
  · exact absurd (.inl hopc) h
  · have hbounds := slotCommands_opc hmem
    obtain ⟨hwf, hf⟩ := slotCommands_fields hmem (slotOf w)
    obtain ⟨hinv, htt⟩ : invOf w = 0 ∧ (tagOf w).val = 0 := by omega
    exact ⟨mk (slotOf w), hr, hwf, by rw [hf, wordFields, hinv, htt]⟩
  · obtain ⟨hda, htt⟩ : (slotOf w).val = 0 ∧ (tagOf w).val = 0 := by omega
    obtain hinv | hinv : invOf w = 0 ∨ invOf w = 1 := by omega
    · exact ⟨.dct1d, hr, rfl, by rw [wordFields, hopc, hinv, hda, htt, fieldsOf]⟩
    · exact ⟨.idct1d, hr, rfl, by rw [wordFields, hopc, hinv, hda, htt, fieldsOf]⟩
  · have htt : (tagOf w).val = 0 := by omega
    obtain hinv | hinv : invOf w = 0 ∨ invOf w = 1 := by omega
    · exact ⟨.dct2d (slotOf w), hr, rfl, by rw [wordFields, hopc, hinv, htt, fieldsOf]⟩
    · exact ⟨.idct2d (slotOf w), hr, rfl, by rw [wordFields, hopc, hinv, htt, fieldsOf]⟩
  · obtain ⟨hwf, hf⟩ := itxOf_fields (tagOf w) (slotOf w)
    have hinv : invOf w = 0 := by omega
    exact ⟨itxOf (tagOf w) (slotOf w), hr, hwf, by rw [hf, wordFields, hopc, hinv]⟩

theorem illegal_iff_not_instr (w : Word) : illegal w ↔ ¬ ∃ i, decode w = .instr i := by
  constructor
  · intro h
    obtain ⟨why, hwhy⟩ := decode_of_illegal h
    rw [hwhy]
    exact nofun
  · intro h
    by_contra hlegal
    obtain ⟨i, hi⟩ := exists_wordOf hlegal
    exact h ⟨i, decode_of_wordOf hi⟩

theorem wordOf_of_decode {w : Word} {i : Instr} (h : decode w = .instr i) : WordOf w i := by
  obtain ⟨i', hi'⟩ := exists_wordOf fun hill => (illegal_iff_not_instr w).mp hill ⟨i, h⟩
  obtain rfl : i' = i := Decoded.instr.inj ((decode_of_wordOf hi').symm.trans h)
  exact hi'

/-! ### The rows of the opcode table (R80) -/

theorem TableRow.matches_iff {r : TableRow} {w : Word} : r.matches w = true ↔ w &&& r.mask = r.bits := beq_iff_eq

/-- The match and mask columns of two rows differ at a bit that both rows fix. -/
def TableRow.Conflicts (r r' : TableRow) : Prop := r.bits &&& r'.mask ≠ r'.bits &&& r.mask

theorem TableRow.Conflicts.not_both {r r' : TableRow} (h : r.Conflicts r') {w : Word} (hr : r.matches w = true)
    (hr' : r'.matches w = true) : False := by
  rw [TableRow.matches_iff] at hr hr'
  refine h ?_
  rw [← hr, ← hr', BitVec.and_assoc, BitVec.and_assoc, BitVec.and_comm r.mask]

theorem opcodeTable_pairwise_conflicts : opcodeTable.Pairwise TableRow.Conflicts := by
  unfold TableRow.Conflicts
  decide +kernel

/-- Rows in conflict two by two match a word at most once. -/
theorem length_matching_le_one {rows : List TableRow} (h : rows.Pairwise TableRow.Conflicts) (w : Word) :
    (rows.filter fun r => r.matches w).length ≤ 1 := by
  have hp := h.sublist (List.filter_sublist (p := fun r => r.matches w))
  have hm : ∀ r ∈ rows.filter fun r => r.matches w, r.matches w = true := fun r hr => (List.mem_filter.mp hr).2
  generalize (rows.filter fun r => r.matches w) = l at hp hm ⊢
  match l with
  | [] => exact Nat.zero_le 1
  | [r] => exact le_rfl
  | r :: r' :: l =>
    have hd : r.Conflicts r' := List.rel_of_pairwise_cons hp List.mem_cons_self
    exact (hd.not_both (hm r (by simp)) (hm r' (by simp))).elim

/-- A matching word has the row's bits wherever the mask is all ones. -/
theorem TableRow.extractLsb'_eq {r : TableRow} {w : Word} (h : r.matches w = true) {i n : Nat}
    (hm : r.mask.extractLsb' i n = BitVec.allOnes n) : w.extractLsb' i n = r.bits.extractLsb' i n := by
  rw [← TableRow.matches_iff.mp h, BitVec.extractLsb'_and, hm, BitVec.and_allOnes]

theorem TableRow.getLsbD_eq {r : TableRow} {w : Word} (h : r.matches w = true) {i : Nat}
    (hm : r.mask.getLsbD i = true) : w.getLsbD i = r.bits.getLsbD i := by
  rw [← TableRow.matches_iff.mp h, BitVec.getLsbD_and, hm, Bool.and_true]

/-- The mask covers OPC, INV, the reserved bits, and the fields that the row's command does not use (R80). -/
def TableRow.FixesUnused (r : TableRow) : Prop :=
  r.mask.extractLsb' 0 6 = BitVec.allOnes 6 ∧ r.mask.getLsbD 6 = true ∧ r.mask.getLsbD 7 = true ∧
    r.mask.extractLsb' 12 4 = BitVec.allOnes 4 ∧ r.mask.extractLsb' 21 11 = BitVec.allOnes 11 ∧
    (opcField r.bits = 0x08 → r.mask.extractLsb' 8 4 = BitVec.allOnes 4) ∧
    (opcField r.bits ≠ 0x0A → r.mask.extractLsb' 16 5 = BitVec.allOnes 5)

theorem opcodeTable_fixesUnused : ∀ r ∈ opcodeTable, r.FixesUnused := by
  unfold TableRow.FixesUnused
  decide +kernel

theorem opcodeTable_legal : ∀ r ∈ opcodeTable, ¬ illegal r.bits := by
  unfold illegal reservedSet unassigned unusedSet
  decide +kernel

/-- A matching word is legal where the row's match column is. -/
theorem TableRow.illegal_iff {r : TableRow} (hr : r.FixesUnused) {w : Word} (h : r.matches w = true) :
    illegal w ↔ illegal r.bits := by
  obtain ⟨hopc, hinv, h7, h12, h21, hslot, htag⟩ := hr
  have hopcField : opcField w = opcField r.bits := congrArg BitVec.toNat (extractLsb'_eq h hopc)
  have hda : (opcField r.bits = 0x08 ∧ w.extractLsb' 8 4 ≠ 0) ↔
      (opcField r.bits = 0x08 ∧ r.bits.extractLsb' 8 4 ≠ 0) :=
    and_congr_right fun ho => by rw [extractLsb'_eq h (hslot ho)]
  have htt : (opcField r.bits ≠ 0x0A ∧ w.extractLsb' 16 5 ≠ 0) ↔
      (opcField r.bits ≠ 0x0A ∧ r.bits.extractLsb' 16 5 ≠ 0) :=
    and_congr_right fun ho => by rw [extractLsb'_eq h (htag ho)]
  unfold illegal reservedSet unassigned unusedSet
  rw [hopcField, getLsbD_eq h hinv, getLsbD_eq h h7, extractLsb'_eq h h12, extractLsb'_eq h h21, hda, htt]

theorem not_illegal_of_matches {r : TableRow} (hr : r ∈ opcodeTable) {w : Word} (h : r.matches w = true) :
    ¬ illegal w := fun hill => opcodeTable_legal r hr ((r.illegal_iff (opcodeTable_fixesUnused r hr) h).mp hill)

/-- The laws of `FitsRow`, for any command. -/
theorem fitsRow (i : Instr) : Laws.FitsRow.Statement i :=
  match i with
  | .gridNew d => Laws.FitsRow.gridNew d
  | .viewNew d => Laws.FitsRow.viewNew d
  | .getSample d => Laws.FitsRow.getSample d
  | .setSample d => Laws.FitsRow.setSample d
  | .swap d => Laws.FitsRow.swap d
  | .widenQ d => Laws.FitsRow.widenQ d
  | .free d => Laws.FitsRow.free d
  | .dct1d => Laws.FitsRow.dct1d
  | .idct1d => Laws.FitsRow.idct1d
  | .dct2d d => Laws.FitsRow.dct2d d
  | .idct2d d => Laws.FitsRow.idct2d d
  | .itxDct8 d => Laws.FitsRow.itxDct8 d
  | .itxHornuss d => Laws.FitsRow.itxHornuss d
  | .itxDct2 d => Laws.FitsRow.itxDct2 d
  | .itxDct4 d => Laws.FitsRow.itxDct4 d
  | .itxDct16 d => Laws.FitsRow.itxDct16 d
  | .itxDct32 d => Laws.FitsRow.itxDct32 d
  | .itxDct16X8 d => Laws.FitsRow.itxDct16X8 d
  | .itxDct8X16 d => Laws.FitsRow.itxDct8X16 d
  | .itxDct32X8 d => Laws.FitsRow.itxDct32X8 d
  | .itxDct8X32 d => Laws.FitsRow.itxDct8X32 d
  | .itxDct32X16 d => Laws.FitsRow.itxDct32X16 d
  | .itxDct16X32 d => Laws.FitsRow.itxDct16X32 d
  | .itxDct4X8 d => Laws.FitsRow.itxDct4X8 d
  | .itxDct8X4 d => Laws.FitsRow.itxDct8X4 d
  | .itxAfv0 d => Laws.FitsRow.itxAfv0 d
  | .itxAfv1 d => Laws.FitsRow.itxAfv1 d
  | .itxAfv2 d => Laws.FitsRow.itxAfv2 d
  | .itxAfv3 d => Laws.FitsRow.itxAfv3 d
  | .itxDct64 d => Laws.FitsRow.itxDct64 d
  | .itxDct64X32 d => Laws.FitsRow.itxDct64X32 d
  | .itxDct32X64 d => Laws.FitsRow.itxDct32X64 d
  | .itxDct128 d => Laws.FitsRow.itxDct128 d
  | .itxDct128X64 d => Laws.FitsRow.itxDct128X64 d
  | .itxDct64X128 d => Laws.FitsRow.itxDct64X128 d
  | .itxDct256 d => Laws.FitsRow.itxDct256 d
  | .itxDct256X128 d => Laws.FitsRow.itxDct256X128 d
  | .itxDct128X256 d => Laws.FitsRow.itxDct128X256 d
  | .itxUnsupported27 d => Laws.FitsRow.itxUnsupported27 d
  | .itxUnsupported28_31 d tt => Laws.FitsRow.itxUnsupported28_31 d tt

theorem exists_row_of_wordOf {w : Word} {i : Instr} (h : WordOf w i) : ∃ r ∈ opcodeTable, r.matches w = true := by
  have hrow := fitsRow i h.wellFormed
  rw [encode_of_fields h.reserved h.fields, Option.any_eq_true] at hrow
  obtain ⟨r, hget, hmatch⟩ := hrow
  exact ⟨r, List.mem_of_getElem? hget, hmatch⟩

theorem exists_instr_iff_exists_row (w : Word) :
    (∃ i, decode w = .instr i) ↔ ∃ r ∈ opcodeTable, r.matches w = true := by
  constructor
  · rintro ⟨i, hi⟩
    exact exists_row_of_wordOf (wordOf_of_decode hi)
  · rintro ⟨r, hr, hmatch⟩
    obtain ⟨i, hi⟩ := exists_wordOf (not_illegal_of_matches hr hmatch)
    exact ⟨i, decode_of_wordOf hi⟩

end Sys2Proof
end

section
/-! PROOFS. The statements about the encoding (30_encoding.md). -/

namespace Sys2Proof.Machine

open Claims

/-! ### The engine's turn at a step (20_memory.md R61, 70_reset_and_hazards.md R264) -/

theorem step_of_engineTurn {s : State} {rest : List Event} (hb : s.bus = .engineTurn :: rest) :
    step s = engineTurn { s with bus := rest } :=
  step_of_event hb (by simp [State.headHeld, hb])

theorem engineTurn_of_instr {s : State} {i : Instr} (h : s.engine = .busy) (hd : decode s.lcmd = .instr i) :
    engineTurn s = exec i s := (engineTurn_busy h).trans (engineStep_of_instr hd)

theorem withFetchWord_word (s : State) (w : Word) : s.withFetchWord 32 w.toNat = s.accepted w := by
  unfold State.withFetchWord
  rw [Nat.mod_eq_of_lt w.isLt, BitVec.ofNat_toNat, BitVec.setWidth_eq]

/-- An illegal word faults with ILLEGAL_CMD when its turn comes (60_exceptions.md R222). -/
theorem step_of_illegal {s : State} (hbusy : s.engine = .busy) (hb : s.bus = []) (h : illegal s.lcmd) :
    step s = .next (faulted s 1) := by
  obtain ⟨why, hwhy⟩ := decode_of_illegal h
  rw [step_of_empty hb, engineTurn_busy hbusy, engineStep_of_rejected hwhy]
  rfl

/-! ### The statements -/

/-- Settles O5: the word of a well-formed command carries its fields, and the decoder reads them. -/
theorem decodeOfEncodeIsTheCommand : Obligations.DecodeOfEncodeIsTheCommand :=
  fun _ h => decode_of_wordOf (wordOf_encode h)

/-- Settles O6: a decoded word has no bit outside the fields that the encoder writes. -/
theorem encodeOfDecodeIsTheWord : Obligations.EncodeOfDecodeIsTheWord := by
  intro w i h
  obtain ⟨hr, hwf, hf⟩ := wordOf_of_decode h
  exact ⟨hwf, encode_of_fields hr hf⟩

/-- Settles O3: the decoder rejects exactly the words with a fault of R222. -/
theorem illegalWordsFaultAndOnlyThey : Obligations.IllegalWordsFaultAndOnlyThey :=
  ⟨illegal_iff_not_instr, fun _ hbusy hb h => step_of_illegal hbusy hb h⟩

/-- Settles O4: every legal word has a row, every row's words are legal, and the rows are in conflict two by two. -/
theorem legalWordsMatchExactlyOneRow : Obligations.LegalWordsMatchExactlyOneRow := by
  refine ⟨fun w h s hbusy hb hw => ?_, fun w => ?_, length_matching_le_one opcodeTable_pairwise_conflicts⟩
  · exact step_of_illegal hbusy hb (hw ▸ .inr (.inr h))
  · have hle := length_matching_le_one opcodeTable_pairwise_conflicts w
    rw [exists_instr_iff_exists_row, ← List.length_filter_pos_iff]
    omega

/-- Settles O7: the fields of the decoded command are those that the decoder read. -/
theorem decodedFieldsAreTheWordsFields : Obligations.DecodedFieldsAreTheWordsFields :=
  fun w _ h => (wordOf_of_decode h).fields.trans (bitRanges_eq_wordFields w).symm

/-- Settles O1: each kind of engine turn reaches `engineStep`. -/
theorem stepRunsTheDecodedCommand : Obligations.StepRunsTheDecodedCommand := by
  refine ⟨fun s i hbusy hd => ⟨fun hb => ?_, fun rest hb => ?_, fun a rest hb hw hn h4 hin => ?_⟩, fun s w i hd => ?_,
    fun s hne => ⟨fun hb => ?_, fun rest hb => ?_⟩⟩
  · rw [step_of_empty hb, engineTurn_of_instr hbusy hd]
  · exact (step_of_engineTurn hb).trans (engineTurn_of_instr hbusy hd)
  · have hheld : s.headHeld = true := (headHeld_host hb).trans (holds_sram_of_busy hbusy hw hn h4 hin)
    rw [step_of_held hb hheld, engineTurn_of_instr hbusy hd]
  · rw [withFetchWord_word]
    exact (step_of_engineTurn rfl).trans (engineTurn_of_instr rfl hd)
  · rw [step_of_empty hb, engineTurn_not_busy hne]
  · exact (step_of_engineTurn hb).trans (engineTurn_not_busy hne)

end Sys2Proof.Machine
end

section
/-! PROOFS. The statements about the grid family (40_grid.md): what each command's checks come to, what its writes leave
in sample memory, and which commands define a descriptor. -/

namespace Sys2Proof.Machine

open Claims

/-! ### Which commands define a descriptor (40_grid.md R100) -/

/-- The commands that may define slot `d`: GRID_NEW, VIEW_NEW or FREE on it, or a general ITX on it while it holds a
GRID. -/
def mayDefine (s : State) (d : Slot) (i : Instr) : Prop :=
  i = .gridNew d ∨ i = .viewNew d ∨ i = .free d ∨ ((s.desc[d]).kind = .grid ∧ ∃ g ∈ generalItx, i = g.2 d)

/-- The plan defines no slot but those that `Q` allows. -/
def Plan.DefinesOnly (Q : Slot → Prop) (p : Plan) : Prop := ∀ d x, p.desc = some (d, x) → Q d

section DefinesOnly
variable {Q : Slot → Prop}

theorem Plan.DefinesOnly.of_none {p : Plan} (h : p.desc = none) : p.DefinesOnly Q :=
  fun _ _ e => nomatch h.symm.trans e

theorem Plan.DefinesOnly.define {d : Slot} (h : Q d) (x : Desc) (rs : List Run) :
    (Plan.define d x rs).DefinesOnly Q := by
  rintro d' x' ⟨⟩
  exact h

theorem planGetSample_definesOnly (d : Slot) (s : State) : (planGetSample d s).RunsOnly (Plan.DefinesOnly Q) :=
  withDesc_runsOnly (.check (onMap_runsOnly (.runs (.of_none rfl))))

theorem planSetSample_definesOnly (d : Slot) (s : State) : (planSetSample d s).RunsOnly (Plan.DefinesOnly Q) :=
  withDesc_runsOnly (.check (onMap_runsOnly (.runs (.of_none rfl))))

theorem planSwap_definesOnly (d : Slot) (s : State) : (planSwap d s).RunsOnly (Plan.DefinesOnly Q) :=
  withDesc_runsOnly (.check (.check (onMap_runsOnly (.runs (.of_none rfl)))))

theorem planWidenQ_definesOnly (d : Slot) (s : State) : (planWidenQ d s).RunsOnly (Plan.DefinesOnly Q) :=
  withDesc_runsOnly (.runs (.of_none rfl))

theorem planUnsupported_definesOnly (d : Slot) (s : State) : (planUnsupported d s).RunsOnly (Plan.DefinesOnly Q) :=
  withDesc_runsOnly trivial

theorem plan1d_definesOnly (f : Numerics → Nat → List F32 → List F32) (s : State) :
    (plan1d f s).RunsOnly (Plan.DefinesOnly Q) := .check (.check (.runs (.of_none rfl)))

theorem plan2d_definesOnly (f : Numerics → Nat → Nat → Block → Block) (d : Slot) (s : State) :
    (plan2d f d s).RunsOnly (Plan.DefinesOnly Q) :=
  withDesc_runsOnly (.check (onMap_runsOnly (.runs (.of_none rfl))))

theorem planFixed_definesOnly (tt : Nat) (path : Params → Block → Block) (d : Slot) (s : State) :
    (planFixed tt path d s).RunsOnly (Plan.DefinesOnly Q) :=
  withTarget_runsOnly (.check (onMap_runsOnly (.runs (.of_none rfl))))

/-- A general tag defines its own slot, and only where it reallocates a GRID. -/
theorem planGeneral_definesOnly (tt : Nat) (d : Slot) (s : State) (h : (s.desc[d]).kind = .grid → Q d) :
    (planGeneral tt d s).RunsOnly (Plan.DefinesOnly Q) := by
  unfold planGeneral withTarget
  cases hk : (s.desc[d]).kind with
  | empty =>
    rw [withDesc_empty hk]
    trivial
  | grid => exact withDesc_runsOnly (.check (.ite (onMap_runsOnly (.runs (.of_none rfl)))
      (.check (.check (onMap_runsOnly (.runs (.define (h hk) _ _)))))))
  | view =>
    refine withDesc_runsOnly (.check (.ite (onMap_runsOnly (.runs (.of_none rfl))) ?_))
    rw [if_pos hk]
    trivial

end DefinesOnly

/-- The plan of every command defines only slots that R100 lets the command define. -/
theorem planOf_definesOnly (i : Instr) (s : State) :
    (planOf i s).RunsOnly (Plan.DefinesOnly fun d => mayDefine s d i) := by
  cases i with
  | gridNew d => exact .check (.check (.runs (.define (.inl rfl) _ _)))
  | viewNew d => exact .check (.check (.runs (.define (.inr (.inl rfl)) _ _)))
  | free d => exact .runs (.define (.inr (.inr (.inl rfl))) _ _)
  | getSample d => exact planGetSample_definesOnly d s
  | setSample d => exact planSetSample_definesOnly d s
  | swap d => exact planSwap_definesOnly d s
  | widenQ d => exact planWidenQ_definesOnly d s
  | dct1d => exact plan1d_definesOnly _ s
  | idct1d => exact plan1d_definesOnly _ s
  | dct2d d => exact plan2d_definesOnly _ d s
  | idct2d d => exact plan2d_definesOnly _ d s
  | itxHornuss d => exact planFixed_definesOnly _ _ d s
  | itxDct2 d => exact planFixed_definesOnly _ _ d s
  | itxDct4 d => exact planFixed_definesOnly _ _ d s
  | itxDct4X8 d => exact planFixed_definesOnly _ _ d s
  | itxDct8X4 d => exact planFixed_definesOnly _ _ d s
  | itxAfv0 d => exact planFixed_definesOnly _ _ d s
  | itxAfv1 d => exact planFixed_definesOnly _ _ d s
  | itxAfv2 d => exact planFixed_definesOnly _ _ d s
  | itxAfv3 d => exact planFixed_definesOnly _ _ d s
  | itxUnsupported27 d => exact planUnsupported_definesOnly d s
  | itxUnsupported28_31 d tt => exact planUnsupported_definesOnly d s
  | _ d => exact planGeneral_definesOnly _ d s fun hgrid => .inr (.inr (.inr ⟨hgrid, by simp [generalItx]⟩))

/-- A slot that the table of a plan changes is the one that the plan defines. -/
theorem Plan.desc_of_table_ne {p : Plan} {t : Vector Desc 16} {d : Slot} (h : (p.table t)[d] ≠ t[d]) :
    ∃ x, p.desc = some (d, x) := by
  unfold Plan.table at h
  cases hp : p.desc with
  | none => rw [hp] at h; exact absurd rfl h
  | some dx =>
    obtain ⟨d', x⟩ := dx
    by_cases hd : d' = d
    · exact ⟨x, by rw [hd]⟩
    · rw [hp] at h
      exact absurd (Vector.getElem_set_ne _ _ fun e => hd (Fin.ext e)) h

theorem engineTurn_desc_changes {s t : State} {d : Slot} (h : engineTurn s = .next t) (hne : t.desc[d] ≠ s.desc[d]) :
    s.engine = .busy ∧ ∃ i, decode s.lcmd = .instr i ∧ mayDefine s d i := by
  rcases engineTurn_next_cases h with ⟨-, rfl⟩ | ⟨hb, ⟨i, p, hd, hp, rfl⟩ | ⟨c, rfl⟩⟩
  · exact absurd rfl hne
  · obtain ⟨x, hx⟩ := Plan.desc_of_table_ne hne
    exact ⟨hb, i, hd, (planOf_definesOnly i s).plan hp d x hx⟩
  · exact absurd rfl hne

/-- The only host access that changes the descriptor table is the CTRL write of a soft reset. -/
theorem access_desc_cases (s : State) (a : Access) :
    (s.access a).desc = s.desc ∨ ∃ v, Event.host a = hostWrite 0x008 v ∧ v.getLsbD 0 = true := by
  rcases access_cases s a with ⟨r, e⟩ | ⟨off, v, rfl, e⟩ | ⟨i, v, -, e⟩ <;> rw [e]
  · exact .inl rfl
  · dsimp only
    rcases writeRegister_cases off v s with ⟨rfl, hv, -⟩ | e | e | ⟨-, e⟩ | ⟨i, e⟩ | e
    · exact .inr ⟨v, rfl, hv⟩
    all_goals refine .inl ?_; rw [e]
    · exact State.writeEnables_desc v s
    · exact State.writeStatus_desc v s
    · exact State.submit_desc v s
    · exact State.writeArg_desc i v s
  · exact .inl rfl

/-- Settles O33: a completing command changes the slot that its plan defines, and a host access changes the table by a
soft reset only. -/
theorem descriptorsChangeOnlyByTheirOwners : Obligations.DescriptorsChangeOnlyByTheirOwners := by
  intro s t d hstep hne
  rcases step_next_cases hstep with ⟨bus, hturn⟩ | ⟨rest, hb, -⟩ | ⟨a, rest, hb, rfl⟩
  · exact .inr (engineTurn_desc_changes (s := { s with bus := bus }) hturn hne)
  · exact .inl (.inl ⟨rest, hb⟩)
  · rcases access_desc_cases { s with bus := rest } a with hsame | ⟨v, hv, hbit⟩
    · exact absurd (by rw [hsame]) hne
    · exact .inl (.inr ⟨v, rest, hv ▸ hb, hbit⟩)

/-! ### A failed check -/

/-- A failed check is fault entry with the code of its cause (60_exceptions.md R221, R232). -/
theorem exec_faulted {i : Instr} {s : State} {c : Cause} (h : planOf i s = .raises c) :
    exec i s = .next (faulted s c.code.toNat) := by
  rw [exec_of_raises h]
  cases c <;> rfl

/-! ### Making a descriptor (40_grid.md R91 to R93) -/

/-- A descriptor made from register values holds them. -/
theorem make_of_words (kind : Kind) (base width height stride : Word) (off len : Nat) :
    Desc.make kind base.toNat off width.toNat height.toNat stride.toNat len =
      ⟨kind, base, BitVec.ofNat 32 off, width, height, stride, BitVec.ofNat 32 len⟩ := by
  simp only [Desc.make, BitVec.ofNat_toNat, BitVec.setWidth_eq]

/-- The smallest offset that aligns an address is `pad` (40_grid.md R91). -/
theorem eq_padOf_of_least {p : Params} {a off : Nat} (h : (a + off) % p.alignWords = 0)
    (hleast : ∀ o, o < off → (a + o) % p.alignWords ≠ 0) : off = padOf p a := by
  have hlt : padOf p a < p.alignWords := Nat.mod_lt _ (alignWords_pos p)
  have hle : off ≤ padOf p a := not_lt.mp fun hpad => hleast _ hpad (padOf_aligned p a)
  have hmod : off ≡ padOf p a [MOD p.alignWords] :=
    Nat.ModEq.add_left_cancel' a (h.trans (padOf_aligned p a).symm)
  exact hmod.eq_of_lt_of_lt (hle.trans_lt hlt) hlt

/-- A run of zeros reads as 0, word by word. -/
theorem Memory.wordFrom_putRun_zeros (n : Nat) (m : Memory) {a count b : Nat} (hlo : a ≤ b) (hhi : b < a + count) :
    (m.putRun (a, List.replicate count 0)).wordFrom n b = 0 := by
  obtain ⟨k, rfl⟩ := Nat.exists_eq_add_of_le hlo
  have hk : k < (List.replicate count (0 : Word)).length := by rw [List.length_replicate]; omega
  exact (Memory.wordFrom_putRun_inside n m (a, List.replicate count 0) k hk).trans (List.getElem_replicate _)

theorem Memory.byteFrom_putRun_zeros_outside (n : Nat) (m : Memory) {a count b : Nat} (h : ¬ inWords a count b) :
    (m.putRun (a, List.replicate count 0)).byteFrom n b = m.byteFrom n b := by
  refine Memory.byteFrom_putRun_outside n m _ b ?_
  unfold Run.covers
  rw [List.length_replicate]
  exact h

/-- Settles O35: the offset is `pad`, and the checks stand in the order of the statement. -/
theorem gridNewCreatesAZeroedAlignedGrid : Obligations.GridNewCreatesAZeroedAlignedGrid := by
  intro d s off base w h halign hleast
  obtain rfl := eq_padOf_of_least halign hleast
  refine ⟨fun hz => ?_, fun hw hh hbig => ?_, fun hw hh hfit => ?_⟩
  · have hplan : planOf (.gridNew d) s = .raises .invalidDimensions := if_pos hz
    exact exec_faulted hplan
  · have hplan : planOf (.gridNew d) s = .raises .outOfRange :=
      (if_neg (not_or.mpr ⟨hw, hh⟩)).trans (if_pos hbig)
    exact exec_faulted hplan
  · have hplan : planOf (.gridNew d) s =
        .runs (.define d (.make .grid base (padOf s.params base) w h w (padOf s.params base + w * h))
          [(base + padOf s.params base, List.replicate (w * h) 0)]) :=
      (if_neg (not_or.mpr ⟨hw, hh⟩)).trans (if_neg (not_lt.mpr hfit))
    refine ⟨_, exec_of_runs hplan, ?_, fun a hlo hhi => ?_, fun a hout => ?_, rfl⟩
    · exact congrArg (s.desc.set d) (make_of_words ..)
    · exact Memory.wordFrom_putRun_zeros s.powerOns s.sram hlo hhi
    · exact Memory.byteFrom_putRun_zeros_outside s.powerOns s.sram hout

/-- Settles O36: the checks stand in the order of the statement, and the plan writes no word. -/
theorem viewNewCreatesAWindow : Obligations.ViewNewCreatesAWindow := by
  intro d s base len w h st
  refine ⟨fun hbad => ?_, fun hok hbig => ?_, fun hok hfit => ?_⟩
  · have hplan : planOf (.viewNew d) s = .raises .invalidDimensions := if_pos hbad
    exact exec_faulted hplan
  · have hplan : planOf (.viewNew d) s = .raises .outOfRange := (if_neg hok).trans (if_pos hbig)
    exact exec_faulted hplan
  · have hplan : planOf (.viewNew d) s = .runs (.define d (.make .view base 0 w h st len) []) :=
      (if_neg hok).trans (if_neg (not_lt.mpr hfit))
    rw [exec_of_runs hplan, make_of_words, BitVec.ofNat_toNat, BitVec.setWidth_eq]
    rfl

/-! ### The commands on one sample (40_grid.md R94, R95) -/

section Samples
variable {d : Slot} {s : State}

theorem inBounds_eq_false_iff {x y : Word} :
    (s.desc[d]).inBounds x.toNat y.toNat = false ↔ outside s d x y := by
  unfold Desc.inBounds outside
  simp only [Bool.and_eq_false_iff, decide_eq_false_iff_not, not_lt]

/-- The check of one position, before the rest of a command (40_grid.md R90). -/
theorem boundsCheck_outside {x y : Word} {v : Verdict} (h : outside s d x y) :
    (if (s.desc[d]).inBounds x.toNat y.toNat = false then .raises .outOfBounds else v) = .raises .outOfBounds :=
  if_pos (inBounds_eq_false_iff.mpr h)

theorem boundsCheck_inside {x y : Word} {v : Verdict} (h : ¬ outside s d x y) :
    (if (s.desc[d]).inBounds x.toNat y.toNat = false then .raises .outOfBounds else v) = v :=
  if_neg fun hout => h (inBounds_eq_false_iff.mp hout)

theorem planGetSample_empty (h : (s.desc[d]).kind = .empty) : planGetSample d s = .raises .badDesc := withDesc_empty h

theorem planGetSample_outside (hk : (s.desc[d]).kind ≠ .empty) (ho : outside s d s.larg[0] s.larg[1]) :
    planGetSample d s = .raises .outOfBounds := by
  unfold planGetSample
  rw [withDesc_defined hk]
  exact boundsCheck_outside ho

theorem planGetSample_inside (hl : (s.desc[d]).Legal s.params) (hk : (s.desc[d]).kind ≠ .empty)
    (hi : ¬ outside s d s.larg[0] s.larg[1]) :
    planGetSample d s =
      .runs ⟨[], none, some (s.sramWord ((s.desc[d]).addr s.larg[0].toNat s.larg[1].toNat)), none⟩ := by
  unfold planGetSample
  rw [withDesc_defined hk, onMap_of_legal hl hk]
  exact boundsCheck_inside hi

theorem planSetSample_empty (h : (s.desc[d]).kind = .empty) : planSetSample d s = .raises .badDesc := withDesc_empty h

theorem planSetSample_outside (hk : (s.desc[d]).kind ≠ .empty) (ho : outside s d s.larg[0] s.larg[1]) :
    planSetSample d s = .raises .outOfBounds := by
  unfold planSetSample
  rw [withDesc_defined hk]
  exact boundsCheck_outside ho

theorem planSetSample_inside (hl : (s.desc[d]).Legal s.params) (hk : (s.desc[d]).kind ≠ .empty)
    (hi : ¬ outside s d s.larg[0] s.larg[1]) :
    planSetSample d s =
      .runs (.store [((s.desc[d]).addr s.larg[0].toNat s.larg[1].toNat, [s.larg[2]])]) := by
  unfold planSetSample
  rw [withDesc_defined hk, onMap_of_legal hl hk]
  exact boundsCheck_inside hi

theorem planSwap_empty (h : (s.desc[d]).kind = .empty) : planSwap d s = .raises .badDesc := withDesc_empty h

/-- SWAP checks its two positions in turn (40_grid.md R96). -/
theorem planSwap_outside (hk : (s.desc[d]).kind ≠ .empty)
    (ho : outside s d s.larg[0] s.larg[1] ∨ outside s d s.larg[2] s.larg[3]) :
    planSwap d s = .raises .outOfBounds := by
  unfold planSwap
  rw [withDesc_defined hk]
  by_cases hfirst : outside s d s.larg[0] s.larg[1]
  · exact boundsCheck_outside hfirst
  · exact (boundsCheck_inside hfirst).trans (boundsCheck_outside (ho.resolve_left hfirst))

theorem planSwap_inside (hl : (s.desc[d]).Legal s.params) (hk : (s.desc[d]).kind ≠ .empty)
    (hfirst : ¬ outside s d s.larg[0] s.larg[1]) (hsecond : ¬ outside s d s.larg[2] s.larg[3]) :
    planSwap d s =
      .runs (.store
        [((s.desc[d]).addr s.larg[0].toNat s.larg[1].toNat,
            [s.sramWord ((s.desc[d]).addr s.larg[2].toNat s.larg[3].toNat)]),
          ((s.desc[d]).addr s.larg[2].toNat s.larg[3].toNat,
            [s.sramWord ((s.desc[d]).addr s.larg[0].toNat s.larg[1].toNat)])]) := by
  unfold planSwap
  rw [withDesc_defined hk]
  dsimp only
  rw [onMap_of_legal hl hk]
  exact (boundsCheck_inside hfirst).trans (boundsCheck_inside hsecond)

end Samples

/-- Settles O37: the three cases of GET's plan. -/
theorem getReadsOneSample : Obligations.GetReadsOneSample := by
  refine fun d s hl => ⟨fun he => ?_, fun hk ho => ?_, fun hk hi => ?_⟩
  · exact exec_faulted (i := .getSample d) (planGetSample_empty he)
  · exact exec_faulted (i := .getSample d) (planGetSample_outside hk ho)
  · exact exec_of_runs (i := .getSample d) (planGetSample_inside hl hk hi)

/-- A word read after it alone was written. -/
theorem Memory.wordFrom_putRun_word (n : Nat) (m : Memory) (a : Nat) (w : Word) :
    (m.putRun (a, [w])).wordFrom n a = w :=
  Memory.wordFrom_putRun_inside n m (a, [w]) 0 Nat.one_pos

/-- Settles O38: the three cases of SET's plan, which writes a run of one word. -/
theorem setWritesOneSample : Obligations.SetWritesOneSample := by
  refine fun d s hl => ⟨fun he => ?_, fun hk ho => ?_, fun hk hi => ?_⟩
  · exact exec_faulted (i := .setSample d) (planSetSample_empty he)
  · exact exec_faulted (i := .setSample d) (planSetSample_outside hk ho)
  · refine ⟨_, exec_of_runs (i := .setSample d) (planSetSample_inside hl hk hi), ?_, fun a hout => ?_, rfl, rfl⟩
    · exact Memory.wordFrom_putRun_word s.powerOns s.sram _ _
    · exact Memory.byteFrom_putRun_outside s.powerOns s.sram (_, [_]) a hout

/-! ### Exchanging two words (40_grid.md R96) -/

theorem wordOfBytes_byte (b0 b1 b2 b3 : Byte) :
    (wordOfBytes b0 b1 b2 b3).extractLsb' 0 8 = b0 ∧ (wordOfBytes b0 b1 b2 b3).extractLsb' 8 8 = b1 ∧
      (wordOfBytes b0 b1 b2 b3).extractLsb' 16 8 = b2 ∧ (wordOfBytes b0 b1 b2 b3).extractLsb' 24 8 = b3 := by
  have h0 := b0.isLt
  have h1 := b1.isLt
  have h2 := b2.isLt
  have h3 := b3.isLt
  unfold wordOfBytes
  refine ⟨?_, ?_, ?_, ?_⟩ <;> apply BitVec.eq_of_toNat_eq <;> rw [extractLsb'_toNat_ofNat (by omega)] <;> omega

/-- The bytes of a word as memory holds them. -/
theorem Memory.wordFrom_byte (n : Nat) (m : Memory) (a : Nat) {j : Nat} (hj : j < 4) :
    (m.wordFrom n a).extractLsb' (8 * j) 8 = m.byteFrom n (4 * a + j) := by
  obtain ⟨h0, h1, h2, h3⟩ := wordOfBytes_byte (m.byteFrom n (4 * a)) (m.byteFrom n (4 * a + 1))
    (m.byteFrom n (4 * a + 2)) (m.byteFrom n (4 * a + 3))
  match j, hj with
  | 0, _ => exact h0
  | 1, _ => exact h1
  | 2, _ => exact h2
  | 3, _ => exact h3

/-- Writing the word that memory holds changes no byte. -/
theorem Memory.byteFrom_putRun_self (n : Nat) (m : Memory) (a b : Nat) :
    (m.putRun (a, [m.wordFrom n a])).byteFrom n b = m.byteFrom n b := by
  by_cases hb : 4 * a ≤ b ∧ b < 4 * (a + 1)
  · obtain ⟨j, rfl⟩ := Nat.exists_eq_add_of_le hb.1
    rw [byteFrom_putRun_word n m a _ (by omega), Memory.wordFrom_byte n m a (by omega)]
  · exact Memory.byteFrom_putRun_outside n m _ b hb

/-- Memory after the two writes of SWAP, both words read before either is written (40_grid.md R96). -/
def Memory.exchange (n : Nat) (m : Memory) (a b : Nat) : Memory :=
  m.putRuns [(a, [m.wordFrom n b]), (b, [m.wordFrom n a])]

section Exchange
variable (n : Nat) (m : Memory) (a b : Nat)

theorem Memory.exchange_second : (m.exchange n a b).wordFrom n b = m.wordFrom n a :=
  Memory.wordFrom_putRun_word n _ b _

theorem Memory.exchange_first : (m.exchange n a b).wordFrom n a = m.wordFrom n b := by
  by_cases hab : a = b
  · subst hab
    exact Memory.exchange_second n m a a
  · have hapart : a < b ∨ b + 1 ≤ a := by omega
    exact (Memory.wordFrom_putRun_outside n _ (b, [m.wordFrom n a]) a hapart).trans
      (Memory.wordFrom_putRun_word n m a _)

theorem Memory.exchange_outside {c : Nat} (ha : ¬ inWords a 1 c) (hb : ¬ inWords b 1 c) :
    (m.exchange n a b).byteFrom n c = m.byteFrom n c := by
  refine Memory.byteFrom_putRuns_outside n m _ c fun r hr => ?_
  simp only [List.mem_cons, List.not_mem_nil, or_false] at hr
  rcases hr with rfl | rfl
  · exact ha
  · exact hb

/-- Exchanging a word with itself changes no byte. -/
theorem Memory.exchange_same (hab : a = b) (c : Nat) : (m.exchange n a b).byteFrom n c = m.byteFrom n c := by
  subst hab
  have hword : (m.putRun (a, [m.wordFrom n a])).wordFrom n a = m.wordFrom n a := Memory.wordFrom_putRun_word n m a _
  have hsecond := Memory.byteFrom_putRun_self n (m.putRun (a, [m.wordFrom n a])) a c
  rw [hword] at hsecond
  exact hsecond.trans (Memory.byteFrom_putRun_self n m a c)

end Exchange

/-- Settles O39: the three cases of SWAP's plan, whose writes are `Memory.exchange`. -/
theorem swapExchangesTwoSamples : Obligations.SwapExchangesTwoSamples := by
  refine fun d s hl => ⟨fun he => ?_, fun hk ho => ?_, fun hk hfirst hsecond => ?_⟩
  · exact exec_faulted (i := .swap d) (planSwap_empty he)
  · exact exec_faulted (i := .swap d) (planSwap_outside hk ho)
  · intro pa pb
    exact ⟨_, exec_of_runs (i := .swap d) (planSwap_inside hl hk hfirst hsecond),
      Memory.exchange_first s.powerOns s.sram pa pb, Memory.exchange_second s.powerOns s.sram pa pb,
      fun _ => Memory.exchange_outside s.powerOns s.sram pa pb, Memory.exchange_same s.powerOns s.sram pa pb, rfl,
      rfl⟩

/-! ### WIDEN_Q and FREE (40_grid.md R97, R98) -/

/-- The answer of WIDEN_Q as R97 states it. -/
theorem Desc.widens_iff (x : Desc) (lane : Nat) :
    x.widens lane = true ↔ (lane = 2 ∨ lane = 4 ∨ lane = 8 ∨ lane = 16) ∧
      lane ∣ x.w ∧ lane ∣ x.stride.toNat ∧ lane ∣ x.base.toNat + x.offset.toNat := by
  simp [Desc.widens, Desc.origin, Nat.dvd_iff_mod_eq_zero, and_assoc]

section WidenQ
variable {d : Slot} {s : State}

theorem planWidenQ_empty (h : (s.desc[d]).kind = .empty) : planWidenQ d s = .raises .badDesc := withDesc_empty h

theorem planWidenQ_defined (h : (s.desc[d]).kind ≠ .empty) :
    planWidenQ d s = .runs ⟨[], none, none, some ((s.desc[d]).widens (s.operand 0))⟩ := withDesc_defined h

end WidenQ

/-- Settles O40: the one check, then the answer of `Desc.widens`. -/
theorem widenQueryAnswersAvailability : Obligations.WidenQueryAnswersAvailability := by
  refine fun d s => ⟨fun he => ?_, fun hk => ⟨(s.desc[d]).widens (s.operand 0), ?_, Desc.widens_iff _ _⟩⟩
  · exact exec_faulted (i := .widenQ d) (planWidenQ_empty he)
  · exact exec_of_runs (i := .widenQ d) (planWidenQ_defined hk)

/-- Settles O41: FREE has no check. -/
theorem freeEmptiesTheSlot : Obligations.FreeEmptiesTheSlot :=
  fun d _ => exec_of_runs (i := .free d) (p := .define d Desc.emptySlot []) rfl

end Sys2Proof.Machine
end

section
/-! PROOFS. f32 addition and multiplication round once (41_dct1d.md R138). Rounding a magnitude to a quantum of `2^e` takes
the nearest multiple of the quantum; the value of a word is such a multiple, or too small to be nearer. -/

namespace Sys2Proof.Machine.F32

open Claims

/-! ### Rounding to a quantum -/

/-- The multiple of `2^e` that `quantize` rounds a magnitude to: the nearest, and the even one of two. -/
def roundedQuotient (m e : Nat) : Nat :=
  if 2 ^ e < 2 * (m % 2 ^ e) ∨ (2 * (m % 2 ^ e) = 2 ^ e ∧ m / 2 ^ e % 2 = 1) then m / 2 ^ e + 1 else m / 2 ^ e

theorem quantize_eq (s m e : Nat) : quantize s m e = roundedQuotient m e * 2 ^ (e - s) := by
  simp only [quantize, roundedQuotient, Nat.shiftLeft_eq, Nat.shiftRight_eq_div_pow, Nat.one_mul]

theorem quantize_scaled {s e : Nat} (h : s ≤ e) (m : Nat) : quantize s m e * 2 ^ s = roundedQuotient m e * 2 ^ e := by
  rw [quantize_eq, Nat.mul_assoc, ← pow_add, Nat.sub_add_cancel h]

theorem roundedQuotient_bounds (m e : Nat) :
    m / 2 ^ e ≤ roundedQuotient m e ∧ roundedQuotient m e ≤ m / 2 ^ e + 1 := by
  unfold roundedQuotient
  split <;> omega

/-- No multiple of the quantum is nearer, and one as near is the same or leaves the even choice. -/
theorem roundedQuotient_nearest (m e t : Nat) :
    Nat.dist (roundedQuotient m e * 2 ^ e) m ≤ Nat.dist (t * 2 ^ e) m ∧
      (Nat.dist (roundedQuotient m e * 2 ^ e) m = Nat.dist (t * 2 ^ e) m →
        t = roundedQuotient m e ∨ roundedQuotient m e % 2 = 0) := by
  have hr := Nat.mod_lt m (Nat.two_pow_pos e)
  have hm := Nat.div_add_mod m (2 ^ e)
  unfold roundedQuotient Nat.dist
  generalize 2 ^ e = p at *
  generalize m / p = q at *
  generalize m % p = r at *
  rw [Nat.mul_comm] at hm
  have hnext : (q + 1) * p = q * p + p := Nat.succ_mul q p
  have hbelow : t < q → t * p + p ≤ q * p := fun h => Nat.succ_mul t p ▸ Nat.mul_le_mul_right p h
  have habove : q + 2 ≤ t → q * p + 2 * p ≤ t * p := fun h => Nat.add_mul q 2 p ▸ Nat.mul_le_mul_right p h
  obtain h | rfl | rfl | h : t < q ∨ t = q ∨ t = q + 1 ∨ q + 2 ≤ t := by omega
  · have := hbelow h
    split <;> omega
  · split <;> omega
  · split <;> omega
  · have := habove h
    split <;> omega

/-! ### The values of words -/

/-- The value of a finite word: at most 24 significant bits, all 24 where they are shifted; bit 0 of the word is the lowest
of them. -/
theorem ofWord_significand {w : Word} (h : (ofWord w).isFinite = true) :
    ∃ f j, ofWord w = .fin (w.getLsbD 31) (f * 2 ^ j) ∧ f < 2 ^ 24 ∧ j ≤ 253 ∧ (j ≠ 0 → 2 ^ 23 ≤ f) ∧
      (f % 2 = 0 → w.getLsbD 0 = false) := by
  have hbit : w.toNat % 2 = 0 → w.getLsbD 0 = false := fun h0 => by
    rw [BitVec.getLsbD, Nat.testBit_zero, h0]
    rfl
  have hE : w.toNat / 0x800000 % 256 < 256 := Nat.mod_lt _ (by norm_num)
  have hF : w.toNat % 0x800000 < 0x800000 := Nat.mod_lt _ (by norm_num)
  have hparity : w.toNat % 0x800000 % 2 = w.toNat % 2 := Nat.mod_mod_of_dvd _ (by norm_num)
  unfold ofWord at h ⊢
  dsimp only at h ⊢
  generalize w.toNat / 0x800000 % 256 = E at *
  generalize w.toNat % 0x800000 = F at *
  by_cases h255 : E = 255
  · rw [if_pos h255] at h
    split at h <;> simp [isFinite] at h
  rw [if_neg h255]
  by_cases h0 : E = 0
  · refine ⟨F, 0, by rw [if_pos h0, pow_zero, Nat.mul_one], by omega, by omega, fun hj => absurd rfl hj, fun hf => ?_⟩
    exact hbit (by omega)
  · refine ⟨0x800000 + F, E - 1, by rw [if_neg h0, Nat.shiftLeft_eq], by omega, by omega, by omega, fun hf => ?_⟩
    exact hbit (by omega)

/-- The significand of a word cannot be odd where an even multiple of the quantum gives the same value. -/
theorem significand_even {f j c i : Nat} (hj : j ≠ 0 → 2 ^ 23 ≤ f) (hc : c ≤ 2 ^ 24) (heven : c % 2 = 0)
    (h : f * 2 ^ j = c * 2 ^ i) : f % 2 = 0 := by
  by_contra hodd
  have hcop : Nat.Coprime (2 ^ (i + 1)) f :=
    Nat.Coprime.pow_left _ (Nat.coprime_two_left.mpr (Nat.odd_iff.mpr (by omega)))
  have hdvd : 2 ^ (i + 1) ∣ f * 2 ^ j := by
    rw [h, pow_succ']
    exact Nat.mul_dvd_mul_right (Nat.dvd_of_mod_eq_zero heven) _
  have hij : i + 1 ≤ j := (Nat.pow_dvd_pow_iff_le_right (by norm_num)).mp (hcop.dvd_of_dvd_mul_left hdvd)
  have hf := hj (by omega)
  have hlarge : (2 ^ 23 + 1) * 2 ^ (i + 1) ≤ f * 2 ^ j :=
    Nat.mul_le_mul (by omega) (Nat.pow_le_pow_right (by norm_num) hij)
  have hsmall : c * 2 ^ i ≤ 2 ^ 24 * 2 ^ i := Nat.mul_le_mul_right _ hc
  have := Nat.two_pow_pos i
  rw [pow_succ'] at hlarge
  omega

/-! ### The quantum of a magnitude -/

/-- log2 of the quantum that `round` chooses: 24 significant bits, or one unit of 2^-149. -/
def quantum (s m : Nat) : Nat := max (topBit m - 23) s

theorem topBit_zero : topBit 0 = 0 := by decide

theorem topBit_lt {m k : Nat} (hk : 0 < k) (h : m < 2 ^ k) : topBit m < k := by
  rcases eq_or_ne m 0 with rfl | h0
  · rwa [topBit_zero]
  · exact (Nat.pow_lt_pow_iff_right (by norm_num)).mp ((topBitBelow_le 10 m h0).trans_lt h)

section Quantum
variable {s m : Nat}

theorem le_quantum (s m : Nat) : s ≤ quantum s m := le_max_right _ _

theorem lt_two_pow_topBit (hm : m < 2 ^ 2 ^ 10) : m < 2 ^ (topBit m + 1) := by
  rw [topBit_eq_log2 m hm]
  exact Nat.lt_log2_self

theorem roundedQuotient_quantum_le (hm : m < 2 ^ 2 ^ 10) : roundedQuotient m (quantum s m) ≤ 2 ^ 24 := by
  have hlt : m / 2 ^ quantum s m < 2 ^ 24 := by
    rw [Nat.div_lt_iff_lt_mul (Nat.two_pow_pos _), ← pow_add]
    refine (lt_two_pow_topBit hm).trans_le (Nat.pow_le_pow_right (by norm_num) ?_)
    unfold quantum
    omega
  have := (roundedQuotient_bounds m (quantum s m)).2
  omega

/-- A quantum above one unit has 24 significant bits above it. -/
theorem two_pow_quantum_le (hm : m < 2 ^ 2 ^ 10) (h : s < quantum s m) : 2 ^ 23 * 2 ^ quantum s m ≤ m := by
  have htop : 23 + quantum s m = topBit m := by
    unfold quantum at h ⊢
    omega
  have h0 : m ≠ 0 := by
    rintro rfl
    have := topBit_zero
    omega
  rw [← pow_add, htop]
  exact topBit_pow_le m h0 hm

/-- Rounding is nearest among all values of 24 significant bits. -/
theorem quantize_nearest (hm : m < 2 ^ 2 ^ 10) {f : Nat} (hf : f < 2 ^ 24) (j : Nat) :
    Nat.dist (quantize s m (quantum s m) * 2 ^ s) m ≤ Nat.dist (f * 2 ^ j * 2 ^ s) m ∧
      (Nat.dist (quantize s m (quantum s m) * 2 ^ s) m = Nat.dist (f * 2 ^ j * 2 ^ s) m →
        f * 2 ^ j = quantize s m (quantum s m) ∨ roundedQuotient m (quantum s m) % 2 = 0) := by
  have hscaled := quantize_scaled (le_quantum s m) m
  have hcancel : f * 2 ^ j * 2 ^ s = quantize s m (quantum s m) * 2 ^ s → f * 2 ^ j = quantize s m (quantum s m) :=
    Nat.eq_of_mul_eq_mul_right (Nat.two_pow_pos s)
  rw [hscaled] at hcancel ⊢
  rcases Nat.lt_or_ge (j + s) (quantum s m) with hfine | hcoarse
  · have hbelow : f * 2 ^ j * 2 ^ s < 2 ^ 23 * 2 ^ quantum s m := by
      obtain ⟨e, he⟩ : ∃ e, quantum s m = e + 1 := ⟨quantum s m - 1, by omega⟩
      calc f * 2 ^ j * 2 ^ s = f * 2 ^ (j + s) := by rw [Nat.mul_assoc, ← pow_add]
        _ < 2 ^ 24 * 2 ^ (j + s) := Nat.mul_lt_mul_of_pos_right hf (Nat.two_pow_pos _)
        _ ≤ 2 ^ 24 * 2 ^ e := Nat.mul_le_mul_left _ (Nat.pow_le_pow_right (by norm_num) (by omega))
        _ = 2 ^ 23 * 2 ^ quantum s m := by rw [he]; ring
    have hle := two_pow_quantum_le hm (show s < quantum s m by omega)
    have hnear := (roundedQuotient_nearest m (quantum s m) (2 ^ 23)).1
    unfold Nat.dist at hnear ⊢
    omega
  · have hmultiple : f * 2 ^ j * 2 ^ s = f * 2 ^ (j + s - quantum s m) * 2 ^ quantum s m := by
      rw [Nat.mul_assoc, Nat.mul_assoc, ← pow_add, ← pow_add, Nat.sub_add_cancel hcoarse]
    have hnear := roundedQuotient_nearest m (quantum s m) (f * 2 ^ (j + s - quantum s m))
    rw [hmultiple] at hcancel ⊢
    exact ⟨hnear.1, fun heq => (hnear.2 heq).imp_left fun ht => hcancel (by rw [ht])⟩

theorem quantum_le (h : m < 2 ^ (277 + s)) : quantum s m ≤ 253 + s := by
  have htop : topBit m < 277 + s := topBit_lt (by omega) h
  unfold quantum
  omega

theorem le_quantum_of_le (hm : m < 2 ^ 2 ^ 10) (h : 2 ^ (276 + s) ≤ m) : 253 + s ≤ quantum s m := by
  have htop : 276 + s < topBit m + 1 :=
    (Nat.pow_lt_pow_iff_right (by norm_num)).mp (h.trans_lt (lt_two_pow_topBit hm))
  unfold quantum
  omega

/-- Powers of two around the largest finite value, in half units of its last place. -/
theorem two_pow_half_units (s k : Nat) : 2 ^ (252 + k + s) = 2 ^ k * 2 ^ (252 + s) := by
  rw [← pow_add]
  congr 1
  omega

/-- A magnitude below half a unit past the largest finite value is rounded to less than 2^128. -/
theorem rounded_lt (hm : m < (2 ^ 25 - 1) * 2 ^ (252 + s)) :
    roundedQuotient m (quantum s m) * 2 ^ quantum s m < 2 ^ 25 * 2 ^ (252 + s) := by
  have hquantum : quantum s m ≤ 253 + s := quantum_le (by rw [two_pow_half_units s 25]; omega)
  by_contra hlarge
  have hlast : (2 ^ 24 - 1) * 2 ^ (253 + s - quantum s m) * 2 ^ quantum s m = (2 ^ 25 - 2) * 2 ^ (252 + s) := by
    rw [Nat.mul_assoc, ← pow_add, Nat.sub_add_cancel hquantum, two_pow_half_units s 1]
    omega
  have hnear := (roundedQuotient_nearest m (quantum s m) ((2 ^ 24 - 1) * 2 ^ (253 + s - quantum s m))).1
  rw [hlast] at hnear
  have := Nat.two_pow_pos (252 + s)
  unfold Nat.dist at hnear
  omega

/-- From half a unit past the largest finite value on, a magnitude is rounded to 2^128 or more. -/
theorem le_rounded (hm : m < 2 ^ 2 ^ 10) (h : (2 ^ 25 - 1) * 2 ^ (252 + s) ≤ m) :
    2 ^ 25 * 2 ^ (252 + s) ≤ roundedQuotient m (quantum s m) * 2 ^ quantum s m := by
  have hpos := Nat.two_pow_pos (252 + s)
  have hquantum : 253 + s ≤ quantum s m := le_quantum_of_le hm (by rw [two_pow_half_units s 24]; omega)
  have hfull := two_pow_quantum_le hm (show s < quantum s m by omega)
  by_contra hsmall
  have hq : 2 ^ 23 * 2 ^ quantum s m ≤ roundedQuotient m (quantum s m) * 2 ^ quantum s m := by
    refine Nat.mul_le_mul_right _ (le_trans ?_ (roundedQuotient_bounds m (quantum s m)).1)
    rwa [Nat.le_div_iff_mul_le (Nat.two_pow_pos _)]
  have heq : quantum s m = 253 + s := by
    by_contra hne
    have h254 : 2 ^ (254 + s) ≤ 2 ^ quantum s m := Nat.pow_le_pow_right (by norm_num) (by omega)
    rw [two_pow_half_units s 2] at h254
    omega
  have hunit : 2 ^ quantum s m = 2 * 2 ^ (252 + s) := by rw [heq, two_pow_half_units s 1, pow_one]
  have hlt : roundedQuotient m (quantum s m) < 2 ^ 24 := by
    refine Nat.lt_of_mul_lt_mul_right (a := 2 ^ quantum s m) ?_
    omega
  have hbelow : m < 2 ^ 24 * 2 ^ quantum s m := by
    rw [← Nat.div_lt_iff_lt_mul (Nat.two_pow_pos _)]
    exact (roundedQuotient_bounds m (quantum s m)).1.trans_lt hlt
  have hlast : roundedQuotient m (quantum s m) * 2 ^ quantum s m ≤ (2 ^ 24 - 1) * 2 ^ quantum s m :=
    Nat.mul_le_mul_right _ (by omega)
  obtain ⟨hnear, htie⟩ := roundedQuotient_nearest m (quantum s m) (2 ^ 24)
  unfold Nat.dist at hnear htie
  have htop : roundedQuotient m (quantum s m) = 2 ^ 24 - 1 := by
    refine Nat.eq_of_mul_eq_mul_right (Nat.two_pow_pos (quantum s m)) ?_
    omega
  have := htie (by omega)
  omega

end Quantum

/-! ### Signed values -/

theorem round_zero (s : Nat) (b : Bool) : round s b 0 = .fin b 0 := by
  have hq : ∀ e, quantize s 0 e = 0 := by
    intro e
    simp [quantize, Nat.shiftLeft_eq]
  unfold round
  dsimp only
  rw [hq, if_pos (by rw [Nat.shiftLeft_eq]; positivity)]

theorem natAbs_units (b : Bool) (m : Nat) : (fin b m).units.natAbs = m := by cases b <;> simp [units]

theorem distance_same (b : Bool) (v m s : Nat) :
    ((fin b v).units * 2 ^ s - (fin b m).units).natAbs = Nat.dist (v * 2 ^ s) m := by
  have hcast : (v : Int) * 2 ^ s = (v * 2 ^ s : Nat) := by push_cast; rfl
  unfold Nat.dist
  cases b
  · simp only [units, Bool.false_eq_true, if_false, hcast]
    omega
  · simp only [units, if_true, neg_mul, hcast]
    omega

theorem distance_opposite (b : Bool) (v m s : Nat) :
    ((fin (!b) v).units * 2 ^ s - (fin b m).units).natAbs = v * 2 ^ s + m := by
  have hcast : (v : Int) * 2 ^ s = (v * 2 ^ s : Nat) := by push_cast; rfl
  cases b
  · simp only [units, Bool.not_false, Bool.false_eq_true, if_true, if_false, neg_mul, hcast]
    omega
  · simp only [units, Bool.not_true, Bool.false_eq_true, if_true, if_false, hcast]
    omega

section Round
variable {s m : Nat}

/-- No word is nearer than the rounded value; a word of the other sign is no nearer than zero. -/
theorem quantize_nearest_word (hm : m < 2 ^ 2 ^ 10) (b : Bool) {c : Word} (hc : (ofWord c).isFinite = true) :
    ((fin b (quantize s m (quantum s m))).units * 2 ^ s - (fin b m).units).natAbs ≤
        ((ofWord c).units * 2 ^ s - (fin b m).units).natAbs ∧
      (((fin b (quantize s m (quantum s m))).units * 2 ^ s - (fin b m).units).natAbs =
          ((ofWord c).units * 2 ^ s - (fin b m).units).natAbs →
        (ofWord c).units = (fin b (quantize s m (quantum s m))).units ∨ roundedQuotient m (quantum s m) % 2 = 0) := by
  obtain ⟨f, j, hcval, hf, -, -, -⟩ := ofWord_significand hc
  rw [hcval, distance_same]
  by_cases hsign : c.getLsbD 31 = b
  · rw [hsign, distance_same]
    obtain ⟨hnear, htie⟩ := quantize_nearest (s := s) hm hf j
    exact ⟨hnear, fun heq => (htie heq).imp_left fun h => by rw [h]⟩
  · rw [Bool.eq_not.mpr hsign, distance_opposite]
    obtain ⟨hnear, htie⟩ := quantize_nearest (s := s) hm (show 0 < 2 ^ 24 by norm_num) 0
    have hzero : Nat.dist (0 * 2 ^ 0 * 2 ^ s) m = m := by simp [Nat.dist]
    rw [hzero] at hnear htie
    refine ⟨hnear.trans (Nat.le_add_left _ _), fun heq => ?_⟩
    have hf0 : f * 2 ^ j = 0 := by
      have : f * 2 ^ j * 2 ^ s = 0 := by omega
      exact (Nat.mul_eq_zero.mp this).resolve_right (Nat.two_pow_pos s).ne'
    rw [hf0, Nat.zero_mul, Nat.zero_add] at heq
    refine (htie heq).imp_left fun h => ?_
    rw [hf0, ← h]
    cases b <;> rfl

/-- The result is even where the rounded quotient is. -/
theorem word_even (hm : m < 2 ^ 2 ^ 10) {b : Bool} {w : Word} (hw : fin b (quantize s m (quantum s m)) = ofWord w)
    (heven : roundedQuotient m (quantum s m) % 2 = 0) : w.getLsbD 0 = false := by
  obtain ⟨f, j, hval, -, -, hlarge, hbit⟩ := ofWord_significand (w := w) (by rw [← hw]; rfl)
  rw [hval, quantize_eq, fin.injEq] at hw
  exact hbit (significand_even hlarge (roundedQuotient_quantum_le hm) heven hw.2.symm)

/-- `round` is the exact magnitude, with its sign, rounded once. -/
theorem roundedOnce_round (hs : s ≤ 149) (b : Bool) (hm : m < 2 ^ 2 ^ 10) :
    RoundedOnce (round s b m) (fin b m).units s := by
  have hround : round s b m = if quantize s m (quantum s m) < 1 <<< 277 then
      fin b (quantize s m (quantum s m)) else inf b := rfl
  have hscaled := quantize_scaled (le_quantum s m) m
  have hlimit : 1 <<< 277 * 2 ^ s = 2 ^ 25 * 2 ^ (252 + s) := by
    rw [Nat.one_shiftLeft, ← pow_add, two_pow_half_units s 25]
  have hbound : (2 ^ 25 - 1) * 2 ^ 252 * 2 ^ s = (2 ^ 25 - 1) * 2 ^ (252 + s) := by rw [Nat.mul_assoc, ← pow_add]
  unfold RoundedOnce
  rw [natAbs_units, hbound]
  refine ⟨fun hsmall => ?_, fun hlarge => ?_⟩
  · have hfin : quantize s m (quantum s m) < 1 <<< 277 := by
      refine Nat.lt_of_mul_lt_mul_right (a := 2 ^ s) ?_
      rw [hscaled, hlimit]
      exact rounded_lt hsmall
    rw [if_pos hfin] at hround
    obtain ⟨w, hw⟩ := isWord_round hs (by rw [hround]; rfl)
    rw [hround] at hw ⊢
    refine ⟨w, hw, rfl, fun c hc => ?_⟩
    obtain ⟨hnear, htie⟩ := quantize_nearest_word (s := s) hm b hc
    exact ⟨hnear, fun heq => (htie heq).imp_right (word_even hm hw)⟩
  · have hover : ¬ quantize s m (quantum s m) < 1 <<< 277 := by
      intro hlt
      have := Nat.mul_lt_mul_of_pos_right hlt (Nat.two_pow_pos s)
      rw [hscaled, hlimit] at this
      exact absurd (le_rounded hm hlarge) (not_le.mpr this)
    have hpos : 0 < m := by
      have := Nat.two_pow_pos (252 + s)
      omega
    rw [hround, if_neg hover]
    congr 1
    cases b
    · simp [units]
    · simp [units, hpos]

end Round

/-! ### Sums and products of finite values -/

/-- A sum of finite values is its exact value, rounded; a sum of exact value 0 is negative only where both are. -/
theorem sum_fin (op : FOp) (x y : Bool) (m n : Nat) :
    ∃ b k, sum op (fin x m) (fin y n) = round 0 b k ∧ (fin b k).units = (fin x m).units + (fin y n).units ∧
      k ≤ m + n ∧ (k = 0 → b = (x && y)) := by
  by_cases hxy : x = y
  · subst hxy
    refine ⟨x, m + n, by simp [sum], ?_, le_rfl, fun _ => (Bool.and_self x).symm⟩
    cases x <;> simp [units]
    omega
  obtain rfl := Bool.eq_not.mpr hxy
  rcases lt_trichotomy n m with h | rfl | h
  · refine ⟨!y, m - n, by simp [sum, h, h.ne'], ?_, by omega, by omega⟩
    cases y <;> simp [units] <;> omega
  · refine ⟨false, 0, by simp [sum, round_zero, zero], ?_, by omega, by simp⟩
    cases y <;> simp [units]
  · refine ⟨y, n - m, by simp [sum, h.ne, h.not_gt], ?_, by omega, by omega⟩
    cases y <;> simp [units] <;> omega

theorem mul_fin (x y : Bool) (m n : Nat) : mul (fin x m) (fin y n) = round 149 (x != y) (m * n) := rfl

theorem units_neg (y : Bool) (n : Nat) : (fin y n).neg.units = -(fin y n).units := by
  cases y <;> simp [neg, units]

theorem units_mul (x y : Bool) (m n : Nat) :
    (fin (x != y) (m * n)).units = (fin x m).units * (fin y n).units := by
  cases x <;> cases y <;> simp [units]

/-- A finite word is below 2^128 = 2^277 units. -/
theorem ofWord_magnitude {w : Word} (h : (ofWord w).isFinite = true) :
    ∃ m, ofWord w = fin (w.getLsbD 31) m ∧ m < 2 ^ 277 := by
  obtain ⟨f, j, hval, hf, hj, -, -⟩ := ofWord_significand h
  refine ⟨_, hval, ?_⟩
  calc f * 2 ^ j < 2 ^ 24 * 2 ^ j := Nat.mul_lt_mul_of_pos_right hf (Nat.two_pow_pos j)
    _ = 2 ^ (24 + j) := (pow_add 2 24 j).symm
    _ ≤ 2 ^ 277 := Nat.pow_le_pow_right (by norm_num) (by omega)

/-! Sums and products of finite words are in the range of `topBit`. -/

section Operands
variable {m n k : Nat} (hm : m < 2 ^ k) (hn : n < 2 ^ k) (hk : k + k ≤ 2 ^ 10)
include hm hn hk

theorem mul_in_range : m * n < 2 ^ 2 ^ 10 := by
  calc m * n < 2 ^ k * 2 ^ k := Nat.mul_lt_mul'' hm hn
    _ = 2 ^ (k + k) := (pow_add 2 k k).symm
    _ ≤ 2 ^ 2 ^ 10 := Nat.pow_le_pow_right (by norm_num) hk

theorem add_in_range : m + n < 2 ^ 2 ^ 10 := by
  calc m + n < 2 ^ k + 2 ^ k := Nat.add_lt_add hm hn
    _ = 2 ^ (k + 1) := by rw [pow_succ, Nat.mul_two]
    _ ≤ 2 ^ 2 ^ 10 := Nat.pow_le_pow_right (by norm_num) (by omega)

theorem sum_rounded (op : FOp) (x y : Bool) :
    RoundedOnce (sum op (fin x m) (fin y n)) ((fin x m).units + (fin y n).units) 0 ∧
      ((fin x m).units + (fin y n).units = 0 → sum op (fin x m) (fin y n) = fin (x && y) 0) := by
  obtain ⟨b, r, hsum, hunits, hr, hsign⟩ := sum_fin op x y m n
  rw [hsum, ← hunits]
  refine ⟨roundedOnce_round (by norm_num) b (hr.trans_lt (add_in_range hm hn hk)), fun h0 => ?_⟩
  have hr0 : r = 0 := by rw [← natAbs_units b r, h0]; rfl
  rw [hsign hr0, hr0, round_zero]

theorem mul_rounded (x y : Bool) :
    RoundedOnce (mul (fin x m) (fin y n)) ((fin x m).units * (fin y n).units) 149 := by
  rw [← units_mul, mul_fin]
  exact roundedOnce_round le_rfl (x != y) (mul_in_range hm hn hk)

end Operands

/-- A result of value 0 has the sign it was rounded with. -/
theorem round_eq_zero {s k : Nat} {b : Bool} (hfin : (round s b k).isFinite = true) (h0 : (round s b k).units = 0) :
    round s b k = fin b 0 := by
  unfold round at hfin h0 ⊢
  dsimp only at hfin h0 ⊢
  split at hfin
  · rename_i hlt
    rw [if_pos hlt] at h0 ⊢
    rw [← natAbs_units b (quantize s k _), h0]
    rfl
  · simp [isFinite] at hfin

/-- Settles O54: a difference is the sum with the negated word. -/
theorem additionRoundsOnceToNearestEven : Obligations.AdditionRoundsOnceToNearestEven := by
  intro a b ha hb
  obtain ⟨m, hma, hm⟩ := ofWord_magnitude ha
  obtain ⟨n, hnb, hn⟩ := ofWord_magnitude hb
  rw [hma, hnb]
  obtain ⟨hadd, haddZero⟩ := sum_rounded hm hn (by norm_num) .add (a.getLsbD 31) (b.getLsbD 31)
  obtain ⟨hsub, hsubZero⟩ := sum_rounded hm hn (by norm_num) .sub (a.getLsbD 31) (!b.getLsbD 31)
  have hneg : (fin (!b.getLsbD 31) n).units = -(fin (b.getLsbD 31) n).units := units_neg _ n
  rw [hneg, ← sub_eq_add_neg] at hsub hsubZero
  exact ⟨hadd, hsub, haddZero, hsubZero⟩

/-- Settles O55: the product of the magnitudes is rounded once. -/
theorem multiplicationRoundsOnceToNearestEven : Obligations.MultiplicationRoundsOnceToNearestEven := by
  intro a b ha hb
  obtain ⟨m, hma, hm⟩ := ofWord_magnitude ha
  obtain ⟨n, hnb, hn⟩ := ofWord_magnitude hb
  rw [hma, hnb]
  refine ⟨mul_rounded hm hn (by norm_num) _ _, fun h0 hfin => ?_⟩
  rw [mul_fin] at h0 hfin ⊢
  exact round_eq_zero hfin h0

end Sys2Proof.Machine.F32
end

section
/-! PROOFS. The 1-D transforms and their commands (41_dct1d.md): one FFT stage, and what DCT1D and IDCT1D write. -/

namespace Sys2Proof.Machine

open Claims

/-! ### One FFT stage (41_dct1d.md R131) -/

/-- Entry `i` of a stage: the lower half of a block takes `u + w*v`, the upper half `u - w*v`. -/
def butterfly (ws : List Complex32) (half : Nat) (y : List Complex32) (i : Nat) : Complex32 :=
  let j := i % (2 * half)
  let w := ws.getD (j % half) czero
  if j < half then cadd (y.getD i czero) (cmul w (y.getD (i + half) czero))
  else csub (y.getD (i - half) czero) (cmul w (y.getD i czero))

section Butterfly
variable (ws : List Complex32) {half j : Nat} (y : List Complex32) (b : Nat)

theorem butterfly_lower (hj : j < half) :
    butterfly ws half y (2 * half * b + j) = cadd (y.getD (2 * half * b + j) czero)
      (cmul (ws.getD j czero) (y.getD (2 * half * b + j + half) czero)) := by
  unfold butterfly
  dsimp only
  rw [Nat.mul_add_mod, Nat.mod_eq_of_lt (show j < 2 * half by omega), if_pos hj, Nat.mod_eq_of_lt hj]

theorem butterfly_upper (hj : j < half) :
    butterfly ws half y (2 * half * b + j + half) = csub (y.getD (2 * half * b + j) czero)
      (cmul (ws.getD j czero) (y.getD (2 * half * b + j + half) czero)) := by
  unfold butterfly
  dsimp only
  rw [Nat.add_assoc, Nat.mul_add_mod, Nat.mod_eq_of_lt (show j + half < 2 * half by omega), if_neg (by omega),
    Nat.add_mod_right, Nat.mod_eq_of_lt hj, ← Nat.add_assoc, Nat.add_sub_cancel]

end Butterfly

theorem fftStage_getD {ws : List Complex32} {half blocks : Nat} {y : List Complex32} (hw : ws.length = half)
    (hy : y.length = 2 * half * blocks) {i : Nat} (hi : i < 2 * half * blocks) :
    (fftStage ws half blocks y).getD i czero = butterfly ws half y i := by
  refine (Exact.fftStage_forall ws half blocks y hw hy (fun i z => z = butterfly ws half y i) ?_).2 i hi
  intro b j _ hj
  rw [Nat.add_right_comm, butterfly_lower ws y b hj, butterfly_upper ws y b hj]
  exact ⟨rfl, rfl⟩

/-- Settles O56: entries `j` and `j + half` of block `b` are the two results of one butterfly. -/
theorem fftStageIsItsButterflies : Obligations.FftStageIsItsButterflies := by
  intro ws half blocks y hw hy b j hb hj u t
  have hblock : 2 * half * b + 2 * half ≤ 2 * half * blocks := Nat.mul_le_mul_left (2 * half) hb
  rw [fftStage_getD hw hy (by omega), fftStage_getD hw hy (by omega), butterfly_lower ws y b hj,
    butterfly_upper ws y b hj]
  exact ⟨rfl, rfl⟩

/-! ### The lengths (41_dct1d.md R141) -/

/-- `need_len` accepts exactly the powers of two up to 256. -/
theorem goodLength_iff (n : Nat) : goodLength n = true ↔ lengthOk n := by
  constructor
  · intro h
    rcases Nat.lt_or_ge n 4 with hsmall | hlarge
    · rcases Exact.goodLength_small h (by omega) with rfl | rfl
      · exact ⟨0, by norm_num, rfl⟩
      · exact ⟨1, by norm_num, rfl⟩
    · obtain ⟨bits, -, hbits, rfl⟩ := Exact.goodLength_cases h hlarge
      exact ⟨bits + 1, by omega, by ring⟩
  · rintro ⟨k, hk, rfl⟩
    have hall : ∀ k ≤ 8, goodLength (2 ^ k) = true := by decide
    exact hall k hk

/-! ### DCT1D and IDCT1D (41_dct1d.md R139, R140) -/

section Plans
variable {f : Numerics → Nat → List F32 → List F32} {s : State}

theorem plan1d_badLength (h : ¬ lengthOk s.larg[2].toNat) : plan1d f s = .raises .invalidLength := by
  rw [← goodLength_iff, Bool.not_eq_true] at h
  exact if_pos h

theorem plan1d_outOfRange (h : lengthOk s.larg[2].toNat)
    (hr : s.params.sramWords < s.larg[0].toNat + s.larg[2].toNat ∨
      s.params.sramWords < s.larg[1].toNat + s.larg[2].toNat) : plan1d f s = .raises .outOfRange := by
  rw [← goodLength_iff] at h
  exact (if_neg (ne_of_eq_of_ne h (by decide))).trans (if_pos hr)

/-- The output of a 1-D command: the transform of the words of the source range. -/
def output1d (f : Numerics → Nat → List F32 → List F32) (s : State) : List F32 :=
  f s.params.numerics s.larg[2].toNat (tab s.larg[2].toNat fun j => F32.ofWord (s.sramWord (s.larg[0].toNat + j)))

theorem plan1d_runs (h : lengthOk s.larg[2].toNat) (hsrc : s.larg[0].toNat + s.larg[2].toNat ≤ s.params.sramWords)
    (hdst : s.larg[1].toNat + s.larg[2].toNat ≤ s.params.sramWords) :
    plan1d f s = .runs (.store [(s.larg[1].toNat, (output1d f s).map F32.toWord)]) := by
  rw [← goodLength_iff] at h
  have hfit : ¬ (s.params.sramWords < s.larg[0].toNat + s.larg[2].toNat ∨
      s.params.sramWords < s.larg[1].toNat + s.larg[2].toNat) := not_or.mpr ⟨not_lt.mpr hsrc, not_lt.mpr hdst⟩
  refine (if_neg (ne_of_eq_of_ne h (by decide))).trans ((if_neg hfit).trans ?_)
  rw [State.sramRun_eq, tab, List.map_map]
  rfl

end Plans

section Completion
variable {f : Numerics → Nat → List F32 → List F32} {s : State} {i : Instr}
variable (hf : ∀ num n x, x.length = n → (f num n x).length = n) (hi : planOf i s = plan1d f s)
variable (hsrc : s.larg[0].toNat + s.larg[2].toNat ≤ s.params.sramWords)
variable (hdst : s.larg[1].toNat + s.larg[2].toNat ≤ s.params.sramWords)
include hf hi hsrc hdst

/-- A 1-D command that passes its checks completes, and its output words are the words of the transform. -/
theorem exec1d_completes (h : lengthOk s.larg[2].toNat) :
    ∃ t, exec i s = .next t ∧
      (∀ k, k < s.larg[2].toNat → t.sramWord (s.larg[1].toNat + k) = ((output1d f s).getD k F32.zero).toWord) ∧
      (∀ a, ¬ inWords s.larg[1].toNat s.larg[2].toNat a → t.sramByte a = s.sramByte a) ∧
      t.desc = s.desc ∧ t = completedFrom s t := by
  have hlen : (output1d f s).length = s.larg[2].toNat := hf _ _ _ (tab_length _ _)
  refine ⟨_, exec_of_runs (hi.trans (plan1d_runs h hsrc hdst)), fun k hk => ?_, fun a ha => ?_, rfl, rfl⟩
  · have hk' : k < (output1d f s).length := hlen ▸ hk
    have hread := Memory.wordFrom_putRun_inside s.powerOns s.sram
      (s.larg[1].toNat, (output1d f s).map F32.toWord) k (by rwa [List.length_map])
    rw [List.getElem_map, ← List.getD_eq_getElem _ F32.zero hk'] at hread
    exact hread
  · refine Memory.byteFrom_putRun_outside s.powerOns s.sram _ a ?_
    unfold Run.covers
    rwa [List.length_map, hlen]

/-- The same, as the laws of `NUMERICS` need it. -/
theorem exec1d_words (h : lengthOk s.larg[2].toNat) :
    ∃ t, exec i s = .next t ∧ t.engine = .idle ∧
      ∀ k, k < s.larg[2].toNat → t.sramWord (s.larg[1].toNat + k) = ((output1d f s).getD k F32.zero).toWord := by
  obtain ⟨t, ht, hwords, -, -, hframe⟩ := exec1d_completes hf hi hsrc hdst h
  exact ⟨t, ht, congrArg State.engine hframe, hwords⟩

/-- Length 1 (41_dct1d.md R124): the word passes bit for bit. -/
theorem exec1d_one (h1 : ∀ num x, f num 1 x = x) (hn : s.larg[2].toNat = 1) :
    ∃ t, exec i s = .next t ∧ t.engine = .idle ∧ t.sramWord s.larg[1].toNat = s.sramWord s.larg[0].toNat := by
  obtain ⟨t, ht, hidle, hwords⟩ := exec1d_words hf hi hsrc hdst ⟨0, by norm_num, hn⟩
  have hword := hwords 0 (by omega)
  unfold output1d at hword
  rw [hn, h1, tab_getD _ _ _ _ Nat.one_pos, F32.toWord_ofWord] at hword
  exact ⟨t, ht, hidle, hword⟩

/-- Length 2 (41_dct1d.md R125, R126): the two words are those of `g`. -/
theorem exec1d_two {g : F32 → F32 → F32 × F32} (h2 : ∀ num a b, f num 2 [a, b] = [(g a b).1, (g a b).2])
    (hn : s.larg[2].toNat = 2) :
    let r := g (F32.ofWord (s.sramWord s.larg[0].toNat)) (F32.ofWord (s.sramWord (s.larg[0].toNat + 1)))
    ∃ t, exec i s = .next t ∧ t.engine = .idle ∧ t.sramWord s.larg[1].toNat = r.1.toWord ∧
      t.sramWord (s.larg[1].toNat + 1) = r.2.toWord := by
  obtain ⟨t, ht, hidle, hwords⟩ := exec1d_words hf hi hsrc hdst ⟨1, by norm_num, hn⟩
  have hin : ∀ x : Nat → F32, tab 2 x = [x 0, x 1] := fun _ => rfl
  unfold output1d at hwords
  rw [hn, hin, h2] at hwords
  exact ⟨t, ht, hidle, hwords 0 (by norm_num), hwords 1 (by norm_num)⟩

end Completion

theorem transform1d_of_plan {f : Numerics → Nat → List F32 → List F32} {i : Instr}
    (hf : ∀ num n x, x.length = n → (f num n x).length = n) (hi : ∀ s, planOf i s = plan1d f s) : Transform1d i f :=
  fun s =>
    ⟨fun hbad => exec_faulted ((hi s).trans (plan1d_badLength hbad)),
      fun hok hr => exec_faulted ((hi s).trans (plan1d_outOfRange hok hr)),
      fun hok hsrc hdst => exec1d_completes hf (hi s) hsrc hdst hok⟩

theorem dct1_keeps_length (num : Numerics) (n : Nat) (x : List F32) (hx : x.length = n) : (dct1 num n x).length = n :=
  dct1_length num n x hx.trans

theorem idct1_keeps_length (num : Numerics) (n : Nat) (x : List F32) (hx : x.length = n) :
    (idct1 num n x).length = n :=
  idct1_length num n x hx.trans

/-- Settles O42: both commands run `plan1d`, which reads the whole source range before it writes. -/
theorem oneDimensionalTransformCommands : Obligations.OneDimensionalTransformCommands :=
  ⟨transform1d_of_plan dct1_keeps_length fun _ => rfl, transform1d_of_plan idct1_keeps_length fun _ => rfl⟩

/-! ### The laws of NUMERICS on the written words (41_dct1d.md R124 to R127) -/

/-- From length 4 on a finite output is the value of the word it is written as. -/
theorem written_near {f : Numerics → Nat → List F32 → List F32} {num : Numerics} {n k : Nat} {x : List F32} {r tol : ℝ}
    (hf : f = dct1 ∨ f = idct1) (h4 : 4 ≤ n)
    (h : ((f num n x).getD k F32.zero).isFinite = true ∧
      |Exact.realOf ((f num n x).getD k F32.zero) - r| ≤ tol) :
    (F32.ofWord ((f num n x).getD k F32.zero).toWord).isFinite = true ∧
      |Exact.realOf (F32.ofWord ((f num n x).getD k F32.zero).toWord) - r| ≤ tol := by
  rwa [(transform_isWord hf h4 k h.1).ofWord_toWord]

/-- Settles O43: lengths 1 and 2 by the definition of the transforms, the others by the accuracy law of a legal build. -/
theorem shortTransformsAreBitExact : Obligations.ShortTransformsAreBitExact := by
  intro s src dst n a b x hsrc hdst
  refine ⟨fun hn i hi => ?_, fun hn => ?_, fun hn => ?_, fun hp hok h4 hfin hmass g hg => ?_⟩
  · simp only [List.mem_cons, List.not_mem_nil, or_false] at hi
    rcases hi with rfl | rfl
    · exact exec1d_one dct1_keeps_length rfl hsrc hdst (fun _ _ => rfl) hn
    · exact exec1d_one idct1_keeps_length rfl hsrc hdst (fun _ _ => rfl) hn
  · exact exec1d_two (g := fun a b => ((a.add b).mul F32.half, (a.sub b).mul F32.half)) dct1_keeps_length rfl
      hsrc hdst (fun _ _ _ => rfl) hn
  · exact exec1d_two (g := fun a b => (a.add b, a.sub b)) idct1_keeps_length rfl hsrc hdst (fun _ _ _ => rfl) hn
  · have hwords : ∃ ws : List Word, x = ws.map F32.ofWord :=
      ⟨tab n fun j => s.sramWord (src + j), by rw [tab, List.map_map]; rfl⟩
    have hlaw := hp.accurate n h4 ((goodLength_iff n).mpr hok) x (tab_length _ _) hfin hwords hmass
    simp only [List.mem_cons, List.not_mem_nil, or_false] at hg
    rcases hg with rfl | rfl
    · obtain ⟨t, ht, hidle, hout⟩ := exec1d_words (i := .dct1d) dct1_keeps_length rfl hsrc hdst hok
      refine ⟨t, ht, hidle, fun k hk => ?_⟩
      rw [hout k hk]
      exact written_near (.inl rfl) h4 (hlaw k hk).1
    · obtain ⟨t, ht, hidle, hout⟩ := exec1d_words (i := .idct1d) idct1_keeps_length rfl hsrc hdst hok
      refine ⟨t, ht, hidle, fun k hk => ?_⟩
      rw [hout k hk]
      exact written_near (.inr rfl) h4 (hlaw k hk).2

end Sys2Proof.Machine
end

section
/-! PROOFS. The zero law (41_dct1d.md R128): every step of the 1-D transforms takes zeros, of either sign, to zeros,
because a zero times a finite constant is a zero. -/

namespace Sys2Proof.Machine

open Claims

/-! ### Zeros under f32 arithmetic (41_dct1d.md R138) -/

namespace F32

theorem isZero_cases {a : F32} (h : a.isZero = true) : ∃ b, a = .fin b 0 := by
  cases a with
  | fin b m => exact ⟨b, by rw [beq_iff_eq.mp h]⟩
  | inf b => simp [isZero] at h
  | nan b f => simp [isZero] at h

theorem isZero_neg {a : F32} (ha : a.isZero = true) : a.neg.isZero = true := by
  obtain ⟨b, rfl⟩ := isZero_cases ha
  rfl

theorem isZero_sum (op : FOp) {a b : F32} (ha : a.isZero = true) (hb : b.isZero = true) :
    (sum op a b).isZero = true := by
  obtain ⟨x, rfl⟩ := isZero_cases ha
  obtain ⟨y, rfl⟩ := isZero_cases hb
  by_cases hxy : x = y
  · simp [sum, hxy, round_zero, isZero]
  · simp [sum, hxy, isZero, zero]

theorem isZero_add {a b : F32} (ha : a.isZero = true) (hb : b.isZero = true) : (a.add b).isZero = true :=
  isZero_sum .add ha hb

theorem isZero_sub {a b : F32} (ha : a.isZero = true) (hb : b.isZero = true) : (a.sub b).isZero = true :=
  isZero_sum .sub ha (isZero_neg hb)

theorem isZero_mul {a b : F32} (ha : a.isZero = true) (hb : b.isFinite = true) : (a.mul b).isZero = true := by
  obtain ⟨x, rfl⟩ := isZero_cases ha
  obtain ⟨y, n, rfl⟩ := Exact.fin_of_isFinite hb
  simp [mul, round_zero, isZero]

theorem isZero_mul_left {a b : F32} (ha : a.isFinite = true) (hb : b.isZero = true) : (a.mul b).isZero = true := by
  obtain ⟨y, rfl⟩ := isZero_cases hb
  obtain ⟨x, m, rfl⟩ := Exact.fin_of_isFinite ha
  simp [mul, round_zero, isZero]

end F32

/-! ### Zeros under complex arithmetic (41_dct1d.md R130) -/

/-- Both parts are zeros. -/
def CZero (z : Complex32) : Prop := z.1.isZero = true ∧ z.2.isZero = true

/-- Both parts are finite. -/
def CFinite (z : Complex32) : Prop := z.1.isFinite = true ∧ z.2.isFinite = true

theorem czero_zero : CZero czero := ⟨rfl, rfl⟩

section Complex
variable {a b w : Complex32}

theorem CZero.add (ha : CZero a) (hb : CZero b) : CZero (cadd a b) :=
  ⟨F32.isZero_add ha.1 hb.1, F32.isZero_add ha.2 hb.2⟩

theorem CZero.sub (ha : CZero a) (hb : CZero b) : CZero (csub a b) :=
  ⟨F32.isZero_sub ha.1 hb.1, F32.isZero_sub ha.2 hb.2⟩

theorem CZero.mul (hw : CFinite w) (ha : CZero a) : CZero (cmul w a) :=
  ⟨F32.isZero_sub (F32.isZero_mul_left hw.1 ha.1) (F32.isZero_mul_left hw.2 ha.2),
    F32.isZero_add (F32.isZero_mul_left hw.1 ha.2) (F32.isZero_mul_left hw.2 ha.1)⟩

theorem CZero.mul_right (ha : CZero a) (hw : CFinite w) : CZero (cmul a w) :=
  ⟨F32.isZero_sub (F32.isZero_mul ha.1 hw.1) (F32.isZero_mul ha.2 hw.2),
    F32.isZero_add (F32.isZero_mul ha.1 hw.2) (F32.isZero_mul ha.2 hw.1)⟩

end Complex

/-! ### The constants are finite (41_dct1d.md R130) -/

theorem twiddleCos_finite (n j : Nat) : (twiddleCos n j).isFinite = true :=
  (Exact.cosEntry_near _ (Nat.mod_lt _ (by norm_num))).1

theorem twiddleSin_finite (n j : Nat) : (twiddleSin n j).isFinite = true :=
  (Exact.cosEntry_near _ (Nat.mod_lt _ (by norm_num))).1

theorem twiddle_finite (forward : Bool) (m j : Nat) : CFinite (twiddle forward m j) := by
  have hcos := twiddleCos_finite m j
  have hsin := twiddleSin_finite m j
  unfold twiddle
  generalize twiddleSin m j = sine at hsin ⊢
  split
  · exact ⟨hcos, (Exact.isFinite_neg _).trans hsin⟩
  · exact ⟨hcos, hsin⟩

theorem scales_finite {n : Nat} (h : lengthOk n) : (recipOf n).isFinite = true ∧ (sqrt2Over n).isFinite = true := by
  obtain ⟨k, hk, rfl⟩ := h
  have hall : ∀ k ≤ 8, (recipOf (2 ^ k)).isFinite = true ∧ (sqrt2Over (2 ^ k)).isFinite = true := by decide
  exact hall k hk

/-! ### The FFT of zeros (41_dct1d.md R131) -/

theorem forall_mem_zipWith {α β γ : Type} {f : α → β → γ} {P : γ → Prop} {xs : List α} {ys : List β}
    (h : ∀ x ∈ xs, ∀ y ∈ ys, P (f x y)) : ∀ z ∈ List.zipWith f xs ys, P z := by
  intro z hz
  obtain ⟨i, hi, rfl⟩ := List.mem_iff_getElem.mp hz
  rw [List.getElem_zipWith]
  exact h _ (List.getElem_mem _) _ (List.getElem_mem _)

theorem fftStage_zero {ws : List Complex32} (hw : ∀ w ∈ ws, CFinite w) (half blocks : Nat) {y : List Complex32}
    (hy : ∀ z ∈ y, CZero z) : ∀ z ∈ fftStage ws half blocks y, CZero z := by
  induction blocks generalizing y with
  | zero => simp [fftStage]
  | succ blocks ih =>
    have hus : ∀ u ∈ y.take half, CZero u := fun u hu => hy u (List.mem_of_mem_take hu)
    have hvs : ∀ v ∈ (y.drop half).take half, CZero v := fun v hv =>
      hy v (List.mem_of_mem_drop (List.mem_of_mem_take hv))
    have hts : ∀ t ∈ List.zipWith cmul ws ((y.drop half).take half), CZero t :=
      forall_mem_zipWith fun w hw' v hv => .mul (hw w hw') (hvs v hv)
    intro z hz
    unfold fftStage at hz
    rcases List.mem_append.mp hz with hz | hz
    · exact forall_mem_zipWith (fun u hu t ht => (hus u hu).add (hts t ht)) z hz
    rcases List.mem_append.mp hz with hz | hz
    · exact forall_mem_zipWith (fun u hu t ht => (hus u hu).sub (hts t ht)) z hz
    · exact ih (fun x hx => hy x (List.mem_of_mem_drop hx)) z hz

theorem fftStages_zero (forward : Bool) (m left half : Nat) {y : List Complex32} (hy : ∀ z ∈ y, CZero z) :
    ∀ z ∈ fftStages forward m left half y, CZero z := by
  induction left generalizing half y with
  | zero => exact hy
  | succ left ih => exact ih _ (fftStage_zero (Exact.forall_mem_tab fun j _ => twiddle_finite forward m _) _ _ hy)

theorem fft_zero (forward : Bool) (m : Nat) {z : List Complex32} (hz : ∀ a ∈ z, CZero a) :
    ∀ a ∈ fft forward m z, CZero a :=
  fftStages_zero forward m _ 1 (Exact.forall_mem_tab fun _ _ => getD_of_forall hz czero_zero _)

/-! ### REF on zeros (41_dct1d.md R132 to R137) -/

section Ref
variable {n : Nat} {x : List F32}

theorem refForwardFft_zero (hx : ∀ a ∈ x, a.isZero = true) : ∀ z ∈ refForwardFft n x, CZero z := by
  have hv : ∀ a ∈ evenOdd n x, a.isZero = true := by
    refine Exact.forall_mem_tab fun j _ => ?_
    split
    · exact getD_of_forall hx rfl _
    · exact getD_of_forall hx rfl _
  exact fft_zero true _ (Exact.forall_mem_tab fun j _ => ⟨getD_of_forall hv rfl _, getD_of_forall hv rfl _⟩)

theorem refUnpack_zero {z : List Complex32} (hz : ∀ a ∈ z, CZero a) (k : Nat) : CZero (refUnpack n z k) := by
  have hget : ∀ i, CZero (z.getD i czero) := getD_of_forall hz czero_zero
  unfold refUnpack
  dsimp only
  split
  · exact ⟨F32.isZero_add (hget 0).1 (hget 0).2, rfl⟩
  split
  · exact ⟨F32.isZero_sub (hget 0).1 (hget 0).2, rfl⟩
  split
  · exact ⟨(hget k).1, F32.isZero_neg (hget k).2⟩
  · have hsame : CZero (((z.getD k czero).1.add (z.getD (n / 2 - k) czero).1).mul F32.half,
        ((z.getD k czero).2.sub (z.getD (n / 2 - k) czero).2).mul F32.half) :=
      ⟨F32.isZero_mul (F32.isZero_add (hget _).1 (hget _).1) rfl,
        F32.isZero_mul (F32.isZero_sub (hget _).2 (hget _).2) rfl⟩
    have hcross : CZero (((z.getD k czero).2.add (z.getD (n / 2 - k) czero).2).mul F32.half,
        ((z.getD (n / 2 - k) czero).1.sub (z.getD k czero).1).mul F32.half) :=
      ⟨F32.isZero_mul (F32.isZero_add (hget _).2 (hget _).2) rfl,
        F32.isZero_mul (F32.isZero_sub (hget _).1 (hget _).1) rfl⟩
    exact hsame.add (.mul (twiddle_finite true _ _) hcross)

theorem refRotate_zero (hn : lengthOk n) {v : List Complex32} (hv : ∀ a ∈ v, CZero a) (k : Nat) :
    (refRotate n v k).isZero = true := by
  have hget : ∀ i, CZero (v.getD i czero) := getD_of_forall hv czero_zero
  have hcos := twiddleCos_finite (4 * n) k
  have hsin := twiddleSin_finite (4 * n) k
  obtain ⟨hrecip, hscale⟩ := scales_finite hn
  unfold refRotate
  dsimp only
  split
  · exact F32.isZero_mul (hget k).1 hrecip
  split
  · exact F32.isZero_mul
      (F32.isZero_add (F32.isZero_mul_left hcos (hget _).1) (F32.isZero_mul_left hsin (hget _).2)) hscale
  · exact F32.isZero_mul
      (F32.isZero_sub (F32.isZero_mul_left hcos (hget _).1) (F32.isZero_mul_left hsin (hget _).2)) hscale

theorem refForward_zero (hn : lengthOk n) (hx : ∀ a ∈ x, a.isZero = true) : ∀ a ∈ refForward n x, a.isZero = true :=
  Exact.forall_mem_tab fun k _ =>
    refRotate_zero hn (Exact.forall_mem_tab fun j _ => refUnpack_zero (refForwardFft_zero hx) j) k

theorem refPreRotate_zero (hx : ∀ a ∈ x, a.isZero = true) (k : Nat) : CZero (refPreRotate n x k) := by
  have hget : ∀ i, (x.getD i F32.zero).isZero = true := getD_of_forall hx rfl
  have hcos := twiddleCos_finite (4 * n) k
  have hsin := twiddleSin_finite (4 * n) k
  unfold refPreRotate
  generalize twiddleCos (4 * n) k = c at hcos ⊢
  generalize twiddleSin (4 * n) k = s at hsin ⊢
  exact ⟨F32.isZero_mul (F32.isZero_add (F32.isZero_mul_left hcos (hget _)) (F32.isZero_mul_left hsin (hget _))) rfl,
    F32.isZero_mul (F32.isZero_sub (F32.isZero_mul_left hsin (hget _)) (F32.isZero_mul_left hcos (hget _))) rfl⟩

theorem refPack_zero (hx : ∀ a ∈ x, a.isZero = true) {h : List Complex32} (hh : ∀ a ∈ h, CZero a) (k : Nat) :
    CZero (refPack n x h k) := by
  have hin : ∀ i, (x.getD i F32.zero).isZero = true := getD_of_forall hx rfl
  have hget : ∀ i, CZero (h.getD i czero) := getD_of_forall hh czero_zero
  unfold refPack
  dsimp only
  split
  · exact ⟨F32.isZero_add (hin _) (hin _), F32.isZero_sub (hin _) (hin _)⟩
  split
  · exact ⟨F32.isZero_mul_left rfl (hget k).1, F32.isZero_neg (F32.isZero_mul_left rfl (hget k).2)⟩
  · have hodd : CZero (cmul ((h.getD k czero).1.sub (h.getD (n / 2 - k) czero).1,
        (h.getD k czero).2.add (h.getD (n / 2 - k) czero).2) (twiddle false (4 * n) (4 * k))) :=
      .mul_right ⟨F32.isZero_sub (hget _).1 (hget _).1, F32.isZero_add (hget _).2 (hget _).2⟩
        (twiddle_finite false _ _)
    exact ⟨F32.isZero_sub (F32.isZero_add (hget _).1 (hget _).1) hodd.2,
      F32.isZero_add (F32.isZero_sub (hget _).2 (hget _).2) hodd.1⟩

theorem refInverse_zero (hx : ∀ a ∈ x, a.isZero = true) : ∀ a ∈ refInverse n x, a.isZero = true := by
  have hz := fft_zero false (n / 2) (Exact.forall_mem_tab fun k (_ : k < n / 2) =>
    refPack_zero (n := n) hx (Exact.forall_mem_tab fun j (_ : j < n / 2) => refPreRotate_zero (n := n) hx j) k)
  have hv : ∀ a ∈ (fft false (n / 2) (tab (n / 2) (refPack n x (tab (n / 2) (refPreRotate n x))))).flatMap
      fun c => [c.1, c.2], a.isZero = true := by
    intro a ha
    obtain ⟨c, hc, ha⟩ := List.mem_flatMap.mp ha
    simp only [List.mem_cons, List.not_mem_nil, or_false] at ha
    rcases ha with rfl | rfl
    · exact (hz c hc).1
    · exact (hz c hc).2
  refine Exact.forall_mem_tab fun i _ => ?_
  split
  · exact getD_of_forall hv rfl _
  · exact getD_of_forall hv rfl _

end Ref

/-! ### Every build (41_dct1d.md R128) -/

theorem openTransform_zero (inverse : Bool) (n : Nat) {x : List F32} (hx : ∀ a ∈ x, a.isZero = true) :
    ∀ a ∈ openTransform inverse n x, a.isZero = true := by
  refine Exact.forall_mem_tab fun k _ => ?_
  dsimp only
  rw [if_pos (List.all_eq_true.mpr hx)]
  rfl

section Builds
variable {n : Nat} {x : List F32} (num : Numerics)

theorem dct1_zero (hn : lengthOk n) (hx : ∀ a ∈ x, a.isZero = true) : ∀ a ∈ dct1 num n x, a.isZero = true := by
  have hget : ∀ i, (x.getD i F32.zero).isZero = true := getD_of_forall hx rfl
  unfold dct1
  split
  · exact hx
  split
  · intro a ha
    simp only [List.mem_cons, List.not_mem_nil, or_false] at ha
    rcases ha with rfl | rfl
    · exact F32.isZero_mul (F32.isZero_add (hget 0) (hget 1)) rfl
    · exact F32.isZero_mul (F32.isZero_sub (hget 0) (hget 1)) rfl
  · cases num with
    | ref => exact refForward_zero hn hx
    | unspecified => exact openTransform_zero false n hx

theorem idct1_zero (hx : ∀ a ∈ x, a.isZero = true) : ∀ a ∈ idct1 num n x, a.isZero = true := by
  have hget : ∀ i, (x.getD i F32.zero).isZero = true := getD_of_forall hx rfl
  unfold idct1
  split
  · exact hx
  split
  · intro a ha
    simp only [List.mem_cons, List.not_mem_nil, or_false] at ha
    rcases ha with rfl | rfl
    · exact F32.isZero_add (hget 0) (hget 1)
    · exact F32.isZero_sub (hget 0) (hget 1)
  · cases num with
    | ref => exact refInverse_zero hx
    | unspecified => exact openTransform_zero true n hx

end Builds

/-- Settles O57: lengths 1 and 2 and both kinds of build keep zeros, in both directions. -/
theorem transformOfZerosIsZeros : Obligations.TransformOfZerosIsZeros := by
  intro f hf num n x hn hlen hx
  simp only [List.mem_cons, List.not_mem_nil, or_false] at hf
  rcases hf with rfl | rfl
  · exact ⟨dct1_length num n x hlen.trans, dct1_zero num hn hx⟩
  · exact ⟨idct1_length num n x hlen.trans, idct1_zero num hx⟩

end Sys2Proof.Machine
end

section
/-! PROOFS. The exact 1-D transforms are inverse to each other (41_dct1d.md R120 to R122): the cosines of the basis are
orthogonal, so the matrix of the forward transform is a left inverse of the other one, and a left inverse of a square
matrix is a right inverse. -/

namespace Sys2Proof.Exact

open Finset

/-- The cosines of frequency `m`, neither 0 nor a multiple of `2n`, add up to 0 over the sample positions. -/
theorem sum_cosBasis_eq_zero {n m : Nat} (hm : 0 < m) (hmn : m < 2 * n) : ∑ i ∈ range n, cosBasis n m i = 0 := by
  have hn : (n : ℝ) ≠ 0 := by exact_mod_cast (by omega : n ≠ 0)
  have hsin : Real.sin (m * Real.pi / n / 2) ≠ 0 := by
    have hmn' : (m : ℝ) < 2 * n := by exact_mod_cast hmn
    refine (Real.sin_pos_of_pos_of_lt_pi (by positivity) ?_).ne'
    rw [div_div, div_lt_iff₀ (by positivity), mul_comm Real.pi, mul_comm (n : ℝ)]
    exact mul_lt_mul_of_pos_right hmn' Real.pi_pos
  have hangle : n * (m * Real.pi / n) / 2 = m * Real.pi / 2 := by field_simp
  have hphase : (n - 1) * (m * Real.pi / n) / 2 + m * Real.pi / (2 * n) = m * Real.pi / 2 := by field_simp; ring
  have hnodes : Real.sin (m * Real.pi / 2) * Real.cos (m * Real.pi / 2) = 0 := by
    have hdouble := Real.sin_two_mul (m * Real.pi / 2)
    rw [mul_div_cancel₀ _ two_ne_zero, Real.sin_nat_mul_pi] at hdouble
    linarith
  have hgeom := Real.sin_mul_sum_cos n (m * Real.pi / n) (m * Real.pi / (2 * n))
  rw [hangle, hphase, hnodes] at hgeom
  have hsum := (mul_eq_zero.mp hgeom).resolve_left hsin
  refine Eq.trans (sum_congr rfl fun i _ => ?_) hsum
  unfold cosBasis
  congr 1
  field_simp

theorem cosBasis_zero (n i : Nat) : cosBasis n 0 i = 1 := by simp [cosBasis]

/-- Product to sum, for two basis functions. -/
theorem cosBasis_mul {n k l : Nat} (h : l ≤ k) (i : Nat) :
    2 * (cosBasis n k i * cosBasis n l i) = cosBasis n (k - l) i + cosBasis n (k + l) i := by
  unfold cosBasis
  rw [← mul_assoc, Real.two_mul_cos_mul_cos]
  push_cast [Nat.cast_sub h]
  congr 2 <;> ring

/-- The basis functions are orthogonal (41_dct1d.md R122). -/
theorem sum_cosBasis_mul {n k l : Nat} (hk : k < n) (hl : l < n) :
    2 * ∑ i ∈ range n, cosBasis n k i * cosBasis n l i = if k = l then (if k = 0 then 2 * n else n : ℝ) else 0 := by
  wlog hkl : l ≤ k generalizing k l
  · rw [sum_congr rfl fun i _ => mul_comm (cosBasis n k i) _, this hl hk (by omega)]
    by_cases h : k = l
    · omega
    · rw [if_neg h, if_neg (Ne.symm h)]
  rw [mul_sum, sum_congr rfl fun i _ => cosBasis_mul hkl i, sum_add_distrib]
  rcases eq_or_lt_of_le hkl with rfl | hlt
  · rw [Nat.sub_self, if_pos rfl, sum_congr rfl fun i _ => cosBasis_zero n i]
    by_cases h0 : l = 0
    · subst h0
      rw [if_pos rfl, sum_congr rfl fun i _ => cosBasis_zero n i]
      simp [two_mul]
    · rw [if_neg h0, sum_cosBasis_eq_zero (by omega) (by omega)]
      simp
  · rw [if_neg (by omega), sum_cosBasis_eq_zero (by omega) (by omega), sum_cosBasis_eq_zero (by omega) (by omega),
      add_zero]

/-- The forward transform as a matrix (41_dct1d.md R120). -/
noncomputable def forwardMatrix (n : Nat) : Matrix (Fin n) (Fin n) ℝ := .of fun k i => scale n k * cosBasis n k i

/-- The inverse transform as a matrix (41_dct1d.md R121). -/
noncomputable def inverseMatrix (n : Nat) : Matrix (Fin n) (Fin n) ℝ := .of fun i k => inverseBasis n k i

theorem dct1Exact_eq_mulVec {n : Nat} (x : Nat → ℝ) (k : Fin n) :
    dct1Exact n x k = (forwardMatrix n).mulVec (fun i => x i) k := by
  unfold dct1Exact Matrix.mulVec dotProduct forwardMatrix
  rw [mul_sum, ← Fin.sum_univ_eq_sum_range (fun i => scale n k * (x i * cosBasis n k i))]
  exact sum_congr rfl fun i _ => by simp only [Matrix.of_apply]; ring

theorem idct1Exact_eq_mulVec {n : Nat} (x : Nat → ℝ) (i : Fin n) :
    idct1Exact n x i = (inverseMatrix n).mulVec (fun k => x k) i := by
  unfold idct1Exact Matrix.mulVec dotProduct inverseMatrix
  simp only [Matrix.of_apply]
  rw [Fin.sum_univ_eq_sum_range (fun k => inverseBasis n k i * x k), sum_range_eq_head _ n (Fin.pos i), mul_sum]
  congr 1
  · simp [inverseBasis]
  · refine sum_congr rfl fun k hk => ?_
    have hk0 : k ≠ 0 := by have := mem_Ico.mp hk; omega
    rw [inverseBasis, if_neg hk0]
    ring

theorem inverseBasis_eq (n k i : Nat) :
    inverseBasis n k i = (if k = 0 then 1 else Real.sqrt 2) * cosBasis n k i := by
  by_cases hk : k = 0
  · subst hk
    simp [inverseBasis, cosBasis_zero]
  · simp [inverseBasis, hk]

theorem forwardMatrix_mul_inverseMatrix (n : Nat) : forwardMatrix n * inverseMatrix n = 1 := by
  ext k l
  have hn : (n : ℝ) ≠ 0 := by exact_mod_cast (Fin.pos k).ne'
  have hs : Real.sqrt 2 * Real.sqrt 2 = 2 := Real.mul_self_sqrt (by norm_num)
  have hterm : ∀ i : Nat, scale n k * cosBasis n k i * inverseBasis n l i =
      scale n k * (if (l : Nat) = 0 then 1 else Real.sqrt 2) / 2 * (2 * (cosBasis n k i * cosBasis n l i)) := by
    intro i
    rw [inverseBasis_eq]
    ring
  rw [Matrix.mul_apply]
  simp only [forwardMatrix, inverseMatrix, Matrix.of_apply]
  rw [Fin.sum_univ_eq_sum_range (fun i => scale n k * cosBasis n k i * inverseBasis n l i),
    sum_congr rfl fun i _ => hterm i, ← mul_sum, ← mul_sum, sum_cosBasis_mul k.isLt l.isLt, Matrix.one_apply]
  by_cases hkl : k = l
  · subst hkl
    rw [if_pos rfl, if_pos rfl, scale]
    by_cases h0 : (k : Nat) = 0
    · simp only [if_pos h0]
      field_simp
    · simp only [if_neg h0]
      field_simp
      rw [pow_two, hs]
  · rw [if_neg (Fin.val_ne_of_ne hkl), if_neg hkl, mul_zero]

/-- Settles O60: the two matrices are inverse to each other. -/
theorem exactTransformsAreInverse : Obligations.ExactTransformsAreInverse := by
  intro n x i hi
  have hright := mul_eq_one_comm.mp (forwardMatrix_mul_inverseMatrix n)
  constructor
  · have h := idct1Exact_eq_mulVec (dct1Exact n x) ⟨i, hi⟩
    rw [funext (dct1Exact_eq_mulVec x), Matrix.mulVec_mulVec, hright, Matrix.one_mulVec] at h
    exact h
  · have h := dct1Exact_eq_mulVec (idct1Exact n x) ⟨i, hi⟩
    rw [funext (idct1Exact_eq_mulVec x), Matrix.mulVec_mulVec, forwardMatrix_mul_inverseMatrix, Matrix.one_mulVec] at h
    exact h

end Sys2Proof.Exact
end

section
/-! PROOFS. The 2-D transforms and their commands (42_dct2d.md): what DCT2D and IDCT2D write, the pass order, the accuracy
bound and the zero law. A property that every line pass keeps, zero or being the value of a word, both passes keep. -/

namespace Sys2Proof.Machine

open Claims

/-! ### DCT2D and IDCT2D (42_dct2d.md R153, R154, R158) -/

/-- The output of a 2-D command: the transform of the samples of the region. -/
def output2d (f : Numerics → Nat → Nat → Block → Block) (d : Slot) (s : State) : Block :=
  f s.params.numerics (s.desc[d]).w (s.desc[d]).h (samples s (s.desc[d]))

section Commands
variable {f : Numerics → Nat → Nat → Block → Block} {d : Slot} {s : State}

theorem plan2d_empty (h : (s.desc[d]).kind = .empty) : plan2d f d s = .raises .badDesc := withDesc_empty h

theorem plan2d_badLength (hk : (s.desc[d]).kind ≠ .empty)
    (h : ¬ (lengthOk (s.desc[d]).w ∧ lengthOk (s.desc[d]).h)) : plan2d f d s = .raises .invalidLength := by
  rw [← goodLength_iff, ← goodLength_iff, not_and_or, Bool.not_eq_true, Bool.not_eq_true] at h
  unfold plan2d
  rw [withDesc_defined hk, if_pos h]

theorem plan2d_runs (hl : (s.desc[d]).Legal s.params) (hk : (s.desc[d]).kind ≠ .empty)
    (hw : lengthOk (s.desc[d]).w) (hh : lengthOk (s.desc[d]).h) :
    plan2d f d s = .runs (.store ((s.desc[d]).blockRuns (output2d f d s))) := by
  rw [← goodLength_iff] at hw hh
  have hgood : ¬ (goodLength (s.desc[d]).w = false ∨ goodLength (s.desc[d]).h = false)   := by
    rw [hw, hh]
    decide
  unfold plan2d
  rw [withDesc_defined hk, if_neg hgood, onMap_of_legal hl hk, State.block_eq_tabulate]
  rfl

/-- A 2-D command that passes its checks completes, and its region becomes the transform of its samples. -/
theorem exec2d_completes {i : Instr} (hf : ∀ num w h b, Block.shaped w h b → Block.shaped w h (f num w h b))
    (hi : planOf i s = plan2d f d s) (hl : (s.desc[d]).Legal s.params) (hk : (s.desc[d]).kind ≠ .empty)
    (hw : lengthOk (s.desc[d]).w) (hh : lengthOk (s.desc[d]).h) :
    ∃ t, exec i s = .next t ∧ regionBecomes s t (s.desc[d]) (output2d f d s) ∧
      t.desc = s.desc ∧ t = completedFrom s t := by
  have hshape : Block.shaped (s.desc[d]).w (s.desc[d]).h (output2d f d s) := hf _ _ _ _ (tabulate_shaped _ _ _)
  refine ⟨_, exec_of_runs (hi.trans (plan2d_runs hl hk hw hh)), ⟨fun col row hc hr => ?_, fun a ha => ?_⟩, rfl, rfl⟩
  · exact Memory.wordFrom_blockRuns s.powerOns s.sram (hl.width_le_stride hk) hshape hc hr
  · exact Memory.byteFrom_blockRuns_outside s.powerOns s.sram hshape
      fun col row hc hr heq => ha ⟨col, row, hc, hr, heq⟩

end Commands

theorem transform2d_of_plan {f : Numerics → Nat → Nat → Block → Block} {mk : Slot → Instr}
    (hf : ∀ num w h b, Block.shaped w h b → Block.shaped w h (f num w h b))
    (hi : ∀ d s, planOf (mk d) s = plan2d f d s) : Transform2d mk f :=
  fun d s hl =>
    ⟨fun he => exec_faulted ((hi d s).trans (plan2d_empty he)),
      fun hk hbad => exec_faulted ((hi d s).trans (plan2d_badLength hk hbad)),
      fun hk hw hh => exec2d_completes hf (hi d s) hl hk hw hh⟩

/-- Settles O44: both commands run `plan2d`, which writes exactly the rows of the region. -/
theorem twoDimensionalTransformCommands : Obligations.TwoDimensionalTransformCommands :=
  ⟨transform2d_of_plan dct2_shaped fun _ _ => rfl, transform2d_of_plan idct2_shaped fun _ _ => rfl⟩

/-! ### The pass order (42_dct2d.md R152) -/

section Separable
variable {f : Nat → List F32 → List F32} {w h u v : Nat} {p : Nat → Nat → F32}
variable (hf : ∀ n x, x.length = n → (f n x).length = n) (hv : v < h)
include hf hv

/-- Rows first: column `u` of the row transforms, transformed. -/
theorem separable_rows_first (hle : h ≤ w) (hu : u < w) :
    (separable f w h (tabulate w h p)).at u v =
      (f h (tab h fun y => (f w (tab w fun x => p x y)).getD u F32.zero)).getD v F32.zero := by
  have hshape := tabulate_shaped w h p
  have hrows := map_shaped w w h _ (f w) hshape (hf w)
  have hcols := transpose_shaped w h _ hrows.1
  have hline : (tab h fun y => Block.at ((tabulate w h p).map (f w)) u y) =
      tab h fun y => (f w (tab w fun x => p x y)).getD u F32.zero :=
    tab_congr fun y hy => by rw [Exact.at_map _ _ _ _ (by rwa [hshape.1]), tabulate, tab_getD _ _ _ _ hy]
  unfold separable
  rw [if_pos hle, Exact.at_transpose _ _ _ _ hv (by rwa [List.length_map, hcols.1]),
    Exact.at_map _ _ _ _ (by rwa [hcols.1]), Exact.column_eq_tab hrows _ hu, hline]

/-- Columns first: row `v` of the column transforms, transformed. -/
theorem separable_columns_first (hlt : w < h) :
    (separable f w h (tabulate w h p)).at u v =
      (f w (tab w fun x => (f h (tab h fun y => p x y)).getD v F32.zero)).getD u F32.zero := by
  have hshape := tabulate_shaped w h p
  have hcols := transpose_shaped w h _ hshape.1
  have hmapped := map_shaped h h w _ (f h) hcols (hf h)
  have hrows := transpose_shaped h w _ hmapped.1
  have hline : (tab w fun x => Block.at ((transpose w (tabulate w h p)).map (f h)) v x) =
      tab w fun x => (f h (tab h fun y => p x y)).getD v F32.zero :=
    tab_congr fun x hx => by
      rw [Exact.at_map _ _ _ _ (by rwa [hcols.1]), Exact.column_eq_tab hshape x hx,
        tab_congr fun y hy => Block.at_tabulate w h p hx hy]
  unfold separable
  rw [if_neg (not_le.mpr hlt), Exact.at_map _ _ _ _ (by rwa [hrows.1]), Exact.column_eq_tab hmapped _ hv, hline]

/-- What every line pass keeps, both passes keep. -/
theorem separable_forall {P : F32 → Prop} (hw : lengthOk w) (hh : lengthOk h)
    (hP : ∀ n x, lengthOk n → x.length = n → (∀ a ∈ x, P a) → ∀ k, P ((f n x).getD k F32.zero))
    (hp : ∀ x y, x < w → y < h → P (p x y)) (hu : u < w) : P ((separable f w h (tabulate w h p)).at u v) := by
  rcases le_or_gt h w with hle | hlt
  · rw [separable_rows_first hf hv hle hu]
    exact hP h _ hh (tab_length _ _) (Exact.forall_mem_tab fun y hy =>
      hP w _ hw (tab_length _ _) (Exact.forall_mem_tab fun x hx => hp x y hx hy) u) v
  · rw [separable_columns_first hf hv hlt]
    exact hP w _ hw (tab_length _ _) (Exact.forall_mem_tab fun x hx =>
      hP h _ hh (tab_length _ _) (Exact.forall_mem_tab fun y hy => hp x y hx hy) v) u

end Separable

/-! ### What the commands write (42_dct2d.md R157) -/

/-- From word values, a finite output of a 1-D transform of any length is the value of a word. -/
theorem line_isWord {f : Numerics → Nat → List F32 → List F32} (hf : f = dct1 ∨ f = idct1) (num : Numerics) (n : Nat)
    (x : List F32) (hn : lengthOk n) (hlen : x.length = n) (hx : ∀ a ∈ x, a.isFinite = true → F32.IsWord a) (k : Nat) :
    ((f num n x).getD k F32.zero).isFinite = true → F32.IsWord ((f num n x).getD k F32.zero) := by
  rcases Nat.lt_or_ge n 4 with hsmall | h4
  swap
  · exact transform_isWord hf h4 k
  refine getD_of_forall (P := fun a => a.isFinite = true → F32.IsWord a) ?_ (fun _ => F32.isWord_zero) k
  rcases Exact.goodLength_small ((goodLength_iff n).mpr hn) (not_le.mpr hsmall) with rfl | rfl
  · rcases hf with rfl | rfl
    · exact hx
    · exact hx
  · obtain ⟨a, b, rfl⟩ := List.length_eq_two.mp hlen
    rcases hf with rfl | rfl
    · exact List.forall_mem_cons.mpr ⟨F32.isWord_mul, List.forall_mem_singleton.mpr F32.isWord_mul⟩
    · exact List.forall_mem_cons.mpr ⟨F32.isWord_sum, List.forall_mem_singleton.mpr F32.isWord_sum⟩

theorem dct2Exact_congr {w h : Nat} {p q : Nat → Nat → ℝ} (hpq : ∀ x y, x < w → y < h → p x y = q x y) (u v : Nat) :
    Exact.dct2Exact w h p u v = Exact.dct2Exact w h q u v := by
  unfold Exact.dct2Exact
  congr 1
  refine Finset.sum_congr rfl fun x hx => Finset.sum_congr rfl fun y hy => ?_
  rw [hpq x y (Finset.mem_range.mp hx) (Finset.mem_range.mp hy)]

theorem idct2Exact_congr {w h : Nat} {p q : Nat → Nat → ℝ} (hpq : ∀ x y, x < w → y < h → p x y = q x y) (u v : Nat) :
    Exact.idct2Exact w h p u v = Exact.idct2Exact w h q u v := by
  unfold Exact.idct2Exact
  refine Finset.sum_congr rfl fun x hx => Finset.sum_congr rfl fun y hy => ?_
  rw [hpq x y (Finset.mem_range.mp hx) (Finset.mem_range.mp hy)]

theorem transform_keeps_length {f : Numerics → Nat → List F32 → List F32} (hf : f = dct1 ∨ f = idct1) (num : Numerics)
    (n : Nat) (x : List F32) (hx : x.length = n) : (f num n x).length = n := by
  rcases hf with rfl | rfl
  · exact dct1_keeps_length num n x hx
  · exact idct1_keeps_length num n x hx

section Written
variable {d : Slot} {s : State} (hl : (s.desc[d]).Legal s.params) (hk : (s.desc[d]).kind ≠ .empty)
variable (hw : lengthOk (s.desc[d]).w) (hh : lengthOk (s.desc[d]).h)
include hw hh

/-- The samples of a region are words, so a finite output is the value of the word it is written as. -/
theorem output2d_isWord {f : Numerics → Nat → List F32 → List F32} (hf : f = dct1 ∨ f = idct1) {u v : Nat}
    (hu : u < (s.desc[d]).w) (hv : v < (s.desc[d]).h)
    (hfin : ((output2d (fun num => separable (f num)) d s).at u v).isFinite = true) :
    F32.IsWord ((output2d (fun num => separable (f num)) d s).at u v) :=
  separable_forall (P := fun a => a.isFinite = true → F32.IsWord a) (transform_keeps_length hf _) hv hw hh
    (line_isWord hf _) (fun _ _ _ _ _ => ⟨_, rfl⟩) hu hfin

include hl hk

/-- What holds of every output and makes it finite, holds of every word a 2-D command writes. -/
theorem exec2d_written {f : Numerics → Nat → List F32 → List F32} {i : Instr} (hf : f = dct1 ∨ f = idct1)
    (hi : planOf i s = plan2d (fun num => separable (f num)) d s) {Q : Nat → Nat → F32 → Prop}
    (hQ : ∀ u v, u < (s.desc[d]).w → v < (s.desc[d]).h →
      ((output2d (fun num => separable (f num)) d s).at u v).isFinite = true ∧
        Q u v ((output2d (fun num => separable (f num)) d s).at u v)) :
    ∃ t, exec i s = .next t ∧ t.engine = .idle ∧ ∀ u v, u < (s.desc[d]).w → v < (s.desc[d]).h →
      Q u v (F32.ofWord (t.sramWord ((s.desc[d]).addr u v))) := by
  obtain ⟨t, ht, ⟨hregion, -⟩, -, hframe⟩ := exec2d_completes
    (fun num w h b hb => separable_shaped (f num) w h b hb (transform_keeps_length hf num)) hi hl hk hw hh
  refine ⟨t, ht, congrArg State.engine hframe, fun u v hu hv => ?_⟩
  obtain ⟨hfin, hout⟩ := hQ u v hu hv
  rwa [hregion u v hu hv, (output2d_isWord hw hh hf hu hv hfin).ofWord_toWord]

/-- Zeros are written for zeros, because every line pass keeps zeros. -/
theorem exec2d_zeros {f : Numerics → Nat → List F32 → List F32} {i : Instr} (hf : f = dct1 ∨ f = idct1)
    (hi : planOf i s = plan2d (fun num => separable (f num)) d s)
    (hzero : ∀ col row, col < (s.desc[d]).w → row < (s.desc[d]).h →
      (F32.ofWord (s.sramWord ((s.desc[d]).addr col row))).isZero = true) :
    ∃ t, exec i s = .next t ∧ t.engine = .idle ∧ ∀ u v, u < (s.desc[d]).w → v < (s.desc[d]).h →
      (F32.ofWord (t.sramWord ((s.desc[d]).addr u v))).isZero = true := by
  have hline : ∀ num n x, lengthOk n → x.length = n → (∀ a ∈ x, a.isZero = true) →
      ∀ k, ((f num n x).getD k F32.zero).isZero = true := by
    intro num n x hn _ hx
    rcases hf with rfl | rfl
    · exact getD_of_forall (dct1_zero num hn hx) rfl
    · exact getD_of_forall (idct1_zero num hx) rfl
  refine exec2d_written hl hk hw hh hf hi (Q := fun _ _ a => a.isZero = true) fun u v hu hv => ?_
  have hout : ((output2d (fun num => separable (f num)) d s).at u v).isZero = true :=
    separable_forall (transform_keeps_length hf _) hv hw hh (hline _) hzero hu
  obtain ⟨b, hb⟩ := F32.isZero_cases hout
  rw [hb]
  exact ⟨rfl, rfl⟩

end Written

/-- The samples of a region as reals. -/
noncomputable def realSamples (s : State) (x : Desc) (col row : Nat) : ℝ :=
  Exact.realOf (F32.ofWord (s.sramWord (x.addr col row)))

/-- The sum of the absolute values of the samples of a region (42_dct2d.md R157). -/
noncomputable def regionMass (s : State) (x : Desc) : ℝ :=
  ∑ col ∈ Finset.range x.w, ∑ row ∈ Finset.range x.h, |realSamples s x col row|

/-- The value is finite, and from the exact one at most as far as R157 allows on the region `x`. -/
def WithinBound (s : State) (x : Desc) (exact : ℝ) (a : F32) : Prop :=
  a.isFinite = true ∧
    |Exact.realOf a - exact| ≤ 3 * (s.params.dctEps : ℝ) * regionMass s x + 3 * x.w * x.h / 2 ^ 140

/-- Both transforms of a region keep the bound of R157 on a legal build, by its accuracy law. -/
theorem output2d_near {d : Slot} {s : State} (hs : s.Inv) (hw : lengthOk (s.desc[d]).w) (hh : lengthOk (s.desc[d]).h)
    (heps : s.params.dctEps ≤ 1 / 16) (hm : regionMass s (s.desc[d]) < 2 ^ 95)
    (hfin : ∀ col row, col < (s.desc[d]).w → row < (s.desc[d]).h →
      (F32.ofWord (s.sramWord ((s.desc[d]).addr col row))).isFinite = true)
    {u v : Nat} (hu : u < (s.desc[d]).w) (hv : v < (s.desc[d]).h) :
    WithinBound s (s.desc[d]) (Exact.dct2Exact (s.desc[d]).w (s.desc[d]).h (realSamples s (s.desc[d])) u v)
        ((output2d dct2 d s).at u v) ∧
      WithinBound s (s.desc[d]) (Exact.idct2Exact (s.desc[d]).w (s.desc[d]).h (realSamples s (s.desc[d])) u v)
        ((output2d idct2 d s).at u v) := by
  have hat : ∀ col row, col < (s.desc[d]).w → row < (s.desc[d]).h →
      (samples s (s.desc[d])).at col row = F32.ofWord (s.sramWord ((s.desc[d]).addr col row)) :=
    fun col row hc hr => Block.at_tabulate _ _ _ hc hr
  have hreal : ∀ col row, col < (s.desc[d]).w → row < (s.desc[d]).h →
      Exact.realOf ((samples s (s.desc[d])).at col row) = realSamples s (s.desc[d]) col row :=
    fun col row hc hr => congrArg Exact.realOf (hat col row hc hr)
  have hmass : ∑ col ∈ Finset.range (s.desc[d]).w, ∑ row ∈ Finset.range (s.desc[d]).h,
      |Exact.realOf ((samples s (s.desc[d])).at col row)| = regionMass s (s.desc[d]) :=
    Finset.sum_congr rfl fun col hc => Finset.sum_congr rfl fun row hr => by
      rw [hreal col row (Finset.mem_range.mp hc) (Finset.mem_range.mp hr)]
  have heps' : (s.params.dctEps : ℝ) ≤ 1 / 16 := by simpa using (Rat.cast_le (K := ℝ)).mpr heps
  have hbound := hs.params_legal.accurate.two_dimensional heps' ((goodLength_iff _).mpr hw)
    ((goodLength_iff _).mpr hh) (b := samples s (s.desc[d])) (tabulate_shaped _ _ _)
    (fun col row hc hr => (hat col row hc hr).symm ▸ hfin col row hc hr)
    (fun col row hc hr => ⟨_, hat col row hc hr⟩) hmass hm hu hv
  rw [dct2Exact_congr hreal, idct2Exact_congr hreal, ← mul_assoc] at hbound
  exact hbound

/-- Settles O45: the pass order is that of `separable`; the bound is the accuracy law over two passes, and what is written
is what was computed, because a finite output is the value of a word. -/
theorem longerAxisIsTransformedFirst : Obligations.LongerAxisIsTransformedFirst := by
  refine ⟨fun g hg num w h p u v hu hv => ?_, fun g hg d s hs => ?_⟩
  · simp only [List.mem_cons, List.not_mem_nil, or_false] at hg
    rcases hg with rfl | rfl
    · exact ⟨fun hle => separable_rows_first (dct1_keeps_length num) hv hle hu,
        separable_columns_first (dct1_keeps_length num) hv⟩
    · exact ⟨fun hle => separable_rows_first (idct1_keeps_length num) hv hle hu,
        separable_columns_first (idct1_keeps_length num) hv⟩
  · intro x p m hk hw hh
    have hl := hs.desc_legal d
    simp only [List.mem_cons, List.not_mem_nil, or_false] at hg
    rcases hg with rfl | rfl
    · refine ⟨fun heps hm hfin => ?_, exec2d_zeros hl hk hw hh (.inl rfl) rfl⟩
      refine exec2d_written hl hk hw hh (.inl rfl) rfl
        (Q := fun u v => WithinBound s x (Exact.dct2Exact x.w x.h (realSamples s x) u v)) fun u v hu hv => ?_
      have hnear := (output2d_near hs hw hh heps hm hfin hu hv).1
      exact ⟨hnear.1, hnear⟩
    · refine ⟨fun heps hm hfin => ?_, exec2d_zeros hl hk hw hh (.inr rfl) rfl⟩
      refine exec2d_written hl hk hw hh (.inr rfl) rfl
        (Q := fun u v => WithinBound s x (Exact.idct2Exact x.w x.h (realSamples s x) u v)) fun u v hu hv => ?_
      have hnear := (output2d_near hs hw hh heps hm hfin hu hv).2
      exact ⟨hnear.1, hnear⟩

end Sys2Proof.Machine
end

section
/-! PROOFS. DC-only blocks under the inverse transforms (42_dct2d.md R154, 43_dispatch.md R169). A finite nonzero word plus or
minus a zero is the word itself, so the DC value spreads unchanged: over the first `half` values of an FFT stage to the first
`2*half`, and from a corner of side `s/2` to one of side `s` in `AUX2`. -/

namespace Sys2Proof.Machine

open Claims

/-! ### A word absorbs zeros (41_dct1d.md R138) -/

/-- Adding or subtracting a zero of either sign leaves the value. -/
def AbsorbsZeros (c : F32) : Prop := ∀ z : F32, z.isZero = true → c.add z = c ∧ c.sub z = c

namespace F32

/-- The value of a word is not rounded. -/
theorem round_word {w : Word} {b : Bool} {m : Nat} (h : ofWord w = .fin b m) : round 0 b m = .fin b m := by
  have hfin : (ofWord w).isFinite = true := by rw [h]; rfl
  obtain ⟨f, j, hval, hf, -⟩ := ofWord_significand hfin
  obtain ⟨n, hn, hlt⟩ := ofWord_magnitude hfin
  rw [h, fin.injEq] at hval hn
  rw [← hn.2] at hlt
  have hrange : m < 2 ^ 2 ^ 10 := add_in_range (k := 277) hlt (Nat.two_pow_pos _) (by norm_num)
  have hnear := (quantize_nearest (s := 0) hrange hf j).1
  rw [← hval.2, pow_zero, Nat.mul_one, Nat.mul_one, Nat.dist_self, Nat.le_zero] at hnear
  have hq : quantize 0 m (quantum 0 m) = m := Nat.eq_of_dist_eq_zero hnear
  have hround : round 0 b m = if quantize 0 m (quantum 0 m) < 1 <<< 277 then .fin b (quantize 0 m (quantum 0 m))
    else .inf b := rfl
  rw [hround, hq, if_pos (lt_of_lt_of_eq hlt (Nat.one_shiftLeft 277).symm)]

theorem sum_isZero (op : FOp) {w : Word} {b : Bool} {m : Nat} (h : ofWord w = .fin b m) (hm : m ≠ 0) {z : F32}
    (hz : z.isZero = true) : sum op (.fin b m) z = .fin b m := by
  obtain ⟨y, rfl⟩ := isZero_cases hz
  by_cases hb : b = y
  · simpa [sum, hb] using round_word h
  · simp [sum, hb, hm, Nat.pos_of_ne_zero hm, round_word h]

end F32

theorem absorbsZeros_word {w : Word} (hfin : (F32.ofWord w).isFinite = true) (hnz : (F32.ofWord w).isZero = false) :
    AbsorbsZeros (F32.ofWord w) := by
  obtain ⟨b, m, h⟩ := Exact.fin_of_isFinite hfin
  have hm : m ≠ 0 := by
    rintro rfl
    rw [h] at hnz
    exact Bool.noConfusion hnz
  intro z hz
  rw [h]
  exact ⟨F32.sum_isZero .add h hm hz, F32.sum_isZero .sub h hm (F32.isZero_neg hz)⟩

/-! ### The FFT of a single value (41_dct1d.md R131) -/

theorem AbsorbsZeros.complex {c : F32} (hc : AbsorbsZeros c) {z : Complex32} (hz : CZero z) :
    cadd (c, c) z = (c, c) ∧ csub (c, c) z = (c, c) :=
  ⟨Prod.ext (hc _ hz.1).1 (hc _ hz.2).1, Prod.ext (hc _ hz.1).2 (hc _ hz.2).2⟩

/-- The first `k` values are all `a`, the others zeros. -/
def DcThenZeros (a : Complex32) (k : Nat) (y : List Complex32) : Prop :=
  ∃ zs, y = List.replicate k a ++ zs ∧ ∀ z ∈ zs, CZero z

theorem zipWith_replicate_eq {f : Complex32 → Complex32 → Complex32} {a : Complex32} {n : Nat} {zs : List Complex32}
    (hn : zs.length = n) (h : ∀ z ∈ zs, f a z = a) : List.zipWith f (List.replicate n a) zs = List.replicate n a := by
  refine List.eq_replicate_iff.mpr ⟨by rw [List.length_zipWith, List.length_replicate, hn, Nat.min_self], ?_⟩
  refine forall_mem_zipWith fun x hx z hz => ?_
  rw [List.eq_of_mem_replicate hx]
  exact h z hz

/-- One stage doubles the run of DC values. -/
theorem fftStage_dc {c : F32} (hc : AbsorbsZeros c) {ws : List Complex32} (hw : ∀ w ∈ ws, CFinite w) {half blocks : Nat}
    (hlen : ws.length = half) (hb : 0 < blocks) {y : List Complex32} (hy : y.length = 2 * half * blocks)
    (h : DcThenZeros (c, c) half y) : DcThenZeros (c, c) (2 * half) (fftStage ws half blocks y) := by
  obtain ⟨rest, rfl⟩ : ∃ rest, blocks = rest + 1 := ⟨blocks - 1, by omega⟩
  obtain ⟨zs, rfl, hzs⟩ := h
  rw [List.length_append, List.length_replicate] at hy
  have hus : (List.replicate half (c, c) ++ zs).take half = List.replicate half (c, c) :=
    List.take_left' List.length_replicate
  have hvs : (List.replicate half (c, c) ++ zs).drop half = zs := List.drop_left' List.length_replicate
  have hrest : ∀ z ∈ (List.replicate half (c, c) ++ zs).drop (2 * half), CZero z := by
    rw [Nat.two_mul, ← List.drop_drop, hvs]
    exact fun z hz => hzs z (List.mem_of_mem_drop hz)
  have htl : (List.zipWith cmul ws (zs.take half)).length = half := by
    rw [List.length_zipWith, hlen, List.length_take, Nat.min_eq_left (a := half) (b := zs.length), Nat.min_self]
    have := Nat.le_mul_of_pos_right (2 * half) hb
    omega
  have hts : ∀ t ∈ List.zipWith cmul ws (zs.take half), CZero t :=
    forall_mem_zipWith fun w hw' v hv => .mul (hw w hw') (hzs v (List.mem_of_mem_take hv))
  refine ⟨fftStage ws half rest ((List.replicate half (c, c) ++ zs).drop (2 * half)), ?_,
    fftStage_zero hw half rest hrest⟩
  rw [fftStage, hus, hvs, zipWith_replicate_eq htl fun t ht => (hc.complex (hts t ht)).1,
    zipWith_replicate_eq htl fun t ht => (hc.complex (hts t ht)).2, ← List.append_assoc, List.replicate_append_replicate,
    Nat.two_mul]

theorem fftStage_length {ws : List Complex32} {half blocks : Nat} {y : List Complex32} (hw : ws.length = half)
    (hy : y.length = 2 * half * blocks) : (fftStage ws half blocks y).length = 2 * half * blocks :=
  (Exact.fftStage_forall ws half blocks y hw hy (fun _ _ => True) fun _ _ _ _ => ⟨trivial, trivial⟩).1

theorem fftStages_dc {c : F32} (hc : AbsorbsZeros c) (forward : Bool) {m : Nat} (left : Nat) {half : Nat}
    {y : List Complex32} (hhalf : 0 < half) (hm : half * 2 ^ left = m) (hy : y.length = m) (h : DcThenZeros (c, c) half y) :
    fftStages forward m left half y = List.replicate m (c, c) := by
  induction left generalizing half y with
  | zero =>
    obtain ⟨zs, rfl, -⟩ := h
    have hzs : zs = [] := by
      rw [List.length_append, List.length_replicate] at hy
      exact List.length_eq_zero_iff.mp (by omega)
    rw [hzs, List.append_nil, ← hm, pow_zero, Nat.mul_one]
    rfl
  | succ left ih =>
    have hblocks : m / (2 * half) = 2 ^ left := by
      rw [← hm, pow_succ', ← Nat.mul_assoc, Nat.mul_comm half 2]
      exact Nat.mul_div_cancel_left _ (by omega)
    have hsize : 2 * half * 2 ^ left = m := by rw [← hm, pow_succ']; ring
    have hws : ∀ w ∈ tab half fun j => twiddle forward m (j * 2 ^ left), CFinite w :=
      Exact.forall_mem_tab fun j _ => twiddle_finite forward m _
    have hy' : y.length = 2 * half * 2 ^ left := hy.trans hsize.symm
    unfold fftStages
    rw [hblocks]
    exact ih (by omega) hsize ((fftStage_length (tab_length _ _) hy').trans hsize)
      (fftStage_dc hc hws (tab_length _ _) (Nat.two_pow_pos left) hy' h)

theorem bitrev_zero (bits : Nat) : bitrev bits 0 = 0 := by
  induction bits with
  | zero => rfl
  | succ bits ih => exact (Exact.bitrev_even bits 0).trans ih

theorem bitrev_ne_zero {bits j : Nat} (hj : j ≠ 0) (hlt : j < 2 ^ bits) : bitrev bits j ≠ 0 := by
  induction bits generalizing j with
  | zero => omega
  | succ bits ih =>
    rw [pow_succ] at hlt
    rcases Nat.even_or_odd' j with ⟨i, rfl | rfl⟩
    · rw [Exact.bitrev_even]
      exact ih (by omega) (by omega)
    · rw [Exact.bitrev_odd]
      have := Nat.two_pow_pos bits
      omega

theorem topBit_two_pow {bits : Nat} (h : bits + 1 ≤ 2 ^ 10) : F32.topBit (2 ^ bits) = bits := by
  rw [← Nat.one_shiftLeft, F32.topBit_shift 1 0 bits le_rfl (by norm_num) (by omega), Nat.zero_add]

theorem tab_succ {α : Type} (n : Nat) (f : Nat → α) : tab (n + 1) f = f 0 :: tab n fun i => f (i + 1) := by
  unfold tab
  rw [List.range_succ_eq_map, List.map_cons, List.map_map]
  rfl

/-- The FFT of a DC value and zeros is that value everywhere. -/
theorem fft_dc {c : F32} (hc : AbsorbsZeros c) (forward : Bool) {bits : Nat} (hbits : bits + 1 ≤ 2 ^ 10)
    {zs : List Complex32} (hzs : ∀ z ∈ zs, CZero z) :
    fft forward (2 ^ bits) ((c, c) :: zs) = List.replicate (2 ^ bits) (c, c) := by
  unfold fft
  rw [topBit_two_pow hbits]
  refine fftStages_dc hc forward bits Nat.one_pos (Nat.one_mul _) (tab_length _ _) ?_
  obtain ⟨k, hk⟩ : ∃ k, 2 ^ bits = k + 1 := ⟨2 ^ bits - 1, by have := Nat.two_pow_pos bits; omega⟩
  rw [hk, tab_succ, bitrev_zero]
  refine ⟨_, rfl, Exact.forall_mem_tab fun j hj => ?_⟩
  obtain ⟨i, hi⟩ := Nat.exists_eq_succ_of_ne_zero (bitrev_ne_zero (bits := bits) (Nat.succ_ne_zero j) (by omega))
  rw [hi]
  exact getD_of_forall hzs czero_zero i

/-! ### The 1-D inverse transform of a DC value (41_dct1d.md R124, R126, R135 to R137) -/

/-- Pre-rotation reads positions `k` and `n - k`, never the DC value. -/
theorem refPreRotate_dc {n k : Nat} (hk : k ≠ 0) (hkn : k < n) (c : F32) {zs : List F32}
    (hzs : ∀ a ∈ zs, a.isZero = true) : CZero (refPreRotate n (c :: zs) k) := by
  obtain ⟨i, rfl⟩ := Nat.exists_eq_succ_of_ne_zero hk
  obtain ⟨j, hj⟩ := Nat.exists_eq_succ_of_ne_zero (Nat.sub_ne_zero_of_lt hkn)
  have hskip : refPreRotate n (c :: zs) (i + 1) = refPreRotate n (F32.zero :: zs) (i + 1) := by
    unfold refPreRotate
    rw [hj]
    rfl
  rw [hskip]
  exact refPreRotate_zero (List.forall_mem_cons.mpr ⟨rfl, hzs⟩) _

/-- Past position 0 packing reads the rotated values at `k` and `n/2 - k`, never the one at 0. -/
theorem refPack_dc {n k : Nat} (hk : k ≠ 0) (hkn : k < n / 2) (x : List F32) (a : Complex32) {hs : List Complex32}
    (hhs : ∀ z ∈ hs, CZero z) : CZero (refPack n x (a :: hs) k) := by
  obtain ⟨i, rfl⟩ := Nat.exists_eq_succ_of_ne_zero hk
  obtain ⟨j, hj⟩ := Nat.exists_eq_succ_of_ne_zero (Nat.sub_ne_zero_of_lt hkn)
  have hskip : refPack n x (a :: hs) (i + 1) = refPack n [] (czero :: hs) (i + 1) := by
    unfold refPack
    dsimp only
    rw [hj, if_neg hk, if_neg hk]
    rfl
  rw [hskip]
  exact refPack_zero (by simp) (List.forall_mem_cons.mpr ⟨czero_zero, hhs⟩) _

/-- Position 0 packs the DC value plus and minus one other input. -/
theorem refPack_head {c : F32} (hc : AbsorbsZeros c) {n : Nat} (hn : n / 2 ≠ 0) {zs : List F32}
    (hzs : ∀ a ∈ zs, a.isZero = true) (h : List Complex32) : refPack n (c :: zs) h 0 = (c, c) := by
  obtain ⟨i, hi⟩ := Nat.exists_eq_succ_of_ne_zero hn
  have hz : (zs.getD i F32.zero).isZero = true := getD_of_forall hzs rfl i
  unfold refPack
  rw [hi]
  exact Prod.ext (hc _ hz).1 (hc _ hz).2

/-- The packed inputs are the DC value in both parts, then zeros. -/
theorem packed_dc {c : F32} (hc : AbsorbsZeros c) {n : Nat} (hn : n / 2 ≠ 0) {zs : List F32}
    (hzs : ∀ a ∈ zs, a.isZero = true) :
    ∃ ys, tab (n / 2) (refPack n (c :: zs) (tab (n / 2) (refPreRotate n (c :: zs)))) = (c, c) :: ys ∧
      ∀ z ∈ ys, CZero z := by
  obtain ⟨k, hk⟩ := Nat.exists_eq_succ_of_ne_zero hn
  rw [hk, tab_succ, tab_succ, refPack_head hc hn hzs]
  refine ⟨_, rfl, Exact.forall_mem_tab fun i hi => refPack_dc (Nat.succ_ne_zero i) (by omega) _ _ ?_⟩
  exact Exact.forall_mem_tab fun j hj => refPreRotate_dc (Nat.succ_ne_zero j) (by omega) c hzs

theorem refInverse_dc {c : F32} (hc : AbsorbsZeros c) {bits : Nat} (hbits : bits + 1 ≤ 2 ^ 10) {zs : List F32}
    (hzs : ∀ a ∈ zs, a.isZero = true) : refInverse (2 * 2 ^ bits) (c :: zs) = List.replicate (2 * 2 ^ bits) c := by
  have hhalf : 2 * 2 ^ bits / 2 = 2 ^ bits := Nat.mul_div_cancel_left _ (by norm_num)
  obtain ⟨ys, hpacked, hys⟩ := packed_dc hc (n := 2 * 2 ^ bits) (hhalf.trans_ne (Nat.two_pow_pos bits).ne') hzs
  have hflat : (List.replicate (2 ^ bits) (c, c)).flatMap (fun z => [z.1, z.2]) = List.replicate (2 * 2 ^ bits) c := by
    refine List.eq_replicate_iff.mpr ⟨by simp [Nat.mul_comm], fun a ha => ?_⟩
    obtain ⟨z, hz, ha⟩ := List.mem_flatMap.mp ha
    rw [List.eq_of_mem_replicate hz] at ha
    simpa using ha
  unfold refInverse
  dsimp only
  rw [hpacked, hhalf, fft_dc hc false hbits hys, hflat]
  refine List.eq_replicate_iff.mpr ⟨tab_length _ _, Exact.forall_mem_tab fun i hi => ?_⟩
  have hget : ∀ j, j < 2 * 2 ^ bits → (List.replicate (2 * 2 ^ bits) c).getD j F32.zero = c :=
    fun j hj => List.getD_replicate _ hj
  split
  · exact hget _ (by omega)
  · exact hget _ (by omega)

/-- Every length: the DC value becomes the constant. -/
theorem idct1_dc {c : F32} (hc : AbsorbsZeros c) {n : Nat} (hn : lengthOk n) {zs : List F32} (hlen : zs.length + 1 = n)
    (hzs : ∀ a ∈ zs, a.isZero = true) : idct1 .ref n (c :: zs) = List.replicate n c := by
  obtain ⟨k, hk, rfl⟩ := hn
  rcases k with _ | _ | bits
  · rw [List.length_eq_zero_iff.mp (show zs.length = 0 by omega)]
    rfl
  · obtain ⟨z, rfl⟩ := List.length_eq_one_iff.mp (show zs.length = 1 by omega)
    have hz := hc z (hzs z List.mem_cons_self)
    have hout : idct1 .ref 2 [c, z] = [c.add z, c.sub z] := rfl
    rw [zero_add, pow_one, hout, hz.1, hz.2]
    rfl
  · have hdouble : 2 ^ (bits + 1 + 1) = 2 * 2 ^ (bits + 1) := pow_succ' 2 (bits + 1)
    have hlarge : 2 ≤ 2 ^ (bits + 1) := Nat.le_self_pow (Nat.succ_ne_zero bits) 2
    unfold idct1
    rw [if_neg (by omega), if_neg (by omega), hdouble]
    exact refInverse_dc hc (by omega) hzs

/-- Two passes in either order: `p` is the block as the first pass sees it. -/
theorem two_passes_dc {c : F32} (hc : AbsorbsZeros c) {n m : Nat} (hn : lengthOk n) (hm : lengthOk m) {p : Nat → Nat → F32}
    (h0 : p 0 0 = c) (hz : ∀ x y, x ≠ 0 ∨ y ≠ 0 → (p x y).isZero = true) {u v : Nat} (hu : u < n) (hv : v < m) :
    (idct1 .ref m (tab m fun y => (idct1 .ref n (tab n fun x => p x y)).getD u F32.zero)).getD v F32.zero = c := by
  obtain ⟨i, hi⟩ : ∃ i, n = i + 1 := ⟨n - 1, by omega⟩
  obtain ⟨j, hj⟩ : ∃ j, m = j + 1 := ⟨m - 1, by omega⟩
  have hfirst : (idct1 .ref n (tab n fun x => p x 0)).getD u F32.zero = c := by
    rw [hi, tab_succ, h0, idct1_dc hc (hi ▸ hn) (by rw [tab_length])
      (Exact.forall_mem_tab fun x _ => hz _ _ (.inl (Nat.succ_ne_zero x)))]
    exact List.getD_replicate _ (hi ▸ hu)
  have hothers : ∀ y, ((idct1 .ref n (tab n fun x => p x (y + 1))).getD u F32.zero).isZero = true := fun y =>
    getD_of_forall (idct1_zero _ (Exact.forall_mem_tab fun x _ => hz _ _ (.inr (Nat.succ_ne_zero y)))) rfl u
  rw [hj, tab_succ, hfirst, idct1_dc hc (hj ▸ hm) (by rw [tab_length]) (Exact.forall_mem_tab fun y _ => hothers y)]
  exact List.getD_replicate _ (hj ▸ hv)

theorem Block.shaped.eq_tabulate {w h : Nat} {b : Block} (hb : Block.shaped w h b) {f : Nat → Nat → F32}
    (hf : ∀ x y, x < w → y < h → b.at x y = f x y) : b = tabulate w h f := by
  rw [Exact.list_eq_tab b h [] hb.1]
  refine tab_congr fun y hy => ?_
  rw [Exact.row_eq_tab hb y hy]
  exact tab_congr fun x hx => hf x y hx hy

theorem idct2_dc {c : F32} (hc : AbsorbsZeros c) {w h : Nat} (hw : lengthOk w) (hh : lengthOk h) {p : Nat → Nat → F32}
    (h0 : p 0 0 = c) (hz : ∀ x y, x ≠ 0 ∨ y ≠ 0 → (p x y).isZero = true) :
    idct2 .ref w h (tabulate w h p) = tabulate w h fun _ _ => c := by
  refine (idct2_shaped .ref w h _ (tabulate_shaped w h p)).eq_tabulate fun u v hu hv => ?_
  rcases le_or_gt h w with hle | hlt
  · exact (separable_rows_first (idct1_keeps_length .ref) hv hle hu).trans (two_passes_dc hc hw hh h0 hz hu hv)
  · exact (separable_columns_first (idct1_keeps_length .ref) hv hlt).trans
      (two_passes_dc (p := fun y x => p x y) hc hh hw h0 (fun y x hyx => hz x y hyx.symm) hv hu)

/-! ### `AUX2` on a constant corner (43_dispatch.md R167, R169) -/

/-- The 8 x 8 block holds `c` in its `k` x `k` corner and zeros elsewhere. -/
def CornerIs (c : F32) (k : Nat) (b : Block) : Prop :=
  ∀ x y, x < 8 → y < 8 → (x < k → y < k → b.at x y = c) ∧ (k ≤ x ∨ k ≤ y → (b.at x y).isZero = true)

/-- `AUX2` at twice the side of the corner doubles the corner. -/
theorem aux2_corner {c : F32} (hc : AbsorbsZeros c) {k : Nat} (hk : 2 * k ≤ 8) {b : Block} (hb : CornerIs c k b) :
    CornerIs c (2 * k) (aux2 b (2 * k)) := by
  intro x y hx hy
  unfold aux2
  rw [Block.at_tabulate _ _ _ hx hy]
  refine ⟨fun hxk hyk => ?_, fun hout => ?_⟩
  · have h00 : b.at (x / 2) (y / 2) = c := (hb _ _ (by omega) (by omega)).1 (by omega) (by omega)
    have h01 := (hb (x / 2 + k) (y / 2) (by omega) (by omega)).2 (by omega)
    have h10 := (hb (x / 2) (y / 2 + k) (by omega) (by omega)).2 (by omega)
    have h11 := (hb (x / 2 + k) (y / 2 + k) (by omega) (by omega)).2 (by omega)
    rw [if_pos ⟨hxk, hyk⟩, Nat.mul_div_cancel_left k (by norm_num)]
    dsimp only
    rw [h00, (hc _ h01).1, (hc _ h01).2, (hc _ h10).1, (hc _ h10).2, (hc _ h11).1, (hc _ h11).2]
    simp only [ite_self]
  · rw [if_neg (by omega)]
    exact (hb x y hx hy).2 (by omega)

theorem pathDct2_dc {c : F32} (hc : AbsorbsZeros c) (p : Params) {b : Block} (hb : CornerIs c 1 b) :
    pathDct2 p b = tabulate 8 8 fun _ _ => c := by
  have hfull : CornerIs c 8 (pathDct2 p b) :=
    aux2_corner hc (k := 4) (by norm_num) (aux2_corner hc (k := 2) (by norm_num) (aux2_corner hc (k := 1) (by norm_num) hb))
  exact (pathDct2_shaped p b).eq_tabulate fun x y hx hy => (hfull x y hx hy).1 hx hy

/-- Settles O59: a finite nonzero word absorbs zeros, so the DC value passes every sum unchanged. -/
theorem dcOnlyBlocksBecomeConstant : Obligations.DcOnlyBlocksBecomeConstant := by
  intro w h c b hw hh hfin hnz h0 hz
  have hc := absorbsZeros_word hfin hnz
  refine ⟨idct2_dc hc hw hh h0 hz, fun p => pathDct2_dc hc p fun x y hx hy => ?_⟩
  rw [Block.at_tabulate _ _ _ hx hy]
  refine ⟨fun hx1 hy1 => ?_, fun hout => hz x y (by omega)⟩
  obtain ⟨rfl, rfl⟩ : x = 0 ∧ y = 0 := by omega
  exact h0

end Sys2Proof.Machine
end

section
/-! PROOFS. The fixed paths of the dispatcher position by position (43_dispatch.md R167 to R178): each path is put together
from arrays of known shape, and a position of the whole is a position of the part it lies in. -/

namespace Sys2Proof.Machine

/-! ### Putting arrays together -/

section Arrays
variable {w w' h : Nat} {a b : Block} {x y : Nat}

theorem Block.at_above (hy : y < a.length) : Block.at (a ++ b) x y = a.at x y := by
  unfold Block.at
  rw [List.getD_append _ _ _ _ hy]

theorem Block.at_below : Block.at (a ++ b) x (a.length + y) = b.at x y := by
  unfold Block.at
  rw [List.getD_append_right _ _ _ _ (Nat.le_add_right _ _), Nat.add_sub_cancel_left]

theorem getD_beside (hab : a.length = b.length) : (List.zipWith (· ++ ·) a b).getD y [] = a.getD y [] ++ b.getD y [] := by
  rcases lt_or_ge y a.length with hy | hy
  · simp only [List.getD_eq_getElem?_getD, List.getElem?_zipWith, List.getElem?_eq_getElem hy,
      List.getElem?_eq_getElem (hab ▸ hy), Option.getD_some]
  · simp only [List.getD_eq_getElem?_getD, List.getElem?_zipWith, List.getElem?_eq_none hy,
      List.getElem?_eq_none (hab ▸ hy), Option.getD_none, List.append_nil]

theorem Block.shaped.row_length (ha : Block.shaped w h a) (hy : y < h) : (a.getD y []).length = w := by
  rw [List.getD_eq_getElem _ _ (ha.1.symm ▸ hy)]
  exact ha.2 _ (List.getElem_mem _)

theorem Block.at_left (ha : Block.shaped w h a) (hb : Block.shaped w' h b) (hx : x < w) (hy : y < h) :
    Block.at (List.zipWith (· ++ ·) a b) x y = a.at x y := by
  unfold Block.at
  rw [getD_beside (ha.1.trans hb.1.symm), List.getD_append _ _ _ _ ((ha.row_length hy).symm ▸ hx)]

theorem Block.at_right (ha : Block.shaped w h a) (hb : Block.shaped w' h b) (hy : y < h) :
    Block.at (List.zipWith (· ++ ·) a b) (w + x) y = b.at x y := by
  have hw := ha.row_length hy
  unfold Block.at
  rw [getD_beside (ha.1.trans hb.1.symm), List.getD_append_right _ _ _ _ (hw ▸ Nat.le_add_right _ _), hw,
    Nat.add_sub_cancel_left]

theorem transpose_tabulate (w h : Nat) (f : Nat → Nat → F32) :
    transpose w (tabulate w h f) = tabulate h w fun x y => f y x :=
  (transpose_shaped w h _ (tab_length _ _)).eq_tabulate fun y x hy hx =>
    (Exact.at_transpose w x y (tabulate w h f) hx ((tabulate_shaped w h f).1.symm ▸ hy)).trans
      (Block.at_tabulate w h f hx hy)

theorem tab_add {α : Type} (m n : Nat) (f : Nat → α) : tab (m + n) f = tab m f ++ tab n fun i => f (m + i) := by
  unfold tab
  rw [List.range_add, List.map_append, List.map_map]
  rfl

/-- An array read row by row. -/
theorem tabulate_flatten (hw : 0 < w) (h : Nat) (f : Nat → Nat → F32) :
    (tabulate w h f).flatten = tab (w * h) fun i => f (i % w) (i / w) := by
  induction h generalizing f with
  | zero => rfl
  | succ h ih =>
    have hcons : tabulate w (h + 1) f = (tab w fun x => f x 0) :: tabulate w h fun x y => f x (y + 1) := tab_succ _ _
    rw [hcons, List.flatten_cons, ih, Nat.mul_succ, Nat.add_comm (w * h), tab_add]
    congr 1
    · exact tab_congr fun i hi => by rw [Nat.mod_eq_of_lt hi, Nat.div_eq_of_lt hi]
    · exact tab_congr fun i _ => by rw [Nat.add_mod_left, Nat.add_div_left _ hw]

end Arrays

/-! ### `AUX2` (43_dispatch.md R167, R169) -/

theorem aux2_at_outside {b : Block} {s x y : Nat} (hx : x < 8) (hy : y < 8) (h : s ≤ x ∨ s ≤ y) :
    (aux2 b s).at x y = b.at x y := by
  unfold aux2
  rw [Block.at_tabulate _ _ _ hx hy, if_neg (by omega)]

/-- Result (i, j) of super-cell (x, y). -/
theorem aux2_at_cell {b : Block} {s x y i j : Nat} (hs : s ≤ 8) (hx : 2 * x + i < s) (hy : 2 * y + j < s) (hi : i < 2)
    (hj : j < 2) :
    let c00 := b.at x y
    let c01 := b.at (x + s / 2) y
    let c10 := b.at x (y + s / 2)
    let c11 := b.at (x + s / 2) (y + s / 2)
    (aux2 b s).at (2 * x + i) (2 * y + j) =
      if i = 0 then
        if j = 0 then ((c00.add c01).add c10).add c11 else ((c00.sub c01).add c10).sub c11
      else
        if j = 0 then ((c00.add c01).sub c10).sub c11 else ((c00.sub c01).sub c10).add c11 := by
  unfold aux2
  rw [Block.at_tabulate _ _ _ (by omega) (by omega), if_pos ⟨hx, hy⟩, show (2 * x + i) / 2 = x by omega,
    show (2 * y + j) / 2 = y by omega, show (2 * x + i) % 2 = i by omega, show (2 * y + j) % 2 = j by omega]

/-- Settles O50: each output belongs to one super-cell, and the parity of its position says which of the four results it
is. -/
theorem aux2MixesSuperCells : Obligations.Aux2MixesSuperCells := by
  intro s hs b
  have hs8 : s ≤ 8 ∧ s % 2 = 0 := by
    simp only [List.mem_cons, List.not_mem_nil, or_false] at hs
    omega
  obtain ⟨hle, heven⟩ := hs8
  refine ⟨fun x y hx hy => ⟨?_, ?_, ?_, ?_⟩, fun x y hx hy h => aux2_at_outside hx hy h, fun _ => rfl⟩
  · exact aux2_at_cell (i := 0) (j := 0) hle (by omega) (by omega) (by omega) (by omega)
  · exact aux2_at_cell (i := 1) (j := 0) hle (by omega) (by omega) (by omega) (by omega)
  · exact aux2_at_cell (i := 0) (j := 1) hle (by omega) (by omega) (by omega) (by omega)
  · exact aux2_at_cell (i := 1) (j := 1) hle (by omega) (by omega) (by omega) (by omega)

/-! ### The quadrant paths (43_dispatch.md R170, R171) -/

theorem fromQuadrants_at (q : Nat → Nat → Block) {qx qy x y : Nat} (hqx : qx < 2) (hqy : qy < 2) (hx : x < 4)
    (hy : y < 4) : (fromQuadrants q).at (4 * qx + x) (4 * qy + y) = (q qx qy).at x y := by
  unfold fromQuadrants
  dsimp only
  rw [Block.at_tabulate _ _ _ (by omega) (by omega)]
  obtain rfl | rfl : qy = 0 ∨ qy = 1 := by omega
  · rw [if_pos (by omega), Nat.mul_zero, Nat.zero_add]
    obtain rfl | rfl : qx = 0 ∨ qx = 1 := by omega
    · rw [if_pos (by omega), Nat.mul_zero, Nat.zero_add]
    · rw [if_neg (by omega), Nat.mul_one, Nat.add_sub_cancel_left]
  · rw [if_neg (by omega), Nat.mul_one, Nat.add_sub_cancel_left]
    obtain rfl | rfl : qx = 0 ∨ qx = 1 := by omega
    · rw [if_pos (by omega), Nat.mul_zero, Nat.zero_add]
    · rw [if_neg (by omega), Nat.mul_one, Nat.add_sub_cancel_left]

/-- The Hornuss mixing of the sixteen values `f 0`, …, `f 15`. -/
theorem hornussMix_getD (excludes5 : Bool) (f : Nat → F32) {i : Nat} (hi : i < 16) :
    let idx := if excludes5 then [1, 2, 3, 4, 6, 7, 8, 9, 10, 11, 12, 13, 14, 15]
      else [1, 2, 3, 4, 5, 6, 7, 8, 9, 10, 11, 12, 13, 14, 15]
    let avg := (f 0).sub ((idx.foldl (fun acc i => acc.add (f i)) F32.zero).mul F32.sixteenth)
    (hornussMix excludes5 (tab 16 f)).getD i F32.zero =
      if i = 0 then (f 5).add avg else if i = 5 then avg else (f i).add avg := by
  unfold hornussMix
  dsimp only
  rw [tab_getD _ _ _ _ hi, tab_getD _ _ _ _ hi]
  cases excludes5 <;> rfl

section Quadrants
variable (p : Params) (b : Block) {qx qy x y : Nat} (hqx : qx < 2) (hqy : qy < 2) (hx : x < 4) (hy : y < 4)
include hqx hqy hx hy

theorem pathDct4_at : (pathDct4 p b).at (4 * qx + x) (4 * qy + y) =
    (idct2 p.numerics 4 4 (quadrant (aux2 b 2) qx qy)).at x y := by
  unfold pathDct4
  exact fromQuadrants_at _ hqx hqy hx hy

theorem pathHornuss_at : (pathHornuss p b).at (4 * qx + x) (4 * qy + y) =
    (hornussMix p.hornussSumExcludes5 (quadrant (aux2 b 2) qx qy).flatten).getD (4 * y + x) F32.zero := by
  unfold pathHornuss
  dsimp only
  rw [fromQuadrants_at _ hqx hqy hx hy, block4, Block.at_tabulate _ _ _ hx hy, Nat.mul_comm y 4]

end Quadrants

/-- Settles O51: a position of either path lies in one quadrant, and the quadrant's coefficients are its flat list. -/
theorem quadrantPathsDct4AndHornuss : Obligations.QuadrantPathsDct4AndHornuss := by
  intro p b qx qy x y hqx hqy hx hy
  refine ⟨pathDct4_at p b hqx hqy hx hy, ?_⟩
  intro s idx avg
  have hflat : (quadrant (aux2 b 2) qx qy).flatten = tab 16 s := tabulate_flatten (by norm_num) 4 _
  rw [pathHornuss_at p b hqx hqy hx hy, hflat]
  exact hornussMix_getD p.hornussSumExcludes5 s (by omega)

/-! ### The half paths (43_dispatch.md R172, R173) -/

/-- Settles O52: the halves are stacked in one path and lie side by side, transposed, in the other. -/
theorem halfPathsDct4X8AndDct8X4 : Obligations.HalfPathsDct4X8AndDct8X4 := by
  intro p b h x y hh dc sub
  have hlayout : halfLayout b h = tabulate 8 4 sub := rfl
  have hupper := (idct2_shaped p.numerics 8 4 _ (halfLayout_shaped b 0)).1
  have hbeside : ∀ k, Block.shaped 4 8 (idct2 p.numerics 4 8 (transpose 8 (halfLayout b k))) := fun k =>
    idct2_shaped p.numerics 4 8 _ (transpose_shaped 8 4 _ (halfLayout_shaped b k).1)
  rw [← hlayout, ← transpose_tabulate, ← hlayout]
  obtain rfl | rfl : h = 0 ∨ h = 1 := by omega
  · rw [Nat.mul_zero, Nat.zero_add, Nat.zero_add]
    exact ⟨fun _ hy => Block.at_above (hupper.symm ▸ hy), fun hx hy => Block.at_left (hbeside 0) (hbeside 1) hx hy⟩
  · refine ⟨fun _ _ => ?_, fun _ hy => Block.at_right (hbeside 0) (hbeside 1) hy⟩
    rw [Nat.mul_one, ← hupper]
    exact Block.at_below

/-! ### The AFV paths (43_dispatch.md R174 to R178) -/

/-- Sample `i` of the basis quadrant: the dot product of the coefficients with basis column `i`. -/
theorem afvQuadrant_getD (p : Params) (b : Block) {i : Nat} (hi : i < 16) :
    (afvQuadrant p b).getD i F32.zero = (List.range 16).foldl (fun acc j => acc.add
      ((if j = 0 then (afvDc b).1 else b.at (2 * (j % 4)) (2 * (j / 4))).mul (afvBasisEntry p j i))) F32.zero := by
  unfold afvQuadrant
  rw [tab_getD _ _ _ _ hi, afvSample]
  refine List.foldl_ext _ _ _ fun acc j hj => ?_
  rw [tab_getD _ _ _ _ (List.mem_range.mp hj)]

/-- A position of `AFV(B, kind)` in the rows of the basis quadrant, or in the other rows. -/
theorem afv_at (kind : Nat) (p : Params) (b : Block) {x y : Nat} (hx : x < 8) (hy : y < 8) :
    let fx := kind % 2
    let fy := kind / 2
    (afv kind p b).at x y =
      if y / 4 = fy then
        if x / 4 = fx then
          (afvQuadrant p b).getD
            ((if fy = 1 then 3 - (y - 4 * fy) else y - 4 * fy) * 4 + (if fx = 1 then 3 - (x - 4 * fx) else x - 4 * fx))
            F32.zero
        else (afvQ4 p b).at (x - (if fx = 1 then 0 else 4)) (y - 4 * fy)
      else (afvQ8 p b).at x (y - (if fy = 1 then 0 else 4)) :=
  Block.at_tabulate _ _ _ hx hy

/-- Settles O53: the three parts lie where the flip flags say, and each is what the rule gives. -/
theorem afvPartsAndPlacement : Obligations.AfvPartsAndPlacement := by
  refine ⟨fun _ _ => ⟨rfl, rfl, rfl, rfl⟩, fun p b kind hkind => ?_⟩
  intro fx fy dcs0 dcs1 dcs2 cf blk
  have hfx : fx < 2 := Nat.mod_lt _ (by norm_num)
  have hfy : fy < 2 := by omega
  refine ⟨fun ix iy hix hiy => ?_, fun x y hx hy => ?_, fun x y hx hy => ?_⟩
  · rw [afv_at kind p b (by omega) (by omega), if_pos (by omega), if_pos (by omega), Nat.add_sub_cancel_left,
      Nat.add_sub_cancel_left]
    exact afvQuadrant_getD p b (by split <;> split <;> omega)
  · have hbeside : ¬ ((if fx = 1 then 0 else 4) + x) / 4 = fx := by split <;> omega
    rw [afv_at kind p b (by split <;> omega) (by omega), if_pos (by omega), if_neg hbeside, Nat.add_sub_cancel_left,
      Nat.add_sub_cancel_left]
    rfl
  · have hother : ¬ ((if fy = 1 then 0 else 4) + y) / 4 = fy := by split <;> omega
    rw [afv_at kind p b hx (by split <;> omega), if_neg hother, Nat.add_sub_cancel_left]
    rfl

end Sys2Proof.Machine
end

section
/-! PROOFS. The ITX commands (43_dispatch.md R165 to R198): their checks in order, the fixed tags, the general tags in place
and with reallocation, and the unsupported tags. -/

namespace Sys2Proof.Machine

open Claims

/-! ### Which plan each command runs (43_dispatch.md R166, R198) -/

theorem planOf_generalItx (d : Slot) (s : State) : ∀ g ∈ generalItx, planOf (g.2 d) s = planGeneral g.1 d s := by
  simp only [generalItx, List.forall_mem_cons]
  exact ⟨rfl, rfl, rfl, rfl, rfl, rfl, rfl, rfl, rfl, rfl, rfl, rfl, rfl, rfl, rfl, rfl, rfl, rfl, List.forall_mem_nil _⟩

theorem generalItx_lt : ∀ g ∈ generalItx, g.1 < 27 := by decide

theorem planOf_fixedItx (d : Slot) (s : State) : ∀ g ∈ fixedItx, planOf (g.2.1 d) s = planFixed g.1 g.2.2 d s := by
  simp only [fixedItx, List.forall_mem_cons]
  exact ⟨rfl, rfl, rfl, rfl, rfl, rfl, rfl, rfl, rfl, List.forall_mem_nil _⟩

theorem fixedItx_tag : ∀ g ∈ fixedItx, g.1 ∈ fixedTags := by decide

theorem fixedItx_shaped (p : Params) (b : Block) : ∀ g ∈ fixedItx, Block.shaped 8 8 (g.2.2 p b) := by
  simp only [fixedItx, List.forall_mem_cons]
  exact ⟨pathHornuss_shaped p b, pathDct2_shaped p b, pathDct4_shaped p b, pathDct4X8_shaped p b, pathDct8X4_shaped p b,
    afv_shaped 0 p b, afv_shaped 1 p b, afv_shaped 2 p b, afv_shaped 3 p b, List.forall_mem_nil _⟩

theorem planOf_unsupportedItx {d : Slot} {i : Instr} (h : unsupportedItx d i) (s : State) :
    planOf i s = planUnsupported d s := by
  obtain rfl | ⟨tt, -, rfl⟩ := h
  · rfl
  · rfl

/-! ### The unsupported tags (43_dispatch.md R198) -/

/-- Settles O49: the plan checks the slot and looks at no operand. -/
theorem unsupportedTagsTakeTheirFault : Obligations.UnsupportedTagsTakeTheirFault := fun _ _ s hi =>
  ⟨fun hk => exec_faulted ((planOf_unsupportedItx hi s).trans (withDesc_empty hk)),
    fun hk => exec_faulted ((planOf_unsupportedItx hi s).trans (withDesc_defined hk))⟩

/-! ### The target check and the written region (43_dispatch.md R165, R168, R179) -/

section Checks
variable {d : Slot} {s : State} {tt : Nat} {f : Desc → Verdict}

theorem withTarget_empty (hk : (s.desc[d]).kind = .empty) : withTarget tt d s f = .raises .badDesc := withDesc_empty hk

theorem withTarget_mismatch (hk : (s.desc[d]).kind ≠ .empty)
    (ht : (s.larg[0].toNat, s.larg[1].toNat) ≠ s.params.ttDim tt) : withTarget tt d s f = .raises .dimMismatch :=
  (withDesc_defined hk).trans (if_pos ht)

theorem withTarget_match (hk : (s.desc[d]).kind ≠ .empty)
    (ht : (s.larg[0].toNat, s.larg[1].toNat) = s.params.ttDim tt) : withTarget tt d s f = f s.desc[d] :=
  (withDesc_defined hk).trans (if_neg (not_not_intro ht))

end Checks

/-- Completing a plan that writes the rows of `x` makes the region of `x` the array. -/
theorem regionBecomes_of_writes {s : State} {x : Desc} {w h : Nat} {b : Block} {p : Plan}
    (hp : p.writes = x.blockRuns b) (hx : x.w ≤ x.stride.toNat) (hw : x.w = w) (hh : x.h = h)
    (hb : Block.shaped w h b) : regionBecomes s (s.applyPlan p).complete x b := by
  subst hw hh
  have hsram : (s.applyPlan p).complete.sram = s.sram.putRuns (x.blockRuns b) := hp ▸ rfl
  refine ⟨fun col row hc hr => ?_, fun a ha => ?_⟩
  · unfold State.sramWord
    rw [hsram]
    exact Memory.wordFrom_blockRuns s.powerOns s.sram hx hb hc hr
  · unfold State.sramByte
    rw [hsram]
    exact Memory.byteFrom_blockRuns_outside s.powerOns s.sram hb fun col row hc hr heq => ha ⟨col, row, hc, hr, heq⟩

/-! ### The fixed tags (43_dispatch.md R165, R168) -/

section Fixed
variable {tt : Nat} {path : Params → Block → Block} {d : Slot} {s : State}
variable (hk : (s.desc[d]).kind ≠ .empty) (htt : s.params.ttDim tt = (8, 8))
include hk htt

theorem planFixed_mismatch
    (h : (s.larg[0].toNat, s.larg[1].toNat) ≠ (8, 8) ∨ (s.desc[d]).w ≠ 8 ∨ (s.desc[d]).h ≠ 8) :
    planFixed tt path d s = .raises .dimMismatch := by
  unfold planFixed
  by_cases htarget : (s.larg[0].toNat, s.larg[1].toNat) = (8, 8)
  · rw [withTarget_match hk (htarget.trans htt.symm)]
    exact if_pos (h.resolve_left (not_not_intro htarget))
  · exact withTarget_mismatch hk (htt ▸ htarget)

theorem planFixed_runs (hl : (s.desc[d]).Legal s.params) (h0 : s.larg[0].toNat = 8) (h1 : s.larg[1].toNat = 8)
    (hw : (s.desc[d]).w = 8) (hh : (s.desc[d]).h = 8) :
    planFixed tt path d s =
      .runs (.store ((s.desc[d]).blockRuns (path s.params (samples s (s.desc[d]))))) := by
  have hsize : ¬ ((s.desc[d]).w ≠ 8 ∨ (s.desc[d]).h ≠ 8) := by rw [hw, hh]; decide
  unfold planFixed
  rw [withTarget_match hk (by rw [h0, h1, htt]), if_neg hsize, onMap_of_legal hl hk, State.block_eq_tabulate]
  rfl

end Fixed

/-- Settles O46: the target of a fixed tag is 8 x 8 in every legal build, and every path gives an 8 x 8 array. -/
theorem fixedTagsTransformAnEightByEightBlock : Obligations.FixedTagsTransformAnEightByEightBlock := by
  intro g hg d s hs hk
  have hplan := planOf_fixedItx d s g hg
  have htt := hs.params_legal.dims_fixed g.1 (fixedItx_tag g hg)
  have hl := hs.desc_legal d
  refine ⟨fun h => exec_faulted (hplan.trans (planFixed_mismatch hk htt h)), fun h0 h1 hw hh => ?_⟩
  exact ⟨_, exec_of_runs (hplan.trans (planFixed_runs hk htt hl h0 h1 hw hh)),
    regionBecomes_of_writes rfl (hl.width_le_stride hk) hw hh (fixedItx_shaped _ _ g hg), rfl, rfl⟩

/-! ### The coefficients of the general path (43_dispatch.md R179) -/

theorem chunks_at {w n : Nat} {l : List F32} {x y : Nat} (hx : x < w) (hy : y < n) :
    (chunks w n l).at x y = l.getD (y * w + x) F32.zero := by
  induction n generalizing l y with
  | zero => exact absurd hy (Nat.not_lt_zero y)
  | succ n ih =>
    cases y with
    | zero =>
      show (l.take w).getD x F32.zero = _
      rw [Nat.zero_mul, Nat.zero_add, List.getD_eq_getElem?_getD, List.getD_eq_getElem?_getD, List.getElem?_take_of_lt hx]
    | succ y =>
      show (chunks w n (l.drop w)).at x y = _
      rw [ih (Nat.lt_of_succ_lt_succ hy), List.getD_eq_getElem?_getD, List.getD_eq_getElem?_getD, List.getElem?_drop,
        Nat.succ_mul, ← Nat.add_assoc, Nat.add_comm w]

/-- The flat copy holds the samples of the region, then zeros. -/
theorem flatCopy_getD (s : State) {x : Desc} (hw : 0 < x.w) {n i : Nat} (hi : i < n) :
    (flatCopy n (s.block x)).getD i F32.zero = flatAt s x i := by
  have hflat : (s.block x).flatten = tab (x.w * x.h) fun i => F32.ofWord (s.sramWord (x.addr (i % x.w) (i / x.w))) := by
    rw [State.block_eq_tabulate]
    exact tabulate_flatten hw _ _
  unfold flatCopy flatAt
  rw [hflat, List.getD_eq_getElem?_getD, List.getElem?_take_of_lt hi, ← List.getD_eq_getElem?_getD]
  split
  · next hin => rw [List.getD_append _ _ _ _ (by rwa [tab_length]), tab_getD _ _ _ _ hin]
  · next hout =>
    rw [List.getD_append_right _ _ _ _ (by rw [tab_length]; omega)]
    exact List.getD_replicate _ (by rw [tab_length]; omega)

theorem rowMajor_index_lt {a b m n : Nat} (ha : a < m) (hb : b < n) : a * n + b < m * n := by
  have hle : (a + 1) * n ≤ m * n := Nat.mul_le_mul_right n ha
  rw [Nat.succ_mul] at hle
  omega

/-- The coefficient array of the plan is that of R179. -/
theorem coefficients_eq (s : State) {x : Desc} (hw : 0 < x.w) (w h : Nat) :
    coefficients s.params.coeffLayout w h (flatCopy (w * h) (s.block x)) = generalCoefficients s x w h := by
  unfold generalCoefficients
  refine (coefficients_shaped _ w h _ (flatCopy_length _ _)).eq_tabulate fun u v hu hv => ?_
  unfold coefficients
  split
  · rw [Exact.at_transpose _ _ _ _ hv ((chunks_shaped h w _ (flatCopy_length _ _)).1.symm ▸ hu), chunks_at hv hu,
      flatCopy_getD s hw (rowMajor_index_lt hu hv)]
  · rw [chunks_at hu hv, flatCopy_getD s hw (Nat.mul_comm w h ▸ rowMajor_index_lt hv hu)]

theorem generalSamples_eq (s : State) {x : Desc} (hw : 0 < x.w) (w h : Nat) :
    generalSamples s.params w h (s.block x) = idct2 s.params.numerics w h (generalCoefficients s x w h) :=
  congrArg (idct2 s.params.numerics w h) (coefficients_eq s hw w h)

/-! ### The general tags (43_dispatch.md R179 to R197) -/

section General
variable {tt w h : Nat} {d : Slot} {s : State}
variable (hk : (s.desc[d]).kind ≠ .empty) (htt : s.params.ttDim tt = (w, h))
variable (h0 : s.larg[0].toNat = w) (h1 : s.larg[1].toNat = h)
include hk htt

theorem planGeneral_mismatch (ht : (s.larg[0].toNat, s.larg[1].toNat) ≠ (w, h)) :
    planGeneral tt d s = .raises .dimMismatch := withTarget_mismatch hk (htt ▸ ht)

include h0 h1

/-- With the right target the plan is a choice by the footprint. -/
theorem planGeneral_match :
    planGeneral tt d s =
      if ((s.desc[d]).w, (s.desc[d]).h) = (w, h) then
        onMap (s.desc[d]) s (.runs (.store ((s.desc[d]).blockRuns (generalSamples s.params w h (s.block (s.desc[d]))))))
      else if (s.desc[d]).kind = .view then .raises .dimMismatch
      else if s.params.sramWords < (s.desc[d]).origin + w * h then .raises .outOfRange
      else onMap (s.desc[d]) s (.runs (.define d ((s.desc[d]).reallocated w h)
        (((s.desc[d]).reallocated w h).blockRuns (generalSamples s.params w h (s.block (s.desc[d])))))) := by
  unfold planGeneral
  rw [withTarget_match hk (by rw [h0, h1, htt]), htt]

theorem planGeneral_inPlace (hl : (s.desc[d]).Legal s.params) (hsame : ((s.desc[d]).w, (s.desc[d]).h) = (w, h)) :
    planGeneral tt d s = .runs (.store ((s.desc[d]).blockRuns
      (idct2 s.params.numerics w h (generalCoefficients s (s.desc[d]) w h)))) := by
  rw [planGeneral_match hk htt h0 h1, if_pos hsame, onMap_of_legal hl hk, generalSamples_eq s (hl.width_pos hk)]

variable (hother : ((s.desc[d]).w, (s.desc[d]).h) ≠ (w, h))
include hother

theorem planGeneral_view (hv : (s.desc[d]).kind = .view) : planGeneral tt d s = .raises .dimMismatch := by
  rw [planGeneral_match hk htt h0 h1, if_neg hother, if_pos hv]

theorem planGeneral_outOfRange (hg : (s.desc[d]).kind = .grid)
    (hr : s.params.sramWords < (s.desc[d]).origin + w * h) : planGeneral tt d s = .raises .outOfRange := by
  rw [planGeneral_match hk htt h0 h1, if_neg hother, if_neg (by rw [hg]; decide), if_pos hr]

theorem planGeneral_reallocates (hl : (s.desc[d]).Legal s.params) (hg : (s.desc[d]).kind = .grid)
    (hfit : (s.desc[d]).origin + w * h ≤ s.params.sramWords) :
    planGeneral tt d s = .runs (.define d ((s.desc[d]).reallocated w h) (((s.desc[d]).reallocated w h).blockRuns
      (idct2 s.params.numerics w h (generalCoefficients s (s.desc[d]) w h)))) := by
  rw [planGeneral_match hk htt h0 h1, if_neg hother, if_neg (by rw [hg]; decide), if_neg (not_lt.mpr hfit),
    onMap_of_legal hl hk, generalSamples_eq s (hl.width_pos hk)]

end General

theorem generalOutput_shaped (s : State) (x : Desc) (w h : Nat) :
    Block.shaped w h (idct2 s.params.numerics w h (generalCoefficients s x w h)) :=
  idct2_shaped _ _ _ _ (tabulate_shaped _ _ _)

/-- Settles O47: with the tag's footprint the general path writes the region itself. -/
theorem generalTagsTransformInPlace : Obligations.GeneralTagsTransformInPlace := by
  refine ⟨by decide, fun g hg d s w h hs hk htt h0 h1 hw hh => ?_⟩
  have hl := hs.desc_legal d
  have hplan := planGeneral_inPlace hk htt h0 h1 hl (by rw [hw, hh])
  exact ⟨_, exec_of_runs ((planOf_generalItx d s g hg).trans hplan),
    regionBecomes_of_writes rfl (hl.width_le_stride hk) hw hh (generalOutput_shaped s _ w h), rfl, rfl⟩

theorem reallocated_eq (x : Desc) (w h : Nat) : x.reallocated w h = reallocatedGrid x w h := by
  unfold Desc.reallocated Desc.make reallocatedGrid
  rw [BitVec.ofNat_toNat, BitVec.ofNat_toNat, BitVec.setWidth_eq, BitVec.setWidth_eq]

/-- Settles O48: a view and a grid that would not fit fault; otherwise the general path writes the region of the new
descriptor, whose size is the target because both lengths are good. -/
theorem generalTagsReallocateAGrid : Obligations.GeneralTagsReallocateAGrid := by
  intro g hg d s w h hs htt h0 h1 hother
  have hplan := planOf_generalItx d s g hg
  have hl := hs.desc_legal d
  refine ⟨fun hv => ?_, fun hk hr => ?_, fun hk hfit => ?_⟩
  · exact exec_faulted (hplan.trans (planGeneral_view (by rw [hv]; decide) htt h0 h1 hother hv))
  · exact exec_faulted (hplan.trans (planGeneral_outOfRange (by rw [hk]; decide) htt h0 h1 hother hk hr))
  · have hruns := planGeneral_reallocates (by rw [hk]; decide) htt h0 h1 hother hl hk hfit
    have hgood := ttDim_good hs.params_legal (generalItx_lt g hg)
    rw [htt] at hgood
    obtain ⟨hw, hh⟩ := reallocated_size (x := s.desc[d]) hgood.1 hgood.2
    rw [reallocated_eq] at hruns hw hh
    exact ⟨_, exec_of_runs (hplan.trans hruns), rfl,
      regionBecomes_of_writes rfl le_rfl hw hh (generalOutput_shaped s _ w h), rfl⟩

end Sys2Proof.Machine
end

section
/-! PROOFS. Blocks of zeros under the dispatcher (43_dispatch.md R199): every step of every path, sums, differences, products
with finite constants and 1-D transforms, takes zeros to zeros. -/

namespace Sys2Proof.Machine

open Claims

/-! ### Arrays of zeros -/

/-- Every value is a zero of either sign. -/
def Block.Zeros (b : Block) : Prop := ∀ row ∈ b, ∀ a ∈ row, a.isZero = true

theorem getD_isZero {l : List F32} (hl : ∀ a ∈ l, a.isZero = true) (i : Nat) : (l.getD i F32.zero).isZero = true :=
  getD_of_forall (P := fun a : F32 => a.isZero = true) hl rfl i

section Arrays
variable {b : Block}

/-- A read outside the array gives +0.0, so every read gives a zero. -/
theorem Block.Zeros.at (hb : b.Zeros) (x y : Nat) : (b.at x y).isZero = true :=
  getD_isZero (getD_of_forall (P := fun row : List F32 => ∀ a ∈ row, a.isZero = true) hb (List.forall_mem_nil _) y) x

theorem zeros_tabulate {w h : Nat} {f : Nat → Nat → F32} (hf : ∀ x y, (f x y).isZero = true) :
    (tabulate w h f).Zeros :=
  Exact.forall_mem_tab fun y _ => Exact.forall_mem_tab fun x _ => hf x y

theorem Block.Zeros.flatten (hb : b.Zeros) : ∀ a ∈ b.flatten, a.isZero = true := by
  intro a ha
  obtain ⟨row, hrow, hmem⟩ := List.mem_flatten.mp ha
  exact hb row hrow a hmem

theorem Block.Zeros.transpose (hb : b.Zeros) (w : Nat) : (transpose w b).Zeros :=
  Exact.forall_mem_tab fun x _ => List.forall_mem_map.mpr fun row hrow => getD_isZero (hb row hrow) x

/-- Both passes of the inverse transform keep zeros (42_dct2d.md R152). -/
theorem Block.Zeros.idct2 (hb : b.Zeros) (num : Numerics) (w h : Nat) : (idct2 num w h b).Zeros := by
  have hpass : ∀ n (c : Block), c.Zeros → Block.Zeros (c.map (idct1 num n)) := fun n c hc =>
    List.forall_mem_map.mpr fun row hrow => idct1_zero num (hc row hrow)
  unfold Machine.idct2 separable
  split
  · exact (hpass h _ ((hpass w b hb).transpose w)).transpose h
  · exact hpass w _ ((hpass h _ (hb.transpose w)).transpose h)

end Arrays

theorem isZero_foldl_add {f : Nat → F32} (hf : ∀ i, (f i).isZero = true) (l : List Nat) {a : F32}
    (ha : a.isZero = true) : (l.foldl (fun acc i => acc.add (f i)) a).isZero = true := by
  induction l generalizing a with
  | nil => exact ha
  | cons i l ih => exact ih (F32.isZero_add ha (hf i))

/-! ### The fixed paths (43_dispatch.md R167 to R178) -/

section Paths
variable {b : Block} (hb : b.Zeros) (p : Params)
include hb

theorem aux2_zeros (s : Nat) : (aux2 b s).Zeros := by
  refine zeros_tabulate fun x y => ?_
  dsimp only
  split
  · split
    · split
      · exact F32.isZero_add (F32.isZero_add (F32.isZero_add (hb.at _ _) (hb.at _ _)) (hb.at _ _)) (hb.at _ _)
      · exact F32.isZero_sub (F32.isZero_add (F32.isZero_sub (hb.at _ _) (hb.at _ _)) (hb.at _ _)) (hb.at _ _)
    · split
      · exact F32.isZero_sub (F32.isZero_sub (F32.isZero_add (hb.at _ _) (hb.at _ _)) (hb.at _ _)) (hb.at _ _)
      · exact F32.isZero_add (F32.isZero_sub (F32.isZero_sub (hb.at _ _) (hb.at _ _)) (hb.at _ _)) (hb.at _ _)
  · exact hb.at x y

theorem pathDct2_zeros : (pathDct2 p b).Zeros := by
  unfold pathDct2
  exact aux2_zeros (aux2_zeros (aux2_zeros hb 2) 4) 8

omit hb in
theorem fromQuadrants_zeros {q : Nat → Nat → Block} (hq : ∀ qx qy, (q qx qy).Zeros) : (fromQuadrants q).Zeros := by
  refine zeros_tabulate fun x y => ?_
  split
  · split
    · exact (hq 0 0).at _ _
    · exact (hq 1 0).at _ _
  · split
    · exact (hq 0 1).at _ _
    · exact (hq 1 1).at _ _

theorem quadrant_zeros (qx qy : Nat) : (quadrant b qx qy).Zeros := zeros_tabulate fun _ _ => hb.at _ _

theorem pathDct4_zeros : (pathDct4 p b).Zeros := by
  unfold pathDct4
  exact fromQuadrants_zeros fun qx qy => (quadrant_zeros (aux2_zeros hb 2) qx qy).idct2 p.numerics 4 4

omit hb in
theorem hornussMix_zero (excludes5 : Bool) {l : List F32} (hl : ∀ a ∈ l, a.isZero = true) :
    ∀ a ∈ hornussMix excludes5 l, a.isZero = true := by
  have hget : ∀ i, (l.getD i F32.zero).isZero = true := getD_isZero hl
  have havg : ∀ idx : List Nat, ((l.getD 0 F32.zero).sub
      ((idx.foldl (fun acc i => acc.add (l.getD i F32.zero)) F32.zero).mul F32.sixteenth)).isZero = true := fun idx =>
    F32.isZero_sub (hget 0) (F32.isZero_mul (isZero_foldl_add hget idx rfl) rfl)
  refine Exact.forall_mem_tab fun i _ => ?_
  split
  · exact F32.isZero_add (hget 5) (havg _)
  split
  · exact havg _
  · exact F32.isZero_add (hget i) (havg _)

theorem pathHornuss_zeros : (pathHornuss p b).Zeros := by
  unfold pathHornuss
  exact fromQuadrants_zeros fun qx qy => zeros_tabulate fun _ _ =>
    getD_isZero (hornussMix_zero _ (quadrant_zeros (aux2_zeros hb 2) qx qy).flatten) _

theorem halfLayout_zeros (h : Nat) : (halfLayout b h).Zeros := by
  refine zeros_tabulate fun u v => ?_
  split
  · split
    · exact F32.isZero_add (hb.at 0 0) (hb.at 0 1)
    · exact F32.isZero_sub (hb.at 0 0) (hb.at 0 1)
  · exact hb.at _ _

theorem pathDct4X8_zeros : (pathDct4X8 p b).Zeros :=
  List.forall_mem_append.mpr
    ⟨(halfLayout_zeros hb 0).idct2 p.numerics 8 4, (halfLayout_zeros hb 1).idct2 p.numerics 8 4⟩

theorem pathDct8X4_zeros : (pathDct8X4 p b).Zeros := by
  have hhalf : ∀ h, (idct2 p.numerics 4 8 (transpose 8 (halfLayout b h))).Zeros := fun h =>
    ((halfLayout_zeros hb h).transpose 8).idct2 p.numerics 4 8
  exact forall_mem_zipWith fun r hr r' hr' => List.forall_mem_append.mpr ⟨hhalf 0 r hr, hhalf 1 r' hr'⟩

theorem afvDc_zero : (afvDc b).1.isZero = true ∧ (afvDc b).2.1.isZero = true ∧ (afvDc b).2.2.isZero = true := by
  have hsum := F32.isZero_add (hb.at 0 0) (hb.at 0 1)
  exact ⟨F32.isZero_mul (F32.isZero_add hsum (hb.at 1 0)) rfl, F32.isZero_sub hsum (hb.at 1 0),
    F32.isZero_sub (hb.at 0 0) (hb.at 0 1)⟩

omit hb in
/-- A word whose magnitude bits are below those of the infinity is finite (00_scope.md R10). -/
theorem isFinite_ofWord_signed (neg : Bool) {m : Nat} (hm : m < 0x7F800000) :
    (F32.ofWord (BitVec.ofNat 32 (F32.signPart neg + m))).isFinite = true := by
  have hexp : ¬ (BitVec.ofNat 32 (F32.signPart neg + m)).toNat / 0x800000 % 256 = 255 := by
    rw [BitVec.toNat_ofNat]
    cases neg
    · show ¬ (0 + m) % 2 ^ 32 / 0x800000 % 256 = 255
      omega
    · show ¬ (0x80000000 + m) % 2 ^ 32 / 0x800000 % 256 = 255
      omega
  unfold F32.ofWord
  dsimp only
  rw [if_neg hexp]
  rfl

omit hb in
/-- An open entry is finite by its type, a known one by the law of a legal build (43_dispatch.md R174). -/
theorem afvBasisEntry_finite {p : Params} (hp : p.Legal) (j i : Nat) : (afvBasisEntry p j i).isFinite = true := by
  unfold afvBasisEntry
  split
  · next t ht => exact getD_of_forall (P := fun w => (F32.ofWord w).isFinite = true) (hp.basis_finite t ht) (by decide) _
  · exact isFinite_ofWord_signed (Config.afvEntry j i).1 (Config.afvEntry j i).2.isLt

theorem afvQuadrant_zero (hp : p.Legal) : ∀ a ∈ afvQuadrant p b, a.isZero = true := by
  refine Exact.forall_mem_tab fun i _ => isZero_foldl_add (fun j => ?_) _ rfl
  refine F32.isZero_mul (getD_isZero (Exact.forall_mem_tab fun k _ => ?_) j) (afvBasisEntry_finite hp j i)
  split
  · exact (afvDc_zero hb).1
  · exact hb.at _ _

theorem afvQ4_zeros : (afvQ4 p b).Zeros := by
  refine (zeros_tabulate fun ix iy => ?_).idct2 p.numerics 4 4
  split
  · exact (afvDc_zero hb).2.1
  · exact hb.at _ _

theorem afvQ8_zeros : (afvQ8 p b).Zeros := by
  refine (zeros_tabulate fun ix iy => ?_).idct2 p.numerics 8 4
  split
  · exact (afvDc_zero hb).2.2
  · exact hb.at _ _

theorem afv_zeros (hp : p.Legal) (kind : Nat) : (afv kind p b).Zeros := by
  refine zeros_tabulate fun x y => ?_
  split
  · split
    · exact getD_isZero (afvQuadrant_zero hb p hp) _
    · exact (afvQ4_zeros hb p).at _ _
  · exact (afvQ8_zeros hb p).at _ _

theorem fixedItx_zeros (hp : p.Legal) : ∀ g ∈ fixedItx, (g.2.2 p b).Zeros := by
  simp only [fixedItx, List.forall_mem_cons]
  exact ⟨pathHornuss_zeros hb p, pathDct2_zeros hb p, pathDct4_zeros hb p, pathDct4X8_zeros hb p, pathDct8X4_zeros hb p,
    afv_zeros hb p hp 0, afv_zeros hb p hp 1, afv_zeros hb p hp 2, afv_zeros hb p hp 3, List.forall_mem_nil _⟩

end Paths

/-! ### The commands (43_dispatch.md R199) -/

/-- The samples of the region are zeros. -/
def ZeroRegion (s : State) (x : Desc) : Prop :=
  ∀ col row, col < x.w → row < x.h → (F32.ofWord (s.sramWord (x.addr col row))).isZero = true

theorem ZeroRegion.samples {s : State} {x : Desc} (h : ZeroRegion s x) : (samples s x).Zeros :=
  Exact.forall_mem_tab fun row hr => Exact.forall_mem_tab fun col hc => h col row hc hr

/-- The flat copy of zeros is zeros, its fill included. -/
theorem ZeroRegion.generalCoefficients {s : State} {x : Desc} (h : ZeroRegion s x) (hw : 0 < x.w) (m n : Nat) :
    (generalCoefficients s x m n).Zeros := by
  have hflat : ∀ i, (flatAt s x i).isZero = true := by
    intro i
    unfold flatAt
    split
    · next hi => exact h _ _ (Nat.mod_lt i hw) (Nat.div_lt_of_lt_mul hi)
    · rfl
  refine zeros_tabulate fun u v => ?_
  split
  · exact hflat _
  · exact hflat _

/-- A region written with zeros reads zeros. -/
theorem ZeroRegion.of_regionBecomes {s t : State} {x : Desc} {b : Block} (h : regionBecomes s t x b) (hb : b.Zeros) :
    ZeroRegion t x := by
  intro col row hc hr
  obtain ⟨neg, hat⟩ := F32.isZero_cases (hb.at col row)
  rw [h.1 col row hc hr, hat]
  cases neg <;> decide

theorem exec_faulted_not_idle {i : Instr} {s t : State} {c : Nat} (h : exec i s = .next t) (hidle : t.engine = .idle)
    (hf : exec i s = .next (faulted s c)) : False := by
  have ht : t = faulted s c := Host.Outcome.next.inj (h.symm.trans hf)
  rw [ht] at hidle
  exact nomatch hidle

section Commands
variable {d : Slot} {s t : State} (hs : s.Inv) (hidle : t.engine = .idle) (hz : ZeroRegion s (s.desc[d]))
include hs hidle hz

theorem fixedItx_zeroRegion {g : Nat × (Slot → Instr) × (Params → Block → Block)} (hg : g ∈ fixedItx)
    (hexec : exec (g.2.1 d) s = .next t) : ZeroRegion t (t.desc[d]) := by
  have hk : (s.desc[d]).kind ≠ .empty := fun he =>
    exec_faulted_not_idle hexec hidle (exec_faulted ((planOf_fixedItx d s g hg).trans (withTarget_empty he)))
  obtain ⟨hfault, hruns⟩ := fixedTagsTransformAnEightByEightBlock g hg d s hs hk
  by_cases hbad : (s.larg[0].toNat, s.larg[1].toNat) ≠ (8, 8) ∨ (s.desc[d]).w ≠ 8 ∨ (s.desc[d]).h ≠ 8
  · exact (exec_faulted_not_idle hexec hidle (hfault hbad)).elim
  · simp only [ne_eq, Prod.mk.injEq, not_or, not_not] at hbad
    obtain ⟨⟨h0, h1⟩, hw, hh⟩ := hbad
    obtain ⟨t', ht', hregion, hdesc, -⟩ := hruns h0 h1 hw hh
    obtain rfl : t' = t := Host.Outcome.next.inj (ht'.symm.trans hexec)
    rw [hdesc]
    exact .of_regionBecomes hregion (fixedItx_zeros hz.samples _ hs.params_legal g hg)

theorem generalItx_zeroRegion {g : Nat × (Slot → Instr)} (hg : g ∈ generalItx) (hexec : exec (g.2 d) s = .next t) :
    ZeroRegion t (t.desc[d]) := by
  have hplan := planOf_generalItx d s g hg
  have hk : (s.desc[d]).kind ≠ .empty := fun he =>
    exec_faulted_not_idle hexec hidle (exec_faulted (hplan.trans (withTarget_empty he)))
  obtain ⟨w, h, htt⟩ : ∃ w h, s.params.ttDim g.1 = (w, h) := ⟨_, _, rfl⟩
  by_cases ht : (s.larg[0].toNat, s.larg[1].toNat) ≠ (w, h)
  · exact (exec_faulted_not_idle hexec hidle (exec_faulted (hplan.trans (planGeneral_mismatch hk htt ht)))).elim
  obtain ⟨h0, h1⟩ := Prod.mk.inj (not_not.mp ht)
  have hzeros := (hz.generalCoefficients ((hs.desc_legal d).width_pos hk) w h).idct2 s.params.numerics w h
  by_cases hsame : ((s.desc[d]).w, (s.desc[d]).h) = (w, h)
  · obtain ⟨hw, hh⟩ := Prod.mk.inj hsame
    obtain ⟨t', ht', hregion, hdesc, -⟩ := generalTagsTransformInPlace.2 g hg d s w h hs hk htt h0 h1 hw hh
    obtain rfl : t' = t := Host.Outcome.next.inj (ht'.symm.trans hexec)
    rw [hdesc]
    exact .of_regionBecomes hregion hzeros
  · obtain ⟨hview, hrange, hruns⟩ := generalTagsReallocateAGrid g hg d s w h hs htt h0 h1 hsame
    rcases hkind : (s.desc[d]).kind with _ | _ | _
    · exact absurd hkind hk
    · rcases lt_or_ge s.params.sramWords ((s.desc[d]).origin + w * h) with hr | hfit
      · exact (exec_faulted_not_idle hexec hidle (hrange hkind hr)).elim
      · obtain ⟨t', ht', hdesc, hregion, -⟩ := hruns hkind hfit
        obtain rfl : t' = t := Host.Outcome.next.inj (ht'.symm.trans hexec)
        have hslot : t'.desc[d] = reallocatedGrid (s.desc[d]) w h := by
          rw [hdesc]
          exact Vector.getElem_set_self _
        rw [hslot]
        exact .of_regionBecomes hregion hzeros
    · exact (exec_faulted_not_idle hexec hidle (hview hkind)).elim

end Commands

/-- Settles O58: a completed command has written its region with what its path makes of zeros, and every path keeps zeros. -/
theorem zeroBlocksStayZeroUnderEveryTag : Obligations.ZeroBlocksStayZeroUnderEveryTag := by
  intro i d s t hs hi hexec hidle hz
  obtain ⟨g, hg, rfl⟩ | ⟨g, hg, rfl⟩ := hi
  · exact generalItx_zeroRegion hs hidle hz hg hexec
  · exact fixedItx_zeroRegion hs hidle hz hg hexec

end Sys2Proof.Machine
end

section
/-! PROOFS. The statements about faults (60_exceptions.md): what fault entry and completion leave unchanged, which cause a
command reports, the ERROR state, the interrupt output and the bus error. That a plan reports the least cause that applies
is shown check by check: every plan makes its checks in the order of their codes. -/

namespace Sys2Proof.Machine

open Claims

/-! ### Fault entry and completion (60_exceptions.md R231, R232) -/

theorem faultEntry_eq_faulted (c : Cause) (s : State) : s.faultEntry c = faulted s c.code.toNat := by
  cases c <;> rfl

theorem engineStep_of_rejected_word {s : State} {why : IllegalWord} (h : decode s.lcmd = .rejected why) :
    engineStep s = .next (faulted s 1) := by
  rw [engineStep_of_rejected h, faultEntry_eq_faulted]
  rfl

/-- Settles O22: a fault carries out no plan, and a plan writes sample memory, descriptors, RDATA and RESULT only. -/
theorem faultsArePreciseAndCompletionIsFramed : Obligations.FaultsArePreciseAndCompletionIsFramed := by
  refine ⟨fun s why hd => engineStep_of_rejected_word hd, fun i s t h => ?_⟩
  rcases exec_next_cases h with ⟨p, -, rfl⟩ | ⟨c, -, rfl⟩
  · exact .inr ⟨rfl, rfl, rfl, rfl⟩
  · obtain ⟨hlo, hhi⟩ := c.code_bounds
    exact .inl ⟨c.code.toNat, hlo, hhi, faultEntry_eq_faulted c s⟩

/-! ### The least cause that applies (60_exceptions.md R230) -/

/-- The verdict reports the least of the cause codes with `P`, and runs a plan only where no code has it. -/
def Verdict.Reports (P : Nat → Prop) : Verdict → Prop
  | .runs _ => ∀ n, ¬ P n
  | .raises c => IsLeast {n | P n} c.code.toNat
  | .offMap _ => True

section Reports
variable {p q C D : Prop} [Decidable p] [Decidable q] {P Q : Nat → Prop} {e : Cause} {v : Verdict} {s : State}

/-- A bound on a cause code, from the form the conditions of a command have. -/
theorem le_of_code {k m n : Nat} (hkm : k ≤ m) (h : n = m ∧ C) : k ≤ n := h.1 ▸ hkm

theorem Verdict.Reports.congr (h : v.Reports P) (hPQ : ∀ n, Q n ↔ P n) : v.Reports Q :=
  (funext fun n => propext (hPQ n) : Q = P) ▸ h

/-- A verdict behind the last check: no cause is left. -/
theorem Verdict.Reports.runs (r : Plan) : (Verdict.runs r).Reports fun _ => False := fun _ => id

theorem onMap_reports {x : Desc} (h : v.Reports P) : (onMap x s v).Reports P := by
  unfold onMap
  split
  · exact h
  · trivial

/-- A check before the rest: its cause applies where it fails, and no cause of the rest has a lower code. -/
theorem Verdict.Reports.check (hp : p ↔ C) (hQ : ∀ n, Q n → e.code.toNat ≤ n) (hv : ¬ C → v.Reports Q) :
    (if p then .raises e else v).Reports fun n => (n = e.code.toNat ∧ C) ∨ Q n := by
  by_cases hC : C
  · rw [if_pos (hp.mpr hC)]
    refine ⟨.inl ⟨rfl, hC⟩, fun n hn => ?_⟩
    rcases hn with ⟨rfl, -⟩ | hn
    · exact le_rfl
    · exact hQ n hn
  · rw [if_neg (mt hp.mp hC)]
    exact (hv hC).congr fun n => or_iff_right fun h => hC h.2

theorem Verdict.Reports.lastCheck (hp : p ↔ C) (hv : ¬ C → v.Reports fun _ => False) :
    (if p then .raises e else v).Reports fun n => n = e.code.toNat ∧ C :=
  (Verdict.Reports.check hp (fun _ => False.elim) hv).congr fun _ => (or_false _).symm.to_iff

/-- Two last checks with one cause. -/
theorem Verdict.Reports.lastChecks (hp : p ↔ C) (hq : q ↔ D) (hv : ¬ (C ∨ D) → v.Reports fun _ => False) :
    (if p then .raises e else if q then .raises e else v).Reports fun n => n = e.code.toNat ∧ (C ∨ D) := by
  rw [← ite_or]
  exact .lastCheck (or_congr hp hq) hv

/-- A check that shares its cause with the next one. -/
theorem Verdict.Reports.sharedCheck (hp : p ↔ C) (hQ : ∀ n, Q n → e.code.toNat ≤ n)
    (hv : ¬ C → v.Reports fun n => (n = e.code.toNat ∧ D) ∨ Q n) :
    (if p then .raises e else v).Reports fun n => (n = e.code.toNat ∧ (C ∨ D)) ∨ Q n :=
  (Verdict.Reports.check hp (fun n h => h.elim (le_of_code le_rfl) (hQ n)) hv).congr fun _ => by
    rw [and_or_left, or_assoc]

theorem withDesc_reports {d : Slot} {f : Desc → Verdict} (hQ : ∀ n, Q n → 2 ≤ n)
    (hf : (s.desc[d]).kind ≠ .empty → (f s.desc[d]).Reports Q) :
    (withDesc d s f).Reports fun n => (n = 2 ∧ emptySlotAt s d) ∨ Q n := .check Iff.rfl hQ hf

end Reports

/-! ### Each command reports the least cause of R223 to R229 -/

section Plans
variable (d : Slot) (s : State)

theorem toNat_eq_zero_iff (w : Word) : w.toNat = 0 ↔ w = 0 := BitVec.toNat_inj (y := 0)

theorem planGridNew_reports : (planGridNew d s).Reports (applies (.gridNew d) s) :=
  .check (or_congr (toNat_eq_zero_iff _) (toNat_eq_zero_iff _)) (fun _ => le_of_code (by decide)) fun _ =>
    .lastCheck Iff.rfl fun _ => .runs _

theorem planViewNew_reports : (planViewNew d s).Reports (applies (.viewNew d) s) :=
  .check (or_congr (toNat_eq_zero_iff _) (or_congr (toNat_eq_zero_iff _) Iff.rfl)) (fun _ => le_of_code (by decide))
    fun _ => .lastCheck Iff.rfl fun _ => .runs _

theorem planGetSample_reports : (planGetSample d s).Reports (applies (.getSample d) s) :=
  withDesc_reports (fun _ => le_of_code (by decide)) fun _ =>
    .lastCheck inBounds_eq_false_iff fun _ => onMap_reports (.runs _)

theorem planSetSample_reports : (planSetSample d s).Reports (applies (.setSample d) s) :=
  withDesc_reports (fun _ => le_of_code (by decide)) fun _ =>
    .lastCheck inBounds_eq_false_iff fun _ => onMap_reports (.runs _)

theorem planSwap_reports : (planSwap d s).Reports (applies (.swap d) s) :=
  withDesc_reports (fun _ => le_of_code (by decide)) fun _ =>
    .lastChecks inBounds_eq_false_iff inBounds_eq_false_iff fun _ => onMap_reports (.runs _)

theorem planWidenQ_reports : (planWidenQ d s).Reports (applies (.widenQ d) s) := .lastCheck Iff.rfl fun _ => .runs _

theorem goodLength_eq_false_iff (n : Nat) : goodLength n = false ↔ badLength n := by
  rw [← Bool.not_eq_true, goodLength_iff]
  rfl

theorem plan1d_reports (f : Numerics → Nat → List F32 → List F32) : (plan1d f s).Reports (conditions1d s) :=
  .check (goodLength_eq_false_iff _) (fun _ => le_of_code (by decide)) fun _ => .lastCheck Iff.rfl fun _ => .runs _

theorem plan2d_reports (f : Numerics → Nat → Nat → Block → Block) : (plan2d f d s).Reports (conditions2d d s) :=
  withDesc_reports (fun _ => le_of_code (by decide)) fun _ =>
    .lastCheck (or_congr (goodLength_eq_false_iff _) (goodLength_eq_false_iff _)) fun _ => onMap_reports (.runs _)

theorem planFixed_reports (tt : Nat) (path : Params → Block → Block) :
    (planFixed tt path d s).Reports (conditionsFixed tt d s) := by
  unfold planFixed withTarget
  exact withDesc_reports (fun _ => le_of_code (by decide)) fun _ =>
    .lastChecks Iff.rfl Iff.rfl fun _ => onMap_reports (.runs _)

theorem planUnsupported_reports : (planUnsupported d s).Reports (conditionsUnsupported d s) :=
  withDesc_reports (fun _ h => h ▸ (by decide)) fun _ => ⟨rfl, fun _ h => h.ge⟩

/-- Behind the slot and the target, a general tag refuses a view of another footprint, and a grid of another footprint
whose reallocation would not fit. -/
theorem planGeneral_reports (tt : Nat) : (planGeneral tt d s).Reports (conditionsGeneral tt d s) := by
  unfold planGeneral withTarget
  refine withDesc_reports (fun n h => ?_) fun hk => ?_
  · exact h.elim (le_of_code (by decide)) (le_of_code (by decide))
  refine .sharedCheck Iff.rfl (fun _ => le_of_code (by decide)) fun _ => ?_
  dsimp only
  by_cases hsame : ((s.desc[d]).w, (s.desc[d]).h) = s.params.ttDim tt
  · rw [if_pos hsame]
    refine onMap_reports fun n hn => ?_
    rcases hn with ⟨-, -, hother⟩ | ⟨-, -, hother, -⟩ <;> exact hother hsame
  · rw [if_neg hsame]
    refine .check (and_iff_left hsame).symm (fun _ => le_of_code (by decide)) fun hview => ?_
    have hgrid : (s.desc[d]).kind = .grid := by
      cases hkind : (s.desc[d]).kind with
      | empty => exact absurd hkind hk
      | grid => rfl
      | view => exact absurd ⟨hkind, hsame⟩ hview
    exact .lastCheck ⟨fun hr => ⟨hgrid, hsame, hr⟩, fun ⟨_, _, hr⟩ => hr⟩ fun _ => onMap_reports (.runs _)

/-- What a command's checks come to is the least of its causes that apply; the invariant is not needed. -/
theorem planOf_reports (i : Instr) : (planOf i s).Reports (applies i s) := by
  cases i with
  | gridNew d => exact planGridNew_reports d s
  | viewNew d => exact planViewNew_reports d s
  | getSample d => exact planGetSample_reports d s
  | setSample d => exact planSetSample_reports d s
  | swap d => exact planSwap_reports d s
  | widenQ d => exact planWidenQ_reports d s
  | free d => exact .runs _
  | dct1d | idct1d => exact plan1d_reports s _
  | dct2d d | idct2d d => exact plan2d_reports d s _
  | itxHornuss d | itxDct2 d | itxDct4 d | itxDct4X8 d | itxDct8X4 d | itxAfv0 d | itxAfv1 d | itxAfv2 d | itxAfv3 d =>
    exact planFixed_reports d s _ _
  | itxUnsupported27 d | itxUnsupported28_31 d tt => exact planUnsupported_reports d s
  | _ d => exact planGeneral_reports d s _

end Plans

/-- Settles O24: a plan reports the least cause that applies, and under the invariant it never leaves the map. -/
theorem lowestNumberedCauseIsReported : Obligations.LowestNumberedCauseIsReported := by
  refine ⟨fun s h => ?_, fun i s hs => ?_⟩
  · obtain ⟨why, hwhy⟩ := decode_of_illegal h
    exact engineStep_of_rejected_word hwhy
  have hreports := planOf_reports s i
  have hsound := hs.plan_sound i
  cases hplan : planOf i s with
  | runs p =>
    rw [hplan] at hreports
    exact ⟨fun c hc _ => absurd hc (hreports c), fun _ => ⟨_, exec_of_runs hplan, rfl, rfl, rfl⟩⟩
  | raises e =>
    rw [hplan] at hreports
    refine ⟨fun c hc hleast => ?_, fun hnone => absurd hreports.1 (hnone _)⟩
    have hc' : IsLeast {n | applies i s n} c := ⟨hc, fun n hn => not_lt.mp fun hlt => hleast n hlt hn⟩
    rw [exec_faulted hplan, hreports.unique hc']
  | offMap a =>
    rw [hplan] at hsound
    exact hsound.elim

/-! ### The codes of each command (60_exceptions.md R221) -/

/-- The cause of a fault applies to the command. -/
theorem applies_of_exec_error {i : Instr} {s t : State} (h : exec i s = .next t) (herr : t.engine = .error) :
    ∃ e : Cause, t.cause = e.code ∧ applies i s e.code.toNat := by
  rcases exec_next_cases h with ⟨p, -, rfl⟩ | ⟨e, hplan, rfl⟩
  · nomatch herr
  · have hreports := planOf_reports s i
    rw [hplan] at hreports
    exact ⟨e, rfl, hreports.1⟩

section Codes
variable {e : Cause} {d : Slot} {s : State} {tt : Nat}

theorem Cause.code_eq {k : Nat} {C : Prop} (h : e.code.toNat = k ∧ C) : e.code = BitVec.ofNat 8 k := by
  rw [← h.1, BitVec.ofNat_toNat, BitVec.setWidth_eq]

/-- The codes that R221 lists for ITX with the tag `tt`. -/
def itxCode (tt : Nat) (c : BitVec 8) : Prop := c = 2 ∨ c = 4 ∨ (c = 3 ∧ 27 ≤ tt) ∨ (c = 8 ∧ tt ∈ generalTags)

theorem itxCode_of_fixed (h : conditionsFixed tt d s e.code.toNat) : itxCode tt e.code :=
  Or.imp Cause.code_eq (fun h4 => .inl (Cause.code_eq h4)) h

theorem itxCode_of_general (ht : tt ∈ generalTags) (h : conditionsGeneral tt d s e.code.toNat) : itxCode tt e.code :=
  Or.imp Cause.code_eq (Or.imp Cause.code_eq fun h8 => .inr ⟨Cause.code_eq h8, ht⟩) h

theorem itxCode_of_unsupported (ht : 27 ≤ tt) (h : conditionsUnsupported d s e.code.toNat) : itxCode tt e.code :=
  Or.imp Cause.code_eq (fun h3 => .inr (.inl ⟨Cause.code_eq ⟨h3, trivial⟩, ht⟩)) h

end Codes

/-- Settles O23: a cause that applies to a command has one of its codes. -/
theorem causeCodesRaisedByEachCommand : Obligations.CauseCodesRaisedByEachCommand := by
  intro i s t hwf h herr
  obtain ⟨e, he, happlies⟩ := applies_of_exec_error h herr
  rw [he]
  cases i with
  | widenQ d => exact Cause.code_eq happlies
  | free d => exact happlies
  | gridNew d | viewNew d | getSample d | setSample d | swap d | dct1d | idct1d | dct2d d | idct2d d =>
    exact Or.imp Cause.code_eq Cause.code_eq happlies
  | itxHornuss d | itxDct2 d | itxDct4 d | itxDct4X8 d | itxDct8X4 d | itxAfv0 d | itxAfv1 d | itxAfv2 d | itxAfv3 d =>
    exact itxCode_of_fixed happlies
  | itxUnsupported27 d => exact itxCode_of_unsupported le_rfl happlies
  | itxUnsupported28_31 d tt => exact itxCode_of_unsupported (Nat.le_of_succ_le (of_decide_eq_true hwf)) happlies
  | _ d => exact itxCode_of_general (by decide) happlies

/-! ### The ERROR state (60_exceptions.md R234, R235) -/

/-- The only host access that changes CAUSE or FCMD is the CTRL write of a soft reset. -/
theorem access_fault_record_cases (s : State) (a : Access) :
    ((s.access a).cause = s.cause ∧ (s.access a).fcmd = s.fcmd) ∨
      ∃ v, Event.host a = hostWrite 0x008 v ∧ v.getLsbD 0 = true := by
  rcases access_cases s a with ⟨r, e⟩ | ⟨off, v, rfl, e⟩ | ⟨i, v, -, e⟩ <;> rw [e]
  · exact .inl ⟨rfl, rfl⟩
  · dsimp only
    rcases writeRegister_cases off v s with ⟨rfl, hv, -⟩ | e | e | ⟨-, e⟩ | ⟨i, e⟩ | e
    · exact .inr ⟨v, rfl, hv⟩
    all_goals rw [e]
    · exact .inl ⟨rfl, rfl⟩
    · exact .inl ⟨rfl, rfl⟩
    · exact .inl ⟨s.submit_cause v, s.submit_fcmd v⟩
    · exact .inl ⟨rfl, rfl⟩
    · exact .inl ⟨rfl, rfl⟩
  · exact .inl ⟨rfl, rfl⟩

/-- In the ERROR state the engine's turn does nothing, and no host access but a soft reset changes the fault record. -/
theorem step_of_error {s t : State} (herr : s.engine = .error) (h : step s = .next t) (hno : ¬ resetNext s) :
    t.engine = .error ∧ t.cause = s.cause ∧ t.fcmd = s.fcmd := by
  rcases step_next_cases h with ⟨bus, hturn⟩ | ⟨rest, hb, -⟩ | ⟨a, rest, hb, rfl⟩
  · rw [engineTurn_not_busy (s := { s with bus := bus }) (by rw [herr]; exact nofun)] at hturn
    obtain rfl := Host.Outcome.next.inj hturn
    exact ⟨herr, rfl, rfl⟩
  · exact absurd (.inl ⟨rest, hb⟩) hno
  have hctrl : ¬ ∃ v, Event.host a = hostWrite 0x008 v ∧ v.getLsbD 0 = true := fun ⟨v, hv, hbit⟩ =>
    hno (.inr ⟨v, rest, hv ▸ hb, hbit⟩)
  refine ⟨?_, (access_fault_record_cases { s with bus := rest } a).resolve_right hctrl⟩
  rcases access_engine_cases { s with bus := rest } a with same | ⟨hidle, -⟩ | ⟨-, hreset⟩
  · exact same.trans herr
  · exact nomatch herr.symm.trans hidle
  · exact absurd hreset hctrl

/-- Settles O25: no other step touches the fault record, and every reset clears it. -/
theorem errorStateIsLeftByResetOnly : Obligations.ErrorStateIsLeftByResetOnly := by
  refine ⟨fun _ _ => step_of_error, fun s _ hreset => ?_⟩
  obtain ⟨t, hstep, hclear⟩ := step_of_resetNext hreset
  refine ⟨t, hstep, ?_⟩
  rw [← hclear]
  exact ⟨rfl, rfl, rfl⟩

/-! ### The interrupt output (60_exceptions.md R236) -/

theorem ctrlWord_enables (s : State) : s.ctrlWord.getLsbD 1 = s.ieDone ∧ s.ctrlWord.getLsbD 2 = s.ieErr := by
  unfold State.ctrlWord
  generalize s.ieDone = done, s.ieErr = err
  revert done err
  decide

theorem statusWord_done (s : State) : s.statusWord.getLsbD 1 = s.done := by
  unfold State.statusWord
  generalize s.busy = busy, s.done = done, s.err = err, s.rej = rej, s.result = result
  revert busy done err rej result
  decide

/-- Settles O16: the four bits are the ones IRQ is a function of. -/
theorem interruptOutputFollowsTheRegisters : Obligations.InterruptOutputFollowsTheRegisters := by
  intro s
  obtain ⟨hieDone, hieErr⟩ := ctrlWord_enables s
  obtain ⟨-, herr, -⟩ := statusWord_bits s
  calc s.irq = ((s.ieDone && s.done) || (s.ieErr && s.err)) := rfl
    _ = ((s.ctrlWord.getLsbD 1 && s.statusWord.getLsbD 1) || (s.ctrlWord.getLsbD 2 && s.statusWord.getLsbD 2)) := by
      rw [hieDone, hieErr, statusWord_done, herr]

/-! ### The bus error (60_exceptions.md R243) -/

theorem wordAligned_of_bad {a : Access} (h : a.bytes ≠ 4 ∨ a.offset % 4 ≠ 0) (p : Params) :
    a.wordAligned p = false := by
  unfold Access.wordAligned
  rcases h with h | h <;> simp [h]

/-- Settles O20: only a well-formed access is held, and one that is not is answered with the error alone. -/
theorem badAccessGetsABusErrorOnly : Obligations.BadAccessGetsABusErrorOnly := by
  intro s a rest hb hin hbad
  have hal := wordAligned_of_bad hbad s.params
  have hheld : s.headHeld = false := by rw [headHeld_host hb, State.holds, hal, Bool.and_false]
  have haccess : State.access { s with bus := rest } a = { s with bus := rest, response := some .busError } :=
    (if_neg (not_le.mpr hin)).trans (if_pos hal)
  rw [step_of_event hb hheld]
  exact congrArg Host.Outcome.next haccess

end Sys2Proof.Machine
end

section
/-! PROOFS. The statements about resets and hazards (70_reset_and_hazards.md): the hard reset, the write set of an abandoned
command, the operand registers while a command runs, and the end of every command. -/

namespace Sys2Proof.Machine

open Claims

/-! ### The hard reset (70_reset_and_hazards.md R250, R253) -/

/-- Settles O26: the state after power-on is clear of everything that both resets clear. -/
theorem hardResetState : Obligations.HardResetState := fun s rest hb =>
  ⟨_, step_hardReset hb, registersReset_clearRegisters (State.hardReset { s with bus := rest }), rfl, rfl, rfl, rfl⟩

/-! ### What a running command reads (20_memory.md R62, 70_reset_and_hazards.md R258) -/

/-- A command reads the build, the descriptors, the latched operands and sample memory, and nothing else. -/
theorem planOf_congr (i : Instr) {s t : State} (hparams : t.params = s.params) (hdesc : t.desc = s.desc)
    (hlarg : t.larg = s.larg) (hsram : t.sram = s.sram) (hpowerOns : t.powerOns = s.powerOns) :
    planOf i t = planOf i s := by
  cases s
  cases t
  dsimp only at hparams hdesc hlarg hsram hpowerOns
  subst hparams hdesc hlarg hsram hpowerOns
  cases i <;> rfl

theorem planOf_withArg (i : Instr) (s : State) (arg : Vector Word 6) : planOf i { s with arg := arg } = planOf i s :=
  planOf_congr i rfl rfl rfl rfl rfl

theorem writeSet_withBus (s : State) (bus : List Event) : State.writeSet { s with bus := bus } = s.writeSet := by
  unfold State.writeSet
  cases decode s.lcmd with
  | instr i => exact congrArg Verdict.writes (planOf_congr i rfl rfl rfl rfl rfl)
  | rejected why => rfl

/-! ### The operand registers (70_reset_and_hazards.md R258) -/

theorem writeRegister_arg (i : Fin 6) (v : Word) (s : State) :
    State.writeRegister (0x020 + 4 * i.val) v s = s.writeArg i v := by
  fin_cases i <;> rfl

theorem readRegister_arg (i : Fin 6) (s : State) : s.readRegister (0x020 + 4 * i.val) = s.arg[i] := by
  fin_cases i <;> rfl

/-- Settles O17: a command's plan reads the latched operands, and carrying it out keeps the operand registers. -/
theorem operandRegistersDoNotReachARunningCommand : Obligations.OperandRegistersDoNotReachARunningCommand := by
  refine ⟨fun s i v rest hb => ⟨_, step_hostWrite (by omega) (by omega) hb, ?_, ?_⟩, fun i s arg => ?_⟩
  · rw [writeRegister_arg]
    rfl
  · rw [writeRegister_arg, readRegister_arg]
    exact Vector.getElem_set_self i.isLt
  · rw [exec_eq_settle, exec_eq_settle, planOf_withArg]
    cases planOf i s <;> rfl

/-! ### The write set of the running command (70_reset_and_hazards.md R252) -/

/-- The engine step writes the words of the write set and completes, or it faults and the write set is empty. -/
theorem engineStep_writeSet_cases {s u : State} (h : engineStep s = .next u) :
    (∃ p : Plan, s.writeSet = p.writes ∧ u = (s.applyPlan p).complete) ∨ ∃ c, s.writeSet = [] ∧ u = s.faultEntry c := by
  unfold State.writeSet
  cases hd : decode s.lcmd with
  | rejected why =>
    rw [engineStep_of_rejected hd] at h
    exact .inr ⟨_, rfl, (Host.Outcome.next.inj h).symm⟩
  | instr i =>
    rw [engineStep_of_instr hd] at h
    rcases exec_next_cases h with ⟨p, hp, hu⟩ | ⟨c, hc, hu⟩
    · exact .inl ⟨p, congrArg Verdict.writes hp, hu⟩
    · exact .inr ⟨c, congrArg Verdict.writes hc, hu⟩

theorem engineStep_sramByte_outside {s u : State} (h : engineStep s = .next u) {a : Nat}
    (ha : ∀ r ∈ s.writeSet, ¬ inWords r.1 r.2.length a) : u.sramByte a = s.sramByte a := by
  rcases engineStep_writeSet_cases h with ⟨p, hp, rfl⟩ | ⟨c, -, rfl⟩
  · exact Memory.byteFrom_putRuns_outside s.powerOns s.sram p.writes a (hp ▸ ha)
  · rfl

theorem byteFrom_foldl_putBytes_outside {f : Run → List Byte} (hf : ∀ r, (f r).length = 4 * r.2.length) (n : Nat)
    {rs : List Run} {a : Nat} (ha : ∀ r ∈ rs, ¬ inWords r.1 r.2.length a) (m : Memory) :
    Memory.byteFrom n (rs.foldl (fun m r => m.putBytes (4 * r.1) (f r)) m) a = m.byteFrom n a := by
  induction rs generalizing m with
  | nil => rfl
  | cons r rs ih =>
    have hout : a < 4 * r.1 ∨ 4 * r.1 + (f r).length ≤ a := by
      have hr := ha r List.mem_cons_self
      unfold inWords at hr
      rw [hf]
      omega
    exact (ih (fun r' hr' => ha r' (List.mem_cons_of_mem _ hr')) _).trans
      (Memory.byteFrom_putBytes_outside n m _ _ a hout)

theorem abandon_sramByte_outside {s : State} {a : Nat} (ha : ∀ r ∈ s.writeSet, ¬ inWords r.1 r.2.length a) :
    s.abandon.sramByte a = s.sramByte a := by
  unfold State.abandon
  split
  · exact byteFrom_foldl_putBytes_outside s.abandonedBytes_length s.powerOns ha s.sram
  · rfl

/-- Settles O28: the reset opens the runs of the write set and the command writes them, neither anything else; a command
that faults carries out no plan. -/
theorem abandonedCommandTouchesItsWriteSetOnly : Obligations.AbandonedCommandTouchesItsWriteSetOnly := by
  refine fun s _ => ⟨fun v rest hv hb => ?_, fun u h herr => ?_, fun u h a ha => engineStep_sramByte_outside h ha⟩
  · refine ⟨_, step_hostWrite (by decide) (by decide) hb, fun a ha => ?_⟩
    rw [writeRegister_ctrl_reset hv]
    exact abandon_sramByte_outside (s := { s with bus := rest }) (by rwa [writeSet_withBus])
  · rcases engineStep_writeSet_cases h with ⟨p, -, rfl⟩ | ⟨c, hempty, -⟩
    · nomatch herr
    · exact hempty

/-! ### Every command ends (70_reset_and_hazards.md R265) -/

theorem access_bus (s : State) (a : Access) : (s.access a).bus = s.bus := by
  rcases access_cases s a with ⟨r, e⟩ | ⟨off, v, -, e⟩ | ⟨i, v, -, e⟩ <;> rw [e]
  · exact writeRegister_bus off v s
  · rfl

/-- A step of a BUSY engine ends its command or takes an event from the queue. -/
theorem step_busy_progress {s t : State} (hbusy : s.engine = .busy) (h : step s = .next t) :
    t.engine ≠ .busy ∨ t.bus.length < s.bus.length := by
  rcases step_next_cases h with ⟨bus, hturn⟩ | ⟨rest, -, rfl⟩ | ⟨a, rest, hb, rfl⟩
  · exact .inl (engineTurn_busy_ends (s := { s with bus := bus }) hbusy hturn).1
  · exact .inl nofun
  · rw [access_bus, hb]
    exact .inr (Nat.lt_succ_self _)

theorem run_succ_of_step {M : Host.Core} {s t : M.State} (h : M.step s = .next t) (k : Nat) :
    M.run (k + 1) s = M.run k t := by
  rw [Host.Core.run, h]

/-- Settles O29: by induction on the length of the queue, which each step that leaves the engine BUSY shortens. -/
theorem everyAcceptedCommandEnds : Obligations.EveryAcceptedCommandEnds := by
  intro s hinv hbusy
  induction hn : s.bus.length using Nat.strongRecOn generalizing s with
  | _ n ih =>
    obtain ⟨t, hstep, hinv'⟩ := hinv.step_next
    by_cases hbusy' : t.engine = .busy
    · have hlt := (step_busy_progress hbusy hstep).resolve_left (not_not_intro hbusy')
      obtain ⟨k, hk, u, hrun, hend⟩ := ih t.bus.length (hn ▸ hlt) t hinv' hbusy' rfl
      exact ⟨k + 1, by omega, u, (run_succ_of_step (M := Sys2Proof.core) hstep k).trans hrun, hend⟩
    · exact ⟨1, by omega, t, run_succ_of_step (M := Sys2Proof.core) hstep 0, hbusy'⟩

end Sys2Proof.Machine
end

section
/-! PROOFS. The worked command words of 95_test_vectors.md section 2.1. -/

namespace Sys2Proof.Machine

/-- A word decodes as a well-formed command when it is the command's word. -/
theorem decode_of_encode_eq {w : Word} {i : Instr} (hw : encode i = w) (hwf : i.wellFormed = true) :
    decode w = .instr i := hw ▸ decodeOfEncodeIsTheCommand i hwf

/-- Settles O8: the nine legal words are the encoder's words of their commands, and each of the other three has the
fault of R222 that it is rejected by. -/
theorem sampleWordsDecodeAsTabled : Obligations.SampleWordsDecodeAsTabled := by
  have hinv : decode 0x0000004A#32 = .rejected .unusedField :=
    (decode_itx rfl rfl).trans (if_pos (by decide))
  have hreserved : decode 0x00000081#32 = .rejected .reservedBit := decode_reserved rfl
  have hopc : decode 0x0000003F#32 = .rejected .unassignedOpcode := decode_unassigned rfl (.inr (by decide))
  exact ⟨decode_of_encode_eq rfl rfl, decode_of_encode_eq rfl rfl, decode_of_encode_eq rfl rfl,
    decode_of_encode_eq rfl rfl, decode_of_encode_eq rfl rfl, decode_of_encode_eq rfl rfl,
    decode_of_encode_eq rfl rfl, decode_of_encode_eq rfl rfl, decode_of_encode_eq rfl rfl, hinv, hreserved, hopc⟩

end Sys2Proof.Machine
end
